-- ==== Sys2Proof/Word.lean ====
section
/-! DEFINITION. The words of the GS-816: bytes, addresses, link data words, and the numbers that
name its windows, slots, requesters, tags and entries. -/

namespace Sys2Proof

/-- One byte of a management frame or of a line. -/
abbrev Byte := BitVec 8

/-- A link address: a 32-bit byte address (00, Conventions). -/
abbrev Addr := BitVec 32

/-- A two-byte field of the management port. -/
abbrev Half := BitVec 16

/-- The data word of one beat: byte `k` in bits 8k+7 to 8k (section 11.1). -/
abbrev Word := BitVec 64

/-- W0 to W7. -/
abbrev WindowId := Fin 8

/-- Fill slots 0 to 3. -/
abbrev SlotId := Fin 4

/-- The requester field of the link, 0-15. -/
abbrev Requester := Fin 16

/-- The H-port tag of a request, 0-7. -/
abbrev Tag := Fin 8

/-- Entries 0-31 of the in-flight table; the number is also the M-port tag (R126). -/
abbrev EntryId := Fin 32

/-- M-port request tags: 0-31 for tracker entries, 32-35 for fill slots (R56, R126). -/
abbrev MTag := Fin 36

/-- A line of 64 bytes as eight data words: byte 8j+k of the line is byte k of word j (R59, R61). -/
abbrev Line := Vector Word 8

end Sys2Proof
end

