-- ==== Sys2Proof/Syntax.lean ====
section
/-! DEFINITION. The commands of the GS-816: one constructor of `Instr` per row of
opcode_table.json, with the link items, frames and levels that they carry. -/

namespace Sys2Proof

/-- One beat of a WRITE: a data word and its byte mask; mask bit `k` enables byte `k` (R122). -/
structure Beat where
  data : Word
  mask : BitVec 8
  deriving DecidableEq, Repr

/-- The kind of a link request with what it carries: a READ its beats field, a WRITE one beat
transfer for each beat (R122, R154). -/
inductive Access where
  | read  (beats : Fin 16)
  | write (data : List Beat)
  deriving DecidableEq, Repr

/-- A request on the H-port request channel (R122). -/
structure HRequest where
  requester : Requester
  tag       : Tag
  address   : Addr
  access    : Access
  deriving DecidableEq, Repr

/-- Where a part of a frame stops: CS goes high after it, CS stays low after it, CS has only just gone
low, or CS goes high before the command byte is complete (R144). -/
inductive FrameStop where
  | csRises
  | csLow
  | csFell
  | csRisesEarly
  deriving DecidableEq, Repr

/-- What software does to the port in one command (R144, R147): the complete bytes it clocks in after
the command byte, the SCK edges beyond the last complete byte (taken modulo 8), and where that stops.
On an idle port the command begins a frame: CS goes low and the command byte is clocked in. In a frame
it goes on with it. With the default stop it is a whole frame, or the rest of one. A frame that ends before its
command byte is complete carries no command: any row stands for it, and the SCK edges are those of the
command byte. Other events may come between the parts of a frame, which are cut at whole bytes (DEDUCED,
log entry 5). -/
structure Frame where
  args  : List Byte
  extra : Nat := 0
  till  : FrameStop := .csRises
  deriving DecidableEq, Repr

/-- The two hold lines (R96). -/
inductive HoldLine where
  | hold0
  | hold1
  deriving DecidableEq, Repr

/-- The four sampled input lines (R139). -/
inductive InputLine where
  | sync
  | pubreq
  | hold0
  | hold1
  deriving DecidableEq, Repr

/-- The input line that a hold line is. -/
def HoldLine.input : HoldLine → InputLine
  | .hold0 => .hold0
  | .hold1 => .hold1

/-- A line sampled at a level, `true` for high (R139). -/
structure LineSample where
  line  : InputLine
  level : Bool
  deriving DecidableEq, Repr

/-- The levels of the four sampled input lines, `true` for high (R139). -/
structure LineLevels where
  sync   : Bool
  pubreq : Bool
  hold0  : Bool
  hold1  : Bool
  deriving DecidableEq, Repr

/-- What can act inside one event in an order that the spec leaves open: a window (R73, R138, R140), a
fill slot leaving WAITING (R60), the steering unit taking the head request (R57, R117), the COMMITTED
pulse taking a tick (R138), an edge of an input line reaching a window (R75, R80, R96, R139). -/
inductive Agent where
  | window (w : WindowId)
  | slot (n : SlotId)
  | steering
  | pulse
  | edge (line : InputLine) (w : WindowId)
  deriving DecidableEq, Repr

/-- DESIGN CHOICE (log entry 4). The order in which one event takes what the spec leaves unordered:
those named come first, in the order named; the others follow in ascending order. -/
abbrev Order := List Agent

/-- What goes with the sample of a hold line: the other lines sampled with it, and the order in which the
edges reach the windows (R139). -/
structure SampledWith where
  others : List LineSample := []
  order  : Order := []
  deriving DecidableEq, Repr

/-- SYNC or PUBREQ sampled at a level, `true` for high, with what goes with the sample (R139). -/
structure LevelSampled extends SampledWith where
  level : Bool := true
  deriving DecidableEq, Repr

/-- The commands of the block, one constructor per row of opcode_table.json. The rows of the lines carry
the level at which their line is sampled, and the other lines sampled with it (R139); a falling edge of
SYNC or PUBREQ is the row of that line with its level low (DESIGN CHOICE, log entry 21). -/
inductive Instr where
  | requestAccepted (req : HRequest)
  | responseAccepted
  | memorySideAccept
  | trackerResponse (tag : EntryId) (status : BitVec 2) (data : List Word) (order : Order)
  | strayResponseDiscarded (tag : Fin 64) (status : BitVec 2) (data : List Word)
  | fillReadDone (slot : SlotId) (data : Line)
  | fillWriteStart (slot : SlotId)
  | fillCompletes (slot : SlotId) (order : Order)
  | fillOperationRetry (slot : SlotId)
  | fillFails (slot : SlotId) (status : BitVec 2) (order : Order)
  | flattenCopyReadDone (slot : SlotId) (data : Line)
  | flattenCopyDone (slot : SlotId) (order : Order)
  | flattenCopyFailed (slot : SlotId) (status : BitVec 2) (order : Order)
  | retiringSlotFreed (slot : SlotId) (status : BitVec 2) (order : Order)
  | flattenDrainComplete (w : WindowId) (order : Order)
  | flattenRequestServed (w : WindowId)
  | flip (w : WindowId)
  | clear (w : WindowId)
  | drainTimerExpiry (w : WindowId)
  | tick (order : Order)
  | committedPulseEnd
  | boundary (sample : LevelSampled)
  | pubreqEdge (sample : LevelSampled)
  | holdLineEdge (line : HoldLine) (level : Bool) (sample : SampledWith)
  | resetAsserted
  | resetReleased (levels : LineLevels) (csLow : Bool)
  | readStatus (frame : Frame)
  | readWindow (frame : Frame)
  | readRoles (frame : Frame)
  | readLine (frame : Frame)
  | readNotice (frame : Frame)
  | writeGeometry (frame : Frame)
  | writePolicy (frame : Frame)
  | writeRoles (frame : Frame)
  | writeDeviceSettings (frame : Frame) (order : Order)
  | load (frame : Frame)
  | arm (frame : Frame)
  | publish (frame : Frame) (order : Order)
  | unpublish (frame : Frame)
  | discard (frame : Frame)
  | retire (frame : Frame) (order : Order)
  | drop (frame : Frame) (order : Order)
  | setHold (frame : Frame)
  | clearHold (frame : Frame)
  | forceFallback (frame : Frame)
  | restart (frame : Frame) (order : Order)
  | badCommand (command : Byte) (frame : Frame)
  deriving DecidableEq, Repr

end Sys2Proof
end

