-- ==== Sys2Proof/Decode.lean ====
section
/-! DEFINITION. The words of opcode_table.json, and the command bytes of the management port.
The table gives no row any bits (its "fields" are empty and no row has "fixed"), so no word spells
a command. -/

namespace Sys2Proof

/-- The command that a word of the table spells: none, since no row gives bits. -/
def decodeTableWord (_nbits _w : Nat) : Option Instr := none

/-- The twenty commands that a command byte can name (section 11.2). -/
inductive CommandName where
  | readStatus | readWindow | readRoles | readLine | readNotice
  | writeGeometry | writePolicy | writeRoles | writeDeviceSettings | restart
  | load | arm | publish | unpublish | discard | retire | drop
  | setHold | clearHold | forceFallback
  deriving DecidableEq, Repr

/-- The command table of section 11.2: the command a command byte names, if any (R147, R155). -/
def commandOfByte (b : Byte) : Option CommandName :=
  if b = 0x01 then some .readStatus
  else if b = 0x02 then some .readWindow
  else if b = 0x03 then some .readRoles
  else if b = 0x04 then some .readLine
  else if b = 0x05 then some .readNotice
  else if b = 0x10 then some .writeGeometry
  else if b = 0x11 then some .writePolicy
  else if b = 0x12 then some .writeRoles
  else if b = 0x13 then some .writeDeviceSettings
  else if b = 0x5A then some .restart
  else if b = 0x20 then some .load
  else if b = 0x21 then some .arm
  else if b = 0x22 then some .publish
  else if b = 0x23 then some .unpublish
  else if b = 0x24 then some .discard
  else if b = 0x25 then some .retire
  else if b = 0x26 then some .drop
  else if b = 0x30 then some .setHold
  else if b = 0x31 then some .clearHold
  else if b = 0x32 then some .forceFallback
  else none

end Sys2Proof
end

