-- ==== Sys2Proof/Config.lean ====
section
/-! DEFINITION. The sizes and fixed numbers of the GS-816 that the spec gives as constants.
The spec leaves no value open, so there is no free value here. -/

namespace Sys2Proof.Config

/-- Places of the H-port response queue (R125). -/
def responsePlaces : Nat := 48

/-- Records the notice queue holds at most (R135). -/
def noticeCapacity : Nat := 16

/-- Entries of the line map store (R36). -/
def lineEntries : Nat := 8192

/-- Bytes in a line (00, Conventions). -/
def lineBytes : Nat := 64

/-- Attempts an operation of a fill slot is given at most (R64). -/
def maxAttempts : Nat := 4

/-- Ticks a COMMITTED pulse request sets (R142). -/
def pulseTicks : Nat := 2

/-- The tick divisor after RESET_N or RESTART (R138). -/
def resetTickDivisor : Byte := 50

/-- The device code that READ STATUS reports (section 11.2). -/
def deviceCode : Byte := 0x6B

end Sys2Proof.Config
end

