-- ==== Sys2Proof/Machine/State.lean ====
section
/-! DEFINITION. The state of the GS-816 as plain data: the window table, the role matrix, the line
map store, the fill slots, the in-flight table, the ports, the notice queue, the management port,
the device settings and the lines, the reset content of each, and the reasons a command could stop. -/

namespace Sys2Proof.Machine

/-- Why a command faults. The spec names no fault that stops the part (its errors are answers,
notices and result codes), so no command raises one and the type has no constructor: safe. -/
inductive Fault where
  deriving DecidableEq, Repr

/-- Why a command is refused by the model. -/
inductive Refusal where
  /-- Raised by an arm of `exec` whose command has no meaning yet. Safe: the run stops there.
  No arm of this model raises it. -/
  | notModelled (mnemonic : String)
  deriving DecidableEq, Repr

/-! ### The window record (R1, R3, R6) -/

/-- The two physical banks behind an apparent range. -/
inductive Bank where
  | a
  | b
  deriving DecidableEq, Repr

/-- The geometry fields of a window (R1). -/
structure Geometry where
  apparentBase : Addr
  lineCount    : Half
  mapOffset    : Half
  bankA        : Addr
  bankB        : Addr
  fallback     : Option Addr
  deriving DecidableEq, Repr

/-- When a commit begins (R3). -/
inductive CommitMode where
  | boundary
  | prompt
  deriving DecidableEq, Repr

/-- How a hold ends (R3). -/
inductive HoldPolicy where
  | latched
  | perBoundary
  deriving DecidableEq, Repr

/-- The hold sources a window counts, beside its manual hold (R3, R96). -/
structure HoldSources where
  hold0      : Bool
  hold1      : Bool
  violation  : Bool
  fillFailed : Bool
  deriving DecidableEq, Repr

/-- The policy fields of a window (R3). -/
structure Policy where
  commitMode    : CommitMode
  divider       : Nat
  drainLimit    : Half
  holdPolicy    : HoldPolicy
  sources       : HoldSources
  redirect      : Bool
  pubreqEnable  : Bool
  commitNotices : Bool
  commitOutput  : Bool
  deriving DecidableEq, Repr

/-- The life-cycle states of a window (R6). -/
inductive WindowState where
  | off
  | loading
  | live
  | settling
  | flattening
  deriving DecidableEq, Repr

/-- The kinds of settle (R6). -/
inductive SettleKind where
  | commit
  | discard
  deriving DecidableEq, Repr

/-- The hold status of a window (R6, R95). -/
inductive HoldStatus where
  | clear
  | active
  | releasing
  deriving DecidableEq, Repr

/-- One record of the window table. The fields follow R1, R3 and R6; `parity` and the parities of
the read counts are `false` for 0 and `true` for 1; `drainTimer` is `none` while stopped;
`copyRequest` is the slot request that the flatten logic keeps (R57, R117). -/
structure Window where
  geometry       : Geometry
  policy         : Policy
  state          : WindowState
  settleKind     : Option SettleKind
  armed          : Bool
  generation     : Half
  dividerCount   : Nat
  pendingCount   : Nat
  parity         : Bool
  reads0         : Nat
  reads1         : Nat
  fills          : Nat
  producerWrites : Nat
  requests       : Nat
  holdStatus     : HoldStatus
  holdAck        : Bool
  eventSince     : Bool
  manualHold     : Bool
  forcedFallback : Bool
  drainTimer     : Option Half
  cursor         : Option Nat
  copyRequest    : Bool
  deriving DecidableEq, Repr

/-- The geometry after RESET_N (R1). -/
def Geometry.reset : Geometry :=
  { apparentBase := 0, lineCount := 16, mapOffset := 0, bankA := 0, bankB := 0, fallback := none }

/-- The policy after RESET_N (R3). -/
def Policy.reset : Policy :=
  { commitMode := .boundary, divider := 1, drainLimit := 0, holdPolicy := .latched
    sources := { hold0 := false, hold1 := false, violation := false, fillFailed := false }
    redirect := false, pubreqEnable := false, commitNotices := false, commitOutput := false }

/-- A window record after RESET_N (R1, R3, R6, R18). -/
def Window.reset : Window :=
  { geometry := Geometry.reset, policy := Policy.reset
    state := .off, settleKind := none, armed := false, generation := 0
    dividerCount := 0, pendingCount := 0, parity := false, reads0 := 0, reads1 := 0
    fills := 0, producerWrites := 0, requests := 0
    holdStatus := .clear, holdAck := false, eventSince := false
    manualHold := false, forcedFallback := false
    drainTimer := none, cursor := none, copyRequest := false }

/-! ### The role matrix (R20) -/

/-- What a requester may do in a window (R20). -/
inductive Role where
  | none
  | consumer
  | producer
  | maintenance
  deriving DecidableEq, Repr

/-! ### The line map store (R36) -/

/-- A line entry (R36). -/
structure LineEntry where
  published : Bank
  pending   : Bool
  filling   : Bool
  deriving DecidableEq, Repr

/-- What every entry reads as after RESET_N, LOAD and DROP: published A, not pending, not filling
(R13, R15, R36). It is also what an unlisted entry of the store reads as. -/
def LineEntry.reset : LineEntry := { published := .a, pending := false, filling := false }

/-- The line map store: the entries that differ from the reset entry, their numbers strictly rising. -/
structure LineMap where
  cells : List (Nat × LineEntry)
  deriving DecidableEq, Repr

/-! ### The fill slots (R55, R56) -/

/-- The states of a slot that is in use; a FREE slot is `none` in the table of slots (R55, R56;
DESIGN CHOICE, log entry 15). -/
inductive SlotPhase where
  | reading
  | waiting
  | writing
  | retiring
  deriving DecidableEq, Repr

/-- The kinds of fill slot work (R55). -/
inductive SlotKind where
  | firstWrite
  | fullLine
  | flattenCopy
  deriving DecidableEq, Repr

/-- The producer write that a slot holds (R55). -/
structure HeldWrite where
  requester : Requester
  tag       : Tag
  address   : Addr
  beats     : List Beat
  deriving DecidableEq, Repr

/-- The record of a slot that is in use (R55). -/
structure SlotWork where
  phase    : SlotPhase
  kind     : SlotKind
  window   : WindowId
  line     : Nat
  source   : Bank
  target   : Bank
  held     : Option HeldWrite
  buffer   : Option Line
  attempt  : Nat
  orphaned : Bool
  deriving DecidableEq, Repr

/-! ### The ports (R19, R122 to R127) -/

/-- The statuses of a response (R122). -/
inductive Status where
  | okay
  | error
  | retry
  deriving DecidableEq, Repr

/-- READ or WRITE (R122). -/
inductive Kind where
  | read
  | write
  deriving DecidableEq, Repr

/-- The classes a tracker entry can carry (R126). -/
inductive TrackerClass where
  | loadingAccess
  | publishedRead
  | producerRead
  | producerWrite
  | rawMaintenance
  | passThrough
  deriving DecidableEq, Repr

/-- An occupied entry of the in-flight table, with the fields of R126 and the address as the H-port
accepted it, which R19 carries into the entry (log entry 26). -/
structure InFlight where
  requester : Requester
  tag       : Tag
  address   : Addr
  kind      : Kind
  beats     : Nat
  cls       : TrackerClass
  window    : Option WindowId
  parity    : Option Bool
  deriving DecidableEq, Repr

/-- A response waiting on the H-port; `duplicate` marks the answer of a request whose pair belonged
to an earlier request (R26, R125). -/
structure HResponse where
  requester : Requester
  tag       : Tag
  status    : Status
  data      : List Word
  duplicate : Bool
  deriving DecidableEq, Repr

/-- The H-port: the requests presented and not yet accepted (R122, R124), the outstanding set (R19),
the response queue and its held places (R125). -/
structure HPort where
  channel     : List HRequest
  outstanding : Vector (Vector Bool 8) 16
  responses   : List HResponse
  placesHeld  : Nat
  deriving DecidableEq, Repr

/-- An operation of the M-port issue queue (R122, R127). -/
structure MOp where
  tag     : MTag
  address : Addr
  access  : Access
  deriving DecidableEq, Repr

/-! ### Notices (R135) -/

/-- Codes of COMMIT_CANCELLED (R91, R92). -/
inductive CancelCode where
  | hold
  | timeout
  deriving DecidableEq, Repr

/-- Sources that make a hold ACTIVE, the codes of HOLD_ACTIVE (R107). -/
inductive HoldSource where
  | hold0
  | hold1
  | manual
  | violation
  | fillFailed
  deriving DecidableEq, Repr

/-- Codes of VIOLATION (R34). -/
inductive ViolationCode where
  | noRole
  | consumerWrite
  | shadowAccess
  deriving DecidableEq, Repr

/-- Codes of MALFORMED (R25). -/
inductive MalformedCode where
  | align
  | length
  | span
  | tagReuse
  deriving DecidableEq, Repr

/-- Codes of FILL_FAILED (R65). -/
inductive FillCode where
  | readError
  | writeError
  | retryExhausted
  deriving DecidableEq, Repr

/-- A notice record: its kind with the fields that section 9.1 gives the kind. -/
inductive Notice where
  | commitDone (w : WindowId) (generation : Half) (count : Nat)
  | commitCancelled (w : WindowId) (generation : Half) (code : CancelCode)
  | commitLate (w : WindowId) (generation : Half)
  | discardDone (w : WindowId) (count : Nat)
  | discardCancelled (w : WindowId)
  | holdActive (w : WindowId) (code : HoldSource)
  | holdReleased (w : WindowId)
  | violation (w : WindowId) (requester : Requester) (address : Addr) (code : ViolationCode)
  | malformed (requester : Requester) (address : Addr) (code : MalformedCode)
  | fillFailed (w : WindowId) (requester : Requester) (address : Addr) (code : FillCode)
  | flattenDone (w : WindowId)
  | flattenFailed (w : WindowId) (count : Nat)
  deriving DecidableEq, Repr

/-- The notice queue, oldest first, and its overflow flag (R135). -/
structure NoticeQueue where
  records  : List Notice
  overflow : Bool
  deriving DecidableEq, Repr

/-! ### The management port (R144, R148) -/

/-- The result codes (R148). -/
inductive ResultCode where
  | done
  | badCommand
  | badLength
  | refusedState
  | refusedRange
  | refusedOverlap
  | refusedMap
  | refusedBusy
  deriving DecidableEq, Repr

/-- The frame state (R144); `bits` are the SCK edges since CS went low; `waitCsHigh` is the wait after a
release of RESET_N with CS low. -/
inductive FrameState where
  | idle
  | inFrame (bits : Nat)
  | waitCsHigh
  deriving DecidableEq, Repr

/-- The response content that the port has taken in a frame (R22, R40, R149 to R151): nothing yet,
the bytes of a response, the eight window records of READ WINDOW, the record in the slot of READ NOTICE
(`none` for an empty slot), or none because the arguments were refused. -/
inductive Taken where
  | nothing
  | response (l : List Byte)
  | records (v : Vector Window 8)
  | slot (n : Option Notice)
  | refused
  deriving DecidableEq, Repr

/-- What SDO carried in a frame: the complete bytes from the status byte on, and the bits, most
significant first, of a byte that the frame cut short (R144, R145, R146). -/
structure ShiftOut where
  bytes : List Byte
  tail  : List Bool
  deriving DecidableEq, Repr

/-- The management port (section 10). `command` is the command byte decoded, `none` where it names no
command or is not complete; `status` is the status byte's content, taken when CS went low (R145);
`taken` is the response content; `sdo` is what the last frame, or the one in progress, has shifted
out. -/
structure MgmtPort where
  frameState : FrameState
  command    : Option CommandName
  status     : Byte
  taken      : Taken
  argBuffer  : List Byte
  lastResult : ResultCode
  sdo        : ShiftOut
  deriving DecidableEq, Repr

/-! ### The device settings and the lines (R138 to R143) -/

/-- The active level of a hold line (R138, R140). -/
inductive Polarity where
  | activeHigh
  | activeLow
  deriving DecidableEq, Repr

/-- The device settings (R138). -/
structure Settings where
  hold0Polarity : Polarity
  hold1Polarity : Polarity
  noticeEnable  : Bool
  tickDivisor   : Byte
  deriving DecidableEq, Repr

/-- The device settings after RESET_N or RESTART (R138). -/
def Settings.reset : Settings :=
  { hold0Polarity := .activeHigh, hold1Polarity := .activeHigh, noticeEnable := true
    tickDivisor := Config.resetTickDivisor }

/-- The line interface: the sampled levels (R139), the REFCLK edge count (R138) and the remaining
ticks of the COMMITTED pulse (R142). -/
structure LineInterface where
  levels    : LineLevels
  edgeCount : Nat
  pulse     : Nat
  deriving DecidableEq, Repr

/-! ### The whole state -/

/-- The state of the GS-816, and the queue of the commands that wait. -/
structure State where
  windows    : Vector Window 8
  roles      : Vector (Vector Role 8) 16
  lineMap    : LineMap
  slots      : Vector (Option SlotWork) 4
  table      : Vector (Option InFlight) 32
  hport      : HPort
  issueQueue : List MOp
  notices    : NoticeQueue
  mgmt       : MgmtPort
  settings   : Settings
  lines      : LineInterface
  inReset    : Bool
  pending    : List Instr
  deriving DecidableEq, Repr

/-- An H-port with no request presented and nothing outstanding (R19, R133). -/
def HPort.reset : HPort :=
  { channel := [], outstanding := Vector.replicate 16 (Vector.replicate 8 false)
    responses := [], placesHeld := 0 }

/-- The management port after RESET_N (R144, R148); what it holds outside a frame beside its result, the
argument buffer, the contents taken and the record of SDO, is DESIGN CHOICE (log entries 8 and 9). -/
def MgmtPort.reset : MgmtPort :=
  { frameState := .idle, command := none, status := 0, taken := .nothing, argBuffer := []
    lastResult := .done, sdo := { bytes := [], tail := [] } }

/-- DESIGN CHOICE (log entry 1): all four input lines low at the release that `State.reset` follows. -/
def LineInterface.reset : LineInterface :=
  { levels := { sync := false, pubreq := false, hold0 := false, hold1 := false }
    edgeCount := 0, pulse := 0 }

/-- The role matrix after RESET_N or RESTART: every cell NONE (R20). -/
def rolesReset : Vector (Vector Role 8) 16 := Vector.replicate 16 (Vector.replicate 8 .none)

/-- The machine right after the release of RESET_N (R18, R36, R55, R133, R143; DEDUCED, log entry 12). -/
def State.reset : State :=
  { windows := Vector.replicate 8 Window.reset
    roles := rolesReset
    lineMap := { cells := [] }
    slots := Vector.replicate 4 none
    table := Vector.replicate 32 none
    hport := HPort.reset
    issueQueue := []
    notices := { records := [], overflow := false }
    mgmt := MgmtPort.reset
    settings := Settings.reset
    lines := LineInterface.reset
    inReset := false
    pending := [] }

/-- The three outcomes of a command. -/
abbrev Answer := Host.Outcome State Fault Refusal

end Sys2Proof.Machine
end

