-- ==== Sys2Proof/Machine/Ops.lean ====
section
/-! DEFINITION. The named operations over the state: one accessor and one update for each part of
it, the line map store, the queues, the window counts, the free slot and entry, and the order in
which an event takes what the spec leaves unordered. -/

namespace Sys2Proof.Machine

/-! ### Orders (log entry 4) -/

/-- The list without later repeats of an element. -/
def firstMentions {α : Type} [DecidableEq α] : List α → List α
  | [] => []
  | a :: l => a :: (firstMentions l).filter (fun b => b ≠ a)

/-- `all`, with the elements that `named` mentions moved to the front in the order of their mention. -/
def arrange {α : Type} [DecidableEq α] (named all : List α) : List α :=
  firstMentions ((named.filter fun a => a ∈ all) ++ all)

/-- W0 to W7. -/
def allWindows : List WindowId := [0, 1, 2, 3, 4, 5, 6, 7]

/-- Slots 0 to 3. -/
def allSlots : List SlotId := [0, 1, 2, 3]

/-- The windows and the COMMITTED pulse: what a tick reaches (R138). -/
def tickAgents : List Agent := allWindows.map Agent.window ++ [.pulse]

/-- The window an agent is, if it is one. -/
def Agent.asWindow : Agent → Option WindowId
  | .window w => some w
  | _ => none

/-- The edge and the window it reaches, if the agent is that. -/
def Agent.asEdge : Agent → Option (InputLine × WindowId)
  | .edge l w => some (l, w)
  | _ => none

/-- The slot an agent is, if it is one. -/
def Agent.asSlot : Agent → Option SlotId
  | .slot n => some n
  | _ => none

/-- The eight windows in the order a command gives. -/
def windowsIn (o : Order) : List WindowId := arrange (o.filterMap Agent.asWindow) allWindows

/-- The four slots in the order a command gives. -/
def slotsIn (o : Order) : List SlotId := arrange (o.filterMap Agent.asSlot) allSlots

/-- The edges of the lines at each window, in the order a command gives; those it does not name follow
line by line, each in ascending window number. -/
def edgesIn (o : Order) (lines : List InputLine) : List (InputLine × WindowId) :=
  arrange (o.filterMap Agent.asEdge) (lines.flatMap fun l => allWindows.map fun w => (l, w))

/-- What a tick reaches, in the order a command gives. -/
def tickAgentsIn (o : Order) : List Agent := arrange o tickAgents

/-! ### Parts of the state -/

/-- The record of window `w`. -/
def State.win (s : State) (w : WindowId) : Window := s.windows[w.val]

/-- Replaces the record of window `w` by `f` of it. -/
def State.modWin (s : State) (w : WindowId) (f : Window → Window) : State :=
  { s with windows := s.windows.set w.val (f s.windows[w.val]) }

/-- The role of requester `r` in window `w` (R20). -/
def State.role (s : State) (r : Requester) (w : WindowId) : Role := (s.roles[r.val])[w.val]

/-- Replaces the role matrix. -/
def State.setRoles (s : State) (m : Vector (Vector Role 8) 16) : State := { s with roles := m }

/-- The work of slot `n`, `none` while it is FREE (R55). -/
def State.slot (s : State) (n : SlotId) : Option SlotWork := s.slots[n.val]

/-- Replaces the work of slot `n`. -/
def State.setSlot (s : State) (n : SlotId) (k : Option SlotWork) : State :=
  { s with slots := s.slots.set n.val k }

/-- Entry `i` of the in-flight table, `none` while it is free (R126). -/
def State.entry (s : State) (i : EntryId) : Option InFlight := s.table[i.val]

/-- Replaces entry `i` of the in-flight table. -/
def State.setEntry (s : State) (i : EntryId) (e : Option InFlight) : State :=
  { s with table := s.table.set i.val e }

/-- Replaces the line map store. -/
def State.setLineMap (s : State) (m : LineMap) : State := { s with lineMap := m }

/-- Replaces the H-port by `f` of it. -/
def State.modHPort (s : State) (f : HPort → HPort) : State := { s with hport := f s.hport }

/-- Replaces the issue queue of the M-port. -/
def State.setIssueQueue (s : State) (q : List MOp) : State := { s with issueQueue := q }

/-- Replaces the notice queue by `f` of it. -/
def State.modNotices (s : State) (f : NoticeQueue → NoticeQueue) : State :=
  { s with notices := f s.notices }

/-- Replaces the management port by `f` of it. -/
def State.modMgmt (s : State) (f : MgmtPort → MgmtPort) : State := { s with mgmt := f s.mgmt }

/-- Replaces the device settings. -/
def State.setSettings (s : State) (c : Settings) : State := { s with settings := c }

/-- Replaces the line interface by `f` of it. -/
def State.modLines (s : State) (f : LineInterface → LineInterface) : State :=
  { s with lines := f s.lines }

/-- While RESET_N is asserted every block holds its reset content and takes no event (R143). -/
def State.whenRunning (s : State) (f : State → State) : State := if s.inReset then s else f s

/-! ### The line map store (R36) -/

/-- The bank other than the given one (R36). -/
def Bank.other : Bank → Bank
  | .a => .b
  | .b => .a

/-- The working bank of an entry (R36). -/
def LineEntry.working (e : LineEntry) : Bank := e.published.other

/-- The first cell's entry whose number is `i`, or the reset entry where none is listed. -/
def entryIn : List (Nat × LineEntry) → Nat → LineEntry
  | [], _ => LineEntry.reset
  | (k, e) :: l, i => if k = i then e else entryIn l i

/-- Entry `i` of the store. -/
def LineMap.entry (m : LineMap) (i : Nat) : LineEntry := entryIn m.cells i

/-- The cell of number `i` put in its place, or left out where the entry is the reset entry. -/
def putCell (i : Nat) (e : LineEntry) (l : List (Nat × LineEntry)) : List (Nat × LineEntry) :=
  if e = LineEntry.reset then l else (i, e) :: l

/-- The cells with entry `i` replaced, still in canonical form. -/
def writeIn : List (Nat × LineEntry) → Nat → LineEntry → List (Nat × LineEntry)
  | [], i, e => putCell i e []
  | (k, x) :: l, i, e =>
    if k < i then (k, x) :: writeIn l i e
    else if k = i then putCell i e l
    else putCell i e ((k, x) :: l)

/-- Replaces entry `i`; the store has entries 0-8,191 only (R36; a write past them, which LOAD's
checks rule out, is dropped: DESIGN CHOICE, log entry 20). -/
def LineMap.write (m : LineMap) (i : Nat) (e : LineEntry) : LineMap :=
  if i < Config.lineEntries then { cells := writeIn m.cells i e } else m

/-- Replaces every entry of the `n` entries from `lo` on by `f` of it, for an `f` that keeps the
reset entry. -/
def LineMap.mapRange (m : LineMap) (lo n : Nat) (f : LineEntry → LineEntry) : LineMap :=
  { cells := m.cells.filterMap fun c =>
      let e := if lo ≤ c.1 ∧ c.1 < lo + n then f c.2 else c.2
      if e = LineEntry.reset then none else some (c.1, e) }

/-- The cells' numbers rise strictly, from `lo` on, none listed as the reset entry, none past the store. -/
def cellsWf : Nat → List (Nat × LineEntry) → Bool
  | _, [] => true
  | lo, (k, e) :: l => decide (lo ≤ k) && decide (k < Config.lineEntries) &&
      decide (e ≠ LineEntry.reset) && cellsWf (k + 1) l

/-- The canonical form of the store. -/
def LineMap.wf (m : LineMap) : Bool := cellsWf 0 m.cells

/-! ### Geometry (R1, R41) -/

/-- The window size in bytes (R1). -/
def Geometry.size (g : Geometry) : Nat := Config.lineBytes * g.lineCount.toNat

/-- The base of a bank range (R1). -/
def Geometry.bankBase (g : Geometry) : Bank → Addr
  | .a => g.bankA
  | .b => g.bankB

/-- The address of line `i` in a bank range (R41, R58, R61, R68). -/
def Geometry.lineAddress (g : Geometry) (bank : Bank) (i : Nat) : Addr :=
  g.bankBase bank + BitVec.ofNat 32 (Config.lineBytes * i)

/-- Whether the address lies in the range of the geometry's size at `base`. -/
def Geometry.covers (g : Geometry) (base a : Addr) : Bool :=
  decide (base.toNat ≤ a.toNat) && decide (a.toNat < base.toNat + g.size)

/-- The number of the line map entry of line `i` (R1, R37). -/
def Geometry.entryIndex (g : Geometry) (i : Nat) : Nat := g.mapOffset.toNat + i

/-- The line entry of line `i` of window `w` (R37). -/
def State.lineEntry (s : State) (w : WindowId) (i : Nat) : LineEntry :=
  s.lineMap.entry ((s.win w).geometry.entryIndex i)

/-- Replaces the line entry of line `i` of window `w` by `f` of it. -/
def State.modLine (s : State) (w : WindowId) (i : Nat) (f : LineEntry → LineEntry) : State :=
  s.setLineMap (s.lineMap.write ((s.win w).geometry.entryIndex i) (f (s.lineEntry w i)))

/-- Replaces every entry of window `w`'s segment by `f` of it (R1, R37). -/
def State.mapSegment (s : State) (w : WindowId) (f : LineEntry → LineEntry) : State :=
  s.setLineMap (s.lineMap.mapRange (s.win w).geometry.mapOffset.toNat
    (s.win w).geometry.lineCount.toNat f)

/-- The change of the flip to an entry (R86). -/
def LineEntry.flipped (e : LineEntry) : LineEntry :=
  if e.pending then { e with published := e.working, pending := false } else e

/-- The change of the clear, and of RETIRE, to an entry (R88, R113). -/
def LineEntry.unpended (e : LineEntry) : LineEntry := { e with pending := false }

/-! ### Window counts (R7, R49) -/

/-- The read count of a parity (R49). -/
def Window.readCount (x : Window) (p : Bool) : Nat := if p then x.reads1 else x.reads0

/-- The previous read count (R49). -/
def Window.previousReads (x : Window) : Nat := x.readCount (!x.parity)

/-- The current read count (R49). -/
def Window.currentReads (x : Window) : Nat := x.readCount x.parity

/-- The record with the read count of a parity replaced by `f` of it. -/
def Window.modReadCount (x : Window) (p : Bool) (f : Nat → Nat) : Window :=
  if p then { x with reads1 := f x.reads1 } else { x with reads0 := f x.reads0 }

/-- LIVE or SETTLING: the states in which holds are evaluated and windows are steered (R27, R95). -/
def WindowState.isLiveOrSettling (st : WindowState) : Bool := st = .live || st = .settling

/-- Any state but OFF (section 1.4). -/
def WindowState.isActive (st : WindowState) : Bool := st ≠ .off

/-! ### Queues -/

/-- A notice joins the tail of the queue, or is discarded with the overflow flag set (R136). -/
def NoticeQueue.offer (q : NoticeQueue) (n : Notice) : NoticeQueue :=
  if q.records.length < Config.noticeCapacity then { q with records := q.records ++ [n] }
  else { q with overflow := true }

/-- The removal of the head record (R137). -/
def NoticeQueue.removeHead (q : NoticeQueue) : NoticeQueue :=
  match q.records with
  | [] => q
  | _ :: l => { records := l, overflow := q.overflow && !l.isEmpty }

/-- A block raises a notice (R136). -/
def State.raise (s : State) (n : Notice) : State := s.modNotices (·.offer n)

/-- A response joins the response queue (R125). -/
def State.respond (s : State) (r : HResponse) : State :=
  s.modHPort fun h => { h with responses := h.responses ++ [r] }

/-- An operation joins the issue queue (R127). -/
def State.issue (s : State) (op : MOp) : State := s.setIssueQueue (s.issueQueue ++ [op])

/-- Whether the pair is in the outstanding set (R19). -/
def HPort.isOutstanding (h : HPort) (r : Requester) (t : Tag) : Bool := (h.outstanding[r.val])[t.val]

/-- The pair joins the outstanding set, or leaves it (R19). -/
def HPort.setOutstanding (h : HPort) (r : Requester) (t : Tag) (on : Bool) : HPort :=
  { h with outstanding := h.outstanding.set r.val ((h.outstanding[r.val]).set t.val on) }

/-! ### Free slots and entries -/

/-- The lowest-numbered FREE slot (R57). -/
def State.freeSlot (s : State) : Option SlotId := allSlots.find? fun n => (s.slot n).isNone

/-- The lowest-numbered free entry of the in-flight table (R126). -/
def State.freeEntry (s : State) : Option EntryId :=
  (List.finRange 32).find? fun i => (s.entry i).isNone

/-! ### Taking an event at several windows -/

/-- Takes `f` at each window in the order given. -/
def State.forWindows (ws : List WindowId) (f : WindowId → State → State) (s : State) : State :=
  ws.foldl (fun t w => f w t) s

/-- Takes `f` at each slot in the order given. -/
def State.forSlots (ns : List SlotId) (f : SlotId → State → State) (s : State) : State :=
  ns.foldl (fun t n => f n t) s

end Sys2Proof.Machine
end

