-- ==== Sys2Proof/Machine/Operands.lean ====
section
/-! DEFINITION. The operands of the commands: the argument bytes of a frame with the code tables of
section 11.2, and the fields of a link response. -/

namespace Sys2Proof.Machine

/-! ### Link fields (R122, R154) -/

/-- The status field of an M-port response; 3 is taken as ERROR (R154). -/
def statusOfCode (c : BitVec 2) : Status :=
  if c = 0 then .okay else if c = 2 then .retry else .error

/-- READ or WRITE. -/
def accessKind : Access → Kind
  | .read _ => .read
  | .write _ => .write

/-- The beats value of a request: the field of a READ, the beat transfers of a WRITE (R154). -/
def accessBeats : Access → Nat
  | .read n => n.val
  | .write d => d.length

/-- The beats of a WRITE with their masks; a READ carries none (R122). -/
def accessData : Access → List Beat
  | .read _ => []
  | .write d => d

/-- Byte `k` of a data word (section 11.1). -/
def wordByte (x : Word) (k : Nat) : Byte := x.extractLsb' (8 * k) 8

/-- The data word whose byte `k` is `f k` (section 11.1). -/
def wordOfBytes (f : Nat → Byte) : Word :=
  f 7 ++ f 6 ++ f 5 ++ f 4 ++ f 3 ++ f 2 ++ f 1 ++ f 0

/-- Byte `i` of a line, 0-63 (R59). -/
def lineByte (l : Line) (i : Nat) : Byte := wordByte (l.toList.getD (i / 8) 0) (i % 8)

/-- The line whose byte `i` is `f i` (R59). -/
def lineOfBytes (f : Nat → Byte) : Line :=
  let word := fun j => wordOfBytes fun k => f (8 * j + k)
  #v[word 0, word 1, word 2, word 3, word 4, word 5, word 6, word 7]

/-- The line of eight beats of data (R63). -/
def lineOfBeats (d : List Beat) : Line :=
  let word := fun j => ((d.map Beat.data).getD j 0)
  #v[word 0, word 1, word 2, word 3, word 4, word 5, word 6, word 7]

/-- The beats of a 64-byte write: the line with every byte enabled (R61). -/
def beatsOfLine (l : Line) : List Beat := l.toList.map fun x => { data := x, mask := 0xFF }

/-- Whether the write covers all 64 bytes of its line (R47). -/
def isFullLine (d : List Beat) : Bool := d.length = 8 && d.all fun b => b.mask = 0xFF

/-- The line with a held write merged in at byte offset `o` (R59 step 2). -/
def mergeBeats (l : Line) (o : Nat) (d : List Beat) : Line :=
  lineOfBytes fun i =>
    match d[(i - o) / 8]? with
    | some beat =>
      if o ≤ i ∧ beat.mask.getLsbD ((i - o) % 8) then wordByte beat.data ((i - o) % 8)
      else lineByte l i
    | none => lineByte l i

/-! ### Frames (R144, R146, R147) -/

/-- Byte `i` of the frame after its command byte. -/
def frameByte (f : Frame) (i : Nat) : Byte := f.args.getD i 0

/-- The two-byte field from byte `i` on, most significant byte first (R146). -/
def frameHalf (f : Frame) (i : Nat) : Half := frameByte f i ++ frameByte f (i + 1)

/-- The four-byte field from byte `i` on, most significant byte first (R146). -/
def frameAddr (f : Frame) (i : Nat) : Addr := frameHalf f i ++ frameHalf f (i + 2)

/-- The argument bytes of a command (R146). -/
def argumentBytes : CommandName → Nat
  | .readStatus => 0
  | .readWindow => 1
  | .writeGeometry => 22
  | .writePolicy => 11
  | .readRoles => 1
  | .writeRoles => 9
  | .load => 1
  | .arm => 1
  | .discard => 1
  | .clearHold => 1
  | .retire => 1
  | .drop => 1
  | .publish => 1
  | .unpublish => 1
  | .setHold => 2
  | .forceFallback => 2
  | .readNotice => 0
  | .readLine => 3
  | .writeDeviceSettings => 4
  | .restart => 0

/-- The window a window byte names; none above 7 (R147). -/
def windowOfByte (b : Byte) : Option WindowId :=
  if h : b.toNat < 8 then some ⟨b.toNat, h⟩ else none

/-- The requester a requester byte names; none above 15 (R21, R22). -/
def requesterOfByte (b : Byte) : Option Requester :=
  if h : b.toNat < 16 then some ⟨b.toNat, h⟩ else none

/-- The on/off and yes/no codes (section 11.2). -/
def flagOfByte (b : Byte) : Option Bool :=
  if b = 0 then some false else if b = 1 then some true else none

/-- The role cell codes (section 11.2). -/
def roleOfByte (b : Byte) : Option Role :=
  if b = 0 then some .none
  else if b = 1 then some .consumer
  else if b = 2 then some .producer
  else if b = 3 then some .maintenance
  else none

/-- The commit mode codes (section 11.2). -/
def commitModeOfByte (b : Byte) : Option CommitMode :=
  if b = 0 then some .boundary else if b = 1 then some .prompt else none

/-- The hold policy codes (section 11.2). -/
def holdPolicyOfByte (b : Byte) : Option HoldPolicy :=
  if b = 0 then some .latched else if b = 1 then some .perBoundary else none

/-- The hold sources byte; any of bits 7-4 set is out of range (R155). -/
def sourcesOfByte (b : Byte) : Option HoldSources :=
  if b.toNat < 16 then
    some { hold0 := b.getLsbD 0, hold1 := b.getLsbD 1, violation := b.getLsbD 2
           fillFailed := b.getLsbD 3 }
  else none

/-- The divider, 1-16 (R3). -/
def dividerOfByte (b : Byte) : Option Nat :=
  if 1 ≤ b.toNat ∧ b.toNat ≤ 16 then some b.toNat else none

/-- The polarity codes (R152). -/
def polarityOfByte (b : Byte) : Option Polarity :=
  if b = 0 then some .activeHigh else if b = 1 then some .activeLow else none

/-- Whether a window mask names the window (R73). -/
def maskNames (mask : Byte) (w : WindowId) : Bool := mask.getLsbD w.val

/-- The six geometry fields of WRITE GEOMETRY, after its window byte (R2, R146). -/
def geometryOfFrame (f : Frame) : Geometry :=
  { apparentBase := frameAddr f 1, lineCount := frameHalf f 5, mapOffset := frameHalf f 7
    bankA := frameAddr f 9, bankB := frameAddr f 13
    fallback := if frameByte f 17 = 0 then none else some (frameAddr f 18) }

/-- The nine policy fields of WRITE POLICY, after its window byte; none where a value lies outside
the range of R3 (R4, section 11.2). -/
def policyOfFrame (f : Frame) : Option Policy := do
  let commitMode ← commitModeOfByte (frameByte f 1)
  let divider ← dividerOfByte (frameByte f 2)
  let holdPolicy ← holdPolicyOfByte (frameByte f 5)
  let sources ← sourcesOfByte (frameByte f 6)
  let redirect ← flagOfByte (frameByte f 7)
  let pubreqEnable ← flagOfByte (frameByte f 8)
  let commitNotices ← flagOfByte (frameByte f 9)
  let commitOutput ← flagOfByte (frameByte f 10)
  return { commitMode, divider, drainLimit := frameHalf f 3, holdPolicy, sources, redirect
           pubreqEnable, commitNotices, commitOutput }

/-- The eight role cells of WRITE ROLES, W0 first; none where a code is no role (R21). -/
def rolesOfFrame (f : Frame) : Option (Vector Role 8) := do
  let c0 ← roleOfByte (frameByte f 1)
  let c1 ← roleOfByte (frameByte f 2)
  let c2 ← roleOfByte (frameByte f 3)
  let c3 ← roleOfByte (frameByte f 4)
  let c4 ← roleOfByte (frameByte f 5)
  let c5 ← roleOfByte (frameByte f 6)
  let c6 ← roleOfByte (frameByte f 7)
  let c7 ← roleOfByte (frameByte f 8)
  return #v[c0, c1, c2, c3, c4, c5, c6, c7]

/-- The four settings of WRITE DEVICE SETTINGS; none where a byte is outside its valid values (R152). -/
def settingsOfFrame (f : Frame) : Option Settings := do
  let hold0Polarity ← polarityOfByte (frameByte f 0)
  let hold1Polarity ← polarityOfByte (frameByte f 1)
  let noticeEnable ← flagOfByte (frameByte f 2)
  if frameByte f 3 = 0 then none
  else return { hold0Polarity, hold1Polarity, noticeEnable, tickDivisor := frameByte f 3 }

end Sys2Proof.Machine
end

