-- ==== Sys2Proof/Machine/Flags.lean ====
section
/-! DEFINITION. The conditions the block tests and the flags it reports: level sources, drains,
redirection, the port flags and the two output lines. -/

namespace Sys2Proof.Machine

/-! ### Hold lines and level sources (R96, R140) -/

/-- The sampled level of a hold line. -/
def LevelsOf (l : LineLevels) : HoldLine → Bool
  | .hold0 => l.hold0
  | .hold1 => l.hold1

/-- The polarity setting of a hold line (R138). -/
def Settings.polarity (c : Settings) : HoldLine → Polarity
  | .hold0 => c.hold0Polarity
  | .hold1 => c.hold1Polarity

/-- The active level of a polarity setting (R140). -/
def Polarity.activeLevel : Polarity → Bool
  | .activeHigh => true
  | .activeLow => false

/-- Whether a hold line is among the hold sources (R3). -/
def HoldSources.counts (x : HoldSources) : HoldLine → Bool
  | .hold0 => x.hold0
  | .hold1 => x.hold1

/-- Whether the sampled level of the line is its active level (R140). -/
def lineActive (l : LineLevels) (c : Settings) (h : HoldLine) : Bool :=
  LevelsOf l h == (c.polarity h).activeLevel

/-- Whether HOLD0 or HOLD1 is asserted at a window (R96). -/
def lineAsserted (l : LineLevels) (c : Settings) (x : Window) (h : HoldLine) : Bool :=
  x.policy.sources.counts h && lineActive l c h

/-- Whether a level source is asserted at window `w` (R96). -/
def State.levelAsserted (s : State) (w : WindowId) : Bool :=
  lineAsserted s.lines.levels s.settings (s.win w) .hold0
    || lineAsserted s.lines.levels s.settings (s.win w) .hold1
    || (s.win w).manualHold

/-- The first asserted level source in the order HOLD0, HOLD1, MANUAL (R106). -/
def State.firstLevelSource (s : State) (w : WindowId) : Option HoldSource :=
  if lineAsserted s.lines.levels s.settings (s.win w) .hold0 then some .hold0
  else if lineAsserted s.lines.levels s.settings (s.win w) .hold1 then some .hold1
  else if (s.win w).manualHold then some .manual
  else none

/-! ### Drains (R84, R116) -/

/-- The drain condition of a settle (R84). -/
def Window.drained (x : Window) : Bool :=
  x.fills = 0 && x.producerWrites = 0 && x.previousReads = 0

/-- SETTLING with kind COMMIT. -/
def Window.settlingCommit (x : Window) : Bool := x.state = .settling && x.settleKind = some .commit

/-- SETTLING with kind DISCARD. -/
def Window.settlingDiscard (x : Window) : Bool := x.state = .settling && x.settleKind = some .discard

/-- The drain of a flattening window is complete and its copying has not begun (R116). -/
def Window.flattenDrained (x : Window) : Bool :=
  x.state = .flattening && x.requests = 0 && x.fills = 0 && !x.copyRequest

/-- The three conditions of a prompt settle (R81). -/
def Window.promptReady (x : Window) : Bool :=
  x.policy.commitMode = .prompt && x.state = .live && x.armed && x.holdStatus = .clear

/-! ### Redirection (R43, R109) -/

/-- The fallback base that consumer and maintenance reads are redirected to, if they are (R43, R109). -/
def Window.redirection (x : Window) : Option Addr :=
  if x.forcedFallback || (x.policy.redirect && x.holdStatus ≠ .clear) then x.geometry.fallback
  else none

/-! ### Flags and output lines -/

/-- The any-window-settling flag (R8). -/
def State.anySettling (s : State) : Bool := allWindows.any fun w => (s.win w).state = .settling

/-- The notice-pending flag (R135). -/
def State.noticePending (s : State) : Bool := !s.notices.records.isEmpty

/-- Whether NOTICE is asserted, that is driven low (R141). -/
def State.noticeAsserted (s : State) : Bool :=
  !s.inReset && s.noticePending && s.settings.noticeEnable

/-- Whether COMMITTED is asserted, that is driven high (R142). -/
def State.committedAsserted (s : State) : Bool := !s.inReset && decide (0 < s.lines.pulse)

end Sys2Proof.Machine
end

