-- ==== Sys2Proof/Machine/Hold.lean ====
section
/-! DEFINITION. The hold logic: sources striking and releasing, the evaluation at the entry to LIVE
and at a policy change, the boundary's hold step, and the reset of the hold record (R95 to R112). -/

namespace Sys2Proof.Machine

/-- A COMMIT settle is cancelled by a hold: LIVE, armed again, timer stopped, COMMIT_CANCELLED with
code HOLD (R91). -/
def State.cancelByHold (s : State) (w : WindowId) : State :=
  (s.modWin w fun x =>
      { x with state := .live, settleKind := none, armed := true, drainTimer := none }).raise
    (.commitCancelled w (s.win w).generation .hold)

/-- The hold status becomes ACTIVE: HOLD_ACTIVE is raised with the source, and a COMMIT settle is
cancelled (R91, R99, R103, R107). -/
def State.becomeActive (s : State) (w : WindowId) (c : HoldSource) : State :=
  let t := (s.modWin w fun x => { x with holdStatus := .active }).raise (.holdActive w c)
  if (s.win w).settlingCommit then t.cancelByHold w else t

/-- A level source asserts or an event occurs under LATCHED (R99). -/
def State.strikeLatched (s : State) (w : WindowId) (c : HoldSource) : State :=
  let t := s.modWin w fun x => { x with holdAck := false }
  if (s.win w).holdStatus = .active then t else t.becomeActive w c

/-- The status becomes ACTIVE if it is CLEAR, under PER_BOUNDARY (R103). -/
def State.strikePerBoundary (s : State) (w : WindowId) (c : HoldSource) : State :=
  if (s.win w).holdStatus = .clear then s.becomeActive w c else s

/-- A level source asserts at window `w`, which is in LIVE or SETTLING (R99, R103). -/
def State.levelAsserts (s : State) (w : WindowId) (c : HoldSource) : State :=
  if (s.win w).state.isLiveOrSettling then
    match (s.win w).policy.holdPolicy with
    | .latched => s.strikeLatched w c
    | .perBoundary => s.strikePerBoundary w c
  else s

/-- A level source releases at window `w` (R100, R103); the level sources are judged as they stand
after the release. -/
def State.levelReleases (s : State) (w : WindowId) : State :=
  if (s.win w).state.isLiveOrSettling ∧ (s.win w).policy.holdPolicy = .latched
      ∧ (s.win w).holdStatus = .active ∧ (s.win w).holdAck ∧ !s.levelAsserted w then
    s.modWin w fun x => { x with holdStatus := .releasing }
  else s

/-- An event occurs at window `w` (R97, R99, R103). -/
def State.eventOccurs (s : State) (w : WindowId) (c : HoldSource) : State :=
  match (s.win w).policy.holdPolicy with
  | .latched => s.strikeLatched w c
  | .perBoundary => (s.modWin w fun x => { x with eventSince := true }).strikePerBoundary w c

/-- A violation is delivered to window `w` as one hold event (R35, R97). -/
def State.violationEvent (s : State) (w : WindowId) : State :=
  if (s.win w).state.isLiveOrSettling ∧ (s.win w).policy.sources.violation then
    s.eventOccurs w .violation
  else s

/-- A fill failure is delivered to window `w` as one hold event (R66, R97). -/
def State.fillFailureEvent (s : State) (w : WindowId) : State :=
  if (s.win w).state.isLiveOrSettling ∧ (s.win w).policy.sources.fillFailed then
    s.eventOccurs w .fillFailed
  else s

/-- The evaluation from the level sources (R106). -/
def State.evaluateHold (s : State) (w : WindowId) : State :=
  match s.firstLevelSource w with
  | some c => s.becomeActive w c
  | none => s

/-- Whether the boundary's hold step releases the hold (R101, R104). -/
def State.boundaryReleases (s : State) (w : WindowId) : Bool :=
  match (s.win w).policy.holdPolicy with
  | .latched => (s.win w).holdStatus = .releasing
  | .perBoundary =>
    (s.win w).holdStatus = .active && !s.levelAsserted w && !(s.win w).eventSince

/-- The hold step of a boundary (R78 step 1, R101, R104). -/
def State.boundaryHold (s : State) (w : WindowId) : State :=
  match (s.win w).policy.holdPolicy with
  | .latched =>
    if s.boundaryReleases w then
      (s.modWin w fun x => { x with holdStatus := .clear, holdAck := false }).raise (.holdReleased w)
    else s
  | .perBoundary =>
    let t := if s.boundaryReleases w then
        (s.modWin w fun x => { x with holdStatus := .clear }).raise (.holdReleased w)
      else s
    t.modWin w fun x => { x with eventSince := false }

/-- The hold record as LOAD, DROP and RETIRE leave it (R13, R15, R112). -/
def Window.resetHold (x : Window) : Window :=
  { x with holdStatus := .clear, holdAck := false, eventSince := false
           manualHold := false, forcedFallback := false }

/-- The source of HOLD_ACTIVE that a hold line is (R107). -/
def holdLineSource : HoldLine → HoldSource
  | .hold0 => .hold0
  | .hold1 => .hold1

/-- An edge of a hold line, already sampled, as one window takes it (R140). -/
def State.holdEdgeAt (s : State) (h : HoldLine) (w : WindowId) : State :=
  if (s.win w).policy.sources.counts h then
    if lineActive s.lines.levels s.settings h then s.levelAsserts w (holdLineSource h)
    else s.levelReleases w
  else s

/-- A change of the polarities, already stored, as one window takes it; `old` are the settings
before it. Both lines are taken as one step (R96, R140). -/
def State.polarityAt (s : State) (old : Settings) (w : WindowId) : State :=
  let was := fun h => lineAsserted s.lines.levels old (s.win w) h
  let is := fun h => lineAsserted s.lines.levels s.settings (s.win w) h
  if !was .hold0 && is .hold0 then s.levelAsserts w .hold0
  else if !was .hold1 && is .hold1 then s.levelAsserts w .hold1
  else if (was .hold0 && !is .hold0) || (was .hold1 && !is .hold1) then s.levelReleases w
  else s

end Sys2Proof.Machine
end

