-- ==== Sys2Proof/Machine/Publication.lean ====
section
/-! DEFINITION. The window controller's settles: the entry, the drain, the flip and the clear, the
prompt rule, the boundary and the drain timer (R72 to R94). -/

namespace Sys2Proof.Machine

/-- The entry to SETTLING with a kind: the timer starts unless the drain limit is 0 (R82, R83, R85). -/
def Window.enterSettle (x : Window) (k : SettleKind) : Window :=
  { x with state := .settling, settleKind := some k
           drainTimer := if x.policy.drainLimit = 0 then none else some x.policy.drainLimit }

/-- The epoch closing: the parity toggles, so the current read count becomes the previous (R89). -/
def Window.closeEpoch (x : Window) : Window := { x with parity := !x.parity }

/-- The return to LIVE at the end of a settle (R90). -/
def Window.backToLive (x : Window) : Window :=
  { x with state := .live, settleKind := none, drainTimer := none }

/-- The flip's change to the window record (R86 steps 2 to 5, R87). -/
def Window.flipped (x : Window) : Window :=
  { x with pendingCount := 0, generation := x.generation + 1 }.closeEpoch.backToLive

/-- The clear's change to the window record (R88 steps 2 to 5). -/
def Window.cleared (x : Window) : Window :=
  { x with pendingCount := 0 }.closeEpoch.backToLive

/-- A pulse of COMMITTED is requested (R142). -/
def State.requestPulse (s : State) : State :=
  s.modLines fun l => { l with pulse := Config.pulseTicks }

/-- The seven steps of the flip (R86). -/
def State.takeFlip (s : State) (w : WindowId) : State :=
  let x := s.win w
  let t := (s.mapSegment w LineEntry.flipped).modWin w Window.flipped
  let u := if x.policy.commitOutput then t.requestPulse else t
  if x.policy.commitNotices then u.raise (.commitDone w (x.generation + 1) x.pendingCount) else u

/-- The six steps of the clear (R88). -/
def State.takeClear (s : State) (w : WindowId) : State :=
  ((s.mapSegment w LineEntry.unpended).modWin w Window.cleared).raise
    (.discardDone w (s.win w).pendingCount)

/-- The entry to a COMMIT settle, with the flip in the same event where the drain condition holds
(R82). -/
def State.enterCommit (s : State) (w : WindowId) : State :=
  let t := s.modWin w fun x => { x.enterSettle .commit with armed := false }
  if (t.win w).drained then t.takeFlip w else t

/-- The prompt rule (R81). -/
def State.promptTest (s : State) (w : WindowId) : State :=
  if (s.win w).promptReady then s.enterCommit w else s

/-- The flip with what follows it in its event: a further prompt settle, whose notices come after the
flip's (R86, R90, DEDUCED, log entry 13). -/
def State.flipAt (s : State) (w : WindowId) : State := (s.takeFlip w).promptTest w

/-- The clear with what follows it in its event: a further prompt settle, whose notices come after
DISCARD_DONE (R88, R90, DEDUCED, log entry 13). -/
def State.clearAt (s : State) (w : WindowId) : State := (s.takeClear w).promptTest w

/-- The drain test of a settling window: the flip or the clear where the drain is complete (R84). -/
def State.settleTest (s : State) (w : WindowId) : State :=
  if (s.win w).drained then
    if (s.win w).settlingCommit then s.flipAt w
    else if (s.win w).settlingDiscard then s.clearAt w
    else s
  else s

/-- DISCARD's entry to SETTLING, with the clear in the same event where the drain condition holds
(R83). -/
def State.enterDiscard (s : State) (w : WindowId) : State :=
  (s.modWin w fun x => x.enterSettle .discard).settleTest w

/-- The drain timer of window `w` expires (R92). -/
def State.expireSettle (s : State) (w : WindowId) : State :=
  if (s.win w).settlingCommit then
    (s.modWin w fun x => { x.backToLive with armed := false }).raise
      (.commitCancelled w (s.win w).generation .timeout)
  else if (s.win w).settlingDiscard then
    ((s.modWin w Window.backToLive).raise (.discardCancelled w)).promptTest w
  else s.modWin w fun x => { x with drainTimer := none }

/-- A tick as window `w` takes it: a running timer falls by one, and expires at 0 (R85, R138). -/
def State.tickAt (s : State) (w : WindowId) : State :=
  match (s.win w).drainTimer with
  | none => s
  | some n =>
    if n.toNat ≤ 1 then s.expireSettle w
    else s.modWin w fun x => { x with drainTimer := some (n - 1) }

/-- A tick as the COMMITTED pulse takes it (R142). -/
def State.tickPulse (s : State) : State := s.modLines fun l => { l with pulse := l.pulse - 1 }

/-- Whether the boundary brings the divider count to the divider (R78 step 2). -/
def Window.eligible (x : Window) : Bool := decide (x.policy.divider ≤ x.dividerCount + 1)

/-- The divider step of a boundary (R78 step 2, R79). -/
def Window.countBoundary (x : Window) : Window :=
  { x with dividerCount := if x.eligible then 0 else x.dividerCount + 1 }

/-- Whether an eligible boundary begins a commit (R78 step 3). -/
def Window.commitsAtBoundary (x : Window) : Bool :=
  x.policy.commitMode = .boundary && x.armed && x.holdStatus = .clear

/-- A boundary as one window takes it (R77, R78). -/
def State.boundaryAt (s : State) (w : WindowId) : State :=
  if (s.win w).state.isLiveOrSettling then
    let held := s.boundaryHold w
    let released := if s.boundaryReleases w then held.promptTest w else held
    let counted := released.modWin w Window.countBoundary
    if (released.win w).eligible then
      if (s.win w).state = .live then
        if (counted.win w).commitsAtBoundary then counted.enterCommit w else counted
      else counted.raise (.commitLate w (counted.win w).generation)
    else counted
  else s

/-- A rising edge of PUBREQ as one window takes it (R75). -/
def State.pubreqAt (s : State) (w : WindowId) : State :=
  if (s.win w).policy.pubreqEnable ∧ (s.win w).state.isLiveOrSettling then
    (s.modWin w fun x => { x with armed := true }).promptTest w
  else s

end Sys2Proof.Machine
end

