-- ==== Sys2Proof/Machine/Fill.lean ====
section
/-! DEFINITION. The fill engine: the operations of the slots, the allocation, the write phase, the
end of a fill, the answer of a held write, orphaning (R55 to R71). -/

namespace Sys2Proof.Machine

/-- The M-port tag of slot `n`: 32 + slot number (R56). -/
def slotTag (n : SlotId) : MTag := ⟨32 + n.val, by omega⟩

/-- The operation of a slot in READING or WRITING, in a window of geometry `g` (R58, R61, R68); a
slot without a line buffer writes nothing. -/
def SlotWork.operation (k : SlotWork) (g : Geometry) (n : SlotId) : Option MOp :=
  match k.phase with
  | .reading =>
    some { tag := slotTag n, address := g.lineAddress k.source k.line, access := .read 8 }
  | .writing =>
    k.buffer.map fun l =>
      { tag := slotTag n, address := g.lineAddress k.target k.line, access := .write (beatsOfLine l) }
  | .waiting => none
  | .retiring => none

/-- Slot `n` issues the operation of its phase (R127). -/
def State.issueSlot (s : State) (n : SlotId) : State :=
  match s.slot n with
  | none => s
  | some k =>
    match k.operation (s.win k.window).geometry n with
    | none => s
    | some op => s.issue op

/-- Whether slot `n` has an operation outstanding (R56, R129). -/
def State.slotOutstanding (s : State) (n : SlotId) : Bool :=
  match s.slot n with
  | none => false
  | some k => k.phase ≠ .waiting

/-- The slot's work takes a new state and issues its operation. -/
def State.startPhase (s : State) (n : SlotId) (k : SlotWork) : State :=
  (s.setSlot n (some k)).issueSlot n

/-- A first-write slot that is not orphaned (R60, R62, R65). -/
def SlotWork.isFill (k : SlotWork) : Bool := !k.orphaned && k.kind ≠ .flattenCopy

/-- A retirement copy that is not orphaned (R68, R69). -/
def SlotWork.isCopy (k : SlotWork) : Bool := !k.orphaned && k.kind = .flattenCopy

/-- Whether a slot may leave WAITING for WRITING (R60). -/
def SlotWork.mayWrite (k : SlotWork) (x : Window) : Bool :=
  k.isFill && k.phase = .waiting && x.previousReads = 0

/-- The step from WAITING to WRITING, where it may be taken (R60, R61). -/
def State.leaveWaiting (s : State) (n : SlotId) : State :=
  match s.slot n with
  | none => s
  | some k =>
    if k.mayWrite (s.win k.window) then s.startPhase n { k with phase := .writing, attempt := 1 }
    else s

/-- Every slot of window `w` that may leave WAITING does, in the order given (R60). -/
def State.leaveWaitingOf (s : State) (w : WindowId) (ns : List SlotId) : State :=
  s.forSlots ns fun n t =>
    if (t.slot n).any fun k => k.window = w then t.leaveWaiting n else t

/-- The answer to a held write: its requester and tag, no data (R62, R65, R70). -/
def State.answerHeld (s : State) (h : Option HeldWrite) (st : Status) : State :=
  match h with
  | none => s
  | some x =>
    s.respond { requester := x.requester, tag := x.tag, status := st, data := [], duplicate := false }

/-- A slot is allocated to a window: it takes its work and the fills in flight rise by one (R57). -/
def State.allocate (s : State) (n : SlotId) (k : SlotWork) : State :=
  (s.setSlot n (some k)).modWin k.window fun x => { x with fills := x.fills + 1 }

/-- A slot becomes FREE and its window's fills in flight fall by one (R62, R65, R68, R69). -/
def State.release (s : State) (n : SlotId) (w : WindowId) : State :=
  (s.setSlot n none).modWin w fun x => { x with fills := x.fills - 1 }

/-- A first write takes slot `n` (R47, R57, R58, R63). The attempt count 1 of a FULL_LINE slot in
WAITING is a DESIGN CHOICE (log entry 14). -/
def State.takeFirstWrite (s : State) (n : SlotId) (w : WindowId) (i : Nat) (h : HeldWrite) : State :=
  let e := s.lineEntry w i
  let full := isFullLine h.beats
  let k : SlotWork :=
    { phase := if full then .waiting else .reading
      kind := if full then .fullLine else .firstWrite
      window := w, line := i, source := e.published, target := e.working
      held := some h, buffer := if full then some (lineOfBeats h.beats) else none
      attempt := 1, orphaned := false }
  let t := (s.modLine w i fun e => { e with filling := true }).allocate n k
  if full then t.leaveWaiting n else t.issueSlot n

/-- An OKAY to a first-write slot's read: the line buffer is built with the held write merged in, the
slot enters WAITING and R60 applies at once (R59). -/
def State.fillReadDone (s : State) (n : SlotId) (k : SlotWork) (data : Line) : State :=
  let merged := match k.held with
    | none => data
    | some h =>
      mergeBeats data ((h.address - (s.win k.window).geometry.apparentBase).toNat % Config.lineBytes)
        h.beats
  (s.setSlot n (some { k with phase := .waiting, buffer := some merged })).leaveWaiting n

/-- The line entry's change when a fill completes (R62 step 1); a window in OFF or LOADING, which has no
fill, is taken as one in FLATTENING (DESIGN CHOICE, log entry 16). -/
def State.completeLine (s : State) (w : WindowId) (i : Nat) : State :=
  if (s.win w).state.isLiveOrSettling then
    (s.modLine w i fun e => { e with pending := true, filling := false }).modWin w fun x =>
      { x with pendingCount := x.pendingCount + 1 }
  else s.modLine w i fun e => { e with pending := false, filling := false }

/-- The three steps of a fill's completion (R62). -/
def State.fillComplete (s : State) (n : SlotId) (k : SlotWork) : State :=
  ((s.completeLine k.window k.line).answerHeld k.held .okay).release n k.window

/-- The code of a fill failure (R65). -/
def failureCode (p : SlotPhase) (st : Status) : FillCode :=
  if st = .retry then .retryExhausted
  else if p = .reading then .readError
  else .writeError

/-- The four steps of a fill's failure (R65, R66). -/
def State.fillFail (s : State) (n : SlotId) (k : SlotWork) (st : Status) : State :=
  let t := ((s.modLine k.window k.line fun e => { e with filling := false }).answerHeld k.held
    .error).release n k.window
  let u := match k.held with
    | none => t
    | some h => t.raise (.fillFailed k.window h.requester h.address (failureCode k.phase st))
  u.fillFailureEvent k.window

/-- Whether a response of the given status ends an operation as a failure: ERROR, or RETRY on
attempt 4 (R65, R69). -/
def SlotWork.failsOn (k : SlotWork) (st : Status) : Bool :=
  (k.phase = .reading || k.phase = .writing)
    && (st = .error || (st = .retry && decide (Config.maxAttempts ≤ k.attempt)))

/-- A slot is orphaned at a frame end (R70): its held write is answered ERROR, and it enters RETIRING,
or becomes FREE where it was in WAITING. Its hold on the write ends (R131, DEDUCED, log entry 14). -/
def State.orphan (s : State) (n : SlotId) (k : SlotWork) : State :=
  let t := s.answerHeld k.held .error
  if k.phase = .waiting then t.setSlot n none
  else t.setSlot n (some { k with phase := .retiring, held := none, orphaned := true })

/-- Every slot that names one of the windows, is not FREE and is not yet orphaned is orphaned, in
ascending slot number (R70, R125). -/
def State.orphanSlots (s : State) (ws : List WindowId) : State :=
  s.forSlots allSlots fun n t =>
    match t.slot n with
    | none => t
    | some k => if k.window ∈ ws ∧ !k.orphaned then t.orphan n k else t

end Sys2Proof.Machine
end

