-- ==== Sys2Proof/Machine/Flatten.lean ====
section
/-! DEFINITION. The flatten logic: RETIRE's change, the walk, the copies, the end of a retirement and
a copy's failure (R113 to R121). -/

namespace Sys2Proof.Machine

/-- The first line from `i` on, of the next `fuel` lines, that is published B; `i + fuel` where
none is (R117 steps 1 to 3). -/
def nextLineInB (m : LineMap) (g : Geometry) : Nat → Nat → Nat
  | 0, i => i
  | fuel + 1, i =>
    if (m.entry (g.entryIndex i)).published = .b then i else nextLineInB m g fuel (i + 1)

/-- The end of a retirement: OFF, with FLATTEN_DONE (R118). -/
def State.flattenDone (s : State) (w : WindowId) : State :=
  ((s.mapSegment w fun _ => LineEntry.reset).modWin w fun x =>
      { x with state := .off, cursor := none, pendingCount := 0, fills := 0, requests := 0
               armed := false, copyRequest := false }).raise (.flattenDone w)

/-- The walk from line `i` on: it passes the lines published A, and stops at a line published B with
a request for a slot, or ends the retirement (R117). -/
def State.walkFrom (s : State) (w : WindowId) (i : Nat) : State :=
  let g := (s.win w).geometry
  let next := nextLineInB s.lineMap g (g.lineCount.toNat - i) i
  if g.lineCount.toNat ≤ next then s.flattenDone w
  else s.modWin w fun x => { x with cursor := some next, copyRequest := true }

/-- The drain test of a flattening window: the copying begins where the drain is complete (R116,
R117). -/
def State.flattenTest (s : State) (w : WindowId) : State :=
  if (s.win w).flattenDrained then s.walkFrom w 0 else s

/-- The drain tests at an event that lowered a count of window `w` (R84, R116). -/
def State.drainTests (s : State) (w : WindowId) : State := (s.settleTest w).flattenTest w

/-- RETIRE's change to the window and its segment (R113). -/
def State.beginRetire (s : State) (w : WindowId) : State :=
  (s.mapSegment w LineEntry.unpended).modWin w fun x =>
    { x.resetHold with state := .flattening, pendingCount := 0, armed := false, cursor := some 0
                       drainTimer := none }

/-- The kept slot request of window `w` is served by slot `n`, and the copy's read is issued (R57,
R68, R117). -/
def State.serveCopyWith (s : State) (w : WindowId) (n : SlotId) : State :=
  let k : SlotWork :=
    { phase := .reading, kind := .flattenCopy, window := w, line := ((s.win w).cursor).getD 0
      source := .b, target := .a, held := none, buffer := none, attempt := 1, orphaned := false }
  ((s.modWin w fun x => { x with copyRequest := false }).allocate n k).issueSlot n

/-- The kept slot request of window `w`, if any, takes the lowest-numbered FREE slot, if any (R57,
R117). -/
def State.serveCopy (s : State) (w : WindowId) : State :=
  if (s.win w).copyRequest then
    match s.freeSlot with
    | none => s
    | some n => s.serveCopyWith w n
  else s

/-- A copy reports done: the slot is FREE, the line is published A, and the walk goes on past it
(R68, R117). -/
def State.copyDone (s : State) (n : SlotId) (k : SlotWork) : State :=
  let t := (s.release n k.window).modLine k.window k.line fun e => { e with published := .a }
  if (s.win k.window).state = .flattening then t.walkFrom k.window (k.line + 1) else t

/-- A copy reports failed: the slot is FREE, and the window returns to LIVE with FLATTEN_FAILED, then
the hold is evaluated (R69, R120). -/
def State.copyFailed (s : State) (n : SlotId) (k : SlotWork) : State :=
  let t := s.release n k.window
  if (s.win k.window).state = .flattening then
    ((t.modWin k.window fun x =>
        { x with state := .live, cursor := none, copyRequest := false }).raise
      (.flattenFailed k.window k.line)).evaluateHold k.window
  else t

end Sys2Proof.Machine
end

