-- ==== Sys2Proof/Machine/Steering.lean ====
section
/-! DEFINITION. The steering unit and the H-port: the class of a request, its outcome, its acceptance,
and the head request taken whenever it can be (R19, R23 to R54, R124 to R126). -/

namespace Sys2Proof.Machine

/-- The access classes of section 2.3. -/
inductive AccessClass where
  | malformed (code : MalformedCode)
  | violation (w : WindowId) (code : ViolationCode)
  | flattenRetry (w : WindowId)
  | loadingAccess (w : WindowId)
  | publishedRead (w : WindowId)
  | producerRead (w : WindowId)
  | producerWrite (w : WindowId)
  | rawMaintenance (w : WindowId)
  | passThrough
  deriving DecidableEq, Repr

/-- What becomes of a request: a local answer, forwarding, or a fill slot (R24). -/
inductive Verdict where
  | malformed (code : MalformedCode)
  | violation (w : WindowId) (code : ViolationCode)
  | retry
  | forward (cls : TrackerClass) (w : Option WindowId) (address : Addr) (parity : Option Bool)
  | firstWrite (n : SlotId) (w : WindowId) (line : Nat)
  deriving DecidableEq, Repr

/-- The first form check that fails, in the order of R25. -/
def malformedCode (h : HPort) (r : HRequest) : Option MalformedCode :=
  let a := r.address.toNat
  let beats := accessBeats r.access
  let last := a + 8 * beats - 1
  if a % 8 ≠ 0 then some .align
  else if beats < 1 ∨ 8 < beats then some .length
  else if last / Config.lineBytes ≠ a / Config.lineBytes ∨ 2 ^ 32 ≤ last then some .span
  else if h.isOutstanding r.requester r.tag then some .tagReuse
  else none

/-- Whether the address lies in the apparent range of window `w`, which is active (R27). -/
def State.inApparent (s : State) (a : Addr) (w : WindowId) : Bool :=
  (s.win w).state.isActive && (s.win w).geometry.covers (s.win w).geometry.apparentBase a

/-- Whether the address lies in a shadow range of window `w`, which is active (R31). -/
def State.inShadow (s : State) (a : Addr) (w : WindowId) : Bool :=
  let g := (s.win w).geometry
  (s.win w).state.isActive
    && (g.covers g.bankA a || g.covers g.bankB a || g.fallback.any fun b => g.covers b a)

/-- The table of R27: the class of an apparent-range request of window `w`. -/
def apparentClass (w : WindowId) (role : Role) (kind : Kind) (st : WindowState) : AccessClass :=
  match role, kind with
  | .none, _ => .violation w .noRole
  | .producer, .write =>
    match st with
    | .flattening => .flattenRetry w
    | .loading => .loadingAccess w
    | _ => .producerWrite w
  | .producer, .read =>
    match st with
    | .flattening => .flattenRetry w
    | .loading => .loadingAccess w
    | _ => .producerRead w
  | _, .write =>
    match st with
    | .flattening => .flattenRetry w
    | _ => .violation w .consumerWrite
  | _, .read =>
    match st with
    | .flattening => .flattenRetry w
    | .loading => .loadingAccess w
    | _ => .publishedRead w

/-- The table of R31: the class of a shadow-range request of window `w`. -/
def shadowClass (w : WindowId) (role : Role) (st : WindowState) : AccessClass :=
  match role, st with
  | .none, _ => .violation w .shadowAccess
  | _, .flattening => .flattenRetry w
  | .maintenance, _ => .rawMaintenance w
  | _, _ => .violation w .shadowAccess

/-- The class of a request, by the four steps of section 2.3 (R24 to R33). No two active windows hold an
address (R12); in states no run reaches the lowest-numbered is taken (DESIGN CHOICE, log entry 17). -/
def State.classify (s : State) (r : HRequest) : AccessClass :=
  match malformedCode s.hport r with
  | some c => .malformed c
  | none =>
    match allWindows.find? (s.inApparent r.address) with
    | some w => apparentClass w (s.role r.requester w) (accessKind r.access) (s.win w).state
    | none =>
      match allWindows.find? (s.inShadow r.address) with
      | some w => shadowClass w (s.role r.requester w) (s.win w).state
      | none => .passThrough

/-- The byte offset of an address in the window's apparent range (R41). -/
def Geometry.apparentOffset (g : Geometry) (a : Addr) : Addr := a - g.apparentBase

/-- The line that an apparent address lies in (R41). -/
def Geometry.lineOf (g : Geometry) (a : Addr) : Nat :=
  (g.apparentOffset a).toNat / Config.lineBytes

/-- The address in a bank range that an apparent address is rewritten to (R28, R41). -/
def Geometry.steered (g : Geometry) (bank : Bank) (a : Addr) : Addr :=
  g.bankBase bank + g.apparentOffset a

/-- The outcome of a request of the given class (R28 to R33, R43 to R48). -/
def State.outcomeOf (s : State) (r : HRequest) : AccessClass → Verdict
  | .malformed c => .malformed c
  | .violation w c => .violation w c
  | .flattenRetry _ => .retry
  | .loadingAccess w =>
    .forward .loadingAccess (some w) ((s.win w).geometry.steered .a r.address) none
  | .publishedRead w =>
    let x := s.win w
    match x.redirection with
    | some base =>
      .forward .publishedRead (some w) (base + x.geometry.apparentOffset r.address) none
    | none =>
      .forward .publishedRead (some w)
        (x.geometry.steered (s.lineEntry w (x.geometry.lineOf r.address)).published r.address)
        (some x.parity)
  | .producerRead w =>
    let x := s.win w
    let e := s.lineEntry w (x.geometry.lineOf r.address)
    if e.filling then .retry
    else
      .forward .producerRead (some w)
        (x.geometry.steered (if e.pending then e.working else e.published) r.address)
        (some x.parity)
  | .producerWrite w =>
    let x := s.win w
    let e := s.lineEntry w (x.geometry.lineOf r.address)
    if x.state = .settling then .retry
    else if e.filling then .retry
    else if e.pending then
      .forward .producerWrite (some w) (x.geometry.steered e.working r.address) none
    else
      match s.freeSlot with
      | none => .retry
      | some n => .firstWrite n w (x.geometry.lineOf r.address)
  | .rawMaintenance w => .forward .rawMaintenance (some w) r.address none
  | .passThrough => .forward .passThrough none r.address none

/-- What becomes of a request accepted now. -/
def State.outcome (s : State) (r : HRequest) : Verdict := s.outcomeOf r (s.classify r)

/-- Whether the outcome takes a tracker entry (R24). -/
def Verdict.needsEntry : Verdict → Bool
  | .forward .. => true
  | _ => false

/-- A response place is taken, and the pair joins the outstanding set; where it was in the set it
stays with the earlier request (R19, R26, R125). -/
def State.takePlace (s : State) (r : HRequest) : State :=
  s.modHPort fun h =>
    { h.setOutstanding r.requester r.tag true with placesHeld := h.placesHeld + 1 }

/-- A local answer: the request's requester and tag, no data (R24). -/
def State.answerLocally (s : State) (r : HRequest) (st : Status) (duplicate : Bool) : State :=
  s.respond { requester := r.requester, tag := r.tag, status := st, data := [], duplicate }

/-- The counts of a window that a forwarded request raises (R7, R50, R52). -/
def Window.countForward (x : Window) (cls : TrackerClass) (parity : Option Bool) : Window :=
  let y := match parity with
    | none => x
    | some p => x.modReadCount p (· + 1)
  { y with requests := y.requests + 1
           producerWrites :=
            if cls = .producerWrite then y.producerWrites + 1 else y.producerWrites }

/-- A request is forwarded: its entry is taken, its operation joins the issue queue, its window's
counts rise (R7, R19, R24, R126). -/
def State.forward (s : State) (r : HRequest) (i : EntryId) (cls : TrackerClass)
    (w : Option WindowId) (a : Addr) (parity : Option Bool) : State :=
  let t := (s.setEntry i (some
      { requester := r.requester, tag := r.tag, address := r.address, kind := accessKind r.access
        beats := accessBeats r.access, cls, window := w, parity })).issue
    { tag := ⟨i.val, by omega⟩, address := a, access := r.access }
  match w with
  | none => t
  | some w => t.modWin w fun x => x.countForward cls parity

/-- The outcome of an accepted request is carried out (R24). -/
def State.carryOut (s : State) (r : HRequest) (duplicate : Bool) : Verdict → State
  | .malformed c =>
    (s.answerLocally r .error duplicate).raise (.malformed r.requester r.address c)
  | .violation w c =>
    ((s.answerLocally r .error duplicate).raise
      (.violation w r.requester r.address c)).violationEvent w
  | .retry => s.answerLocally r .retry duplicate
  | .forward cls w a parity =>
    match s.freeEntry with
    | none => s
    | some i => s.forward r i cls w a parity
  | .firstWrite n w i =>
    s.takeFirstWrite n w i
      { requester := r.requester, tag := r.tag, address := r.address, beats := accessData r.access }

/-- Whether the H-port can accept the request now (R24, R124). -/
def State.canAccept (s : State) (r : HRequest) : Bool :=
  !s.inReset && decide (s.hport.placesHeld < Config.responsePlaces)
    && (!(s.outcome r).needsEntry || s.freeEntry.isSome)

/-- The acceptance of a request, classified against the state at this event (R24, R124). -/
def State.accept (s : State) (r : HRequest) : State :=
  (s.takePlace r).carryOut r (s.hport.isOutstanding r.requester r.tag) (s.outcome r)

/-- The head request of the channel is accepted if it can be (R124). -/
def State.acceptHead (s : State) : Option State :=
  match s.hport.channel with
  | [] => none
  | r :: rest =>
    if s.canAccept r then some ((s.modHPort fun h => { h with channel := rest }).accept r) else none

/-- At most the given number of head requests are accepted, one after another. -/
def State.acceptHeads : Nat → State → State
  | 0, s => s
  | k + 1, s =>
    match s.acceptHead with
    | none => s
    | some t => State.acceptHeads k t

/-- The H-port examines its head at the end of an event, and accepts requests while it can (R124). -/
def State.pump (s : State) : State := State.acceptHeads s.hport.channel.length s

end Sys2Proof.Machine
end

