-- ==== Sys2Proof/Machine/Arbiter.lean ====
section
/-! DEFINITION. What may act at the end of an event: the kept slot requests of flattening windows and
the head request of the H-port, in the order the command gives (R57, R117, R124). -/

namespace Sys2Proof.Machine

/-- The turn of one agent: a window's kept slot request is served, or the steering unit accepts one
head request, where that can be done (R57, R124). -/
def State.turn (s : State) : Agent → State
  | .window w => s.serveCopy w
  | .steering => (s.acceptHead).getD s
  | .slot _ => s
  | .pulse => s
  | .edge _ _ => s

/-- The agents named take their turns in order; then every kept slot request is served, W0 first,
and the H-port accepts requests while it can (R57, R117, R124). -/
def State.arbitrate (s : State) (o : Order) : State :=
  ((o.foldl State.turn s).forWindows allWindows fun w t => t.serveCopy w).pump

/-- An executed command sets DONE (R148); the H-port examines its head after its changes (R124). -/
def accepted (s : State) : ResultCode × State := (.done, s.pump)

end Sys2Proof.Machine
end

