-- ==== Sys2Proof/Machine/FillEvents.lean ====
section
/-! DEFINITION. The meanings of the fill engine's and the flatten logic's commands (R56 to R71, R116,
R117). A command whose event cannot take place in the state changes nothing (DESIGN CHOICE, log entry 3);
those whose event is a consequence of another act only where their condition stands (DEDUCED, log entry
6). -/

namespace Sys2Proof.Machine

/-- Takes `f` with the work of slot `n`, where the slot is in use and `cond` holds of its work. -/
def State.onSlot (s : State) (n : SlotId) (cond : SlotWork → Bool) (f : SlotWork → State → State) :
    State :=
  s.whenRunning fun s =>
    match s.slot n with
    | none => s
    | some k => if cond k then f k s else s

/-- FILL_READ_DONE (R59, R60). The row carries a full line. A response of another length, which only a
response taken for another operation can have (R133), leaves the buffer's content open: it is the line
that the row carries, any one (DESIGN CHOICE, log entry 27). -/
def execFillReadDone (slot : SlotId) (data : Line) (s : State) : Answer :=
  .next (s.onSlot slot (fun k => k.isFill && k.phase = .reading) fun k s =>
    (s.fillReadDone slot k data).pump)

/-- FILL_WRITE_START (R60, R61). -/
def execFillWriteStart (slot : SlotId) (s : State) : Answer :=
  .next (s.whenRunning fun s => (s.leaveWaiting slot).pump)

/-- FILL_COMPLETES (R62), with the drains that wait for the fill (R84, R116). -/
def execFillCompletes (slot : SlotId) (order : Order) (s : State) : Answer :=
  .next (s.onSlot slot (fun k => k.isFill && k.phase = .writing) fun k s =>
    ((s.fillComplete slot k).drainTests k.window).arbitrate order)

/-- FILL_OPERATION_RETRY (R64, R69): below attempt 4 the operation is issued again. -/
def execFillOperationRetry (slot : SlotId) (s : State) : Answer :=
  .next (s.onSlot slot
    (fun k => !k.orphaned && (k.phase = .reading || k.phase = .writing)
      && decide (k.attempt < Config.maxAttempts))
    fun k s => (s.startPhase slot { k with attempt := k.attempt + 1 }).pump)

/-- FILL_FAILS (R65, R66), with the drains that wait for the fill (R84, R116). -/
def execFillFails (slot : SlotId) (status : BitVec 2) (order : Order) (s : State) : Answer :=
  .next (s.onSlot slot (fun k => k.isFill && k.failsOn (statusOfCode status)) fun k s =>
    ((s.fillFail slot k (statusOfCode status)).drainTests k.window).arbitrate order)

/-- RETIRING_SLOT_FREED (R71). -/
def execRetiringSlotFreed (slot : SlotId) (_status : BitVec 2) (order : Order) (s : State) : Answer :=
  .next (s.onSlot slot (fun k => k.phase = .retiring) fun _ s =>
    (s.setSlot slot none).arbitrate order)

/-- FLATTEN_COPY_READ_DONE (R68 step 1). The row carries a full line, as FILL_READ_DONE does (DESIGN
CHOICE, log entry 27). -/
def execFlattenCopyReadDone (slot : SlotId) (data : Line) (s : State) : Answer :=
  .next (s.onSlot slot (fun k => k.isCopy && k.phase = .reading) fun k s =>
    (s.startPhase slot { k with phase := .writing, buffer := some data, attempt := 1 }).pump)

/-- FLATTEN_COPY_DONE (R68 step 2, R117). -/
def execFlattenCopyDone (slot : SlotId) (order : Order) (s : State) : Answer :=
  .next (s.onSlot slot (fun k => k.isCopy && k.phase = .writing) fun k s =>
    (s.copyDone slot k).arbitrate order)

/-- FLATTEN_COPY_FAILED (R69, R120). -/
def execFlattenCopyFailed (slot : SlotId) (status : BitVec 2) (order : Order) (s : State) : Answer :=
  .next (s.onSlot slot (fun k => k.isCopy && k.failsOn (statusOfCode status)) fun k s =>
    (s.copyFailed slot k).arbitrate order)

/-- FLATTEN_DRAIN_COMPLETE (R116, R117). -/
def execFlattenDrainComplete (w : WindowId) (order : Order) (s : State) : Answer :=
  .next (s.whenRunning fun s =>
    if (s.win w).flattenDrained then (s.walkFrom w 0).arbitrate order else s)

/-- FLATTEN_REQUEST_SERVED (R57, R117). -/
def execFlattenRequestServed (w : WindowId) (s : State) : Answer :=
  .next (s.whenRunning fun s => (s.serveCopy w).pump)

end Sys2Proof.Machine
end

