-- ==== Sys2Proof/Machine/Formats.lean ====
section
/-! DEFINITION. The bytes the management port shifts out: the code tables and response layouts of
section 11.2, and the link items of section 11.1. -/

namespace Sys2Proof.Machine

/-- A count as one byte. -/
def byteOfNat (n : Nat) : Byte := BitVec.ofNat 8 n

/-- A flag as the bit of number `i`. -/
def bitAt (i : Nat) (on : Bool) : Byte := if on then (1 : Byte) <<< i else 0

/-- A two-byte field, most significant byte first (R146). -/
def bytesOfHalf (x : Half) : List Byte := [x.extractLsb' 8 8, x.extractLsb' 0 8]

/-- A four-byte field, most significant byte first (R146). -/
def bytesOfAddr (x : Addr) : List Byte :=
  [x.extractLsb' 24 8, x.extractLsb' 16 8, x.extractLsb' 8 8, x.extractLsb' 0 8]

/-! ### Codes (section 11.2) -/

/-- The result codes. -/
def resultCodeOf : ResultCode → Byte
  | .done => 0
  | .badCommand => 1
  | .badLength => 2
  | .refusedState => 3
  | .refusedRange => 4
  | .refusedOverlap => 5
  | .refusedMap => 6
  | .refusedBusy => 7

/-- The window state codes. -/
def windowStateCode : WindowState → Byte
  | .off => 0
  | .loading => 1
  | .live => 2
  | .settling => 3
  | .flattening => 4

/-- The settle kind codes; absent is 0. -/
def settleKindCode : Option SettleKind → Byte
  | none => 0
  | some .commit => 1
  | some .discard => 2

/-- The role cell codes. -/
def roleCode : Role → Byte
  | .none => 0
  | .consumer => 1
  | .producer => 2
  | .maintenance => 3

/-- The commit mode codes. -/
def commitModeCode : CommitMode → Byte
  | .boundary => 0
  | .prompt => 1

/-- The hold policy codes. -/
def holdPolicyCode : HoldPolicy → Byte
  | .latched => 0
  | .perBoundary => 1

/-- The hold status codes. -/
def holdStatusCode : HoldStatus → Byte
  | .clear => 0
  | .active => 1
  | .releasing => 2

/-- The hold sources byte. -/
def sourcesCode (x : HoldSources) : Byte :=
  bitAt 0 x.hold0 ||| bitAt 1 x.hold1 ||| bitAt 2 x.violation ||| bitAt 3 x.fillFailed

/-- The notice codes of COMMIT_CANCELLED. -/
def cancelCodeByte : CancelCode → Byte
  | .hold => 1
  | .timeout => 2

/-- The notice codes of HOLD_ACTIVE. -/
def holdSourceByte : HoldSource → Byte
  | .hold0 => 3
  | .hold1 => 4
  | .manual => 5
  | .violation => 6
  | .fillFailed => 7

/-- The notice codes of VIOLATION. -/
def violationCodeByte : ViolationCode → Byte
  | .noRole => 8
  | .consumerWrite => 9
  | .shadowAccess => 10

/-- The notice codes of MALFORMED. -/
def malformedCodeByte : MalformedCode → Byte
  | .align => 11
  | .length => 12
  | .span => 13
  | .tagReuse => 14

/-- The notice codes of FILL_FAILED. -/
def fillCodeByte : FillCode → Byte
  | .readError => 15
  | .writeError => 16
  | .retryExhausted => 17

/-! ### Responses -/

/-- The port status byte (R145, section 11.2). -/
def State.statusByte (s : State) : Byte :=
  resultCodeOf s.mgmt.lastResult ||| bitAt 3 s.noticePending ||| bitAt 4 s.notices.overflow
    ||| bitAt 5 s.anySettling

/-- The READ STATUS response, 12 bytes (R149). -/
def State.statusResponse (s : State) : List Byte :=
  [Config.deviceCode, resultCodeOf s.mgmt.lastResult, byteOfNat s.notices.records.length,
    bitAt 0 s.notices.overflow ||| bitAt 1 s.anySettling]
    ++ allWindows.map fun w => windowStateCode (s.win w).state

/-- The flags of byte 3 of the window record (section 11.2). -/
def windowFlags (x : Window) : Byte :=
  bitAt 0 x.armed ||| bitAt 1 x.holdAck ||| bitAt 2 x.eventSince ||| bitAt 3 x.manualHold
    ||| bitAt 4 x.forcedFallback ||| bitAt 5 x.geometry.fallback.isSome
    ||| bitAt 6 x.drainTimer.isSome ||| bitAt 7 x.cursor.isSome

/-- The READ WINDOW response, 47 bytes (R150); an absent field is zero bytes (R155). -/
def windowResponse (w : WindowId) (x : Window) : List Byte :=
  [byteOfNat w.val, windowStateCode x.state, settleKindCode x.settleKind, windowFlags x]
    ++ bytesOfAddr x.geometry.apparentBase
    ++ bytesOfHalf x.geometry.lineCount
    ++ bytesOfHalf x.geometry.mapOffset
    ++ bytesOfAddr x.geometry.bankA
    ++ bytesOfAddr x.geometry.bankB
    ++ bytesOfAddr (x.geometry.fallback.getD 0)
    ++ [commitModeCode x.policy.commitMode, byteOfNat x.policy.divider]
    ++ bytesOfHalf x.policy.drainLimit
    ++ [holdPolicyCode x.policy.holdPolicy, sourcesCode x.policy.sources,
        bitAt 0 x.policy.redirect ||| bitAt 1 x.policy.pubreqEnable
          ||| bitAt 2 x.policy.commitNotices ||| bitAt 3 x.policy.commitOutput,
        holdStatusCode x.holdStatus]
    ++ bytesOfHalf x.generation
    ++ [byteOfNat x.dividerCount]
    ++ bytesOfHalf (BitVec.ofNat 16 x.pendingCount)
    ++ [byteOfNat x.parity.toNat, byteOfNat x.reads0, byteOfNat x.reads1, byteOfNat x.fills,
        byteOfNat x.producerWrites, byteOfNat x.requests]
    ++ bytesOfHalf (x.drainTimer.getD 0)
    ++ bytesOfHalf (BitVec.ofNat 16 (x.cursor.getD 0))

/-- The READ LINE response byte (section 11.2). -/
def lineEntryByte (e : LineEntry) : Byte :=
  bitAt 0 (e.published = .b) ||| bitAt 1 e.pending ||| bitAt 2 e.filling

/-- The READ ROLES response, 8 bytes (R22). -/
def State.rolesResponse (s : State) (r : Requester) : List Byte :=
  allWindows.map fun w => roleCode (s.role r w)

/-- The fields of a notice record beside its kind: each present or absent (section 9.1). -/
structure NoticeFields where
  kind       : Byte
  window     : Option WindowId := none
  requester  : Option Requester := none
  address    : Option Addr := none
  generation : Option Half := none
  count      : Option Nat := none
  code       : Option Byte := none

/-- The kind code and the present fields of a notice (sections 9.1 and 11.2). -/
def noticeFields : Notice → NoticeFields
  | .commitDone w g n => { kind := 1, window := some w, generation := some g, count := some n }
  | .commitCancelled w g c =>
    { kind := 2, window := some w, generation := some g, code := some (cancelCodeByte c) }
  | .commitLate w g => { kind := 3, window := some w, generation := some g }
  | .discardDone w n => { kind := 4, window := some w, count := some n }
  | .discardCancelled w =>
    { kind := 5, window := some w, code := some (cancelCodeByte .timeout) }
  | .holdActive w c => { kind := 6, window := some w, code := some (holdSourceByte c) }
  | .holdReleased w => { kind := 7, window := some w }
  | .violation w r a c =>
    { kind := 8, window := some w, requester := some r, address := some a
      code := some (violationCodeByte c) }
  | .malformed r a c =>
    { kind := 9, requester := some r, address := some a, code := some (malformedCodeByte c) }
  | .fillFailed w r a c =>
    { kind := 10, window := some w, requester := some r, address := some a
      code := some (fillCodeByte c) }
  | .flattenDone w => { kind := 11, window := some w }
  | .flattenFailed w n => { kind := 12, window := some w, count := some n }

/-- A record slot of READ NOTICE, 16 bytes (section 11.2). -/
def noticeBytes (n : Notice) : List Byte :=
  let x := noticeFields n
  [x.kind,
    bitAt 0 x.window.isSome ||| bitAt 1 x.requester.isSome ||| bitAt 2 x.address.isSome
      ||| bitAt 3 x.generation.isSome ||| bitAt 4 x.count.isSome ||| bitAt 5 x.code.isSome,
    byteOfNat ((x.window.map Fin.val).getD 0), byteOfNat ((x.requester.map Fin.val).getD 0)]
    ++ bytesOfAddr (x.address.getD 0)
    ++ bytesOfHalf (x.generation.getD 0)
    ++ bytesOfHalf (BitVec.ofNat 16 (x.count.getD 0))
    ++ [x.code.getD 0, 0, 0, 0]

/-- A record slot: its record, or zero bytes where it holds none (R151). -/
def slotBytes : Option Notice → List Byte
  | none => List.replicate 16 0
  | some n => noticeBytes n

/-- The response bytes of the content taken; zero bytes where there is none (R146, R147). -/
def Taken.bytes : Taken → List Byte
  | .nothing => []
  | .response l => l
  | .records _ => []
  | .slot n => slotBytes n
  | .refused => []

/-- The bits of a byte, most significant first (R144). -/
def bitsOfByte (b : Byte) : List Bool := (List.range 8).map b.getMsbD

/-! ### Link items (section 11.1, R154) -/

/-- The kind codes. -/
def kindCode : Kind → BitVec 1
  | .read => 0
  | .write => 1

/-- The kind a code names. -/
def kindOfCode (c : BitVec 1) : Kind := if c = 0 then .read else .write

/-- The status codes that the H-port presents; it never presents 3 (R154). -/
def statusCode : Status → BitVec 2
  | .okay => 0
  | .error => 1
  | .retry => 2

/-- The header of a request on the H-port. -/
structure HRequestHeader where
  kind      : BitVec 1
  requester : BitVec 4
  tag       : BitVec 3
  address   : Addr
  beats     : BitVec 4
  deriving DecidableEq, Repr

/-- The header of a request on the M-port. -/
structure MRequestHeader where
  kind    : BitVec 1
  tag     : BitVec 6
  address : Addr
  beats   : BitVec 4
  deriving DecidableEq, Repr

/-- The header of a response on the H-port. -/
structure HResponseHeader where
  requester : BitVec 4
  tag       : BitVec 3
  status    : BitVec 2
  deriving DecidableEq, Repr

/-- The header that presents a request on the H-port. -/
def requestHeader (r : HRequest) : HRequestHeader :=
  { kind := kindCode (accessKind r.access), requester := BitVec.ofNat 4 r.requester.val
    tag := BitVec.ofNat 3 r.tag.val, address := r.address
    beats := BitVec.ofNat 4 (accessBeats r.access) }

/-- The request that a header with its beat transfers presents: a READ presents none (R154). -/
def HRequestHeader.request (h : HRequestHeader) (data : List Beat) : HRequest :=
  { requester := h.requester.toFin, tag := h.tag.toFin, address := h.address
    access := match kindOfCode h.kind with
      | .read => .read h.beats.toFin
      | .write => .write data }

/-- The header of an operation that the M-port presents. -/
def MOp.header (op : MOp) : MRequestHeader :=
  { kind := kindCode (accessKind op.access), tag := BitVec.ofNat 6 op.tag.val
    address := op.address, beats := BitVec.ofNat 4 (accessBeats op.access) }

/-- The header of a response that the H-port presents. -/
def HResponse.header (r : HResponse) : HResponseHeader :=
  { requester := BitVec.ofNat 4 r.requester.val, tag := BitVec.ofNat 3 r.tag.val
    status := statusCode r.status }

/-- The request item that the M-port presents: the header and the beats of its oldest operation; none
while RESET_N is asserted or the issue queue is empty (R122, R127, R133). -/
def State.presentedOperation (s : State) : Option (MRequestHeader × List Beat) :=
  if s.inReset then none else s.issueQueue.head?.map fun op => (op.header, accessData op.access)

/-- The response item that the H-port presents: the header and the data of its oldest response (R122,
R125, R133). -/
def State.presentedResponse (s : State) : Option (HResponseHeader × List Word) :=
  if s.inReset then none else s.hport.responses.head?.map fun r => (r.header, r.data)

end Sys2Proof.Machine
end

