-- ==== Sys2Proof/Machine/Port.lean ====
section
/-! DEFINITION. The management port: a frame clocked byte by byte, with what it shifts out and the
content it takes, and the checks and the result at its end (R144 to R148, R151). -/

namespace Sys2Proof.Machine

/-! ### The bits of a frame -/

/-- SCK edges since CS went low; 0 outside a frame (R144). -/
def MgmtPort.bits (m : MgmtPort) : Nat :=
  match m.frameState with
  | .inFrame b => b
  | _ => 0

/-- SCK edges after the command byte (R147). -/
def MgmtPort.bitsAfter (m : MgmtPort) : Nat := m.bits - 8

/-- Complete bytes after the command byte. -/
def MgmtPort.byteIndex (m : MgmtPort) : Nat := m.bitsAfter / 8

/-- The argument bytes of the command decoded; a byte that names none has none (R146, R147). -/
def argumentCount : Option CommandName → Nat
  | none => 0
  | some c => argumentBytes c

/-- Whether a part of a frame with this command can be clocked now: the port is not in a frame, its
frame has no complete command byte yet, or it is a frame of this command (R144). -/
def MgmtPort.takesPart (m : MgmtPort) (c : Option CommandName) : Bool :=
  match m.frameState with
  | .inFrame b => decide (b = 0) || decide (m.command = c)
  | _ => true

/-- CS goes low on an idle port: a frame starts, and the status byte's content is taken (R144, R145). -/
def MgmtPort.csFalls (m : MgmtPort) (status : Byte) : MgmtPort :=
  match m.frameState with
  | .inFrame _ => m
  | _ =>
    { m with frameState := .inFrame 0, command := none, status, taken := .nothing, argBuffer := []
             sdo := { bytes := [], tail := [] } }

/-- The content that a command takes at the end of its command byte (R149, R150). -/
def State.takenAtCommand (s : State) : Option CommandName → Taken
  | some .readStatus => .response s.statusResponse
  | some .readWindow => .records s.windows
  | _ => .nothing

/-- The command byte is complete: the status byte has gone out (R144, R145). -/
def State.clockCommand (s : State) (c : Option CommandName) (m : MgmtPort) : MgmtPort :=
  if m.bits = 0 then
    { m with frameState := .inFrame 8, command := c, taken := s.takenAtCommand c
             sdo := { bytes := [m.status], tail := [] } }
  else m

/-- The entry that READ LINE reports, chosen from the stored geometry of window `w`; none where the
index is not below the line count or the entry lies past the store (R40). -/
def State.reportedEntry (s : State) (w : WindowId) (i : Nat) : Option LineEntry :=
  let g := (s.win w).geometry
  if i < g.lineCount.toNat ∧ g.entryIndex i < Config.lineEntries then some (s.lineEntry w i) else none

/-- The content of a READ WINDOW response, chosen by the window byte from the records taken (R150). -/
def windowTaken (b : Byte) : Taken → Taken
  | .records v =>
    match windowOfByte b with
    | none => .refused
    | some w => .response (windowResponse w v[w.val])
  | _ => .refused

/-- The content of a READ ROLES response (R22). -/
def State.rolesTaken (s : State) (b : Byte) : Taken :=
  match requesterOfByte b with
  | none => .refused
  | some r => .response (s.rolesResponse r)

/-- The content of a READ LINE response (R40). -/
def State.lineTaken (s : State) (f : Frame) : Taken :=
  match windowOfByte (frameByte f 0) with
  | none => .refused
  | some w =>
    match s.reportedEntry w (frameHalf f 1).toNat with
    | none => .refused
    | some e => .response [lineEntryByte e]

/-- The content that a command takes at the last bit of its final argument byte (R22, R40, R150). -/
def State.takenAtArguments (s : State) (c : Option CommandName) (args : List Byte) (t : Taken) :
    Taken :=
  match c with
  | some .readWindow => windowTaken (args.getD 0 0) t
  | some .readRoles => s.rolesTaken (args.getD 0 0)
  | some .readLine => s.lineTaken { args }
  | _ => t

/-- The content that the byte of number `i` after the command byte is shifted out from: at the first
bit of a slot READ NOTICE takes the record at the head of the queue (R151). -/
def offered (c : Option CommandName) (i : Nat) (t : Taken) (q : NoticeQueue) : Taken :=
  if c = some .readNotice ∧ i % 16 = 0 then .slot q.records.head? else t

/-- Byte `i` after the command byte on SDO: zero bytes while arguments go in, then the response, or the
bytes of the slot, then zero bytes (R146, R151). -/
def outByte (c : Option CommandName) (i : Nat) (t : Taken) : Byte :=
  if i < argumentCount c then 0
  else t.bytes.getD (if c = some .readNotice then i % 16 else i - argumentCount c) 0

/-- The port and the queue after a complete byte: an argument byte joins the buffer; the last byte of a
slot removes its record (R137, R146, R151). -/
def State.clockByte (s : State) (c : Option CommandName) (p : MgmtPort × NoticeQueue) (b : Byte) :
    MgmtPort × NoticeQueue :=
  let m := p.1
  let i := m.byteIndex
  let t := offered c i m.taken p.2
  let args := if i < argumentCount c then m.argBuffer ++ [b] else m.argBuffer
  let ends := c = some .readNotice ∧ i % 16 = 15
  ({ m with
      frameState := .inFrame (m.bits + 8)
      argBuffer := args
      taken :=
        if ends then .nothing
        else if i + 1 = argumentCount c then s.takenAtArguments c args t
        else t
      sdo := { bytes := m.sdo.bytes ++ [outByte c i t], tail := [] } },
    match t with
    | .slot (some _) => if ends then p.2.removeHead else p.2
    | _ => p.2)

/-- The port and the queue after the bytes of a part of a frame (R144). -/
def State.clocked (s : State) (c : Option CommandName) (f : Frame) : MgmtPort × NoticeQueue :=
  let m := s.mgmt.csFalls s.statusByte
  match f.till with
  | .csFell => (m, s.notices)
  | .csRisesEarly => (m, s.notices)
  | _ => f.args.foldl (s.clockByte c) (s.clockCommand c m, s.notices)

/-- The bits on SDO beyond the last complete byte of the frame (R144, R146, R151). -/
def tailBits (c : Option CommandName) (f : Frame) (p : MgmtPort × NoticeQueue) : List Bool :=
  let i := p.1.byteIndex
  (bitsOfByte (outByte c i (offered c i p.1.taken p.2))).take (f.extra % 8)

/-! ### The end of a frame -/

/-- CS goes high: the port is idle again and the result replaces the last result code (R144, R148);
the argument bytes and what SDO carried stay (log entries 8 and 9). -/
def MgmtPort.ended (m : MgmtPort) (tail : List Bool) (r : ResultCode) : MgmtPort :=
  { frameState := .idle, command := none, status := 0, taken := .nothing, argBuffer := m.argBuffer
    lastResult := r, sdo := { m.sdo with tail } }

/-- CS goes high before the command byte is complete: the port is idle again, no command is executed and
the last result code stays; `e` SCK edges have shifted out bits of the status byte (R144, R145). Once the
command byte is complete a frame cannot end so (log entry 3). -/
def MgmtPort.endedEarly (m : MgmtPort) (e : Nat) : MgmtPort :=
  if m.bits = 0 then m.ended ((bitsOfByte m.status).take (e % 8)) m.lastResult else m

/-- A part of a frame at the port: its bytes are clocked, and where CS goes high after them the frame
ends as `atEnd` gives. A part that cannot be clocked now changes nothing (log entry 3). -/
def State.frame (s : State) (c : Option CommandName) (f : Frame)
    (atEnd : MgmtPort × NoticeQueue → State → ResultCode × State) : State :=
  if s.mgmt.takesPart c then
    let p := s.clocked c f
    let t := s.modNotices fun _ => p.2
    match f.till with
    | .csRises => let r := atEnd p t; r.2.modMgmt fun _ => p.1.ended (tailBits c f p) r.1
    | .csRisesEarly => t.modMgmt fun _ => p.1.endedEarly f.extra
    | _ => t.modMgmt fun _ => p.1
  else s

/-- SCK edges after the command byte in a frame that ends (R147). -/
def totalBits (f : Frame) (m : MgmtPort) : Nat := m.bitsAfter + f.extra % 8

/-- A write-type frame: at its end exactly its argument bytes, else BAD_LENGTH (R147); the body gives
the result and the state its effects leave, from the argument bytes. -/
def State.writeFrame (s : State) (c : CommandName) (f : Frame)
    (body : Frame → State → ResultCode × State) : State :=
  s.frame (some c) f fun p t =>
    if totalBits f p.1 = 8 * argumentBytes c then body { args := p.1.argBuffer } t
    else (.badLength, t)

/-- The result of a read frame whose arguments are complete (R147, R148). -/
def Taken.result : Taken → ResultCode
  | .refused => .refusedRange
  | _ => .done

/-- A read frame: at its end at least its argument bytes, else BAD_LENGTH (R147). -/
def State.readFrame (s : State) (c : CommandName) (f : Frame) : State :=
  s.frame (some c) f fun p t =>
    (if 8 * argumentBytes c ≤ totalBits f p.1 then p.1.taken.result else .badLength, t)

/-- The window byte check of R147: above 7 gives REFUSED_RANGE. -/
def onWindow (f : Frame) (body : WindowId → State → ResultCode × State) (s : State) :
    ResultCode × State :=
  match windowOfByte (frameByte f 0) with
  | none => (.refusedRange, s)
  | some w => body w s

/-- A refusal changes nothing beyond the last result code (R147). -/
def refuse (r : ResultCode) (s : State) : ResultCode × State := (r, s)

end Sys2Proof.Machine
end

