-- ==== Sys2Proof/Machine/HoldCommands.lean ====
section
/-! DEFINITION. The meanings of SET HOLD, CLEAR HOLD and FORCE FALLBACK (R98, R100, R110). -/

namespace Sys2Proof.Machine

/-- Manual hold takes a value at window `w`: in LIVE or SETTLING a change asserts or releases the source
(R98). -/
def State.setManualHold (s : State) (w : WindowId) (on : Bool) : State :=
  if (s.win w).manualHold = on then s
  else
    let t := s.modWin w fun x => { x with manualHold := on }
    if on then t.levelAsserts w .manual else t.levelReleases w

/-- The body of SET HOLD at window `w` (R98). -/
def setHoldAt (f : Frame) (w : WindowId) (s : State) : ResultCode × State :=
  match flagOfByte (frameByte f 1) with
  | none => refuse .refusedRange s
  | some on =>
    if (s.win w).state = .off ∨ (s.win w).state = .flattening then refuse .refusedState s
    else accepted (s.setManualHold w on)

/-- SET HOLD (R98). -/
def execSetHold (frame : Frame) (s : State) : Answer :=
  .next (s.whenRunning fun s => s.writeFrame .setHold frame fun f => onWindow f (setHoldAt f))

/-- The effect of an accepted CLEAR HOLD (R100). -/
def State.acknowledgeHold (s : State) (w : WindowId) : State :=
  if (s.win w).holdStatus = .active ∧ !(s.win w).holdAck then
    s.modWin w fun x =>
      { x with holdAck := true, holdStatus := if s.levelAsserted w then .active else .releasing }
  else s

/-- The body of CLEAR HOLD at window `w` (R100). -/
def clearHoldAt (w : WindowId) (s : State) : ResultCode × State :=
  if (s.win w).state.isLiveOrSettling ∧ (s.win w).policy.holdPolicy = .latched then
    accepted (s.acknowledgeHold w)
  else refuse .refusedState s

/-- CLEAR HOLD (R100). -/
def execClearHold (frame : Frame) (s : State) : Answer :=
  .next (s.whenRunning fun s => s.writeFrame .clearHold frame fun f => onWindow f clearHoldAt)

/-- The body of FORCE FALLBACK at window `w` (R110). -/
def forceFallbackAt (f : Frame) (w : WindowId) (s : State) : ResultCode × State :=
  match flagOfByte (frameByte f 1) with
  | none => refuse .refusedRange s
  | some on =>
    if (s.win w).state.isLiveOrSettling then
      if (s.win w).geometry.fallback.isSome then
        accepted (s.modWin w fun x => { x with forcedFallback := on })
      else refuse .refusedRange s
    else refuse .refusedState s

/-- FORCE FALLBACK (R110). -/
def execForceFallback (frame : Frame) (s : State) : Answer :=
  .next (s.whenRunning fun s =>
    s.writeFrame .forceFallback frame fun f => onWindow f (forceFallbackAt f))

end Sys2Proof.Machine
end

