-- ==== Sys2Proof/Machine/LinkEvents.lean ====
section
/-! DEFINITION. The meanings of the link's commands: REQUEST_ACCEPTED, RESPONSE_ACCEPTED,
MEMORY_SIDE_ACCEPT, TRACKER_RESPONSE and STRAY_RESPONSE_DISCARDED (R24, R122 to R134). A command whose
event cannot take place in the state changes nothing (DESIGN CHOICE, log entry 3). -/

namespace Sys2Proof.Machine

/-- The host side's acceptance of the oldest response: its place is released, and its pair leaves the
outstanding set unless it answered a duplicate (R19, R125). -/
def HPort.acceptResponse (h : HPort) : HPort :=
  match h.responses with
  | [] => h
  | r :: rest =>
    let g := if r.duplicate then h else h.setOutstanding r.requester r.tag false
    { g with responses := rest, placesHeld := h.placesHeld - 1 }

/-- The window counts that the response to an entry lowers (R7, R129 step 1). -/
def Window.countResponse (x : Window) (e : InFlight) : Window :=
  let y := match e.parity with
    | none => x
    | some p => x.modReadCount p (· - 1)
  { y with requests := y.requests - 1
           producerWrites :=
            if e.cls = .producerWrite then y.producerWrites - 1 else y.producerWrites }

/-- The data words a response passes up: those of an OKAY READ, one for each beat requested (R129,
R154); words past those, which the link does not send, are dropped (DESIGN CHOICE, log entry 18). -/
def InFlight.passedData (e : InFlight) (st : Status) (data : List Word) : List Word :=
  if st = .okay ∧ e.kind = .read then data.take e.beats else []

/-- Steps 1 to 3 of R129: the counts fall, the response is placed, the entry is freed. -/
def State.endEntry (s : State) (i : EntryId) (e : InFlight) (st : Status) (data : List Word) : State :=
  let t := match e.window with
    | none => s
    | some w => s.modWin w fun x => x.countResponse e
  (t.respond
    { requester := e.requester, tag := e.tag, status := st, data := e.passedData st data
      duplicate := false }).setEntry i none

/-- Step 4 of R129: the slots in WAITING and the drains that wait on the window's counts. -/
def State.testCounts (s : State) (w : Option WindowId) (o : Order) : State :=
  match w with
  | none => s
  | some w => (s.leaveWaitingOf w (slotsIn o)).drainTests w

/-- REQUEST_ACCEPTED (R24, R124): the request stands on the channel, behind those already there; the
H-port accepts from the head while it can. -/
def execRequestAccepted (req : HRequest) (s : State) : Answer :=
  .next (s.modHPort fun h => { h with channel := h.channel ++ [req] }).pump

/-- RESPONSE_ACCEPTED (R125). -/
def execResponseAccepted (s : State) : Answer :=
  .next (s.whenRunning fun s =>
    if s.hport.responses.isEmpty then s else (s.modHPort HPort.acceptResponse).pump)

/-- MEMORY_SIDE_ACCEPT (R127): the oldest operation leaves the issue queue. -/
def execMemorySideAccept (s : State) : Answer :=
  .next (s.whenRunning fun s => s.setIssueQueue s.issueQueue.tail)

/-- TRACKER_RESPONSE (R129): a response whose entry is free is discarded. -/
def execTrackerResponse (tag : EntryId) (status : BitVec 2) (data : List Word) (order : Order)
    (s : State) : Answer :=
  .next (s.whenRunning fun s =>
    match s.entry tag with
    | none => s
    | some e =>
      ((s.endEntry tag e (statusOfCode status) data).testCounts e.window order).arbitrate order)

/-- STRAY_RESPONSE_DISCARDED (R129): a discarded response changes nothing and raises no notice. -/
def execStrayResponseDiscarded (_tag : Fin 64) (_status : BitVec 2) (_data : List Word)
    (s : State) : Answer := .next s

end Sys2Proof.Machine
end

