-- ==== Sys2Proof/Machine/ReadCommands.lean ====
section
/-! DEFINITION. The meanings of the read commands and of BAD_COMMAND (R22, R40, R147, R149 to R151). What
each shifts out is taken where its rule says, in Port.lean. -/

namespace Sys2Proof.Machine

/-- READ STATUS (R149). -/
def execReadStatus (frame : Frame) (s : State) : Answer :=
  .next (s.whenRunning fun s => s.readFrame .readStatus frame)

/-- READ WINDOW (R6, R150). -/
def execReadWindow (frame : Frame) (s : State) : Answer :=
  .next (s.whenRunning fun s => s.readFrame .readWindow frame)

/-- READ ROLES (R22). -/
def execReadRoles (frame : Frame) (s : State) : Answer :=
  .next (s.whenRunning fun s => s.readFrame .readRoles frame)

/-- READ LINE (R40). -/
def execReadLine (frame : Frame) (s : State) : Answer :=
  .next (s.whenRunning fun s => s.readFrame .readLine frame)

/-- READ NOTICE (R137, R151). -/
def execReadNotice (frame : Frame) (s : State) : Answer :=
  .next (s.whenRunning fun s => s.readFrame .readNotice frame)

/-- BAD_COMMAND (R147, R155): a frame whose command byte names no command. The argument bytes are not
examined, and zero bytes follow the status byte. -/
def execBadCommand (command : Byte) (frame : Frame) (s : State) : Answer :=
  .next (s.whenRunning fun s =>
    if (commandOfByte command).isNone then s.frame none frame fun _ t => (.badCommand, t) else s)

end Sys2Proof.Machine
end

