-- ==== Sys2Proof/Machine/WriteCommands.lean ====
section
/-! DEFINITION. The meanings of the WRITE commands (R2, R4, R5, R21, R152). -/

namespace Sys2Proof.Machine

/-- The body of WRITE GEOMETRY at window `w` (R2). -/
def writeGeometryAt (f : Frame) (w : WindowId) (s : State) : ResultCode × State :=
  if (s.win w).state = .off then
    accepted (s.modWin w fun x => { x with geometry := geometryOfFrame f })
  else refuse .refusedState s

/-- WRITE GEOMETRY (R2). -/
def execWriteGeometry (frame : Frame) (s : State) : Answer :=
  .next (s.whenRunning fun s =>
    s.writeFrame .writeGeometry frame fun f => onWindow f (writeGeometryAt f))

/-- Check 2 of R4: a hold stands in LIVE, and the frame's hold fields differ from the stored ones. -/
def holdFieldsDiffer (f : Frame) (x : Window) : Bool :=
  frameByte f 5 ≠ holdPolicyCode x.policy.holdPolicy || frameByte f 6 ≠ sourcesCode x.policy.sources

/-- What an accepted policy does at its frame end (R4, R5, R81, R106). -/
def State.storePolicy (s : State) (w : WindowId) (p : Policy) : State :=
  let t := s.modWin w fun x => { x with policy := p, dividerCount := 0 }
  if (s.win w).state = .live then
    (if (s.win w).holdStatus = .clear then t.evaluateHold w else t).promptTest w
  else t

/-- The body of WRITE POLICY at window `w`, with the checks of R4 in their order. -/
def writePolicyAt (f : Frame) (w : WindowId) (s : State) : ResultCode × State :=
  let x := s.win w
  if x.state = .settling ∨ x.state = .flattening then refuse .refusedState s
  else if x.state = .live ∧ x.holdStatus ≠ .clear ∧ holdFieldsDiffer f x then refuse .refusedState s
  else
    match policyOfFrame f with
    | none => refuse .refusedRange s
    | some p => accepted (s.storePolicy w p)

/-- WRITE POLICY (R4, R5). -/
def execWritePolicy (frame : Frame) (s : State) : Answer :=
  .next (s.whenRunning fun s =>
    s.writeFrame .writePolicy frame fun f => onWindow f (writePolicyAt f))

/-- The body of WRITE ROLES (R21). -/
def writeRolesBody (f : Frame) (s : State) : ResultCode × State :=
  match requesterOfByte (frameByte f 0), rolesOfFrame f with
  | some r, some cells => accepted (s.setRoles (s.roles.set r.val cells))
  | _, _ => refuse .refusedRange s

/-- WRITE ROLES (R21, R23). -/
def execWriteRoles (frame : Frame) (s : State) : Answer :=
  .next (s.whenRunning fun s => s.writeFrame .writeRoles frame writeRolesBody)

/-- The device settings replaced, with the effect on the edge count of a changed divisor (R138). -/
def State.storeSettings (s : State) (c : Settings) : State :=
  let t := s.setSettings c
  if s.settings.tickDivisor = c.tickDivisor then t else t.modLines fun l => { l with edgeCount := 0 }

/-- The body of WRITE DEVICE SETTINGS (R138, R140, R152). -/
def writeDeviceSettingsBody (f : Frame) (o : Order) (s : State) : ResultCode × State :=
  match settingsOfFrame f with
  | none => refuse .refusedRange s
  | some c =>
    accepted ((s.storeSettings c).forWindows (windowsIn o) fun w t => t.polarityAt s.settings w)

/-- WRITE DEVICE SETTINGS (R152). -/
def execWriteDeviceSettings (frame : Frame) (order : Order) (s : State) : Answer :=
  .next (s.whenRunning fun s =>
    s.writeFrame .writeDeviceSettings frame fun f => writeDeviceSettingsBody f order)

end Sys2Proof.Machine
end

