-- ==== Sys2Proof/Machine/WindowCommands.lean ====
section
/-! DEFINITION. The meanings of the commands that move a window through its life: LOAD, ARM, PUBLISH,
UNPUBLISH, DISCARD, RETIRE, DROP, and RESTART (R9 to R17, R73, R74, R83, R113, R153). -/

namespace Sys2Proof.Machine

/-! ### The checks of LOAD (R9 to R11) -/

/-- Whether any slot that is not FREE names window `w` (R9). -/
def State.slotNames (s : State) (w : WindowId) : Bool :=
  allSlots.any fun n => (s.slot n).any fun k => k.window = w

/-- The first check of LOAD: work left from the window's earlier life (R9). -/
def State.loadBusy (s : State) (w : WindowId) : Bool :=
  decide ((s.win w).requests ≠ 0) || s.slotNames w

/-- The bases of the ranges of a geometry: apparent, A, B, and the fallback when present (R1). -/
def Geometry.bases (g : Geometry) : List Nat :=
  [g.apparentBase.toNat, g.bankA.toNat, g.bankB.toNat] ++ (g.fallback.map BitVec.toNat).toList

/-- The second check of LOAD: a field or a range outside what R1 requires (R10). -/
def Geometry.outOfRange (g : Geometry) : Bool :=
  decide (g.lineCount.toNat < 16) || decide (4096 < g.lineCount.toNat)
    || decide (g.lineCount.toNat % 16 ≠ 0)
    || decide (8176 < g.mapOffset.toNat) || decide (g.mapOffset.toNat % 16 ≠ 0)
    || g.bases.any (fun b => decide (b % 1024 ≠ 0))
    || g.bases.any (fun b => decide (2 ^ 32 < b + g.size))

/-- Whether the `n` numbers from `a` on and the `m` numbers from `b` on have one in common (R11). -/
def rangesOverlap (a n b m : Nat) : Bool := decide (max a b < min (a + n) (b + m))

/-- Whether any two of the bases begin overlapping ranges of the given size. -/
def anyTwoOverlap (size : Nat) : List Nat → Bool
  | [] => false
  | b :: l => l.any (fun c => rangesOverlap b size c size) || anyTwoOverlap size l

/-- Whether a range of one geometry overlaps a range of the other (R11). -/
def Geometry.overlaps (g h : Geometry) : Bool :=
  g.bases.any fun a => h.bases.any fun b => rangesOverlap a g.size b h.size

/-- Whether the segments of two geometries have an entry in common (R11). -/
def Geometry.sharesSegment (g h : Geometry) : Bool :=
  rangesOverlap g.mapOffset.toNat g.lineCount.toNat h.mapOffset.toNat h.lineCount.toNat

/-- Whether a window other than `w` that is not in OFF has the property (R11). -/
def State.otherActive (s : State) (w : WindowId) (p : Geometry → Bool) : Bool :=
  allWindows.any fun v => v ≠ w && (s.win v).state.isActive && p (s.win v).geometry

/-- The third check of LOAD (R11). -/
def State.loadOverlap (s : State) (w : WindowId) : Bool :=
  let g := (s.win w).geometry
  anyTwoOverlap g.size g.bases || s.otherActive w g.overlaps

/-- The fourth check of LOAD (R11). -/
def State.loadMapFault (s : State) (w : WindowId) : Bool :=
  let g := (s.win w).geometry
  decide (Config.lineEntries < g.mapOffset.toNat + g.lineCount.toNat) || s.otherActive w g.sharesSegment

/-- The window record that LOAD leaves (R13). -/
def Window.loaded (x : Window) : Window :=
  { x.resetHold with
    state := .loading, settleKind := none, armed := false, generation := 0, dividerCount := 0
    pendingCount := 0, parity := false, reads0 := 0, reads1 := 0, drainTimer := none
    cursor := none, copyRequest := false }

/-- The effect of a LOAD that passes its checks (R13). -/
def State.takeLoad (s : State) (w : WindowId) : State :=
  (s.mapSegment w fun _ => LineEntry.reset).modWin w Window.loaded

/-- The body of LOAD at window `w` (R9). -/
def loadAt (w : WindowId) (s : State) : ResultCode × State :=
  if (s.win w).state ≠ .off then refuse .refusedState s
  else if s.loadBusy w then refuse .refusedBusy s
  else if (s.win w).geometry.outOfRange then refuse .refusedRange s
  else if s.loadOverlap w then refuse .refusedOverlap s
  else if s.loadMapFault w then refuse .refusedMap s
  else accepted (s.takeLoad w)

/-- LOAD (R9 to R13). -/
def execLoad (frame : Frame) (s : State) : Answer :=
  .next (s.whenRunning fun s => s.writeFrame .load frame fun f => onWindow f loadAt)

/-! ### ARM, PUBLISH, UNPUBLISH -/

/-- The effect of an accepted ARM (R14). -/
def State.takeArm (s : State) (w : WindowId) : State :=
  (s.modWin w fun x => { x with state := .live, dividerCount := 0 }).evaluateHold w

/-- The body of ARM at window `w` (R14). -/
def armAt (w : WindowId) (s : State) : ResultCode × State :=
  if (s.win w).state = .loading then accepted (s.takeArm w) else refuse .refusedState s

/-- ARM (R14). -/
def execArm (frame : Frame) (s : State) : Answer :=
  .next (s.whenRunning fun s => s.writeFrame .arm frame fun f => onWindow f armAt)

/-- Whether every window named in the mask is in LIVE or SETTLING (R73). -/
def State.maskPasses (s : State) (mask : Byte) : Bool :=
  allWindows.all fun w => !maskNames mask w || (s.win w).state.isLiveOrSettling

/-- The armed flag of every window named in the mask takes a value (R73, R74). -/
def State.setArmed (s : State) (mask : Byte) (on : Bool) : State :=
  s.forWindows (allWindows.filter fun w => maskNames mask w) fun w t =>
    t.modWin w fun x => { x with armed := on }

/-- The body of PUBLISH (R73, R81). -/
def publishBody (f : Frame) (o : Order) (s : State) : ResultCode × State :=
  let mask := frameByte f 0
  if s.maskPasses mask then
    accepted ((s.setArmed mask true).forWindows ((windowsIn o).filter fun w => maskNames mask w)
      fun w t => t.promptTest w)
  else refuse .refusedState s

/-- PUBLISH (R73). -/
def execPublish (frame : Frame) (order : Order) (s : State) : Answer :=
  .next (s.whenRunning fun s => s.writeFrame .publish frame fun f => publishBody f order)

/-- The body of UNPUBLISH (R74). -/
def unpublishBody (f : Frame) (s : State) : ResultCode × State :=
  let mask := frameByte f 0
  if s.maskPasses mask then accepted (s.setArmed mask false) else refuse .refusedState s

/-- UNPUBLISH (R74). -/
def execUnpublish (frame : Frame) (s : State) : Answer :=
  .next (s.whenRunning fun s => s.writeFrame .unpublish frame unpublishBody)

/-! ### DISCARD, RETIRE, DROP, RESTART -/

/-- The body of DISCARD at window `w` (R83). -/
def discardAt (w : WindowId) (s : State) : ResultCode × State :=
  if (s.win w).state = .live then accepted (s.enterDiscard w) else refuse .refusedState s

/-- DISCARD (R83). -/
def execDiscard (frame : Frame) (s : State) : Answer :=
  .next (s.whenRunning fun s => s.writeFrame .discard frame fun f => onWindow f discardAt)

/-- The body of RETIRE at window `w` (R113, R116). -/
def retireAt (o : Order) (w : WindowId) (s : State) : ResultCode × State :=
  if (s.win w).state = .live then (.done, ((s.beginRetire w).flattenTest w).arbitrate o)
  else refuse .refusedState s

/-- RETIRE (R113). -/
def execRetire (frame : Frame) (order : Order) (s : State) : Answer :=
  .next (s.whenRunning fun s => s.writeFrame .retire frame fun f => onWindow f (retireAt order))

/-- The window record that DROP leaves (R15). -/
def Window.dropped (x : Window) : Window :=
  { x.resetHold with
    state := .off, settleKind := none, cursor := none, drainTimer := none, armed := false
    pendingCount := 0, dividerCount := 0, fills := 0, copyRequest := false }

/-- A window's part in a drop: its segment and its record (R15). -/
def State.dropRecord (s : State) (w : WindowId) : State :=
  (s.mapSegment w fun _ => LineEntry.reset).modWin w Window.dropped

/-- The windows dropped together, with their slots orphaned (R15, R17, R70). -/
def State.dropWindows (s : State) (ws : List WindowId) : State :=
  (s.forWindows ws fun w t => t.dropRecord w).orphanSlots ws

/-- The body of DROP at window `w` (R15). -/
def dropAt (o : Order) (w : WindowId) (s : State) : ResultCode × State :=
  if (s.win w).state.isActive then (.done, (s.dropWindows [w]).arbitrate o)
  else refuse .refusedState s

/-- DROP (R15, R16). -/
def execDrop (frame : Frame) (order : Order) (s : State) : Answer :=
  .next (s.whenRunning fun s => s.writeFrame .drop frame fun f => onWindow f (dropAt order))

/-- The windows that are not in OFF. -/
def State.activeWindows (s : State) : List WindowId :=
  allWindows.filter fun w => (s.win w).state.isActive

/-- The first four steps of RESTART (R17, R20, R135, R138, R153). -/
def State.takeRestart (s : State) : State :=
  (((s.dropWindows s.activeWindows).setRoles rolesReset).modNotices fun _ =>
    { records := [], overflow := false }).storeSettings Settings.reset

/-- RESTART (R153). -/
def execRestart (frame : Frame) (order : Order) (s : State) : Answer :=
  .next (s.whenRunning fun s =>
    s.writeFrame .restart frame fun _ t => (.done, t.takeRestart.arbitrate order))

end Sys2Proof.Machine
end

