-- ==== Sys2Proof/Machine/Lines.lean ====
section
/-! DEFINITION. The line interface: the tick, the REFCLK edge count, the sampled edges of the input
lines, and RESET_N (R138 to R143). -/

namespace Sys2Proof.Machine

/-- A tick as one of those it reaches takes it (R138). -/
def State.tickAgent (s : State) : Agent → State
  | .window w => (s.tickAt w).pump
  | .pulse => s.tickPulse
  | .slot _ => s
  | .steering => s
  | .edge _ _ => s

/-- A tick: every running drain timer and the COMMITTED pulse take it, in the order given (R138). That
the edge count starts again is a DESIGN CHOICE (log entry 11). -/
def State.takeTick (s : State) (o : Order) : State :=
  (tickAgentsIn o).foldl State.tickAgent (s.modLines fun l => { l with edgeCount := 0 })

/-- A rising edge of REFCLK: the tick-divisor-th one since the count was last 0 produces a tick (R138);
the windows take it in ascending order, the pulse last (log entry 2). -/
def State.refclkEdge (s : State) : State :=
  s.whenRunning fun s =>
    if s.settings.tickDivisor.toNat ≤ s.lines.edgeCount + 1 then s.takeTick []
    else s.modLines fun l => { l with edgeCount := l.edgeCount + 1 }

/-! ### Edges of the input lines (R139) -/

/-- The sampled level of a line (R139). -/
def levelAt (l : LineLevels) : InputLine → Bool
  | .sync => l.sync
  | .pubreq => l.pubreq
  | .hold0 => l.hold0
  | .hold1 => l.hold1

/-- The levels with that of one line replaced. -/
def putLevel (l : LineLevels) (x : LineSample) : LineLevels :=
  match x.line with
  | .sync => { l with sync := x.level }
  | .pubreq => { l with pubreq := x.level }
  | .hold0 => { l with hold0 := x.level }
  | .hold1 => { l with hold1 := x.level }

/-- The four input lines. -/
def allLines : List InputLine := [.sync, .pubreq, .hold0, .hold1]

/-- The levels after a sample; the first mention of a line counts. -/
def sampledLevels (l : LineLevels) (xs : List LineSample) : LineLevels :=
  xs.foldr (fun x m => putLevel m x) l

/-- The lines whose sampled level changes: each change is an edge (R139). -/
def changedLines (old new : LineLevels) : List InputLine :=
  allLines.filter fun l => levelAt old l ≠ levelAt new l

/-- The levels as a window has seen them that the edges of the given lines have reached: edges of
different lines are separate events (R139). -/
def seenLevels (old new : LineLevels) (ls : List InputLine) : LineLevels :=
  { sync := if .sync ∈ ls then new.sync else old.sync
    pubreq := if .pubreq ∈ ls then new.pubreq else old.pubreq
    hold0 := if .hold0 ∈ ls then new.hold0 else old.hold0
    hold1 := if .hold1 ∈ ls then new.hold1 else old.hold1 }

/-- The sampled levels replaced. -/
def State.setLevels (s : State) (l : LineLevels) : State := s.modLines fun x => { x with levels := l }

/-- An edge, already sampled, as one window takes it: a rising edge of SYNC is a boundary, one of PUBREQ
a publication request, a falling edge of either nothing, an edge of a hold line a change of level (R75,
R78, R139, R140). -/
def State.edgeAt (s : State) (l : InputLine) (w : WindowId) : State :=
  match l with
  | .sync => if s.lines.levels.sync then s.boundaryAt w else s
  | .pubreq => if s.lines.levels.pubreq then s.pubreqAt w else s
  | .hold0 => s.holdEdgeAt .hold0 w
  | .hold1 => s.holdEdgeAt .hold1 w

/-- The edges reach the windows in the order given, each as an event of its own, at whose end the H-port
examines its head (R75, R78, R124, R139); `done` are those that came before. -/
def State.takeEdges (old new : LineLevels) (done : List (InputLine × WindowId)) :
    List (InputLine × WindowId) → State → State
  | [], s => s
  | (l, w) :: rest, s =>
    let seen := seenLevels old new (l :: (done.filter fun e => e.2 = w).map Prod.fst)
    State.takeEdges old new ((l, w) :: done) rest ((s.setLevels seen).edgeAt l w).pump

/-- Lines are sampled together: the edges of those whose level changes reach every window, in the order
given (R139). -/
def State.takeSample (s : State) (xs : List LineSample) (o : Order) : State :=
  let old := s.lines.levels
  let new := sampledLevels old xs
  (State.takeEdges old new [] (edgesIn o (changedLines old new)) s).setLevels new

/-! ### RESET_N -/

/-- RESET_N is asserted: every block takes its reset content (R18, R143). What the host side presents
on the request channel is not the part's to withdraw (R122, R133, DEDUCED, log entry 7), the lines are
not sampled (R139), and the model's queue of commands is kept. -/
def State.assertReset (s : State) : State :=
  { State.reset with
    hport := { HPort.reset with channel := s.hport.channel }
    lines := { LineInterface.reset with levels := s.lines.levels }
    inReset := true
    pending := s.pending }

/-- RESET_N is released: each line's sampled level is its level at the release, with no edge (R139,
R143); with CS low the port waits for it to go high (R144, DEDUCED, log entry 10); the H-port accepts
requests at once (R133). -/
def State.releaseReset (s : State) (levels : LineLevels) (csLow : Bool) : State :=
  if s.inReset then
    ((({ s with inReset := false }).modLines fun l => { l with levels := levels }).modMgmt fun m =>
      { m with frameState := if csLow then .waitCsHigh else .idle }).pump
  else s

end Sys2Proof.Machine
end

