-- ==== Sys2Proof/Machine/WindowEvents.lean ====
section
/-! DEFINITION. The meanings of the window controller's and the lines' commands (R75, R78, R84 to
R93, R138 to R143). FLIP, CLEAR, DRAIN_TIMER_EXPIRY and COMMITTED_PULSE_END are consequences of other
events: as commands they act only where their condition stands (DEDUCED, log entry 6). -/

namespace Sys2Proof.Machine

/-- FLIP (R86): taken where the drain of a COMMIT settle is complete (R84). -/
def execFlip (w : WindowId) (s : State) : Answer :=
  .next (s.whenRunning fun s =>
    if (s.win w).settlingCommit && (s.win w).drained then (s.flipAt w).pump else s)

/-- CLEAR (R88): taken where the drain of a DISCARD settle is complete (R84). -/
def execClear (w : WindowId) (s : State) : Answer :=
  .next (s.whenRunning fun s =>
    if (s.win w).settlingDiscard && (s.win w).drained then (s.clearAt w).pump else s)

/-- DRAIN_TIMER_EXPIRY (R85, R92): the tick that lowers the window's running timer to 0. -/
def execDrainTimerExpiry (w : WindowId) (s : State) : Answer :=
  .next (s.whenRunning fun s =>
    if (s.win w).drainTimer.any fun n => n.toNat ≤ 1 then (s.expireSettle w).pump else s)

/-- TICK (R138). -/
def execTick (order : Order) (s : State) : Answer := .next (s.whenRunning fun s => s.takeTick order)

/-- COMMITTED_PULSE_END (R142): the tick that lowers the pulse's count to 0. -/
def execCommittedPulseEnd (s : State) : Answer :=
  .next (s.whenRunning fun s => if s.lines.pulse = 1 then s.tickPulse else s)

/-- BOUNDARY (R78, R139): SYNC is sampled at a level, with the other lines sampled with it. -/
def execBoundary (sample : LevelSampled) (s : State) : Answer :=
  .next (s.whenRunning fun s =>
    s.takeSample ({ line := .sync, level := sample.level } :: sample.others) sample.order)

/-- PUBREQ_EDGE (R75, R139): PUBREQ is sampled at a level, with the other lines sampled with it. -/
def execPubreqEdge (sample : LevelSampled) (s : State) : Answer :=
  .next (s.whenRunning fun s =>
    s.takeSample ({ line := .pubreq, level := sample.level } :: sample.others) sample.order)

/-- HOLD_LINE_EDGE (R139, R140): a hold line is sampled at a level, with the other lines sampled with
it. -/
def execHoldLineEdge (line : HoldLine) (level : Bool) (sample : SampledWith) (s : State) : Answer :=
  .next (s.whenRunning fun s =>
    s.takeSample ({ line := line.input, level } :: sample.others) sample.order)

/-- RESET_ASSERTED (R18, R143). -/
def execResetAsserted (s : State) : Answer := .next s.assertReset

/-- RESET_RELEASED (R143). -/
def execResetReleased (levels : LineLevels) (csLow : Bool) (s : State) : Answer :=
  .next (s.releaseReset levels csLow)

end Sys2Proof.Machine
end

