-- ==== Sys2Proof/Machine/Dispatch.lean ====
section
/-! DEFINITION. One arm per command: each calls its meaning. -/

namespace Sys2Proof.Machine

def exec (i : Instr) (s : State) : Host.Outcome State Fault Refusal :=
  match i with
  | .requestAccepted req => Sys2Proof.Machine.execRequestAccepted req s
  | .responseAccepted => Sys2Proof.Machine.execResponseAccepted s
  | .memorySideAccept => Sys2Proof.Machine.execMemorySideAccept s
  | .trackerResponse tag status data order => Sys2Proof.Machine.execTrackerResponse tag status data order s
  | .strayResponseDiscarded tag status data => Sys2Proof.Machine.execStrayResponseDiscarded tag status data s
  | .fillReadDone slot data => Sys2Proof.Machine.execFillReadDone slot data s
  | .fillWriteStart slot => Sys2Proof.Machine.execFillWriteStart slot s
  | .fillCompletes slot order => Sys2Proof.Machine.execFillCompletes slot order s
  | .fillOperationRetry slot => Sys2Proof.Machine.execFillOperationRetry slot s
  | .fillFails slot status order => Sys2Proof.Machine.execFillFails slot status order s
  | .flattenCopyReadDone slot data => Sys2Proof.Machine.execFlattenCopyReadDone slot data s
  | .flattenCopyDone slot order => Sys2Proof.Machine.execFlattenCopyDone slot order s
  | .flattenCopyFailed slot status order => Sys2Proof.Machine.execFlattenCopyFailed slot status order s
  | .retiringSlotFreed slot status order => Sys2Proof.Machine.execRetiringSlotFreed slot status order s
  | .flattenDrainComplete w order => Sys2Proof.Machine.execFlattenDrainComplete w order s
  | .flattenRequestServed w => Sys2Proof.Machine.execFlattenRequestServed w s
  | .flip w => Sys2Proof.Machine.execFlip w s
  | .clear w => Sys2Proof.Machine.execClear w s
  | .drainTimerExpiry w => Sys2Proof.Machine.execDrainTimerExpiry w s
  | .tick order => Sys2Proof.Machine.execTick order s
  | .committedPulseEnd => Sys2Proof.Machine.execCommittedPulseEnd s
  | .boundary sample => Sys2Proof.Machine.execBoundary sample s
  | .pubreqEdge sample => Sys2Proof.Machine.execPubreqEdge sample s
  | .holdLineEdge line level sample => Sys2Proof.Machine.execHoldLineEdge line level sample s
  | .resetAsserted => Sys2Proof.Machine.execResetAsserted s
  | .resetReleased levels csLow => Sys2Proof.Machine.execResetReleased levels csLow s
  | .readStatus frame => Sys2Proof.Machine.execReadStatus frame s
  | .readWindow frame => Sys2Proof.Machine.execReadWindow frame s
  | .readRoles frame => Sys2Proof.Machine.execReadRoles frame s
  | .readLine frame => Sys2Proof.Machine.execReadLine frame s
  | .readNotice frame => Sys2Proof.Machine.execReadNotice frame s
  | .writeGeometry frame => Sys2Proof.Machine.execWriteGeometry frame s
  | .writePolicy frame => Sys2Proof.Machine.execWritePolicy frame s
  | .writeRoles frame => Sys2Proof.Machine.execWriteRoles frame s
  | .writeDeviceSettings frame order => Sys2Proof.Machine.execWriteDeviceSettings frame order s
  | .load frame => Sys2Proof.Machine.execLoad frame s
  | .arm frame => Sys2Proof.Machine.execArm frame s
  | .publish frame order => Sys2Proof.Machine.execPublish frame order s
  | .unpublish frame => Sys2Proof.Machine.execUnpublish frame s
  | .discard frame => Sys2Proof.Machine.execDiscard frame s
  | .retire frame order => Sys2Proof.Machine.execRetire frame order s
  | .drop frame order => Sys2Proof.Machine.execDrop frame order s
  | .setHold frame => Sys2Proof.Machine.execSetHold frame s
  | .clearHold frame => Sys2Proof.Machine.execClearHold frame s
  | .forceFallback frame => Sys2Proof.Machine.execForceFallback frame s
  | .restart frame order => Sys2Proof.Machine.execRestart frame order s
  | .badCommand command frame => Sys2Proof.Machine.execBadCommand command frame s

end Sys2Proof.Machine
end

