-- ==== Sys2Proof/Machine/Step.lean ====
section
/-! DEFINITION. One step: the command at the front of the queue, or, on an empty queue, one rising
edge of REFCLK (log entry 2). -/

namespace Sys2Proof.Machine

/-- Takes the command at the front of the queue and runs its meaning with the queue's rest; on an
empty queue the block waits for one rising edge of REFCLK (R138, DESIGN CHOICE, log entry 2). -/
def step (s : State) : Host.Outcome State Fault Refusal :=
  match s.pending with
  | [] => .next s.refclkEdge
  | c :: rest => exec c { s with pending := rest }

/-- The command that the word spells, put at the front of the queue; no word of the table spells one. -/
def State.withFetchWord (s : State) (nbits w : Nat) : State :=
  match decodeTableWord nbits w with
  | none => s
  | some c => { s with pending := c :: s.pending }

end Sys2Proof.Machine
end

