-- ==== Sys2Proof/WellFormed.lean ====
section
/-! DEFINITION. Which terms of `Instr` spell a command that can reach the part: the widths of the link
fields (R122, R154), the bits of a frame (R144, R147), the statuses a row can carry (R65, R69). -/

namespace Sys2Proof

/-- The SCK edges beyond the last complete byte are fewer than a byte, and come at the end of a frame
alone; no byte is clocked where CS has only just gone low, or goes high before the command byte is
complete (R144, R147). -/
def Frame.wellFormed (f : Frame) : Bool :=
  match f.till with
  | .csRises => decide (f.extra < 8)
  | .csLow => decide (f.extra = 0)
  | .csFell => decide (f.extra = 0) && f.args.isEmpty
  | .csRisesEarly => decide (f.extra < 8) && f.args.isEmpty

/-- No line is sampled twice in one sample (R139). -/
def sampleWellFormed (line : InputLine) (others : List LineSample) : Bool :=
  decide (line :: others.map LineSample.line).Nodup

/-- The 4-bit beats field of a request bounds the beat transfers of a WRITE (R154). -/
def Access.wellFormed : Access → Bool
  | .read _ => true
  | .write d => decide (d.length ≤ 15)

/-- A response carries at most eight data words, and none with a status other than OKAY (R122, R154). -/
def responseWellFormed (status : BitVec 2) (data : List Word) : Bool :=
  decide (data.length ≤ 8) && (status = 0 || data.isEmpty)

/-- The status of a failing operation is ERROR, RETRY, or 3, which is taken as ERROR (R65, R69, R154). -/
def failureWellFormed (status : BitVec 2) : Bool := decide (status ≠ 0)

/-- A bad command byte names no command (R147, R155). -/
def badCommandWellFormed (command : Byte) : Bool := (commandOfByte command).isNone

/-- The terms that spell a command. -/
def Instr.wellFormed : Instr → Bool
  | .requestAccepted req => req.access.wellFormed
  | .responseAccepted => true
  | .memorySideAccept => true
  | .trackerResponse _ status data _ => responseWellFormed status data
  | .strayResponseDiscarded _ status data => responseWellFormed status data
  | .fillReadDone _ _ => true
  | .fillWriteStart _ => true
  | .fillCompletes _ _ => true
  | .fillOperationRetry _ => true
  | .fillFails _ status _ => failureWellFormed status
  | .flattenCopyReadDone _ _ => true
  | .flattenCopyDone _ _ => true
  | .flattenCopyFailed _ status _ => failureWellFormed status
  | .retiringSlotFreed _ _ _ => true
  | .flattenDrainComplete _ _ => true
  | .flattenRequestServed _ => true
  | .flip _ => true
  | .clear _ => true
  | .drainTimerExpiry _ => true
  | .tick _ => true
  | .committedPulseEnd => true
  | .boundary sample => sampleWellFormed .sync sample.others
  | .pubreqEdge sample => sampleWellFormed .pubreq sample.others
  | .holdLineEdge line _ sample => sampleWellFormed line.input sample.others
  | .resetAsserted => true
  | .resetReleased _ _ => true
  | .readStatus frame => frame.wellFormed
  | .readWindow frame => frame.wellFormed
  | .readRoles frame => frame.wellFormed
  | .readLine frame => frame.wellFormed
  | .readNotice frame => frame.wellFormed
  | .writeGeometry frame => frame.wellFormed
  | .writePolicy frame => frame.wellFormed
  | .writeRoles frame => frame.wellFormed
  | .writeDeviceSettings frame _ => frame.wellFormed
  | .load frame => frame.wellFormed
  | .arm frame => frame.wellFormed
  | .publish frame _ => frame.wellFormed
  | .unpublish frame => frame.wellFormed
  | .discard frame => frame.wellFormed
  | .retire frame _ => frame.wellFormed
  | .drop frame _ => frame.wellFormed
  | .setHold frame => frame.wellFormed
  | .clearHold frame => frame.wellFormed
  | .forceFallback frame => frame.wellFormed
  | .restart frame _ => frame.wellFormed
  | .badCommand command frame => badCommandWellFormed command && frame.wellFormed

end Sys2Proof
end

