-- ==== Sys2Proof/Safety.lean ====
section
/-! DEFINITION. The words in which statements about the machine are made: which parts of the state an
event leaves alone, what the H-port and the management port show of an event, and the invariants
that every step keeps. -/

namespace Sys2Proof.Machine

/-! ### What an event leaves alone -/

/-- The parts of the state. -/
inductive Part where
  | windows | roles | lineMap | slots | table | hport | issueQueue | notices | mgmt | settings
  | lines | inReset | pending
  deriving DecidableEq, Repr

/-- The part is the same in both states. -/
def Part.Same : Part → State → State → Prop
  | .windows, s, t => t.windows = s.windows
  | .roles, s, t => t.roles = s.roles
  | .lineMap, s, t => t.lineMap = s.lineMap
  | .slots, s, t => t.slots = s.slots
  | .table, s, t => t.table = s.table
  | .hport, s, t => t.hport = s.hport
  | .issueQueue, s, t => t.issueQueue = s.issueQueue
  | .notices, s, t => t.notices = s.notices
  | .mgmt, s, t => t.mgmt = s.mgmt
  | .settings, s, t => t.settings = s.settings
  | .lines, s, t => t.lines = s.lines
  | .inReset, s, t => t.inReset = s.inReset
  | .pending, s, t => t.pending = s.pending

/-- Every part but those listed is the same in both states. -/
def Only (ps : List Part) (s t : State) : Prop := ∀ p, p ∉ ps → p.Same s t

/-- Window `w` has the record `x` in `t`, and every other window the record it had in `s`. -/
def WindowBecomes (s t : State) (w : WindowId) (x : Window) : Prop :=
  t.win w = x ∧ ∀ v, v ≠ w → t.win v = s.win v

/-- Slot `n` has the work `k` in `t`, and every other slot the work it had in `s`. -/
def SlotBecomes (s t : State) (n : SlotId) (k : Option SlotWork) : Prop :=
  t.slot n = k ∧ ∀ m, m ≠ n → t.slot m = s.slot m

/-- Entry `i` of the in-flight table holds `e` in `t`, and every other what it held in `s`. -/
def EntryBecomes (s t : State) (i : EntryId) (e : Option InFlight) : Prop :=
  t.entry i = e ∧ ∀ j, j ≠ i → t.entry j = s.entry j

/-- The line entry of line `i` of window `w` reads as `e` in `t`, and every other entry of the store
as it did in `s`. -/
def LineBecomes (s t : State) (w : WindowId) (i : Nat) (e : LineEntry) : Prop :=
  t.lineMap.entry ((s.win w).geometry.entryIndex i) = e
    ∧ ∀ j, j ≠ (s.win w).geometry.entryIndex i → t.lineMap.entry j = s.lineMap.entry j

/-- Every entry of window `w`'s segment reads in `t` as `f` of what it read in `s`, and every other
entry of the store as it did in `s` (R1, R37). -/
def SegmentBecomes (s t : State) (w : WindowId) (f : LineEntry → LineEntry) : Prop :=
  (∀ i, i < (s.win w).geometry.lineCount.toNat →
      t.lineMap.entry ((s.win w).geometry.entryIndex i) = f (s.lineEntry w i))
    ∧ ∀ j, (∀ i, i < (s.win w).geometry.lineCount.toNat → j ≠ (s.win w).geometry.entryIndex i) →
        t.lineMap.entry j = s.lineMap.entry j

/-! ### The H-port -/

/-- A request has been accepted: it holds a place, and its pair is in the outstanding set (R19, R125). -/
def HoldsPlace (s t : State) (r : HRequest) : Prop :=
  t.hport.channel = s.hport.channel ∧ t.hport.placesHeld = s.hport.placesHeld + 1
    ∧ ∀ q g, t.hport.isOutstanding q g =
        (s.hport.isOutstanding q g || (decide (q = r.requester) && decide (g = r.tag)))

/-- A request has been accepted and answered locally: its answer carries its requester and tag and no
data, and is marked where the pair belonged to an earlier request (R24, R26). -/
def AnsweredLocally (s t : State) (r : HRequest) (st : Status) : Prop :=
  HoldsPlace s t r
    ∧ t.hport.responses = s.hport.responses ++
        [{ requester := r.requester, tag := r.tag, status := st, data := []
           duplicate := s.hport.isOutstanding r.requester r.tag }]

/-- The lowest-numbered free entry of the in-flight table (R126). -/
def LowestFreeEntry (s : State) (i : EntryId) : Prop :=
  s.entry i = none ∧ ∀ j, j < i → s.entry j ≠ none

/-- The lowest-numbered FREE slot (R57). -/
def LowestFreeSlot (s : State) (n : SlotId) : Prop :=
  s.slot n = none ∧ ∀ m, m < n → s.slot m ≠ none

/-- A request has been accepted and forwarded to address `a` with the class, window and parity given,
in entry `i`, whose number is its M-port tag (R19, R24, R126). -/
def Forwarded (s t : State) (r : HRequest) (i : EntryId) (cls : TrackerClass)
    (w : Option WindowId) (parity : Option Bool) (a : Addr) : Prop :=
  HoldsPlace s t r ∧ t.hport.responses = s.hport.responses
    ∧ EntryBecomes s t i (some
        { requester := r.requester, tag := r.tag, address := r.address, kind := accessKind r.access
          beats := accessBeats r.access, cls, window := w, parity })
    ∧ ∃ op : MOp, op.tag.val = i.val ∧ op.address = a ∧ op.access = r.access
        ∧ t.issueQueue = s.issueQueue ++ [op]

/-- The form checks of R25, in their order. -/
def FormFault (h : HPort) (r : HRequest) : MalformedCode → Prop
  | .align => r.address.toNat % 8 ≠ 0
  | .length =>
    r.address.toNat % 8 = 0 ∧ (accessBeats r.access = 0 ∨ 8 < accessBeats r.access)
  | .span =>
    r.address.toNat % 8 = 0 ∧ 1 ≤ accessBeats r.access ∧ accessBeats r.access ≤ 8
      ∧ ((r.address.toNat + 8 * accessBeats r.access - 1) / 64 ≠ r.address.toNat / 64
        ∨ 0xFFFFFFFF < r.address.toNat + 8 * accessBeats r.access - 1)
  | .tagReuse =>
    r.address.toNat % 8 = 0 ∧ 1 ≤ accessBeats r.access ∧ accessBeats r.access ≤ 8
      ∧ (r.address.toNat + 8 * accessBeats r.access - 1) / 64 = r.address.toNat / 64
      ∧ r.address.toNat + 8 * accessBeats r.access - 1 ≤ 0xFFFFFFFF
      ∧ h.isOutstanding r.requester r.tag = true

/-- The request passes every form check of R25. -/
def WellFormedRequest (h : HPort) (r : HRequest) : Prop := ∀ c, ¬ FormFault h r c

/-- The H-port can take the request at its next event: no reset, nothing in front, a place free. -/
def ReadyFor (s : State) (r : HRequest) : Prop :=
  s.inReset = false ∧ s.hport.channel = [] ∧ s.hport.placesHeld < 48 ∧ WellFormedRequest s.hport r

/-- The bases of a window's shadow ranges (section 2.3). -/
def Geometry.shadowBases (g : Geometry) : List Addr := [g.bankA, g.bankB] ++ g.fallback.toList

/-- The address lies in the apparent range of window `w`, which is active, and of no other (R12, R27). -/
def InApparentOf (s : State) (a : Addr) (w : WindowId) : Prop :=
  ∀ v, (s.win v).state ≠ .off ∧ (s.win v).geometry.covers (s.win v).geometry.apparentBase a = true
    ↔ v = w

/-- The address lies in no apparent range of an active window. -/
def InNoApparent (s : State) (a : Addr) : Prop :=
  ∀ v, (s.win v).state ≠ .off → (s.win v).geometry.covers (s.win v).geometry.apparentBase a = false

/-- The address lies in no apparent range, and in a shadow range of window `w`, which is active, and
of no other (R12, R31). -/
def InShadowOf (s : State) (a : Addr) (w : WindowId) : Prop :=
  InNoApparent s a
    ∧ ∀ v, (s.win v).state ≠ .off
        ∧ (∃ b ∈ (s.win v).geometry.shadowBases, (s.win v).geometry.covers b a = true) ↔ v = w

/-- The address lies in no range of an active window (R33). -/
def InNoRange (s : State) (a : Addr) : Prop :=
  InNoApparent s a
    ∧ ∀ v, (s.win v).state ≠ .off →
        ∀ b ∈ (s.win v).geometry.shadowBases, (s.win v).geometry.covers b a = false

/-- No flattening window keeps a request for a slot (R57, R117). -/
def NoKeptRequest (s : State) : Prop := ∀ w, (s.win w).copyRequest = false

/-- The line of window `w` that an address of its apparent range lies in (R41). -/
def State.entryAt (s : State) (w : WindowId) (a : Addr) : LineEntry :=
  s.lineEntry w ((a - (s.win w).geometry.apparentBase).toNat / 64)

/-- The request is forwarded, and so takes an entry of the in-flight table: a request outside every
range, a permitted access of a LOADING window, a maintenance access to a shadow range, a read by a
consumer or maintenance requester, a producer read of a line that is not filling, a producer write to a
pending line of a LIVE window (R24, R28, R31, R33, R43 to R46). -/
def ForwardedRequest (s : State) (r : HRequest) : Prop :=
  InNoRange s r.address ∨ ∃ w,
    InApparentOf s r.address w ∧ (s.win w).state = .loading
        ∧ (s.role r.requester w = .producer
          ∨ s.role r.requester w ≠ .none ∧ accessKind r.access = .read)
      ∨ InShadowOf s r.address w ∧ s.role r.requester w = .maintenance
        ∧ (s.win w).state ≠ .flattening
      ∨ InApparentOf s r.address w ∧ ((s.win w).state = .live ∨ (s.win w).state = .settling)
        ∧ accessKind r.access = .read
        ∧ (s.role r.requester w = .consumer ∨ s.role r.requester w = .maintenance
          ∨ s.role r.requester w = .producer ∧ (s.entryAt w r.address).filling = false)
      ∨ InApparentOf s r.address w ∧ (s.win w).state = .live ∧ accessKind r.access = .write
        ∧ s.role r.requester w = .producer ∧ (s.entryAt w r.address).filling = false
        ∧ (s.entryAt w r.address).pending = true

/-- The window counts after the response to an entry of the window (R7, R129). -/
def Window.lowered (x : Window) (e : InFlight) : Window :=
  { x with
    requests := x.requests - 1
    reads0 := if e.parity = some false then x.reads0 - 1 else x.reads0
    reads1 := if e.parity = some true then x.reads1 - 1 else x.reads1
    producerWrites := if e.cls = .producerWrite then x.producerWrites - 1 else x.producerWrites }

/-! ### The input lines -/

/-- The command whose line is that of the sample (R139). -/
def sampleCommand (x : LineSample) (others : List LineSample) (o : Order) : Instr :=
  match x.line with
  | .sync => .boundary { level := x.level, others, order := o }
  | .pubreq => .pubreqEdge { level := x.level, others, order := o }
  | .hold0 => .holdLineEdge .hold0 x.level { others, order := o }
  | .hold1 => .holdLineEdge .hold1 x.level { others, order := o }

/-- The windows in the order in which they take the edge of a line sampled alone (log entry 4). -/
def edgeOrder (o : Order) (l : InputLine) : List WindowId := (edgesIn o [l]).map Prod.snd

/-- The windows in the order in which they take a tick (log entry 4). -/
def tickOrder (o : Order) : List WindowId := (tickAgentsIn o).filterMap Agent.asWindow

/-! ### The management port -/

/-- A window number as a window byte. -/
def windowByte (w : WindowId) : Byte := BitVec.ofNat 8 w.val

/-- The port is out of reset and not in a frame, so a frame can begin (R144). -/
def State.PortFree (s : State) : Prop :=
  s.inReset = false ∧ ∀ b, s.mgmt.frameState ≠ .inFrame b

/-- The port outside a frame, with its last result, its argument buffer and what SDO carried; what it
holds outside a frame beside its result is the model's choice (R144, R148, log entries 8 and 9). -/
def portIdle (args : List Byte) (r : ResultCode) (sdo : ShiftOut) : MgmtPort :=
  { frameState := .idle, command := none, status := 0, taken := .nothing, argBuffer := args
    lastResult := r, sdo }

/-- The port after a write-type frame with exactly the argument bytes `l`: the status byte of before
the frame went out, then zero bytes, and the result is `r` (R144 to R148). The argument buffer and the
record of SDO are the model's choice (log entries 8 and 9). -/
def reported (s : State) (l : List Byte) (r : ResultCode) : MgmtPort :=
  portIdle l r { bytes := s.statusByte :: List.replicate l.length 0, tail := [] }

/-- The command of a frame (section 11.2). -/
def frameCommand (f : Frame) (o : Order) : CommandName → Instr
  | .readStatus => .readStatus f
  | .readWindow => .readWindow f
  | .readRoles => .readRoles f
  | .readLine => .readLine f
  | .readNotice => .readNotice f
  | .writeGeometry => .writeGeometry f
  | .writePolicy => .writePolicy f
  | .writeRoles => .writeRoles f
  | .writeDeviceSettings => .writeDeviceSettings f o
  | .restart => .restart f o
  | .load => .load f
  | .arm => .arm f
  | .publish => .publish f o
  | .unpublish => .unpublish f
  | .discard => .discard f
  | .retire => .retire f o
  | .drop => .drop f o
  | .setHold => .setHold f
  | .clearHold => .clearHold f
  | .forceFallback => .forceFallback f

/-- The commands with a defined response (R146). -/
def isReadCommand : CommandName → Bool
  | .readStatus => true
  | .readWindow => true
  | .readRoles => true
  | .readLine => true
  | .readNotice => true
  | _ => false

/-- The code of a flag. -/
def flagCode (on : Bool) : Byte := if on then 1 else 0

/-- The code of a polarity (R152). -/
def polarityCode : Polarity → Byte
  | .activeHigh => 0
  | .activeLow => 1

/-- The argument bytes of WRITE GEOMETRY (R146); the fallback-present byte is `present`. -/
def geometryArgs (w : WindowId) (g : Geometry) (present : Byte) (fallback : Addr) : List Byte :=
  [windowByte w] ++ bytesOfAddr g.apparentBase ++ bytesOfHalf g.lineCount ++ bytesOfHalf g.mapOffset
    ++ bytesOfAddr g.bankA ++ bytesOfAddr g.bankB ++ [present] ++ bytesOfAddr fallback

/-- The argument bytes of WRITE POLICY (section 11.2). -/
def policyArgs (w : WindowId) (p : Policy) : List Byte :=
  [windowByte w, commitModeCode p.commitMode, byteOfNat p.divider] ++ bytesOfHalf p.drainLimit
    ++ [holdPolicyCode p.holdPolicy, sourcesCode p.sources, flagCode p.redirect
        , flagCode p.pubreqEnable, flagCode p.commitNotices, flagCode p.commitOutput]

/-- The argument bytes of WRITE DEVICE SETTINGS (R152). -/
def settingsArgs (c : Settings) : List Byte :=
  [polarityCode c.hold0Polarity, polarityCode c.hold1Polarity, flagCode c.noticeEnable, c.tickDivisor]

/-- A four-byte field of a response, most significant byte first (R146). -/
def addrAt (l : List Byte) (i : Nat) : Addr :=
  l.getD i 0 ++ l.getD (i + 1) 0 ++ l.getD (i + 2) 0 ++ l.getD (i + 3) 0

/-- A two-byte field of a response, most significant byte first (R146). -/
def halfAt (l : List Byte) (i : Nat) : Half := l.getD i 0 ++ l.getD (i + 1) 0

/-! ### What becomes of a window -/

/-- The state in which holds are evaluated and boundaries are taken (R77, R95). -/
def Window.Running (x : Window) : Prop := x.state = .live ∨ x.state = .settling

/-- SETTLING with kind COMMIT. -/
def Window.Committing (x : Window) : Prop := x.state = .settling ∧ x.settleKind = some .commit

/-- SETTLING with kind DISCARD. -/
def Window.Discarding (x : Window) : Prop := x.state = .settling ∧ x.settleKind = some .discard

/-- The three counts of R84 are 0. -/
def Window.Drained (x : Window) : Prop :=
  x.fills = 0 ∧ x.producerWrites = 0 ∧ x.previousReads = 0

/-- Armed in PROMPT mode with the hold CLEAR: at the return to LIVE a COMMIT settle follows (R81, R90). -/
def Window.Prompted (x : Window) : Prop :=
  x.policy.commitMode = .prompt ∧ x.armed = true ∧ x.holdStatus = .clear

/-- The window record after the entry to a settle that does not drain at once (R82, R83). -/
def Window.afterEntry (x : Window) (k : SettleKind) : Window :=
  { x with state := .settling, settleKind := some k
           armed := if k = .commit then false else x.armed
           drainTimer := if x.policy.drainLimit = 0 then none else some x.policy.drainLimit }

/-- The window record after a settle ends by its flip (R86, R89, R90). -/
def Window.afterFlip (x : Window) : Window :=
  { x with state := .live, settleKind := none, drainTimer := none, pendingCount := 0
           generation := x.generation + 1, parity := !x.parity }

/-- The window record after a settle ends by its clear (R88, R89, R90). -/
def Window.afterClear (x : Window) : Window :=
  { x with state := .live, settleKind := none, drainTimer := none, pendingCount := 0
           parity := !x.parity }

/-- The window record after a settle is cancelled, with the armed flag it leaves (R91, R92). -/
def Window.afterCancel (x : Window) (armed : Bool) : Window :=
  { x with state := .live, settleKind := none, drainTimer := none, armed }

/-- The window record `y` becomes the one that the entry to a COMMIT settle gives: the settle drains
at once, or it waits (R82). -/
def EntersCommit (x y : Window) : Prop :=
  (x.Drained → y = ({ x with armed := false } : Window).afterFlip)
    ∧ (¬x.Drained → y = x.afterEntry .commit)

/-- The notices of a commit entered at a window: COMMIT_DONE where the settle drains at its entry (R82,
R86, R93). -/
def entryNotices (w : WindowId) (x : Window) : List Notice :=
  if x.drained && x.policy.commitNotices then [.commitDone w (x.generation + 1) x.pendingCount] else []

/-- What the commits entered together do beside the records and the notices, `enters` saying at which
windows, whose records stand as `x` gives: where a settle drains at its entry, every pending line of the
segment is published, and a pulse of COMMITTED is requested where the policy asks for it; no other line
entry and no other pulse changes (R82, R86, R142). -/
def CommitsDrain (s t : State) (enters : WindowId → Prop) (x : WindowId → Window) : Prop :=
  (∀ w i, enters w → (x w).Drained → i < (x w).geometry.lineCount.toNat →
      t.lineMap.entry ((x w).geometry.entryIndex i) =
        if (s.lineMap.entry ((x w).geometry.entryIndex i)).pending then
          { published := (s.lineMap.entry ((x w).geometry.entryIndex i)).published.other
            pending := false
            filling := (s.lineMap.entry ((x w).geometry.entryIndex i)).filling }
        else s.lineMap.entry ((x w).geometry.entryIndex i))
    ∧ (∀ j, (∀ w i, enters w → (x w).Drained → i < (x w).geometry.lineCount.toNat →
          j ≠ (x w).geometry.entryIndex i) →
        t.lineMap.entry j = s.lineMap.entry j)
    ∧ (∀ w, enters w → (x w).Drained → (x w).policy.commitOutput = true → t.lines.pulse = 2)
    ∧ ((∀ w, enters w → (x w).Drained → (x w).policy.commitOutput = false) →
        t.lines.pulse = s.lines.pulse)

/-! ### A boundary at a window -/

/-- The boundary's hold step releases the hold; `asserted` says whether a level source is (R101, R104). -/
def Window.releasedNow (x : Window) (asserted : Bool) : Bool :=
  match x.policy.holdPolicy with
  | .latched => decide (x.holdStatus = .releasing)
  | .perBoundary => decide (x.holdStatus = .active) && !asserted && !x.eventSince

/-- The boundary is eligible (R78, R79). -/
def Window.eligibleNow (x : Window) : Bool := decide (x.policy.divider ≤ x.dividerCount + 1)

/-- The record after the hold step and the divider step of a boundary (R78, R79, R101, R104). -/
def Window.afterBoundary (x : Window) (asserted : Bool) : Window :=
  { x with
    holdStatus := if x.releasedNow asserted then .clear else x.holdStatus
    holdAck := if x.releasedNow asserted && decide (x.policy.holdPolicy = .latched) then false
      else x.holdAck
    eventSince := if x.policy.holdPolicy = .perBoundary then false else x.eventSince
    dividerCount := if x.eligibleNow then 0 else x.dividerCount + 1 }

/-- The boundary begins a commit: in BOUNDARY mode where it is eligible, in PROMPT mode where it
releases the hold (R78, R81). -/
def Window.commitsNow (x : Window) (asserted : Bool) : Bool :=
  decide (x.state = .live) && x.armed && decide ((x.afterBoundary asserted).holdStatus = .clear)
    && (decide (x.policy.commitMode = .boundary) && x.eligibleNow
      || decide (x.policy.commitMode = .prompt) && x.releasedNow asserted)

/-- The notices of a boundary at a window in LIVE or SETTLING, oldest first: HOLD_RELEASED, then
COMMIT_DONE where a commit drains at its entry, or COMMIT_LATE where the boundary is eligible and the
window settles (R86, R93, R101, R104, R107). -/
def boundaryNotices (w : WindowId) (x : Window) (asserted : Bool) : List Notice :=
  (if x.releasedNow asserted then [.holdReleased w] else [])
    ++ (if x.commitsNow asserted then entryNotices w x else [])
    ++ if decide (x.state = .settling) && x.eligibleNow then [.commitLate w x.generation] else []

/-! ### A tick at a window -/

/-- The notices of a tick at a window: those of the cancellation where the timer expires (R85, R92). -/
def tickNotices (w : WindowId) (x : Window) : List Notice :=
  match x.drainTimer with
  | none => []
  | some n =>
    if 1 < n.toNat then []
    else if x.settlingCommit then [.commitCancelled w x.generation .timeout]
    else if x.settlingDiscard then [.discardCancelled w]
    else []

/-! ### Holds at a window -/

/-- The window record after its hold status becomes ACTIVE: a COMMIT settle is cancelled, and the
window armed again (R91). -/
def BecomesActive (x y : Window) : Prop :=
  (x.Committing → y = ({ x with holdStatus := .active } : Window).afterCancel true)
    ∧ (¬x.Committing → y = { x with holdStatus := .active })

/-- The notices of a hold becoming ACTIVE, oldest first (R91, R107). -/
def activeNotices (w : WindowId) (x : Window) (c : HoldSource) : List Notice :=
  if x.state = .settling ∧ x.settleKind = some .commit then
    [.holdActive w c, .commitCancelled w x.generation .hold]
  else [.holdActive w c]

/-- Notices raised one after another (R136). -/
def NoticeQueue.offerAll (q : NoticeQueue) (l : List Notice) : NoticeQueue := l.foldl .offer q

/-- A level source strikes a window in LIVE or SETTLING: its record and its notices (R99, R103). -/
def LevelStrikes (x y : Window) (w : WindowId) (c : HoldSource) (l : List Notice) : Prop :=
  (x.policy.holdPolicy = .latched → x.holdStatus ≠ .active →
      BecomesActive { x with holdAck := false } y ∧ l = activeNotices w x c)
    ∧ (x.policy.holdPolicy = .latched → x.holdStatus = .active →
      y = { x with holdAck := false } ∧ l = [])
    ∧ (x.policy.holdPolicy = .perBoundary → x.holdStatus = .clear →
      BecomesActive x y ∧ l = activeNotices w x c)
    ∧ (x.policy.holdPolicy = .perBoundary → x.holdStatus ≠ .clear → y = x ∧ l = [])

/-- The notices of a level source that strikes a window in LIVE or SETTLING (R99, R103). -/
def strikeNotices (x : Window) (w : WindowId) (c : HoldSource) : List Notice :=
  if x.policy.holdPolicy = .latched ∧ x.holdStatus ≠ .active
      ∨ x.policy.holdPolicy = .perBoundary ∧ x.holdStatus = .clear then activeNotices w x c
  else []

/-- An event occurs at a window in LIVE or SETTLING: its record and its notices (R97, R99, R103). -/
def EventStrikes (x y : Window) (w : WindowId) (c : HoldSource) (l : List Notice) : Prop :=
  (x.policy.holdPolicy = .latched → LevelStrikes x y w c l)
    ∧ (x.policy.holdPolicy = .perBoundary → LevelStrikes { x with eventSince := true } y w c l)

/-- A level source releases at a window in LIVE or SETTLING; `left` says whether a level source is
still asserted after it (R100, R103). -/
def LevelReleases (x y : Window) (left : Bool) : Prop :=
  (x.policy.holdPolicy = .latched → x.holdStatus = .active → x.holdAck = true → left = false →
      y = { x with holdStatus := .releasing })
    ∧ (x.policy.holdPolicy = .perBoundary ∨ x.holdStatus ≠ .active ∨ x.holdAck = false
        ∨ left = true → y = x)

/-- The hold record reset, as LOAD, DROP and RETIRE leave it (R112). -/
def Window.holdCleared (x : Window) : Window :=
  { x with holdStatus := .clear, holdAck := false, eventSince := false
           manualHold := false, forcedFallback := false }

/-! ### Lines published in bank B -/

/-- Line `j` is the first line from `i` on that is published in bank B (R117). -/
def FirstInB (s : State) (w : WindowId) (i j : Nat) : Prop :=
  i ≤ j ∧ j < (s.win w).geometry.lineCount.toNat ∧ (s.lineEntry w j).published = .b
    ∧ ∀ l, i ≤ l → l < j → (s.lineEntry w l).published = .a

/-- No line from `i` on is published in bank B (R117). -/
def NoneInB (s : State) (w : WindowId) (i : Nat) : Prop :=
  ∀ l, i ≤ l → l < (s.win w).geometry.lineCount.toNat → (s.lineEntry w l).published = .a

/-- The copy of line `j` of window `w` begins in slot `m` (R57, R68, R117). -/
def CopyStarts (s t : State) (w : WindowId) (j : Nat) (m : SlotId) : Prop :=
  Only [.windows, .slots, .issueQueue] s t
    ∧ WindowBecomes s t w { s.win w with cursor := some j, copyRequest := false
                                         fills := (s.win w).fills + 1 }
    ∧ SlotBecomes s t m (some
        { phase := .reading, kind := .flattenCopy, window := w, line := j, source := .b
          target := .a, held := none, buffer := none, attempt := 1, orphaned := false })
    ∧ ∃ op : MOp, op.tag.val = 32 + m.val
        ∧ op.address = (s.win w).geometry.bankB + BitVec.ofNat 32 (64 * j) ∧ op.access = .read 8
        ∧ t.issueQueue = s.issueQueue ++ [op]

/-- The walk stops at line `j` with a request for a slot that is kept (R117). -/
def CopyWaits (s t : State) (w : WindowId) (j : Nat) : Prop :=
  Only [.windows] s t
    ∧ WindowBecomes s t w { s.win w with cursor := some j, copyRequest := true }

/-- The retirement of window `w` ends (R118). -/
def Retired (s t : State) (w : WindowId) : Prop :=
  Only [.windows, .lineMap, .notices] s t
    ∧ WindowBecomes s t w
        { s.win w with state := .off, cursor := none, pendingCount := 0, fills := 0, requests := 0
                       armed := false, copyRequest := false }
    ∧ SegmentBecomes s t w (fun _ => { published := .a, pending := false, filling := false })
    ∧ t.notices = s.notices.offer (.flattenDone w)

/-- The walk of window `w` from line `i` on, with no other window's request kept: the three ways it can
go, before the H-port examines its head (R57, R117, R118). -/
def WalksFrom (s t : State) (w : WindowId) (i : Nat) : Prop :=
  (∀ j m, FirstInB s w i j → LowestFreeSlot s m → CopyStarts s t w j m)
    ∧ (∀ j, FirstInB s w i j → (∀ m, s.slot m ≠ none) → CopyWaits s t w j)
    ∧ (NoneInB s w i → Retired s t w)

/-- The walk of window `w` from line `i` on stops, with a request for a slot, or ends (R117, R118). -/
def WalkStops (s t : State) (w : WindowId) (i : Nat) : Prop :=
  (∀ j, FirstInB s w i j → CopyWaits s t w j) ∧ (NoneInB s w i → Retired s t w)

/-! ### Kept slot requests -/

/-- The kept slot request of window `w` is served: the copy of the line that its walk stopped at begins
in the lowest-numbered FREE slot; with no request kept, or no slot FREE, nothing is done (R57, R68,
R117). -/
def KeptServed (s t : State) (w : WindowId) : Prop :=
  (∀ j m, (s.win w).copyRequest = true → (s.win w).cursor = some j → LowestFreeSlot s m →
      CopyStarts s t w j m)
    ∧ ((s.win w).copyRequest = false ∨ (∀ m, s.slot m ≠ none) → t = s)

/-- The kept slot requests of the windows listed are served one after another (R57). -/
def KeptServedIn : List WindowId → State → State → Prop
  | [], s, t => t = s
  | w :: ws, s, t => ∃ u, KeptServed s u w ∧ KeptServedIn ws u t

/-- The event that has made the state `u` ends: every kept slot request that a FREE slot is left for is
served, W0 first, and the H-port then examines its head, which gives `t` (R57, R117, R124). The order is
that of the empty order operand, the model's choice (log entry 4). -/
def KeptThenHead (u t : State) : Prop :=
  ∃ y, KeptServedIn [0, 1, 2, 3, 4, 5, 6, 7] u y ∧ t = y.pump

/-- The state with no request presented on the H-port. -/
def State.unasked (s : State) : State := { s with hport := { s.hport with channel := [] } }

/-- What waits on the counts of window `w` in the state `u` is taken, before kept slot requests and the
head request have their turn: the flip or the clear, as the row does it with no request presented, the
beginning of the copies, or nothing (R84, R86, R88, R116, R117). -/
def DrainTaken (u t : State) (w : WindowId) : Prop :=
  ((u.win w).Committing → (u.win w).Drained →
      t.hport = u.hport ∧ exec (.flip w) u.unasked = .next t.unasked)
    ∧ ((u.win w).Discarding → (u.win w).Drained →
      t.hport = u.hport ∧ exec (.clear w) u.unasked = .next t.unasked)
    ∧ ((u.win w).state = .flattening → (u.win w).requests = 0 → (u.win w).fills = 0 →
      (u.win w).copyRequest = false → WalkStops u t w 0)
    ∧ (((u.win w).state = .settling → ¬(u.win w).Drained) →
      ((u.win w).state = .flattening →
        (u.win w).requests ≠ 0 ∨ (u.win w).fills ≠ 0 ∨ (u.win w).copyRequest = true) → t = u)

/-- An event with the empty order, from the state `u` in which its counts have fallen, to its end (R57,
R84, R116, R117, R124). -/
def DrainThenKept (answer : Answer) (u : State) (w : WindowId) : Prop :=
  ∃ x t, DrainTaken u x w ∧ KeptThenHead x t ∧ answer = .next t

/-- What waits on the counts of window `w` is taken in the event that has made the state `u`: the
flip, the clear, the beginning of the copies, or nothing (R84, R86, R88, R116). -/
def DrainFollows (answer : Answer) (u : State) (w : WindowId) (o : Order) : Prop :=
  ((u.win w).Committing → (u.win w).Drained → answer = exec (.flip w) u)
    ∧ ((u.win w).Discarding → (u.win w).Drained → answer = exec (.clear w) u)
    ∧ ((u.win w).state = .flattening → (u.win w).requests = 0 → (u.win w).fills = 0 →
        answer = exec (.flattenDrainComplete w o) u)
    ∧ (((u.win w).state = .settling → ¬(u.win w).Drained) →
        ((u.win w).state = .flattening → (u.win w).requests ≠ 0 ∨ (u.win w).fills ≠ 0) →
        answer = .next u.pump)

/-! ### Violations and failures -/

/-- The request is a violation at window `w` with the code given (R27, R31). -/
def Violates (s : State) (r : HRequest) (w : WindowId) : ViolationCode → Prop
  | .noRole => InApparentOf s r.address w ∧ s.role r.requester w = .none
  | .consumerWrite =>
    InApparentOf s r.address w ∧ accessKind r.access = .write ∧ (s.win w).state ≠ .flattening
      ∧ (s.role r.requester w = .consumer ∨ s.role r.requester w = .maintenance)
  | .shadowAccess =>
    InShadowOf s r.address w
      ∧ (s.role r.requester w = .none
        ∨ (s.win w).state ≠ .flattening
          ∧ (s.role r.requester w = .consumer ∨ s.role r.requester w = .producer))

/-- The code of a fill failure by its phase and the status of the response (R65, R154). -/
def FailsWith (k : SlotWork) (status : BitVec 2) : FillCode → Prop
  | .readError => k.phase = .reading ∧ (status = 1 ∨ status = 3)
  | .writeError => k.phase = .writing ∧ (status = 1 ∨ status = 3)
  | .retryExhausted => (k.phase = .reading ∨ k.phase = .writing) ∧ status = 2 ∧ k.attempt = 4

/-- The slot works for a first write, and its window has not been dropped (R55). -/
def SlotWork.FillsFor (k : SlotWork) (w : WindowId) : Prop :=
  k.window = w ∧ k.orphaned = false ∧ (k.kind = .firstWrite ∨ k.kind = .fullLine)

/-- The write that slot `n` issues as it leaves WAITING, where it works on a fill of window `w` that waits
(R60, R61). -/
def waitingWrite (s : State) (w : WindowId) (n : SlotId) : Option MOp :=
  match s.slot n with
  | none => none
  | some k =>
    if k.window = w ∧ k.orphaned = false ∧ (k.kind = .firstWrite ∨ k.kind = .fullLine)
        ∧ k.phase = .waiting then
      k.buffer.map fun l =>
        { tag := ⟨32 + n.val, by omega⟩
          address := (s.win w).geometry.bankBase k.target + BitVec.ofNat 32 (64 * k.line)
          access := .write (l.toList.map fun x => { data := x, mask := 0xFF }) }
    else none

/-- The slot runs a retirement copy, and its window has not been dropped (R55). -/
def SlotWork.CopiesFor (k : SlotWork) (w : WindowId) : Prop :=
  k.window = w ∧ k.orphaned = false ∧ k.kind = .flattenCopy

/-! ### LOAD -/

/-- Two address ranges of `n` and `m` bytes have a byte in common (R11). -/
def RangesMeet (b n c m : Nat) : Prop := ∃ a, (b ≤ a ∧ a < b + n) ∧ c ≤ a ∧ a < c + m

/-- The geometry lies within what LOAD requires (R1, R10). -/
def Geometry.Loadable (g : Geometry) : Prop :=
  16 ≤ g.lineCount.toNat ∧ g.lineCount.toNat ≤ 4096 ∧ g.lineCount.toNat % 16 = 0
    ∧ g.mapOffset.toNat ≤ 8176 ∧ g.mapOffset.toNat % 16 = 0
    ∧ ∀ b ∈ g.apparentBase :: g.shadowBases,
        b.toNat % 1024 = 0 ∧ b.toNat + 64 * g.lineCount.toNat - 1 ≤ 0xFFFFFFFF

/-- A range of one geometry meets another of it, or one of an active window's (R11). -/
def OverlapFault (s : State) (w : WindowId) : Prop :=
  let g := (s.win w).geometry
  (¬(g.apparentBase :: g.shadowBases).Pairwise fun b c =>
      ¬RangesMeet b.toNat (64 * g.lineCount.toNat) c.toNat (64 * g.lineCount.toNat))
    ∨ ∃ v, v ≠ w ∧ (s.win v).state ≠ .off
        ∧ ∃ b ∈ g.apparentBase :: g.shadowBases,
          ∃ c ∈ (s.win v).geometry.apparentBase :: (s.win v).geometry.shadowBases,
            RangesMeet b.toNat (64 * g.lineCount.toNat) c.toNat
              (64 * (s.win v).geometry.lineCount.toNat)

/-- The segment runs past the store, or has an entry of an active window's (R11). -/
def MapFault (s : State) (w : WindowId) : Prop :=
  let g := (s.win w).geometry
  8191 < g.mapOffset.toNat + g.lineCount.toNat - 1
    ∨ ∃ v, v ≠ w ∧ (s.win v).state ≠ .off
        ∧ RangesMeet g.mapOffset.toNat g.lineCount.toNat (s.win v).geometry.mapOffset.toNat
          (s.win v).geometry.lineCount.toNat

/-- Work is left from an earlier life of the window (R9). -/
def BusyFault (s : State) (w : WindowId) : Prop :=
  (s.win w).requests ≠ 0 ∨ ∃ n k, s.slot n = some k ∧ k.window = w

/-- The result of a LOAD of window `w`, by its checks in their order (R9 to R11, R13). -/
def LoadGives (s : State) (w : WindowId) : ResultCode → Prop
  | .refusedState => (s.win w).state ≠ .off
  | .refusedBusy => (s.win w).state = .off ∧ BusyFault s w
  | .refusedRange =>
    (s.win w).state = .off ∧ ¬BusyFault s w ∧ ¬(s.win w).geometry.Loadable
  | .refusedOverlap =>
    (s.win w).state = .off ∧ ¬BusyFault s w ∧ (s.win w).geometry.Loadable ∧ OverlapFault s w
  | .refusedMap =>
    (s.win w).state = .off ∧ ¬BusyFault s w ∧ (s.win w).geometry.Loadable ∧ ¬OverlapFault s w
      ∧ MapFault s w
  | .done =>
    (s.win w).state = .off ∧ ¬BusyFault s w ∧ (s.win w).geometry.Loadable ∧ ¬OverlapFault s w
      ∧ ¬MapFault s w
  | .badCommand => False
  | .badLength => False

/-! ### Invariants -/

/-- The line map store is in its canonical form, and no entry is both pending and filling (R38). -/
def State.MapSound (s : State) : Prop :=
  s.lineMap.wf = true
    ∧ ∀ i, ¬((s.lineMap.entry i).pending = true ∧ (s.lineMap.entry i).filling = true)

/-- The occupied entries of the in-flight table with a property. -/
def State.entriesWith (s : State) (p : InFlight → Bool) : Nat := s.table.toList.countP fun e => e.any p

/-- The slots in use with a property. -/
def State.slotsWith (s : State) (p : SlotWork → Bool) : Nat := s.slots.toList.countP fun k => k.any p

/-- The stores stay within their sizes; every held place of the response queue belongs to one accepted
request without an accepted response: in flight, held in a slot, or answered and waiting (R125, R131,
R135, R142); the record that READ NOTICE is shifting out is the one at the head of the queue (R151).
That a RETIRING slot holds no write is the model's reading (log entry 14). -/
structure State.AnswersSound (s : State) : Prop where
  places : s.hport.placesHeld ≤ 48
  notices : s.notices.records.length ≤ 16
  pulse : s.lines.pulse ≤ 2
  account : s.hport.placesHeld =
    s.entriesWith (fun _ => true) + s.slotsWith (fun k => k.held.isSome) + s.hport.responses.length
  copiesHoldNothing : ∀ n k, s.slot n = some k → k.kind = .flattenCopy → k.held = none
  retiringHoldsNothing : ∀ n k, s.slot n = some k → k.phase = .retiring → k.held = none
  shown : ∀ n, s.mgmt.taken = .slot (some n) → s.notices.records.head? = some n

/-- The fields of a window record that a state gives meaning to (R6, R72, R85, R95, R99, R103). -/
structure Window.Sound (x : Window) : Prop where
  kind : x.settleKind.isSome = true ↔ x.state = .settling
  timer : x.drainTimer.isSome = true → x.state = .settling
  cursor : x.cursor.isSome = true ↔ x.state = .flattening
  request : x.copyRequest = true → x.state = .flattening
  armed : x.armed = true → x.state = .live ∨ x.state = .settling
  held : x.holdStatus ≠ .clear → x.state = .live ∨ x.state = .settling
  acknowledged : x.holdAck = true → x.holdStatus ≠ .clear ∧ x.policy.holdPolicy = .latched
  releasing : x.holdStatus = .releasing → x.policy.holdPolicy = .latched
  event : x.eventSince = true → x.holdStatus = .active ∧ x.policy.holdPolicy = .perBoundary
  manual : x.manualHold = true → x.state ≠ .off ∧ x.state ≠ .flattening
  forced : x.forcedFallback = true → x.state = .live ∨ x.state = .settling
  commit : x.state = .settling → x.settleKind = some .commit → x.holdStatus = .clear
  prompt : ¬(x.policy.commitMode = .prompt ∧ x.state = .live ∧ x.armed = true ∧ x.holdStatus = .clear)

/-- Every window record is sound. -/
def State.WindowsSound (s : State) : Prop := ∀ w, (s.win w).Sound

/-- The byte address lies in the range of the geometry's size at `base`. -/
def Geometry.Holds (g : Geometry) (base : Addr) (a : Nat) : Prop :=
  base.toNat ≤ a ∧ a < base.toNat + g.size

/-- The bases of the ranges of a geometry, apparent range first (R1). -/
def Geometry.ranges (g : Geometry) : List Addr := g.apparentBase :: g.shadowBases

/-- The entry of the store lies in the geometry's segment (R1). -/
def Geometry.Claims (g : Geometry) (i : Nat) : Prop :=
  g.mapOffset.toNat ≤ i ∧ i < g.mapOffset.toNat + g.lineCount.toNat

/-- The ranges of the active windows are disjoint, and so are their segments, which lie in the store
(R10, R11, R12). -/
structure State.RangesSound (s : State) : Prop where
  own : ∀ w, (s.win w).state ≠ .off → (s.win w).geometry.ranges.Pairwise fun b c =>
    ∀ a, ¬((s.win w).geometry.Holds b a ∧ (s.win w).geometry.Holds c a)
  others : ∀ v w, v ≠ w → (s.win v).state ≠ .off → (s.win w).state ≠ .off →
    ∀ b ∈ (s.win v).geometry.ranges, ∀ c ∈ (s.win w).geometry.ranges,
      ∀ a, ¬((s.win v).geometry.Holds b a ∧ (s.win w).geometry.Holds c a)
  segments : ∀ v w, v ≠ w → (s.win v).state ≠ .off → (s.win w).state ≠ .off →
    ∀ i, ¬((s.win v).geometry.Claims i ∧ (s.win w).geometry.Claims i)
  store : ∀ w, (s.win w).state ≠ .off → ∀ i, (s.win w).geometry.Claims i → i < 8192

/-- The slots of a window that are not orphaned (R55). -/
def State.workFor (s : State) (w : WindowId) : Nat :=
  s.slotsWith fun k => decide (k.window = w) && !k.orphaned

/-- The counts of outstanding work of every window are those of the slots and entries that carry its
number (R7, R50, R52, R55). -/
structure State.CountsSound (s : State) : Prop where
  fills : ∀ w, (s.win w).fills = s.workFor w
  requests : ∀ w, (s.win w).requests = s.entriesWith fun e => decide (e.window = some w)
  reads : ∀ w p, (s.win w).readCount p =
    s.entriesWith fun e => decide (e.window = some w) && decide (e.parity = some p)
  producerWrites : ∀ w, (s.win w).producerWrites =
    s.entriesWith fun e => decide (e.window = some w) && decide (e.cls = .producerWrite)
  retiring : ∀ n k, s.slot n = some k → (k.phase = .retiring ↔ k.orphaned = true)
  copies : ∀ n k, s.slot n = some k → k.kind = .flattenCopy → k.orphaned = false →
    (s.win k.window).state = .flattening ∧ (s.win k.window).requests = 0
      ∧ (s.win k.window).fills = 1 ∧ (s.win k.window).copyRequest = false
  kept : ∀ w, (s.win w).copyRequest = true →
    (s.win w).state = .flattening ∧ (s.win w).requests = 0 ∧ (s.win w).fills = 0
  inactive : ∀ w, (s.win w).state = .off ∨ (s.win w).state = .loading → (s.win w).fills = 0

/-- The pending lines of a window's segment. -/
def State.pendingLines (s : State) (w : WindowId) : Nat :=
  (List.range (s.win w).geometry.lineCount.toNat).countP fun i => (s.lineEntry w i).pending

/-- The marks of the line map and the pending counts agree with the windows and the fills (R37, R39):
a fill that is not orphaned works on a filling line of its window, no two on one line; a pending or
filling line lies in a LIVE, SETTLING or FLATTENING window; the pending count counts. -/
structure State.LinesSound (s : State) : Prop where
  count : ∀ w, (s.win w).state = .live ∨ (s.win w).state = .settling →
    (s.win w).pendingCount = s.pendingLines w
  none : ∀ w, (s.win w).state ≠ .live → (s.win w).state ≠ .settling →
    (s.win w).pendingCount = 0
      ∧ ((s.win w).state ≠ .off → ∀ i, i < (s.win w).geometry.lineCount.toNat →
          (s.lineEntry w i).pending = false)
  fills : ∀ n k, s.slot n = some k → k.kind ≠ .flattenCopy → k.orphaned = false →
    (s.win k.window).state ≠ .off ∧ (s.win k.window).state ≠ .loading
      ∧ k.line < (s.win k.window).geometry.lineCount.toNat
      ∧ (s.lineEntry k.window k.line).filling = true
  apart : ∀ n m j k, n ≠ m → s.slot n = some j → s.slot m = some k →
    j.kind ≠ .flattenCopy → j.orphaned = false → k.kind ≠ .flattenCopy → k.orphaned = false →
    ¬(j.window = k.window ∧ j.line = k.line)

/-- The head request of the H-port, if any, cannot be accepted (R124). -/
def State.HeadExamined (s : State) : Prop := s.acceptHead = none

end Sys2Proof.Machine
end

