-- ==== Sys2Proof/Certificates/Slice0/Obligations.lean ====
section
/-! DEFINITION. The statements about the machine. A result stands as `∃ t, exec c s = .next t.pump ∧ …`
where the command's own effects end in `t` and the H-port then examines its head request (R124); with
no request presented `t.pump` is `t`. -/

open Sys2Proof Sys2Proof.Machine

/-! ### The machine -/

/-- A step runs the command at the front of the queue, with the rest of the queue kept. -/
def Obligations.StepRunsTheFrontCommand : Prop :=
  ∀ (c : Instr) (rest : List Instr) (s : State),
    step { s with pending := c :: rest } = exec c { s with pending := rest }

/-- With no command waiting a step takes one rising edge of REFCLK: the tick-divisor-th edge is a tick
(R138). That an empty queue means one edge is the model's choice (log entry 2). -/
def Obligations.IdleStepIsOneClockEdge : Prop :=
  ∀ s : State, s.pending = [] →
    (s.inReset = true → step s = .next s)
      ∧ (s.inReset = false → s.lines.edgeCount + 1 < s.settings.tickDivisor.toNat →
          ∃ t, step s = .next t ∧ Only [.lines] s t
            ∧ t.lines = { s.lines with edgeCount := s.lines.edgeCount + 1 })
      ∧ (s.inReset = false → s.settings.tickDivisor.toNat ≤ s.lines.edgeCount + 1 →
          step s = exec (.tick []) s)

/-- Every command completes, and none touches the queue of waiting commands; while RESET_N is asserted
only its release, its assertion and a presented request change anything (R124, R133, R139, R143, R144).
That a command completes also where its event cannot take place (RESET_N is asserted, a slot is in another
state), and then changes nothing, is the model's choice (log entry 3). -/
def Obligations.ExecKeepsTheQueue : Prop :=
  (∀ (c : Instr) (s : State), ∃ t, exec c s = .next t ∧ t.pending = s.pending)
  ∧ (∀ (c : Instr) (s : State), s.inReset = true → (∀ r, c ≠ .requestAccepted r) →
      c ≠ .resetAsserted → (∀ l b, c ≠ .resetReleased l b) → exec c s = .next s)
  ∧ ∀ (s : State) (n : SlotId) (data : Line) (status : BitVec 2) (o : Order),
      ((∀ k, s.slot n = some k → k.phase ≠ .reading) →
        exec (.fillReadDone n data) s = .next s ∧ exec (.flattenCopyReadDone n data) s = .next s)
      ∧ ((∀ k, s.slot n = some k → k.phase ≠ .writing) →
        exec (.fillCompletes n o) s = .next s ∧ exec (.flattenCopyDone n o) s = .next s)
      ∧ ((∀ k, s.slot n = some k → k.phase ≠ .reading ∧ k.phase ≠ .writing) →
        exec (.fillOperationRetry n) s = .next s ∧ exec (.fillFails n status o) s = .next s
          ∧ exec (.flattenCopyFailed n status o) s = .next s)
      ∧ ((∀ k, s.slot n = some k → k.phase ≠ .retiring) →
        exec (.retiringSlotFreed n status o) s = .next s)

/-- RESET_N asserted: the reset content of every block (R18, R20, R36, R55, R133, R135, R138, R142,
R148). RESET_N released: the part goes on from what it holds, the sampled level of each line is its
level at the release, and nothing is raised (R139, R143); the wait for CS is R144's.
That the release carries the level of CS and of the lines is the model's choice (log entry 10). -/
def Obligations.ResetSetsEveryBlock : Prop :=
  (∀ s : State, ∃ t, exec .resetAsserted s = .next t
     ∧ (∀ w, (t.win w).state = .off ∧ (t.win w).settleKind = none ∧ (t.win w).armed = false
         ∧ (t.win w).generation = 0 ∧ (t.win w).dividerCount = 0 ∧ (t.win w).pendingCount = 0
         ∧ (t.win w).parity = false ∧ (t.win w).reads0 = 0 ∧ (t.win w).reads1 = 0
         ∧ (t.win w).fills = 0 ∧ (t.win w).producerWrites = 0 ∧ (t.win w).requests = 0
         ∧ (t.win w).holdStatus = .clear ∧ (t.win w).holdAck = false
         ∧ (t.win w).eventSince = false ∧ (t.win w).manualHold = false
         ∧ (t.win w).forcedFallback = false ∧ (t.win w).drainTimer = none
         ∧ (t.win w).cursor = none
         ∧ (t.win w).geometry =
             { apparentBase := 0, lineCount := 16, mapOffset := 0, bankA := 0, bankB := 0
               fallback := none }
         ∧ (t.win w).policy =
             { commitMode := .boundary, divider := 1, drainLimit := 0, holdPolicy := .latched
               sources := { hold0 := false, hold1 := false, violation := false
                            fillFailed := false }
               redirect := false, pubreqEnable := false, commitNotices := false
               commitOutput := false })
     ∧ (∀ i, t.lineMap.entry i = { published := .a, pending := false, filling := false })
     ∧ (∀ n, t.slot n = none) ∧ (∀ i, t.entry i = none) ∧ (∀ r w, t.role r w = .none)
     ∧ t.hport.responses = [] ∧ t.hport.placesHeld = 0
     ∧ (∀ r g, t.hport.isOutstanding r g = false)
     ∧ t.issueQueue = [] ∧ t.notices.records = [] ∧ t.notices.overflow = false
     ∧ t.settings = { hold0Polarity := .activeHigh, hold1Polarity := .activeHigh
                      noticeEnable := true, tickDivisor := 50 }
     ∧ t.lines.edgeCount = 0 ∧ t.lines.pulse = 0 ∧ t.mgmt.lastResult = .done
     ∧ t.mgmt.frameState = .idle
     ∧ t.noticeAsserted = false ∧ t.committedAsserted = false ∧ t.inReset = true)
  ∧ ∀ (s : State) (levels : LineLevels) (csLow : Bool), s.inReset = true →
      ∃ t, exec (.resetReleased levels csLow) s = .next t.pump
        ∧ Only [.mgmt, .lines, .inReset] s t ∧ t.inReset = false
        ∧ t.lines = { s.lines with levels := levels }
        ∧ t.mgmt = { s.mgmt with frameState := if csLow = true then .waitCsHigh else .idle }

/-! ### Invariants -/

/-- Every invariant holds right after reset. -/
def Obligations.InvariantsHoldAtReset : Prop :=
  State.reset.MapSound ∧ State.reset.AnswersSound ∧ State.reset.WindowsSound
    ∧ State.reset.RangesSound ∧ State.reset.CountsSound ∧ State.reset.LinesSound
    ∧ State.reset.HeadExamined

/-- No step makes a line entry both pending and filling, or takes the store out of its canonical
form (R38; the canonical form is the model's). -/
def Obligations.EveryStepKeepsTheMapSound : Prop :=
  ∀ s t : State, s.MapSound → step s = .next t → t.MapSound

/-- At every step the queues stay within their sizes, every accepted request without an accepted
response holds exactly one place, and the record that READ NOTICE is shifting out stands at the head of
the queue (R125, R131, R135, R142, R151).
That a RETIRING slot no longer holds the write it has answered, and so no place, is the model's reading
(log entry 14). -/
def Obligations.EveryStepKeepsTheAnswersSound : Prop :=
  ∀ s t : State, s.AnswersSound → step s = .next t → t.AnswersSound

/-- At every step the window records stay sound: settle kind, drain timer and cursor go with the
state, a COMMIT settle has its hold CLEAR, and no PROMPT window is LIVE, armed and CLEAR (R6, R72,
R81, R85, R86, R95, R99, R103). -/
def Obligations.EveryStepKeepsTheWindowsSound : Prop :=
  ∀ s t : State, s.WindowsSound → step s = .next t → t.WindowsSound

/-- At every step the ranges and segments of the active windows stay disjoint (R12). -/
def Obligations.EveryStepKeepsTheRangesDisjoint : Prop :=
  ∀ s t : State, s.RangesSound → step s = .next t → t.RangesSound

/-- At every step the counts of every window are those of its slots and tracker entries (R7). -/
def Obligations.EveryStepKeepsTheCountsExact : Prop :=
  ∀ s t : State, s.CountsSound → step s = .next t → t.CountsSound

/-- At every step the pending count of every window is the number of pending entries of its segment,
and its fills work on filling lines of it (R37, R39). -/
def Obligations.EveryStepKeepsThePendingCountsExact : Prop :=
  ∀ s t : State, s.MapSound → s.RangesSound → s.CountsSound → s.LinesSound →
    step s = .next t → t.LinesSound

/-- After every step the head request of the H-port, if any, is one that cannot be accepted: whatever
an event frees or changes, the head is taken in that event (R124). -/
def Obligations.EveryStepExaminesTheHead : Prop :=
  ∀ s t : State, s.HeadExamined → step s = .next t → t.HeadExamined

/-! ### Requests -/

/-- A malformed request is answered ERROR locally with notice MALFORMED, and touches nothing else; a
repeated pair stays with the earlier request; NOTICE is then asserted where it is enabled (R25, R26,
R141). -/
def Obligations.MalformedRequestIsAnsweredError : Prop :=
  ∀ (s : State) (r : HRequest) (c : MalformedCode),
    s.inReset = false → s.hport.channel = [] → s.hport.placesHeld < 48 → FormFault s.hport r c →
    ∃ t, exec (.requestAccepted r) s = .next t ∧ Only [.hport, .notices] s t
      ∧ AnsweredLocally s t r .error
      ∧ t.notices = s.notices.offer (.malformed r.requester r.address c)
      ∧ t.noticeAsserted = s.settings.noticeEnable

/-- A request outside every range of the active windows is forwarded unchanged and counted at no
window, whatever its requester's roles (R33). -/
def Obligations.PassThroughIsForwardedUnchanged : Prop :=
  ∀ (s : State) (r : HRequest) (i : EntryId),
    ReadyFor s r → InNoRange s r.address → LowestFreeEntry s i →
    ∃ t, exec (.requestAccepted r) s = .next t ∧ Only [.hport, .table, .issueQueue] s t
      ∧ Forwarded s t r i .passThrough none none r.address

/-- Permitted accesses of a LOADING window go to bank A, and maintenance accesses to a shadow range go
where they name; both count as requests of the window alone (R28, R31). -/
def Obligations.UntaggedRequestsAreForwarded : Prop :=
  ∀ (s : State) (r : HRequest) (i : EntryId) (w : WindowId),
    ReadyFor s r → LowestFreeEntry s i →
    (InApparentOf s r.address w → (s.win w).state = .loading →
      (s.role r.requester w = .producer
        ∨ s.role r.requester w ≠ .none ∧ accessKind r.access = .read) →
      ∃ t, exec (.requestAccepted r) s = .next t
        ∧ Only [.windows, .hport, .table, .issueQueue] s t
        ∧ Forwarded s t r i .loadingAccess (some w) none
            ((s.win w).geometry.bankA + (r.address - (s.win w).geometry.apparentBase))
        ∧ WindowBecomes s t w { s.win w with requests := (s.win w).requests + 1 })
    ∧ (InShadowOf s r.address w → s.role r.requester w = .maintenance →
      (s.win w).state ≠ .flattening →
      ∃ t, exec (.requestAccepted r) s = .next t
        ∧ Only [.windows, .hport, .table, .issueQueue] s t
        ∧ Forwarded s t r i .rawMaintenance (some w) none r.address
        ∧ WindowBecomes s t w { s.win w with requests := (s.win w).requests + 1 })

/-- A consumer or maintenance read goes to the fallback image, untagged, while a hold or forced
fallback redirects it, and otherwise to the published bank of its line, tagged with the epoch parity
(R43, R44, R109). -/
def Obligations.PublishedReadIsSteered : Prop :=
  ∀ (s : State) (r : HRequest) (i : EntryId) (w : WindowId),
    ReadyFor s r → LowestFreeEntry s i → InApparentOf s r.address w → (s.win w).Running →
    accessKind r.access = .read →
    s.role r.requester w = .consumer ∨ s.role r.requester w = .maintenance →
    (∀ base, (s.win w).geometry.fallback = some base →
      ((s.win w).forcedFallback = true
        ∨ (s.win w).policy.redirect = true ∧ (s.win w).holdStatus ≠ .clear) →
      ∃ t, exec (.requestAccepted r) s = .next t
        ∧ Only [.windows, .hport, .table, .issueQueue] s t
        ∧ Forwarded s t r i .publishedRead (some w) none
            (base + (r.address - (s.win w).geometry.apparentBase))
        ∧ WindowBecomes s t w { s.win w with requests := (s.win w).requests + 1 })
    ∧ ((s.win w).geometry.fallback = none
        ∨ (s.win w).forcedFallback = false
          ∧ ((s.win w).policy.redirect = false ∨ (s.win w).holdStatus = .clear) →
      ∃ t, exec (.requestAccepted r) s = .next t
        ∧ Only [.windows, .hport, .table, .issueQueue] s t
        ∧ Forwarded s t r i .publishedRead (some w) (some (s.win w).parity)
            ((s.win w).geometry.bankBase
                (s.lineEntry w ((r.address - (s.win w).geometry.apparentBase).toNat / 64)).published
              + (r.address - (s.win w).geometry.apparentBase))
        ∧ WindowBecomes s t w
            { s.win w with
              requests := (s.win w).requests + 1
              reads0 := if (s.win w).parity then (s.win w).reads0 else (s.win w).reads0 + 1
              reads1 := if (s.win w).parity then (s.win w).reads1 + 1 else (s.win w).reads1 })

/-- A producer read is answered RETRY while its line is filling, and otherwise goes, tagged, to the
working bank of a pending line and to the published bank of any other (R45). -/
def Obligations.ProducerReadIsSteered : Prop :=
  ∀ (s : State) (r : HRequest) (w : WindowId) (e : LineEntry),
    ReadyFor s r → InApparentOf s r.address w → (s.win w).Running →
    accessKind r.access = .read → s.role r.requester w = .producer →
    s.lineEntry w ((r.address - (s.win w).geometry.apparentBase).toNat / 64) = e →
    (e.filling = true →
      ∃ t, exec (.requestAccepted r) s = .next t ∧ Only [.hport] s t
        ∧ AnsweredLocally s t r .retry)
    ∧ (e.filling = false → ∀ i, LowestFreeEntry s i →
      ∃ t, exec (.requestAccepted r) s = .next t
        ∧ Only [.windows, .hport, .table, .issueQueue] s t
        ∧ Forwarded s t r i .producerRead (some w) (some (s.win w).parity)
            ((s.win w).geometry.bankBase (if e.pending then e.published.other else e.published)
              + (r.address - (s.win w).geometry.apparentBase))
        ∧ WindowBecomes s t w
            { s.win w with
              requests := (s.win w).requests + 1
              reads0 := if (s.win w).parity then (s.win w).reads0 else (s.win w).reads0 + 1
              reads1 := if (s.win w).parity then (s.win w).reads1 + 1 else (s.win w).reads1 })

/-- A producer write to a pending line of a LIVE window goes to the working bank and is counted in the
producer writes in flight; the line entry stays as it is (R46). -/
def Obligations.ProducerWriteToAPendingLineIsForwarded : Prop :=
  ∀ (s : State) (r : HRequest) (i : EntryId) (w : WindowId) (e : LineEntry),
    ReadyFor s r → LowestFreeEntry s i → InApparentOf s r.address w → (s.win w).state = .live →
    accessKind r.access = .write → s.role r.requester w = .producer →
    s.lineEntry w ((r.address - (s.win w).geometry.apparentBase).toNat / 64) = e →
    e.filling = false → e.pending = true →
    ∃ t, exec (.requestAccepted r) s = .next t
      ∧ Only [.windows, .hport, .table, .issueQueue] s t
      ∧ Forwarded s t r i .producerWrite (some w) none
          ((s.win w).geometry.bankBase e.published.other
            + (r.address - (s.win w).geometry.apparentBase))
      ∧ WindowBecomes s t w
          { s.win w with requests := (s.win w).requests + 1
                         producerWrites := (s.win w).producerWrites + 1 }

/-- A first write takes the lowest-numbered FREE slot and sets filling. A partial write starts the read
of the published line; a write of the whole line fills the buffer, and is written at once if no read
of the previous epoch is left (R47, R57, R58, R60, R61, R63).
The attempt count of a FULL_LINE slot that waits is the model's choice (log entry 14). -/
def Obligations.FirstWriteTakesASlot : Prop :=
  ∀ (s : State) (r : HRequest) (d : List Beat) (w : WindowId) (n : SlotId) (i : Nat) (e : LineEntry),
    ReadyFor s r → s.MapSound → LowestFreeSlot s n → InApparentOf s r.address w →
    (s.win w).state = .live → r.access = .write d → s.role r.requester w = .producer →
    (r.address - (s.win w).geometry.apparentBase).toNat / 64 = i →
    (s.win w).geometry.entryIndex i < 8192 → s.lineEntry w i = e →
    e.filling = false → e.pending = false →
    ∃ t k, exec (.requestAccepted r) s = .next t
      ∧ Only [.windows, .lineMap, .slots, .hport, .issueQueue] s t
      ∧ HoldsPlace s t r ∧ t.hport.responses = s.hport.responses
      ∧ LineBecomes s t w i { e with filling := true }
      ∧ WindowBecomes s t w { s.win w with fills := (s.win w).fills + 1 }
      ∧ SlotBecomes s t n (some k)
      ∧ k.window = w ∧ k.line = i ∧ k.source = e.published ∧ k.target = e.published.other
      ∧ k.held = some { requester := r.requester, tag := r.tag, address := r.address, beats := d }
      ∧ k.attempt = 1 ∧ k.orphaned = false
      ∧ (¬(d.length = 8 ∧ ∀ b ∈ d, b.mask = 0xFF) →
          k.kind = .firstWrite ∧ k.phase = .reading ∧ k.buffer = none
          ∧ ∃ op : MOp, op.tag.val = 32 + n.val ∧ op.access = .read 8
              ∧ op.address = (s.win w).geometry.bankBase e.published + BitVec.ofNat 32 (64 * i)
              ∧ t.issueQueue = s.issueQueue ++ [op])
      ∧ (d.length = 8 ∧ (∀ b ∈ d, b.mask = 0xFF) →
          k.kind = .fullLine ∧ (∃ l : Line, k.buffer = some l ∧ l.toList = d.map Beat.data)
          ∧ ((s.win w).previousReads ≠ 0 → k.phase = .waiting ∧ t.issueQueue = s.issueQueue)
          ∧ ((s.win w).previousReads = 0 → k.phase = .writing
              ∧ ∃ op : MOp, op.tag.val = 32 + n.val ∧ op.access = .write d
                  ∧ op.address =
                      (s.win w).geometry.bankBase e.published.other + BitVec.ofNat 32 (64 * i)
                  ∧ t.issueQueue = s.issueQueue ++ [op]))

/-- RETRY answers of the part itself: a producer write while its window settles, to a filling line, or
with no slot free; any request with a role of a FLATTENING window (R30, R48). -/
def Obligations.RetryIsAnsweredLocally : Prop :=
  ∀ (s : State) (r : HRequest) (w : WindowId), ReadyFor s r →
    (InApparentOf s r.address w ∧ s.role r.requester w = .producer ∧ accessKind r.access = .write
        ∧ ((s.win w).state = .settling
          ∨ (s.win w).state = .live
            ∧ ((s.lineEntry w
                  ((r.address - (s.win w).geometry.apparentBase).toNat / 64)).filling = true
              ∨ (s.lineEntry w
                  ((r.address - (s.win w).geometry.apparentBase).toNat / 64)).pending = false
                ∧ ∀ n, s.slot n ≠ none))
      ∨ (InApparentOf s r.address w ∨ InShadowOf s r.address w)
        ∧ (s.win w).state = .flattening ∧ s.role r.requester w ≠ .none) →
    ∃ t, exec (.requestAccepted r) s = .next t ∧ Only [.hport] s t ∧ AnsweredLocally s t r .retry

/-- A violation is answered ERROR with notice VIOLATION; where VIOLATION is no hold source of the
window, or the window evaluates no hold, nothing else happens, and otherwise the violation acts on the
window's hold in the same event, its notice before the hold's (R34, R35, R91, R97, R99, R103, R107). -/
def Obligations.ViolationIsAnsweredError : Prop :=
  (∀ (s : State) (r : HRequest) (w : WindowId) (c : ViolationCode),
     ReadyFor s r → Violates s r w c →
     (¬(s.win w).Running ∨ (s.win w).policy.sources.violation = false) →
     ∃ t, exec (.requestAccepted r) s = .next t ∧ Only [.hport, .notices] s t
       ∧ AnsweredLocally s t r .error
       ∧ t.notices = s.notices.offer (.violation w r.requester r.address c))
  ∧ ∀ (s : State) (r : HRequest) (w : WindowId) (c : ViolationCode),
      ReadyFor s r → Violates s r w c → (s.win w).Running →
      (s.win w).policy.sources.violation = true →
      ∃ t x l, exec (.requestAccepted r) s = .next t ∧ Only [.windows, .hport, .notices] s t
        ∧ AnsweredLocally s t r .error ∧ WindowBecomes s t w x
        ∧ EventStrikes (s.win w) x w .violation l
        ∧ t.notices =
            (s.notices.offer (.violation w r.requester r.address c)).offerAll l

/-- A request that cannot be accepted waits on the channel, and changes nothing else: behind a head that
cannot be accepted, with no place free, or needing a tracker entry, of whatever class it is, when none is
free (R24, R124); and during a reset.
That a request presented while RESET_N is asserted stands on the channel is the model's reading (log
entry 7). -/
def Obligations.RequestWaitsOnTheChannel : Prop :=
  ∀ (s : State) (r : HRequest),
    (s.inReset = true ∨ 48 ≤ s.hport.placesHeld ∨ (s.HeadExamined ∧ s.hport.channel ≠ [])
      ∨ (ReadyFor s r ∧ ForwardedRequest s r ∧ ∀ i, s.entry i ≠ none)) →
    ∃ t, exec (.requestAccepted r) s = .next t ∧ Only [.hport] s t
      ∧ t.hport = { s.hport with channel := s.hport.channel ++ [r] }

/-! ### Responses -/

/-- The host side accepts the oldest response, which is the one the H-port presents: its place is
released, and its pair leaves the outstanding set unless it answered a duplicate (R19, R26, R122, R125,
R154).
That nothing happens where no response waits is the model's choice (log entry 3). -/
def Obligations.ResponseAcceptedReleasesItsPlace : Prop :=
  ∀ s : State, s.inReset = false →
    (s.hport.responses = [] → exec .responseAccepted s = .next s ∧ s.presentedResponse = none)
    ∧ ∀ r rest, s.hport.responses = r :: rest →
      (∃ h : HResponseHeader, s.presentedResponse = some (h, r.data)
        ∧ h.requester.toNat = r.requester.val ∧ h.tag.toNat = r.tag.val
        ∧ h.status = (match r.status with | .okay => 0 | .error => 1 | .retry => 2))
      ∧ ∃ t, exec .responseAccepted s = .next t.pump ∧ Only [.hport] s t
        ∧ t.hport.channel = s.hport.channel ∧ t.hport.responses = rest
        ∧ t.hport.placesHeld = s.hport.placesHeld - 1
        ∧ ∀ q g, t.hport.isOutstanding q g =
            (s.hport.isOutstanding q g
              && (r.duplicate || !(decide (q = r.requester) && decide (g = r.tag))))

/-- The memory side accepts the oldest operation of the issue queue, which is the one the M-port
presents, with kind 0 for a READ and 1 for a WRITE, and nothing else moves; a stray response changes
nothing; of the codes of a response 0 is OKAY, 2 is RETRY, and 1 and 3 are ERROR (R122, R127, R129,
R154).
That nothing happens on an empty issue queue is the model's choice (log entry 3). -/
def Obligations.MemorySideTakesTheOldestOperation : Prop :=
  (∀ s : State, s.inReset = false →
    ∃ t, exec .memorySideAccept s = .next t ∧ Only [.issueQueue] s t
      ∧ ((s.issueQueue = [] ∧ t.issueQueue = [] ∧ s.presentedOperation = none)
        ∨ ∃ op, s.issueQueue = op :: t.issueQueue
          ∧ ∃ h : MRequestHeader, s.presentedOperation = some (h, accessData op.access)
            ∧ h.kind = (match accessKind op.access with | .read => 0 | .write => 1)
            ∧ h.tag.toNat = op.tag.val ∧ h.address = op.address
            ∧ (accessBeats op.access < 16 → h.beats.toNat = accessBeats op.access)))
  ∧ (∀ (s : State) (tag : Fin 64) (status : BitVec 2) (data : List Word),
      exec (.strayResponseDiscarded tag status data) s = .next s)
  ∧ statusOfCode 0 = .okay ∧ statusOfCode 1 = .error ∧ statusOfCode 2 = .retry
  ∧ statusOfCode 3 = .error

/-- A response to a tracker entry lowers its window's counts, is passed up with its status and, for an
OKAY read, its data, and frees the entry; where no fill of the window leaves WAITING for it, because none
waits or a read of the previous epoch is left, what waits on the counts follows in the event, and with
the empty order the kept slot requests after it (R7, R57, R60, R84, R116, R129, R130, R154). The fills that
leave WAITING are in the statement of FILL_WRITE_START.
That kept slot requests are served W0 first, before the H-port examines its head, is the model's choice
(log entry 4). -/
def Obligations.TrackerResponseIsPassedUp : Prop :=
  ∀ (s : State) (tag : EntryId) (status : BitVec 2) (data : List Word) (o : Order) (e : InFlight),
    s.inReset = false → s.entry tag = some e →
    (status = 0 → e.kind = .read → data.length = e.beats) →
    (∀ w, e.window = some w → ((s.win w).lowered e).previousReads = 0 →
      ∀ n k, s.slot n = some k → k.FillsFor w → k.phase ≠ .waiting) →
    ∃ u, Only [.windows, .table, .hport] s u ∧ EntryBecomes s u tag none
      ∧ u.hport = { s.hport with
          responses := s.hport.responses ++
            [{ requester := e.requester, tag := e.tag
               status := if status = 0 then .okay else if status = 2 then .retry else .error
               data := if status = 0 ∧ e.kind = .read then data else []
               duplicate := false }] }
      ∧ (e.window = none → u.windows = s.windows
          ∧ (NoKeptRequest s → exec (.trackerResponse tag status data o) s = .next u.pump)
          ∧ ∃ t, KeptThenHead u t ∧ exec (.trackerResponse tag status data []) s = .next t)
      ∧ ∀ w, e.window = some w → WindowBecomes s u w ((s.win w).lowered e)
          ∧ (NoKeptRequest s →
            DrainFollows (exec (.trackerResponse tag status data o) s) u w o)
          ∧ (s.MapSound → DrainThenKept (exec (.trackerResponse tag status data []) s) u w)

/-! ### Fills -/

/-- An OKAY to the read of a first write: the enabled bytes of the held write replace those of the line
read, all others stay, and the slot waits for the readers of the previous epoch, or writes at once
(R59, R60, R61). -/
def Obligations.FillReadDoneMergesTheHeldWrite : Prop :=
  ∀ (s : State) (n : SlotId) (k : SlotWork) (h : HeldWrite) (data : Line) (w : WindowId) (o : Nat),
    s.inReset = false → s.slot n = some k → k.FillsFor w → k.phase = .reading → k.held = some h →
    (h.address - (s.win w).geometry.apparentBase).toNat % 64 = o → o % 8 = 0 →
    o + 8 * h.beats.length ≤ 64 →
    ∃ t l, exec (.fillReadDone n data) s = .next t.pump ∧ Only [.slots, .issueQueue] s t
      ∧ (∀ j beat, h.beats[j]? = some beat → ∀ b, b < 8 →
          lineByte l (o + 8 * j + b) =
            if beat.mask.getLsbD b then wordByte beat.data b else lineByte data (o + 8 * j + b))
      ∧ (∀ i, i < 64 → (i < o ∨ o + 8 * h.beats.length ≤ i) → lineByte l i = lineByte data i)
      ∧ ((s.win w).previousReads ≠ 0 → t.issueQueue = s.issueQueue
          ∧ SlotBecomes s t n (some { k with phase := .waiting, buffer := some l }))
      ∧ ((s.win w).previousReads = 0 →
          SlotBecomes s t n (some { k with phase := .writing, buffer := some l, attempt := 1 })
          ∧ ∃ op : MOp, op.tag.val = 32 + n.val
              ∧ op.address =
                  (s.win w).geometry.bankBase k.target + BitVec.ofNat 32 (64 * k.line)
              ∧ op.access = .write (l.toList.map fun x => { data := x, mask := 0xFF })
              ∧ t.issueQueue = s.issueQueue ++ [op])

/-- A slot leaves WAITING for WRITING, and issues its write, once no read of the previous epoch is left;
before that it stays; and a response that leaves the previous read count of its window at 0 is passed up
and releases, in its event and in whatever state the window is, every fill of the window that waits: each
adds its write once to the issue queue, and nothing else does, before what waits on the counts follows and,
with the empty order, the kept slot requests after it (R57, R60, R61, R84, R116, R127, R129, R154).
That FILL_WRITE_START acts only where its condition stands is the model's reading (log entry 6); the order of
the slots, and that kept slot requests are served W0 first, before the H-port examines its head, are its
choices (log entry 4). -/
def Obligations.FillWriteStartsWithoutOldReaders : Prop :=
  (∀ (s : State) (n : SlotId) (k : SlotWork) (l : Line) (w : WindowId),
     s.inReset = false → s.slot n = some k → k.FillsFor w → k.phase = .waiting →
     k.buffer = some l →
     ((s.win w).previousReads ≠ 0 → exec (.fillWriteStart n) s = .next s.pump)
     ∧ ((s.win w).previousReads = 0 →
       ∃ t, exec (.fillWriteStart n) s = .next t.pump ∧ Only [.slots, .issueQueue] s t
         ∧ SlotBecomes s t n (some { k with phase := .writing, attempt := 1 })
         ∧ ∃ op : MOp, op.tag.val = 32 + n.val
             ∧ op.address = (s.win w).geometry.bankBase k.target + BitVec.ofNat 32 (64 * k.line)
             ∧ op.access = .write (l.toList.map fun x => { data := x, mask := 0xFF })
             ∧ t.issueQueue = s.issueQueue ++ [op]))
  ∧ ∀ (s : State) (tag : EntryId) (status : BitVec 2) (data : List Word) (o : Order) (e : InFlight)
        (w : WindowId),
      s.inReset = false → s.entry tag = some e → e.window = some w →
      (status = 0 → e.kind = .read → data.length = e.beats) →
      ((s.win w).lowered e).previousReads = 0 →
      ∃ u, Only [.windows, .slots, .table, .hport, .issueQueue] s u ∧ EntryBecomes s u tag none
        ∧ WindowBecomes s u w ((s.win w).lowered e)
        ∧ u.hport = { s.hport with
            responses := s.hport.responses ++
              [{ requester := e.requester, tag := e.tag
                 status := if status = 0 then .okay else if status = 2 then .retry else .error
                 data := if status = 0 ∧ e.kind = .read then data else []
                 duplicate := false }] }
        ∧ (∀ n k, s.slot n = some k → k.FillsFor w → k.phase = .waiting →
            u.slot n = some { k with phase := .writing, attempt := 1 })
        ∧ (∀ n, (∀ k, s.slot n = some k → ¬(k.FillsFor w ∧ k.phase = .waiting)) →
            u.slot n = s.slot n)
        ∧ u.issueQueue = s.issueQueue ++ (slotsIn o).filterMap (waitingWrite s w)
        ∧ (slotsIn o).Nodup ∧ (∀ n, n ∈ slotsIn o)
        ∧ (NoKeptRequest s → DrainFollows (exec (.trackerResponse tag status data o) s) u w o)
        ∧ (s.MapSound → o = [] → DrainThenKept (exec (.trackerResponse tag status data o) s) u w)

/-- A fill completes: its line becomes pending, or in FLATTENING only loses its filling mark; its held
write is answered OKAY, its slot is FREE, and the drain that waits for it follows; with the empty order a
kept slot request takes the slot in the same event (R57, R62, R84, R116, R117).
That kept slot requests are served W0 first, before the H-port examines its head, is the model's choice
(log entry 4). -/
def Obligations.FillCompletesItsLine : Prop :=
  ∀ (s : State) (n : SlotId) (k : SlotWork) (h : HeldWrite) (o : Order) (w : WindowId),
    s.inReset = false → s.MapSound → s.slot n = some k → k.FillsFor w →
    k.phase = .writing → k.held = some h → (s.win w).geometry.entryIndex k.line < 8192 →
    ((s.win w).Running ∨ (s.win w).state = .flattening) →
    ∃ u, Only [.windows, .lineMap, .slots, .hport] s u ∧ SlotBecomes s u n none
      ∧ u.hport = { s.hport with
          responses := s.hport.responses ++
            [{ requester := h.requester, tag := h.tag, status := .okay, data := []
               duplicate := false }] }
      ∧ ((s.win w).Running →
          LineBecomes s u w k.line { s.lineEntry w k.line with pending := true, filling := false }
          ∧ WindowBecomes s u w { s.win w with pendingCount := (s.win w).pendingCount + 1
                                               fills := (s.win w).fills - 1 })
      ∧ ((s.win w).state = .flattening →
          LineBecomes s u w k.line { s.lineEntry w k.line with pending := false, filling := false }
          ∧ WindowBecomes s u w { s.win w with fills := (s.win w).fills - 1 })
      ∧ (NoKeptRequest s → DrainFollows (exec (.fillCompletes n o) s) u w o)
      ∧ DrainThenKept (exec (.fillCompletes n []) s) u w

/-- A RETRY before attempt 4 re-issues the same operation, for fills and copies alike (R64, R69). -/
def Obligations.FillOperationIsRetried : Prop :=
  ∀ (s : State) (n : SlotId) (k : SlotWork),
    s.inReset = false → s.slot n = some k → k.orphaned = false → k.attempt < 4 →
    (k.phase = .reading →
      ∃ t, exec (.fillOperationRetry n) s = .next t.pump ∧ Only [.slots, .issueQueue] s t
        ∧ SlotBecomes s t n (some { k with attempt := k.attempt + 1 })
        ∧ ∃ op : MOp, op.tag.val = 32 + n.val ∧ op.access = .read 8
            ∧ op.address =
                (s.win k.window).geometry.bankBase k.source + BitVec.ofNat 32 (64 * k.line)
            ∧ t.issueQueue = s.issueQueue ++ [op])
    ∧ (k.phase = .writing → ∀ l, k.buffer = some l →
      ∃ t, exec (.fillOperationRetry n) s = .next t.pump ∧ Only [.slots, .issueQueue] s t
        ∧ SlotBecomes s t n (some { k with attempt := k.attempt + 1 })
        ∧ ∃ op : MOp, op.tag.val = 32 + n.val
            ∧ op.access = .write (l.toList.map fun x => { data := x, mask := 0xFF })
            ∧ op.address =
                (s.win k.window).geometry.bankBase k.target + BitVec.ofNat 32 (64 * k.line)
            ∧ t.issueQueue = s.issueQueue ++ [op])

/-- A fill fails: its line loses its filling mark, its held write is answered ERROR, its slot is FREE,
FILL_FAILED is raised; where FILL_FAILED is a hold source the hold is struck, and otherwise the drain
that waits for the fill follows; with the empty order a kept slot request takes the slot in the same event
(R57, R65, R66, R84, R97, R107, R116, R117).
That kept slot requests are served W0 first, before the H-port examines its head, is the model's choice
(log entry 4). -/
def Obligations.FillFailureFreesItsLine : Prop :=
  ∀ (s : State) (n : SlotId) (k : SlotWork) (h : HeldWrite) (status : BitVec 2) (o : Order)
      (w : WindowId) (c : FillCode),
    s.inReset = false → s.MapSound → s.slot n = some k → k.FillsFor w →
    FailsWith k status c → k.held = some h → (s.win w).geometry.entryIndex k.line < 8192 →
    ∃ u, SlotBecomes s u n none
      ∧ u.hport = { s.hport with
          responses := s.hport.responses ++
            [{ requester := h.requester, tag := h.tag, status := .error, data := []
               duplicate := false }] }
      ∧ LineBecomes s u w k.line { s.lineEntry w k.line with filling := false }
      ∧ Only [.windows, .lineMap, .slots, .hport, .notices] s u
      ∧ (¬(s.win w).Running ∨ (s.win w).policy.sources.fillFailed = false →
          WindowBecomes s u w { s.win w with fills := (s.win w).fills - 1 }
          ∧ u.notices = s.notices.offer (.fillFailed w h.requester h.address c))
      ∧ ((s.win w).Running → (s.win w).policy.sources.fillFailed = true →
          ∃ x l, WindowBecomes s u w x
            ∧ EventStrikes { s.win w with fills := (s.win w).fills - 1 } x w .fillFailed l
            ∧ u.notices =
                (s.notices.offer (.fillFailed w h.requester h.address c)).offerAll l)
      ∧ (NoKeptRequest s → DrainFollows (exec (.fillFails n status o) s) u w o)
      ∧ DrainThenKept (exec (.fillFails n status []) s) u w

/-- The response to an orphaned slot's operation frees the slot, whatever its status, and changes
nothing else; kept slot requests are served by a slot freed so (R57, R71, R117).
That with the empty order kept slot requests are served before the H-port examines its head, where R57
lets either be first, is the model's choice (log entry 4). -/
def Obligations.RetiringSlotBecomesFree : Prop :=
  ∀ (s : State) (n : SlotId) (k : SlotWork) (status : BitVec 2),
    s.inReset = false → s.slot n = some k → k.phase = .retiring →
    ∃ t, SlotBecomes s t n none ∧ Only [.slots] s t
      ∧ (NoKeptRequest s → ∀ o, exec (.retiringSlotFreed n status o) s = .next t.pump)
      ∧ (∀ w, (∀ v, (s.win v).copyRequest = true ↔ v = w) →
          exec (.retiringSlotFreed n status []) s = exec (.flattenRequestServed w) t)
      ∧ ∃ y, KeptThenHead t y ∧ exec (.retiringSlotFreed n status []) s = .next y

/-! ### Retirement -/

/-- An OKAY to a copy's read starts its write to the target bank; a copy done publishes its line in A,
frees its slot, and walks on from the next line (R57, R68, R117, R118).
That with the empty order the slot request is served before the H-port examines its head, where R57 lets
either be first, is the model's choice (log entry 4). -/
def Obligations.CopiesMoveTheLine : Prop :=
  (∀ (s : State) (n : SlotId) (k : SlotWork) (data : Line) (w : WindowId),
     s.inReset = false → s.slot n = some k → k.CopiesFor w → k.phase = .reading →
     ∃ t, exec (.flattenCopyReadDone n data) s = .next t.pump ∧ Only [.slots, .issueQueue] s t
       ∧ SlotBecomes s t n (some { k with phase := .writing, buffer := some data, attempt := 1 })
       ∧ ∃ op : MOp, op.tag.val = 32 + n.val
           ∧ op.access = .write (data.toList.map fun x => { data := x, mask := 0xFF })
           ∧ op.address = (s.win w).geometry.bankBase k.target + BitVec.ofNat 32 (64 * k.line)
           ∧ t.issueQueue = s.issueQueue ++ [op])
  ∧ ∀ (s : State) (n : SlotId) (k : SlotWork) (w : WindowId),
      s.inReset = false → s.MapSound → s.slot n = some k → k.CopiesFor w → k.phase = .writing →
      (s.win w).state = .flattening →
      (s.win w).geometry.entryIndex k.line < 8192 →
      ∃ u, Only [.windows, .lineMap, .slots] s u ∧ SlotBecomes s u n none
        ∧ WindowBecomes s u w { s.win w with fills := (s.win w).fills - 1 }
        ∧ LineBecomes s u w k.line { s.lineEntry w k.line with published := .a }
        ∧ (NoKeptRequest s → ∃ t, WalksFrom u t w (k.line + 1)
          ∧ exec (.flattenCopyDone n []) s = .next t.pump
          ∧ (s.hport.channel = [] → ∀ o, exec (.flattenCopyDone n o) s = .next t))
        ∧ ∃ x y, WalkStops u x w (k.line + 1) ∧ KeptThenHead x y
          ∧ exec (.flattenCopyDone n []) s = .next y

/-- A copy failed abandons the retirement: the window is LIVE, the line stays in B, FLATTEN_FAILED is
raised with the line, and the hold is evaluated after it; with the empty order a kept slot request of
another window takes the slot in the same event (R57, R69, R106, R117, R120).
That kept slot requests are served W0 first, before the H-port examines its head, is the model's choice
(log entry 4). -/
def Obligations.CopyFailureReturnsTheWindowToLive : Prop :=
  ∀ (s : State) (n : SlotId) (k : SlotWork) (status : BitVec 2) (o : Order) (w : WindowId)
      (c : FillCode),
    s.inReset = false → s.slot n = some k → k.CopiesFor w → FailsWith k status c →
    (s.win w).state = .flattening → (s.win w).copyRequest = false →
    ∃ t, (NoKeptRequest s → exec (.flattenCopyFailed n status o) s = .next t.pump)
      ∧ (∃ y, KeptThenHead t y ∧ exec (.flattenCopyFailed n status []) s = .next y)
      ∧ Only [.windows, .slots, .notices] s t ∧ SlotBecomes s t n none
      ∧ (s.firstLevelSource w = none →
          WindowBecomes s t w { s.win w with state := .live, cursor := none
                                             fills := (s.win w).fills - 1 }
          ∧ t.notices = s.notices.offer (.flattenFailed w k.line))
      ∧ ∀ src, s.firstLevelSource w = some src →
          WindowBecomes s t w { s.win w with state := .live, cursor := none
                                             fills := (s.win w).fills - 1, holdStatus := .active }
          ∧ t.notices = (s.notices.offer (.flattenFailed w k.line)).offer (.holdActive w src)

/-- The drain of a flattening window complete, its copies begin from line 0; a kept request is served by
the lowest-numbered FREE slot, or stays kept (R57, R68, R116, R117, R118).
That the two rows act only where their conditions stand is the model's reading (log entry 6), and that with
the empty order the slot request is served before the H-port examines its head its choice (log entry 4). -/
def Obligations.FlattenDrainBeginsTheCopies : Prop :=
  (∀ (s : State) (w : WindowId), s.inReset = false → s.MapSound → (s.win w).copyRequest = false →
    (s.win w).state = .flattening → (s.win w).requests = 0 → (s.win w).fills = 0 →
    (NoKeptRequest s →
      ∃ t, WalksFrom s t w 0 ∧ exec (.flattenDrainComplete w []) s = .next t.pump
        ∧ (s.hport.channel = [] → ∀ o, exec (.flattenDrainComplete w o) s = .next t))
    ∧ ∃ x y, WalkStops s x w 0 ∧ KeptThenHead x y
        ∧ exec (.flattenDrainComplete w []) s = .next y)
  ∧ ∀ (s : State) (w : WindowId) (j : Nat),
    s.inReset = false → (s.win w).copyRequest = true → (s.win w).cursor = some j →
    (∀ m, LowestFreeSlot s m →
      ∃ t, exec (.flattenRequestServed w) s = .next t.pump ∧ CopyStarts s t w j m)
    ∧ ((∀ m, s.slot m ≠ none) → exec (.flattenRequestServed w) s = .next s.pump)

/-! ### Settles -/

/-- The flip: every pending entry of the segment is switched and no other, the generation rises, the
epoch closes, the window is LIVE; and armed in PROMPT mode with the hold CLEAR it settles again in the
same event (R86, R87, R89, R90, R142).
That FLIP acts only where its condition stands, and that the COMMIT_DONE of the flip comes before that of
the settle it re-enters, are the model's readings (log entries 6 and 13). -/
def Obligations.FlipPublishesEveryPendingLine : Prop :=
  ∀ (s : State) (w : WindowId),
    s.inReset = false → s.MapSound → (s.win w).Committing → (s.win w).Drained →
    ∃ t, exec (.flip w) s = .next t.pump
      ∧ Only [.windows, .lineMap, .notices, .lines] s t
      ∧ SegmentBecomes s t w (fun e =>
          if e.pending then { e with published := e.published.other, pending := false } else e)
      ∧ t.lines = (if (s.win w).policy.commitOutput then { s.lines with pulse := 2 } else s.lines)
      ∧ (¬(s.win w).Prompted ∨ (s.win w).currentReads ≠ 0 →
          t.notices = if (s.win w).policy.commitNotices then
            s.notices.offer (.commitDone w ((s.win w).generation + 1) (s.win w).pendingCount)
            else s.notices)
      ∧ (¬(s.win w).Prompted → WindowBecomes s t w (s.win w).afterFlip)
      ∧ ((s.win w).Prompted → (s.win w).currentReads ≠ 0 →
          WindowBecomes s t w ((s.win w).afterFlip.afterEntry .commit))
      ∧ ((s.win w).Prompted → (s.win w).currentReads = 0 →
          WindowBecomes s t w ({ (s.win w).afterFlip with armed := false } : Window).afterFlip
          ∧ t.notices = if (s.win w).policy.commitNotices then
              (s.notices.offer (.commitDone w ((s.win w).generation + 1)
                (s.win w).pendingCount)).offer (.commitDone w ((s.win w).generation + 2) 0)
            else s.notices)

/-- The clear: every pending entry of the segment loses its mark and keeps its published bank, the
generation stays, the epoch closes, DISCARD_DONE is raised; armed in PROMPT mode with the hold CLEAR the
window enters a COMMIT settle in the same event, which flips at once where it has nothing to drain (R82,
R86, R88, R89, R90, R142).
That CLEAR acts only where its condition stands, and that DISCARD_DONE comes before the COMMIT_DONE of
the settle that follows it, are the model's readings (log entries 6 and 13). -/
def Obligations.ClearDiscardsEveryPendingLine : Prop :=
  ∀ (s : State) (w : WindowId),
    s.inReset = false → s.MapSound → (s.win w).Discarding → (s.win w).Drained →
    ∃ t, exec (.clear w) s = .next t.pump ∧ Only [.windows, .lineMap, .notices, .lines] s t
      ∧ SegmentBecomes s t w (fun e => { e with pending := false })
      ∧ (¬(s.win w).Prompted ∨ (s.win w).currentReads ≠ 0 → t.lines = s.lines
          ∧ t.notices = s.notices.offer (.discardDone w (s.win w).pendingCount))
      ∧ (¬(s.win w).Prompted → WindowBecomes s t w (s.win w).afterClear)
      ∧ ((s.win w).Prompted → (s.win w).currentReads ≠ 0 →
          WindowBecomes s t w ((s.win w).afterClear.afterEntry .commit))
      ∧ ((s.win w).Prompted → (s.win w).currentReads = 0 →
          WindowBecomes s t w ({ (s.win w).afterClear with armed := false } : Window).afterFlip
          ∧ t.lines = (if (s.win w).policy.commitOutput then { s.lines with pulse := 2 } else s.lines)
          ∧ t.notices = if (s.win w).policy.commitNotices then
              (s.notices.offer (.discardDone w (s.win w).pendingCount)).offer
                (.commitDone w ((s.win w).generation + 1) 0)
            else s.notices.offer (.discardDone w (s.win w).pendingCount))

/-- The expiry of the drain timer cancels the settle: LIVE, armed cleared for a COMMIT settle and kept
for a DISCARD settle, with its notice (R92).
That the expiry is the tick at which the timer stands at 1 is the model's reading (log entry 6). -/
def Obligations.DrainTimerExpiryCancelsTheSettle : Prop :=
  ∀ (s : State) (w : WindowId),
    s.inReset = false → (s.win w).drainTimer = some 1 →
    ((s.win w).Committing →
      ∃ t, exec (.drainTimerExpiry w) s = .next t.pump ∧ Only [.windows, .notices] s t
        ∧ WindowBecomes s t w ((s.win w).afterCancel false)
        ∧ t.notices = s.notices.offer (.commitCancelled w (s.win w).generation .timeout))
    ∧ ((s.win w).Discarding → ¬(s.win w).Prompted →
      ∃ t, exec (.drainTimerExpiry w) s = .next t.pump ∧ Only [.windows, .notices] s t
        ∧ WindowBecomes s t w ((s.win w).afterCancel (s.win w).armed)
        ∧ t.notices = s.notices.offer (.discardCancelled w))
    ∧ ((s.win w).Discarding → (s.win w).Prompted → ¬(s.win w).Drained →
      ∃ t, exec (.drainTimerExpiry w) s = .next t.pump ∧ Only [.windows, .notices] s t
        ∧ WindowBecomes s t w
            (((s.win w).afterCancel (s.win w).armed).afterEntry .commit)
        ∧ t.notices = s.notices.offer (.discardCancelled w))

/-- A tick lowers every running drain timer and the COMMITTED pulse by one, and cancels the settles
whose timers reach 0, each with its notice; a window armed in PROMPT mode with its hold CLEAR leaves a
DISCARD settle that is cancelled so for a COMMIT settle; the tick that lowers the pulse to 0 deasserts
COMMITTED (R81, R85, R92, R138, R142). A settle whose drain is complete has ended before the tick (R84).
That the edge count stands at 0 after a TICK, and the order of the windows, are the model's choices (log
entries 11 and 4). -/
def Obligations.TickLowersTimersAndPulse : Prop :=
  (∀ (s : State) (o : Order),
    s.inReset = false → s.hport.channel = [] →
    (∀ w n, (s.win w).Discarding → (s.win w).drainTimer = some n → n.toNat ≤ 1 →
      (s.win w).Prompted → ¬(s.win w).Drained) →
    ∃ t, exec (.tick o) s = .next t ∧ Only [.windows, .notices, .lines] s t
      ∧ t.lines = { s.lines with edgeCount := 0, pulse := s.lines.pulse - 1 }
      ∧ t.notices = s.notices.offerAll ((tickOrder o).flatMap fun w => tickNotices w (s.win w))
      ∧ ∀ w,
        ((s.win w).drainTimer = none → t.win w = s.win w)
        ∧ (∀ n : Half, (s.win w).drainTimer = some n → 1 < n.toNat →
            t.win w = { s.win w with drainTimer := some (n - 1) })
        ∧ ((s.win w).drainTimer = some 1 → (s.win w).Committing →
            t.win w = (s.win w).afterCancel false)
        ∧ ((s.win w).drainTimer = some 1 → (s.win w).Discarding → ¬(s.win w).Prompted →
            t.win w = (s.win w).afterCancel (s.win w).armed)
        ∧ ((s.win w).drainTimer = some 1 → (s.win w).Discarding → (s.win w).Prompted →
            t.win w = ((s.win w).afterCancel (s.win w).armed).afterEntry .commit))
  ∧ ∀ s : State, s.inReset = false → s.lines.pulse = 1 →
    ∃ t, exec .committedPulseEnd s = .next t ∧ Only [.lines] s t
      ∧ t.lines = { s.lines with pulse := 0 } ∧ t.committedAsserted = false

/-! ### Lines -/

/-- A rising edge of SYNC is a boundary: it has no effect on a window in OFF, LOADING or FLATTENING, and
at every LIVE or SETTLING window it brings the hold step, the divider count, and the entry to a COMMIT
settle that an eligible boundary, or in PROMPT mode the release of the hold, causes; where such a settle
drains at its entry the segment is flipped and the pulse requested, and no other line entry changes. A
falling edge changes the sampled level alone, and SYNC sampled at the level it has is no edge (R77, R78,
R79, R82, R86, R101, R104, R139, R142).
That a falling edge is given as the row with its level low is the model's choice (log entry 21). -/
def Obligations.BoundaryIsTakenAtEachWindow : Prop :=
  (∀ (s : State) (o : Order), s.inReset = false → s.hport.channel = [] →
    s.lines.levels.sync = false →
    ∃ t, exec (.boundary { order := o }) s = .next t ∧ Only [.windows, .lineMap, .notices, .lines] s t
      ∧ t.lines.levels = { s.lines.levels with sync := true }
      ∧ t.lines.edgeCount = s.lines.edgeCount
      ∧ (∀ w, ¬(s.win w).Running → t.win w = s.win w)
      ∧ (∀ (w : WindowId) (released eligible : Bool) (y : Window), (s.win w).Running →
          released = (match (s.win w).policy.holdPolicy with
            | .latched => decide ((s.win w).holdStatus = .releasing)
            | .perBoundary => decide ((s.win w).holdStatus = .active) && !s.levelAsserted w
                && !(s.win w).eventSince) →
          eligible = decide ((s.win w).policy.divider ≤ (s.win w).dividerCount + 1) →
          y = { s.win w with
                holdStatus := if released then .clear else (s.win w).holdStatus
                holdAck := if released ∧ (s.win w).policy.holdPolicy = .latched then false
                  else (s.win w).holdAck
                eventSince := if (s.win w).policy.holdPolicy = .perBoundary then false
                  else (s.win w).eventSince
                dividerCount := if eligible then 0 else (s.win w).dividerCount + 1 } →
          ((s.win w).state = .live → y.armed = true → y.holdStatus = .clear →
              (y.policy.commitMode = .boundary ∧ eligible = true
                ∨ y.policy.commitMode = .prompt ∧ released = true) →
              EntersCommit y (t.win w))
          ∧ (¬((s.win w).state = .live ∧ y.armed = true ∧ y.holdStatus = .clear
                ∧ (y.policy.commitMode = .boundary ∧ eligible = true
                  ∨ y.policy.commitMode = .prompt ∧ released = true)) →
              t.win w = y))
      ∧ (s.MapSound → CommitsDrain s t
          (fun w => (s.win w).commitsNow (s.levelAsserted w) = true) s.win)
      ∧ ((∀ w, (s.win w).commitsNow (s.levelAsserted w) = false) →
          t.lineMap = s.lineMap ∧ t.lines.pulse = s.lines.pulse))
  ∧ ∀ (s : State) (o : Order), s.inReset = false →
      (s.lines.levels.sync = true → s.hport.channel = [] →
        ∃ t, exec (.boundary { level := false, order := o }) s = .next t ∧ Only [.lines] s t
          ∧ t.lines = { s.lines with levels := { s.lines.levels with sync := false } })
      ∧ exec (.boundary { level := s.lines.levels.sync, order := o }) s = .next s

/-- The notices of a boundary, window by window in the order the windows take it, with the line map and
the pulse where one window alone is in LIVE or SETTLING: HOLD_RELEASED where the boundary releases the
hold, under either hold policy and in LIVE and SETTLING alike, then COMMIT_DONE where a commit drains at
its entry, or COMMIT_LATE where the boundary is eligible and the window settles (R86, R93, R101, R104,
R107, R142).
The order of the windows is the model's choice (log entry 4). -/
def Obligations.BoundaryRaisesItsNotices : Prop :=
  (∀ (s : State) (o : Order),
    s.inReset = false → s.hport.channel = [] → s.lines.levels.sync = false →
    ∃ t, exec (.boundary { order := o }) s = .next t
      ∧ t.notices = s.notices.offerAll ((edgeOrder o .sync).flatMap fun w =>
          if (s.win w).state.isLiveOrSettling then
            boundaryNotices w (s.win w) (s.levelAsserted w)
          else []))
  ∧ ∀ (s : State) (o : Order) (w : WindowId) (released eligible : Bool),
    s.inReset = false → s.hport.channel = [] → s.lines.levels.sync = false →
    (∀ v, (s.win v).Running ↔ v = w) →
    released = (match (s.win w).policy.holdPolicy with
      | .latched => decide ((s.win w).holdStatus = .releasing)
      | .perBoundary => decide ((s.win w).holdStatus = .active) && !s.levelAsserted w
          && !(s.win w).eventSince) →
    eligible = decide ((s.win w).policy.divider ≤ (s.win w).dividerCount + 1) →
    ∃ t, exec (.boundary { order := o }) s = .next t
      ∧ ((s.win w).state = .settling →
          t.notices = s.notices.offerAll
              ((if released then [.holdReleased w] else [])
                ++ if eligible then [.commitLate w (s.win w).generation] else [])
          ∧ t.lineMap = s.lineMap ∧ t.lines.pulse = s.lines.pulse)
      ∧ ((s.win w).state = .live →
          (s.win w).armed = false ∨ (s.win w).holdStatus ≠ .clear ∧ released = false
            ∨ (s.win w).policy.commitMode = .boundary ∧ eligible = false
            ∨ (s.win w).policy.commitMode = .prompt ∧ released = false →
          t.notices = s.notices.offerAll (if released then [.holdReleased w] else [])
          ∧ t.lineMap = s.lineMap ∧ t.lines.pulse = s.lines.pulse)
      ∧ ((s.win w).state = .live → (s.win w).armed = true →
          ((s.win w).holdStatus = .clear ∨ released = true) →
          ((s.win w).policy.commitMode = .boundary ∧ eligible = true
            ∨ (s.win w).policy.commitMode = .prompt ∧ released = true) →
          (¬(s.win w).Drained →
            t.notices = s.notices.offerAll (if released then [.holdReleased w] else [])
            ∧ t.lineMap = s.lineMap ∧ t.lines.pulse = s.lines.pulse)
          ∧ ((s.win w).Drained →
            t.notices = s.notices.offerAll
                ((if released then [.holdReleased w] else [])
                  ++ if (s.win w).policy.commitNotices then
                    [.commitDone w ((s.win w).generation + 1) (s.win w).pendingCount] else [])
            ∧ (s.MapSound → SegmentBecomes s t w (fun e =>
                if e.pending then { e with published := e.published.other, pending := false } else e))
            ∧ t.lines.pulse = if (s.win w).policy.commitOutput then 2 else s.lines.pulse))

/-- A rising edge of PUBREQ arms every LIVE or SETTLING window that enables it, and begins the commit at
once where the window is LIVE in PROMPT mode with its hold CLEAR; where that settle drains at its entry
the segment is flipped, the pulse requested and COMMIT_DONE raised. A falling edge changes the sampled
level alone, and PUBREQ sampled at the level it has is no edge. Edges of two lines sampled together reach
each window one after the other, in an order that each window has for itself (R75, R80, R81, R82, R86,
R139, R142).
The order of the windows and edges, and that a falling edge is given as the row with its level low, are
the model's choices (log entries 4 and 21). -/
def Obligations.PubreqEdgeArmsTheWindows : Prop :=
  (∀ (s : State) (o : Order), s.inReset = false → s.hport.channel = [] →
    s.lines.levels.pubreq = false →
    ∃ t, exec (.pubreqEdge { order := o }) s = .next t ∧ Only [.windows, .lineMap, .notices, .lines] s t
      ∧ t.lines.levels = { s.lines.levels with pubreq := true }
      ∧ t.lines.edgeCount = s.lines.edgeCount
      ∧ ((∀ w, (s.win w).policy.pubreqEnable = true → (s.win w).state = .live →
            (s.win w).policy.commitMode = .boundary ∨ (s.win w).holdStatus ≠ .clear) →
          Only [.windows, .lines] s t ∧ t.lines.pulse = s.lines.pulse)
      ∧ (s.MapSound → CommitsDrain s t
          (fun w => (s.win w).policy.pubreqEnable = true ∧ (s.win w).state = .live
            ∧ (s.win w).policy.commitMode = .prompt ∧ (s.win w).holdStatus = .clear) s.win)
      ∧ t.notices = s.notices.offerAll ((edgeOrder o .pubreq).flatMap fun w =>
          if (s.win w).policy.pubreqEnable = true ∧ (s.win w).state = .live
              ∧ (s.win w).policy.commitMode = .prompt ∧ (s.win w).holdStatus = .clear then
            entryNotices w (s.win w)
          else [])
      ∧ ∀ w,
        (¬((s.win w).policy.pubreqEnable = true ∧ (s.win w).Running) → t.win w = s.win w)
        ∧ ((s.win w).policy.pubreqEnable = true → (s.win w).Running →
            ((s.win w).state = .settling ∨ (s.win w).policy.commitMode = .boundary
              ∨ (s.win w).holdStatus ≠ .clear) →
            t.win w = { s.win w with armed := true })
        ∧ ((s.win w).policy.pubreqEnable = true → (s.win w).state = .live →
            (s.win w).policy.commitMode = .prompt → (s.win w).holdStatus = .clear →
            EntersCommit { s.win w with armed := true } (t.win w)))
  ∧ (∀ (s : State) (o : Order), s.inReset = false →
      (s.lines.levels.pubreq = true → s.hport.channel = [] →
        ∃ t, exec (.pubreqEdge { level := false, order := o }) s = .next t ∧ Only [.lines] s t
          ∧ t.lines = { s.lines with levels := { s.lines.levels with pubreq := false } })
      ∧ exec (.pubreqEdge { level := s.lines.levels.pubreq, order := o }) s = .next s)
  ∧ ∀ (s : State) (x y : LineSample) (o o₁ o₂ : Order) (w : WindowId),
      s.inReset = false → s.hport.channel = [] → x.line ≠ y.line →
      levelAt s.lines.levels x.line = !x.level → levelAt s.lines.levels y.line = !y.level →
      ∃ t u v, exec (sampleCommand x [] o₁) s = .next u ∧ exec (sampleCommand y [] o₂) u = .next v
        ∧ exec (sampleCommand x [y] (.edge x.line w :: o)) s = .next t
        ∧ t.win w = v.win w ∧ t.lines.levels = v.lines.levels
        ∧ ∃ t', exec (sampleCommand y [x] (.edge x.line w :: o)) s = .next t' ∧ t'.win w = v.win w

/-- An edge of a hold line is an assertion or a release of that source at every LIVE or SETTLING window
that counts it, with HOLD_ACTIVE and COMMIT_CANCELLED raised where the source strikes, window by window
in the order the windows take it, and nothing at the others; a hold line sampled at the level it has is
no edge (R91, R96, R99, R100, R103, R107, R139, R140).
The order of the windows is the model's choice (log entry 4). -/
def Obligations.HoldLineEdgeStrikesOrReleases : Prop :=
  (∀ (s : State) (h : HoldLine) (level : Bool) (o : Order) (src : HoldSource),
    s.inReset = false → s.hport.channel = [] → LevelsOf s.lines.levels h = !level →
    src = (match h with | .hold0 => .hold0 | .hold1 => .hold1) →
    ∃ t, exec (.holdLineEdge h level { order := o }) s = .next t ∧ Only [.windows, .notices, .lines] s t
      ∧ t.lines = { s.lines with levels :=
          { s.lines.levels with
            hold0 := if h = .hold0 then level else s.lines.levels.hold0
            hold1 := if h = .hold1 then level else s.lines.levels.hold1 } }
      ∧ ((level = true ↔ s.settings.polarity h = .activeHigh) →
          t.notices = s.notices.offerAll ((edgeOrder o h.input).flatMap fun w =>
            if (s.win w).policy.sources.counts h && (s.win w).state.isLiveOrSettling then
              strikeNotices (s.win w) w src
            else []))
      ∧ (¬(level = true ↔ s.settings.polarity h = .activeHigh) → t.notices = s.notices)
      ∧ ∀ w,
        (¬((s.win w).policy.sources.counts h = true ∧ (s.win w).Running) → t.win w = s.win w)
        ∧ ((s.win w).policy.sources.counts h = true → (s.win w).Running →
            (level = true ↔ s.settings.polarity h = .activeHigh) →
            LevelStrikes (s.win w) (t.win w) w src (strikeNotices (s.win w) w src))
        ∧ ((s.win w).policy.sources.counts h = true → (s.win w).Running →
            ¬(level = true ↔ s.settings.polarity h = .activeHigh) →
            LevelReleases (s.win w) (t.win w) (t.levelAsserted w)))
  ∧ ∀ (s : State) (h : HoldLine) (o : Order), s.inReset = false →
      exec (.holdLineEdge h (LevelsOf s.lines.levels h) { order := o }) s = .next s

/-! ### Management frames -/

/-- READ STATUS shifts out the status byte, the device code, the last result, the notice count, the
flags and the eight window states, then zero bytes, for as long as the frame lasts, and changes the
port alone; the status byte is that of the fall of CS, and the rest that of the end of the command byte,
whatever has changed between them (R145, R146, R149).
What is shifted out stands in the model's own record (log entry 8), and a frame is cut in parts at whole
bytes (log entry 5). -/
def Obligations.ReadStatusReportsThePart : Prop :=
  (∀ (s : State) (f : Frame), s.PortFree → f.till = .csRises →
    ∃ t, exec (.readStatus f) s = .next t ∧ Only [.mgmt] s t ∧ t.mgmt.lastResult = .done
      ∧ t.mgmt.frameState = .idle ∧ t.mgmt.sdo.bytes.length = f.args.length + 1
      ∧ t.mgmt.sdo.bytes[0]? = some s.statusByte
      ∧ s.statusByte.extractLsb' 0 3 = (resultCodeOf s.mgmt.lastResult).extractLsb' 0 3
      ∧ (s.statusByte.getLsbD 3 = true ↔ s.notices.records ≠ [])
      ∧ s.statusByte.getLsbD 4 = s.notices.overflow
      ∧ (s.statusByte.getLsbD 5 = true ↔ ∃ w, (s.win w).state = .settling)
      ∧ s.statusByte.getLsbD 6 = false ∧ s.statusByte.getLsbD 7 = false
      ∧ (0 < f.args.length → t.mgmt.sdo.bytes[1]? = some 0x6B)
      ∧ (1 < f.args.length → t.mgmt.sdo.bytes[2]? = some (resultCodeOf s.mgmt.lastResult))
      ∧ (2 < f.args.length →
          t.mgmt.sdo.bytes[3]? = some (BitVec.ofNat 8 s.notices.records.length))
      ∧ (3 < f.args.length → ∃ b : Byte, t.mgmt.sdo.bytes[4]? = some b
          ∧ b.getLsbD 0 = s.notices.overflow
          ∧ (b.getLsbD 1 = true ↔ ∃ w, (s.win w).state = .settling) ∧ b.toNat < 4)
      ∧ (∀ w : WindowId, 4 + w.val < f.args.length →
          t.mgmt.sdo.bytes[5 + w.val]? = some (windowStateCode (s.win w).state))
      ∧ ∀ i, 12 ≤ i → i < f.args.length → t.mgmt.sdo.bytes[i + 1]? = some 0)
  ∧ ∀ s : State, s.PortFree →
    ∃ t, exec (.readStatus { args := [], till := .csFell }) s = .next t ∧ Only [.mgmt] s t
      ∧ ∀ (u : State) (f : Frame), u.inReset = false → u.mgmt = t.mgmt → f.till = .csRises →
        ∃ v w, exec (.readStatus f) u = .next v ∧ Only [.mgmt] u v
          ∧ exec (.readStatus f) { u with mgmt := s.mgmt } = .next w
          ∧ v.mgmt.sdo.bytes = s.statusByte :: w.mgmt.sdo.bytes.tail

/-- READ WINDOW shifts out the 47 bytes of the window's record, each field at its place, an absent one
as zero bytes (R6, R146, R150, R155).
What is shifted out and the argument byte stand in the model's own records (log entries 8 and 9). -/
def Obligations.ReadWindowReportsTheRecord : Prop :=
  ∀ (s : State) (w : WindowId) (dummy : List Byte), s.PortFree → dummy.length = 47 →
    ∃ t r, exec (.readWindow { args := windowByte w :: dummy }) s = .next t ∧ Only [.mgmt] s t
      ∧ t.mgmt = portIdle [windowByte w] .done { bytes := [s.statusByte, 0] ++ r, tail := [] }
      ∧ r.length = 47 ∧ r.getD 0 0 = windowByte w
      ∧ r.getD 1 0 = windowStateCode (s.win w).state
      ∧ r.getD 2 0 = settleKindCode (s.win w).settleKind
      ∧ (r.getD 3 0).getLsbD 0 = (s.win w).armed ∧ (r.getD 3 0).getLsbD 1 = (s.win w).holdAck
      ∧ (r.getD 3 0).getLsbD 2 = (s.win w).eventSince
      ∧ (r.getD 3 0).getLsbD 3 = (s.win w).manualHold
      ∧ (r.getD 3 0).getLsbD 4 = (s.win w).forcedFallback
      ∧ (r.getD 3 0).getLsbD 5 = (s.win w).geometry.fallback.isSome
      ∧ (r.getD 3 0).getLsbD 6 = (s.win w).drainTimer.isSome
      ∧ (r.getD 3 0).getLsbD 7 = (s.win w).cursor.isSome
      ∧ addrAt r 4 = (s.win w).geometry.apparentBase
      ∧ halfAt r 8 = (s.win w).geometry.lineCount ∧ halfAt r 10 = (s.win w).geometry.mapOffset
      ∧ addrAt r 12 = (s.win w).geometry.bankA ∧ addrAt r 16 = (s.win w).geometry.bankB
      ∧ addrAt r 20 = (s.win w).geometry.fallback.getD 0
      ∧ r.getD 24 0 = commitModeCode (s.win w).policy.commitMode
      ∧ r.getD 25 0 = BitVec.ofNat 8 (s.win w).policy.divider
      ∧ halfAt r 26 = (s.win w).policy.drainLimit
      ∧ r.getD 28 0 = holdPolicyCode (s.win w).policy.holdPolicy
      ∧ (r.getD 29 0).getLsbD 0 = (s.win w).policy.sources.hold0
      ∧ (r.getD 29 0).getLsbD 1 = (s.win w).policy.sources.hold1
      ∧ (r.getD 29 0).getLsbD 2 = (s.win w).policy.sources.violation
      ∧ (r.getD 29 0).getLsbD 3 = (s.win w).policy.sources.fillFailed
      ∧ (r.getD 29 0).toNat < 16
      ∧ (r.getD 30 0).getLsbD 0 = (s.win w).policy.redirect
      ∧ (r.getD 30 0).getLsbD 1 = (s.win w).policy.pubreqEnable
      ∧ (r.getD 30 0).getLsbD 2 = (s.win w).policy.commitNotices
      ∧ (r.getD 30 0).getLsbD 3 = (s.win w).policy.commitOutput ∧ (r.getD 30 0).toNat < 16
      ∧ r.getD 31 0 = holdStatusCode (s.win w).holdStatus
      ∧ halfAt r 32 = (s.win w).generation
      ∧ r.getD 34 0 = BitVec.ofNat 8 (s.win w).dividerCount
      ∧ halfAt r 35 = BitVec.ofNat 16 (s.win w).pendingCount
      ∧ r.getD 37 0 = (if (s.win w).parity then 1 else 0)
      ∧ r.getD 38 0 = BitVec.ofNat 8 (s.win w).reads0
      ∧ r.getD 39 0 = BitVec.ofNat 8 (s.win w).reads1
      ∧ r.getD 40 0 = BitVec.ofNat 8 (s.win w).fills
      ∧ r.getD 41 0 = BitVec.ofNat 8 (s.win w).producerWrites
      ∧ r.getD 42 0 = BitVec.ofNat 8 (s.win w).requests
      ∧ halfAt r 43 = (s.win w).drainTimer.getD 0
      ∧ halfAt r 45 = BitVec.ofNat 16 ((s.win w).cursor.getD 0)

/-- READ ROLES shifts out the eight cells of its requester; READ LINE shifts out the marks of one line
entry; a requester above 15, a window above 7 or a line outside the window or the store gives zero
bytes and REFUSED_RANGE (R22, R40).
What is shifted out stands in the model's own record (log entry 8). -/
def Obligations.ReadRolesAndReadLineReportCells : Prop :=
  ∀ s : State, s.PortFree →
    (∀ (r : Requester) (dummy : List Byte), dummy.length = 8 →
      ∃ t, exec (.readRoles { args := BitVec.ofNat 8 r.val :: dummy }) s = .next t
        ∧ Only [.mgmt] s t ∧ t.mgmt.lastResult = .done
        ∧ t.mgmt.sdo.bytes =
            [s.statusByte, 0] ++ ([0, 1, 2, 3, 4, 5, 6, 7] : List WindowId).map fun w =>
              roleCode (s.role r w))
    ∧ (∀ (b : Byte) (dummy : List Byte), 15 < b.toNat →
      ∃ t, exec (.readRoles { args := b :: dummy }) s = .next t ∧ Only [.mgmt] s t
        ∧ t.mgmt.lastResult = .refusedRange
        ∧ t.mgmt.sdo.bytes = s.statusByte :: List.replicate (dummy.length + 1) 0)
    ∧ (∀ (w : WindowId) (i : Half) (x : Byte),
        i.toNat < (s.win w).geometry.lineCount.toNat →
        (s.win w).geometry.mapOffset.toNat + i.toNat ≤ 8191 →
      ∃ t b, exec (.readLine { args := [windowByte w] ++ bytesOfHalf i ++ [x] }) s = .next t
        ∧ Only [.mgmt] s t ∧ t.mgmt.lastResult = .done
        ∧ t.mgmt.sdo.bytes = [s.statusByte, 0, 0, 0, b] ∧ b.toNat < 8
        ∧ (b.getLsbD 0 = true ↔ (s.lineEntry w i.toNat).published = .b)
        ∧ b.getLsbD 1 = (s.lineEntry w i.toNat).pending
        ∧ b.getLsbD 2 = (s.lineEntry w i.toNat).filling)
    ∧ (∀ (b : Byte) (i : Half) (x : Byte),
        (7 < b.toNat ∨ ∃ w : WindowId, b = windowByte w
          ∧ ((s.win w).geometry.lineCount.toNat ≤ i.toNat
            ∨ 8191 < (s.win w).geometry.mapOffset.toNat + i.toNat)) →
      ∃ t, exec (.readLine { args := [b] ++ bytesOfHalf i ++ [x] }) s = .next t
        ∧ Only [.mgmt] s t ∧ t.mgmt.lastResult = .refusedRange
        ∧ t.mgmt.sdo.bytes = [s.statusByte, 0, 0, 0, 0])

/-- READ NOTICE shifts out the records oldest first, 16 bytes each, then empty slots of zero bytes; a
record leaves the queue with its last byte, one cut short stays, and the removal that empties the
queue clears the overflow flag and releases NOTICE. In a frame that goes on from a slot boundary the
records follow as they then stand, with those that have joined in the meantime; in one that goes on
inside a slot the slot's own record goes out to its end, and leaves, and a slot that began empty removes
nothing (R137, R141, R151).
What is shifted out stands in the model's own record (log entry 8), and a frame is cut in parts at whole
bytes (log entry 5). -/
def Obligations.ReadNoticeDrainsTheQueue : Prop :=
  (∀ (s : State) (f : Frame) (k m : Nat), s.PortFree → f.till = .csRises →
    f.args.length = 16 * k + m → m < 16 →
    ∃ t, exec (.readNotice f) s = .next t ∧ Only [.mgmt, .notices] s t
      ∧ t.mgmt.lastResult = .done ∧ t.notices.records = s.notices.records.drop k
      ∧ (s.notices.records ≠ [] → s.notices.records.length ≤ k → t.notices.overflow = false)
      ∧ (k < s.notices.records.length ∨ s.notices.records = [] →
          t.notices.overflow = s.notices.overflow)
      ∧ t.noticeAsserted = (s.settings.noticeEnable && decide (k < s.notices.records.length))
      ∧ t.mgmt.sdo.bytes.length = f.args.length + 1
      ∧ t.mgmt.sdo.bytes[0]? = some s.statusByte
      ∧ ∀ i j, j < 16 → 16 * i + j < f.args.length →
          t.mgmt.sdo.bytes[1 + 16 * i + j]? =
            some (match s.notices.records[i]? with
              | some n => (noticeBytes n).getD j 0
              | none => 0))
  ∧ ∀ (s : State) (f : Frame) (k m : Nat), s.PortFree → f.till = .csLow →
    f.args.length = 16 * k + m → m < 16 →
    ∃ t, exec (.readNotice f) s = .next t ∧ Only [.mgmt, .notices] s t
      ∧ t.notices.records = s.notices.records.drop k ∧ t.mgmt.sdo.bytes.length = f.args.length + 1
      ∧ ∀ (u : State) (g : Frame), u.inReset = false → u.mgmt = t.mgmt → g.till = .csRises →
        (m = 0 → ∀ l, l = g.args.length / 16 →
          ∃ v, exec (.readNotice g) u = .next v ∧ Only [.mgmt, .notices] u v
            ∧ v.mgmt.lastResult = .done ∧ v.notices.records = u.notices.records.drop l
            ∧ v.mgmt.sdo.bytes.take (f.args.length + 1) = t.mgmt.sdo.bytes
            ∧ ∀ i j, j < 16 → 16 * i + j < g.args.length →
                v.mgmt.sdo.bytes[f.args.length + 1 + 16 * i + j]? =
                  some (match u.notices.records[i]? with
                    | some n => (noticeBytes n).getD j 0
                    | none => 0))
        ∧ (0 < m → m + g.args.length = 16 →
          ∃ v, exec (.readNotice g) u = .next v ∧ Only [.mgmt, .notices] u v
            ∧ v.mgmt.lastResult = .done
            ∧ v.notices.records = (match s.notices.records[k]? with
                | some _ => u.notices.records.drop 1
                | none => u.notices.records)
            ∧ v.mgmt.sdo.bytes.take (f.args.length + 1) = t.mgmt.sdo.bytes
            ∧ ∀ j, j < g.args.length →
                v.mgmt.sdo.bytes[f.args.length + 1 + j]? =
                  some (match s.notices.records[k]? with
                    | some n => (noticeBytes n).getD (m + j) 0
                    | none => 0))

/-- The 16 bytes of a record: kind, presence bits and each of the seventeen codes by the tables, and
every field at its place (section 9.1, section 11.2, R155). -/
def Obligations.NoticeRecordsAreLaidOut : Prop :=
  (∀ n, (noticeBytes n).length = 16)
  ∧ (∀ w g c, noticeBytes (.commitDone w g c) =
      [1, 0x19, windowByte w, 0, 0, 0, 0, 0] ++ bytesOfHalf g ++ bytesOfHalf (BitVec.ofNat 16 c)
        ++ [0, 0, 0, 0])
  ∧ (∀ w g, noticeBytes (.commitCancelled w g .hold) =
      [2, 0x29, windowByte w, 0, 0, 0, 0, 0] ++ bytesOfHalf g ++ [0, 0, 1, 0, 0, 0])
  ∧ (∀ w g, noticeBytes (.commitCancelled w g .timeout) =
      [2, 0x29, windowByte w, 0, 0, 0, 0, 0] ++ bytesOfHalf g ++ [0, 0, 2, 0, 0, 0])
  ∧ (∀ w g, noticeBytes (.commitLate w g) =
      [3, 0x09, windowByte w, 0, 0, 0, 0, 0] ++ bytesOfHalf g ++ [0, 0, 0, 0, 0, 0])
  ∧ (∀ w c, noticeBytes (.discardDone w c) =
      [4, 0x11, windowByte w, 0, 0, 0, 0, 0, 0, 0] ++ bytesOfHalf (BitVec.ofNat 16 c)
        ++ [0, 0, 0, 0])
  ∧ (∀ w, noticeBytes (.discardCancelled w) =
      [5, 0x21, windowByte w, 0, 0, 0, 0, 0, 0, 0, 0, 0, 2, 0, 0, 0])
  ∧ (∀ w, noticeBytes (.holdActive w .hold0) =
      [6, 0x21, windowByte w, 0, 0, 0, 0, 0, 0, 0, 0, 0, 3, 0, 0, 0])
  ∧ (∀ w, noticeBytes (.holdActive w .hold1) =
      [6, 0x21, windowByte w, 0, 0, 0, 0, 0, 0, 0, 0, 0, 4, 0, 0, 0])
  ∧ (∀ w, noticeBytes (.holdActive w .manual) =
      [6, 0x21, windowByte w, 0, 0, 0, 0, 0, 0, 0, 0, 0, 5, 0, 0, 0])
  ∧ (∀ w, noticeBytes (.holdActive w .violation) =
      [6, 0x21, windowByte w, 0, 0, 0, 0, 0, 0, 0, 0, 0, 6, 0, 0, 0])
  ∧ (∀ w, noticeBytes (.holdActive w .fillFailed) =
      [6, 0x21, windowByte w, 0, 0, 0, 0, 0, 0, 0, 0, 0, 7, 0, 0, 0])
  ∧ (∀ w, noticeBytes (.holdReleased w) =
      [7, 0x01, windowByte w, 0, 0, 0, 0, 0, 0, 0, 0, 0, 0, 0, 0, 0])
  ∧ (∀ w r a, noticeBytes (.violation w r a .noRole) =
      [8, 0x27, windowByte w, BitVec.ofNat 8 r.val] ++ bytesOfAddr a ++ [0, 0, 0, 0, 8, 0, 0, 0])
  ∧ (∀ w r a, noticeBytes (.violation w r a .consumerWrite) =
      [8, 0x27, windowByte w, BitVec.ofNat 8 r.val] ++ bytesOfAddr a ++ [0, 0, 0, 0, 9, 0, 0, 0])
  ∧ (∀ w r a, noticeBytes (.violation w r a .shadowAccess) =
      [8, 0x27, windowByte w, BitVec.ofNat 8 r.val] ++ bytesOfAddr a ++ [0, 0, 0, 0, 10, 0, 0, 0])
  ∧ (∀ r a, noticeBytes (.malformed r a .align) =
      [9, 0x26, 0, BitVec.ofNat 8 r.val] ++ bytesOfAddr a ++ [0, 0, 0, 0, 11, 0, 0, 0])
  ∧ (∀ r a, noticeBytes (.malformed r a .length) =
      [9, 0x26, 0, BitVec.ofNat 8 r.val] ++ bytesOfAddr a ++ [0, 0, 0, 0, 12, 0, 0, 0])
  ∧ (∀ r a, noticeBytes (.malformed r a .span) =
      [9, 0x26, 0, BitVec.ofNat 8 r.val] ++ bytesOfAddr a ++ [0, 0, 0, 0, 13, 0, 0, 0])
  ∧ (∀ r a, noticeBytes (.malformed r a .tagReuse) =
      [9, 0x26, 0, BitVec.ofNat 8 r.val] ++ bytesOfAddr a ++ [0, 0, 0, 0, 14, 0, 0, 0])
  ∧ (∀ w r a, noticeBytes (.fillFailed w r a .readError) =
      [10, 0x27, windowByte w, BitVec.ofNat 8 r.val] ++ bytesOfAddr a ++ [0, 0, 0, 0, 15, 0, 0, 0])
  ∧ (∀ w r a, noticeBytes (.fillFailed w r a .writeError) =
      [10, 0x27, windowByte w, BitVec.ofNat 8 r.val] ++ bytesOfAddr a ++ [0, 0, 0, 0, 16, 0, 0, 0])
  ∧ (∀ w r a, noticeBytes (.fillFailed w r a .retryExhausted) =
      [10, 0x27, windowByte w, BitVec.ofNat 8 r.val] ++ bytesOfAddr a ++ [0, 0, 0, 0, 17, 0, 0, 0])
  ∧ (∀ w, noticeBytes (.flattenDone w) =
      [11, 0x01, windowByte w, 0, 0, 0, 0, 0, 0, 0, 0, 0, 0, 0, 0, 0])
  ∧ (∀ w c, noticeBytes (.flattenFailed w c) =
      [12, 0x11, windowByte w, 0, 0, 0, 0, 0, 0, 0] ++ bytesOfHalf (BitVec.ofNat 16 c)
        ++ [0, 0, 0, 0])

/-- WRITE GEOMETRY replaces the six fields of a window in OFF as written, unchecked, and is refused in any
other state; WRITE ROLES replaces the eight cells of one requester, whatever the windows' states, and is
refused for a requester above 15 or a cell above 3 (R2, R21; the fallback-present byte is R146's, section
10.1).
What the port holds after the frame beside its result is the model's choice (log entries 8 and 9). -/
def Obligations.GeometryAndRolesAreReplacedAsWritten : Prop :=
  (∀ (s : State) (w : WindowId) (g : Geometry) (present : Byte) (fallback : Addr),
     s.PortFree →
     ((s.win w).state = .off →
       ∃ t, exec (.writeGeometry { args := geometryArgs w g present fallback }) s =
           .next { t.pump with mgmt := reported s (geometryArgs w g present fallback) .done }
         ∧ Only [.windows] s t
         ∧ WindowBecomes s t w { s.win w with geometry :=
             { g with fallback := if present = 0 then none else some fallback } })
     ∧ ((s.win w).state ≠ .off →
       exec (.writeGeometry { args := geometryArgs w g present fallback }) s =
         .next { s with mgmt := reported s (geometryArgs w g present fallback) .refusedState }))
  ∧ ∀ s : State, s.PortFree →
      (∀ (r : Requester) (cells : Vector Role 8),
        ∃ t, exec (.writeRoles { args := BitVec.ofNat 8 r.val :: cells.toList.map roleCode }) s =
            .next { t.pump with
              mgmt := reported s (BitVec.ofNat 8 r.val :: cells.toList.map roleCode) .done }
          ∧ Only [.roles] s t ∧ (∀ w : WindowId, t.role r w = cells[w.val])
          ∧ ∀ q, q ≠ r → ∀ w, t.role q w = s.role q w)
      ∧ ∀ l : List Byte, l.length = 9 → (15 < (l.getD 0 0).toNat ∨ ∃ b ∈ l.tail, 3 < b.toNat) →
        exec (.writeRoles { args := l }) s = .next { s with mgmt := reported s l .refusedRange }

/-- WRITE POLICY replaces the nine fields and sets the divider count to 0; in LIVE with the hold CLEAR
the hold is evaluated first, and the prompt rule then applies, with the flip where the settle drains at
its entry; SETTLING, FLATTENING, and a change of the hold fields under a hold are refused first, whatever
the bytes, and then a divider of 0 or above 16, an undefined mode, policy or source, or a flag byte above
1 (R4, R5, R81, R82, R86, R106, R142).
What the port holds after the frame beside its result is the model's choice (log entries 8 and 9). That the
hold is evaluated whether or not the hold fields change is its reading (log entry 22). -/
def Obligations.WritePolicyReplacesThePolicy : Prop :=
  (∀ (s : State) (w : WindowId) (p : Policy) (y : Window) (src : Option HoldSource),
    s.PortFree → 1 ≤ p.divider → p.divider ≤ 16 →
    y = { s.win w with policy := p, dividerCount := 0 } →
    src = (s.modWin w fun _ => y).firstLevelSource w →
    ((s.win w).state = .settling ∨ (s.win w).state = .flattening →
      exec (.writePolicy { args := policyArgs w p }) s =
        .next { s with mgmt := reported s (policyArgs w p) .refusedState })
    ∧ ((s.win w).state = .live → (s.win w).holdStatus ≠ .clear →
        (p.holdPolicy ≠ (s.win w).policy.holdPolicy ∨ p.sources ≠ (s.win w).policy.sources) →
      exec (.writePolicy { args := policyArgs w p }) s =
        .next { s with mgmt := reported s (policyArgs w p) .refusedState })
    ∧ ((s.win w).state = .off ∨ (s.win w).state = .loading
        ∨ (s.win w).state = .live
          ∧ ((s.win w).holdStatus ≠ .clear ∧ p.holdPolicy = (s.win w).policy.holdPolicy
              ∧ p.sources = (s.win w).policy.sources
            ∨ (s.win w).holdStatus = .clear ∧ src = none
              ∧ (p.commitMode = .boundary ∨ (s.win w).armed = false)) →
      ∃ t, exec (.writePolicy { args := policyArgs w p }) s =
          .next { t.pump with mgmt := reported s (policyArgs w p) .done }
        ∧ Only [.windows] s t ∧ WindowBecomes s t w y)
    ∧ (∀ c, (s.win w).state = .live → (s.win w).holdStatus = .clear → src = some c →
      ∃ t, exec (.writePolicy { args := policyArgs w p }) s =
          .next { t.pump with mgmt := reported s (policyArgs w p) .done }
        ∧ Only [.windows, .notices] s t ∧ WindowBecomes s t w { y with holdStatus := .active }
        ∧ t.notices = s.notices.offer (.holdActive w c))
    ∧ ((s.win w).state = .live → (s.win w).holdStatus = .clear → src = none →
        p.commitMode = .prompt → (s.win w).armed = true →
      ∃ t x, exec (.writePolicy { args := policyArgs w p }) s =
          .next { t.pump with mgmt := reported s (policyArgs w p) .done }
        ∧ Only [.windows, .lineMap, .notices, .lines] s t ∧ WindowBecomes s t w x
        ∧ EntersCommit y x ∧ t.notices = s.notices.offerAll (entryNotices w y)
        ∧ (s.MapSound → CommitsDrain s t (fun v => v = w) fun _ => y)))
  ∧ ∀ (s : State) (w : WindowId) (l : List Byte), s.PortFree → l.length = 10 →
    ((s.win w).state = .settling ∨ (s.win w).state = .flattening
        ∨ (s.win w).state = .live ∧ (s.win w).holdStatus ≠ .clear
          ∧ (l.getD 4 0 ≠ holdPolicyCode (s.win w).policy.holdPolicy
            ∨ l.getD 5 0 ≠ sourcesCode (s.win w).policy.sources) →
      exec (.writePolicy { args := windowByte w :: l }) s =
        .next { s with mgmt := reported s (windowByte w :: l) .refusedState })
    ∧ ((s.win w).state ≠ .settling → (s.win w).state ≠ .flattening →
      ((s.win w).state = .live → (s.win w).holdStatus ≠ .clear →
        l.getD 4 0 = holdPolicyCode (s.win w).policy.holdPolicy
          ∧ l.getD 5 0 = sourcesCode (s.win w).policy.sources) →
      (1 < (l.getD 0 0).toNat ∨ (l.getD 1 0).toNat = 0 ∨ 16 < (l.getD 1 0).toNat
        ∨ 1 < (l.getD 4 0).toNat ∨ 15 < (l.getD 5 0).toNat ∨ ∃ b ∈ l.drop 6, 1 < b.toNat) →
      exec (.writePolicy { args := windowByte w :: l }) s =
        .next { s with mgmt := reported s (windowByte w :: l) .refusedRange })

/-- WRITE DEVICE SETTINGS replaces the four settings; a new divisor restarts the edge count; a polarity
change that asserts a line strikes the holds that count it, once, HOLD0 before HOLD1, with HOLD_ACTIVE
and COMMIT_CANCELLED raised window by window in the order the windows take it; NOTICE follows its new
enable at once; a byte outside its values is refused (R91, R96, R107, R138, R140, R141, R152).
What the port holds after the frame beside its result is the model's choice (log entries 8 and 9). The order
of the windows is the model's choice (log entry 4). -/
def Obligations.DeviceSettingsTakeEffectAtOnce : Prop :=
  ∀ (s : State) (o : Order), s.PortFree → s.hport.channel = [] →
    (∀ c : Settings, c.tickDivisor ≠ 0 →
      ∃ t, exec (.writeDeviceSettings { args := settingsArgs c } o) s =
          .next { t with mgmt := reported s (settingsArgs c) .done }
        ∧ Only [.windows, .notices, .settings, .lines] s t ∧ t.settings = c
        ∧ t.lines = (if c.tickDivisor = s.settings.tickDivisor then s.lines
            else { s.lines with edgeCount := 0 })
        ∧ (t.noticeAsserted = true ↔ c.noticeEnable = true ∧ t.notices.records ≠ [])
        ∧ t.notices = s.notices.offerAll ((windowsIn o).flatMap fun w =>
            let rises := fun h => !lineAsserted s.lines.levels s.settings (s.win w) h
              && lineAsserted s.lines.levels c (s.win w) h;
            if !(s.win w).state.isLiveOrSettling then []
            else if rises .hold0 then strikeNotices (s.win w) w .hold0
            else if rises .hold1 then strikeNotices (s.win w) w .hold1
            else [])
        ∧ ∀ (w : WindowId) (was is : HoldLine → Bool),
          (∀ h, was h = lineAsserted s.lines.levels s.settings (s.win w) h) →
          (∀ h, is h = lineAsserted s.lines.levels c (s.win w) h) →
          (¬(s.win w).Running ∨ (∀ h, is h = was h) → t.win w = s.win w)
          ∧ ((s.win w).Running → was .hold0 = false → is .hold0 = true →
              LevelStrikes (s.win w) (t.win w) w .hold0 (strikeNotices (s.win w) w .hold0))
          ∧ ((s.win w).Running → ¬(was .hold0 = false ∧ is .hold0 = true) →
              was .hold1 = false → is .hold1 = true →
              LevelStrikes (s.win w) (t.win w) w .hold1 (strikeNotices (s.win w) w .hold1))
          ∧ ((s.win w).Running → (∀ h, ¬(was h = false ∧ is h = true)) →
              (∃ h, was h = true ∧ is h = false) →
              LevelReleases (s.win w) (t.win w)
                (is .hold0 || is .hold1 || (s.win w).manualHold)))
    ∧ ∀ l : List Byte, l.length = 4 →
      (1 < (l.getD 0 0).toNat ∨ 1 < (l.getD 1 0).toNat ∨ 1 < (l.getD 2 0).toNat ∨ l.getD 3 0 = 0) →
      exec (.writeDeviceSettings { args := l } o) s =
        .next { s with mgmt := reported s l .refusedRange }

/-- LOAD applies its checks in their order, and a LOAD that passes them enters LOADING with the segment
and the dynamic fields initialised (R9, R10, R11, R13).
What the port holds after the frame beside its result is the model's choice (log entries 8 and 9). -/
def Obligations.LoadChecksAndInitialises : Prop :=
  ∀ (s : State) (w : WindowId), s.PortFree →
    (∀ r, r ≠ .done → LoadGives s w r →
      exec (.load { args := [windowByte w] }) s =
        .next { s with mgmt := reported s [windowByte w] r })
    ∧ (s.MapSound → LoadGives s w .done →
      ∃ t, exec (.load { args := [windowByte w] }) s =
          .next { t.pump with mgmt := reported s [windowByte w] .done }
        ∧ Only [.windows, .lineMap] s t
        ∧ SegmentBecomes s t w (fun _ => { published := .a, pending := false, filling := false })
        ∧ WindowBecomes s t w
            { (s.win w).holdCleared with
              state := .loading, settleKind := none, armed := false, generation := 0
              dividerCount := 0, pendingCount := 0, parity := false, reads0 := 0, reads1 := 0
              drainTimer := none, cursor := none, copyRequest := false })

/-- ARM takes a LOADING window to LIVE, sets the divider count to 0 and evaluates the hold from the
level sources; in any other state it is refused (R14, R106).
What the port holds after the frame beside its result is the model's choice (log entries 8 and 9). -/
def Obligations.ArmEntersLive : Prop :=
  ∀ (s : State) (w : WindowId), s.PortFree →
    ((s.win w).state ≠ .loading →
      exec (.arm { args := [windowByte w] }) s =
        .next { s with mgmt := reported s [windowByte w] .refusedState })
    ∧ ((s.win w).state = .loading →
      ∃ t, exec (.arm { args := [windowByte w] }) s =
          .next { t.pump with mgmt := reported s [windowByte w] .done }
        ∧ Only [.windows, .notices] s t
        ∧ (s.firstLevelSource w = none → t.notices = s.notices
            ∧ WindowBecomes s t w { s.win w with state := .live, dividerCount := 0 })
        ∧ ∀ c, s.firstLevelSource w = some c → t.notices = s.notices.offer (.holdActive w c)
            ∧ WindowBecomes s t w { s.win w with state := .live, dividerCount := 0
                                                 holdStatus := .active })

/-- PUBLISH arms every window of its mask and begins the commits that PROMPT mode allows; where such a
commit drains at its entry the segment is flipped, the pulse requested and COMMIT_DONE raised; UNPUBLISH
clears the flags; a mask that names a window not in LIVE or SETTLING changes nothing (R73, R74, R81, R82,
R86, R142).
What the port holds after the frame beside its result is the model's choice (log entries 8 and 9). The order
of the windows is the model's choice (log entry 4). -/
def Obligations.PublishAndUnpublishSetTheFlags : Prop :=
  ∀ (s : State) (mask : Byte) (o : Order), s.PortFree →
    ((∃ w : WindowId, mask.getLsbD w.val = true ∧ ¬(s.win w).Running) →
      exec (.publish { args := [mask] } o) s =
          .next { s with mgmt := reported s [mask] .refusedState }
        ∧ exec (.unpublish { args := [mask] }) s =
          .next { s with mgmt := reported s [mask] .refusedState })
    ∧ ((∀ w : WindowId, mask.getLsbD w.val = true → (s.win w).Running) →
      (∃ t, exec (.unpublish { args := [mask] }) s =
            .next { t.pump with mgmt := reported s [mask] .done }
          ∧ Only [.windows] s t
          ∧ ∀ w : WindowId, t.win w =
              { s.win w with armed := if mask.getLsbD w.val then false else (s.win w).armed })
      ∧ ∃ t, exec (.publish { args := [mask] } o) s =
            .next { t.pump with mgmt := reported s [mask] .done }
          ∧ Only [.windows, .lineMap, .notices, .lines] s t
          ∧ ((∀ w : WindowId, mask.getLsbD w.val = true → (s.win w).state = .live →
                (s.win w).policy.commitMode = .boundary ∨ (s.win w).holdStatus ≠ .clear) →
              Only [.windows] s t)
          ∧ (s.MapSound → CommitsDrain s t
              (fun w => mask.getLsbD w.val = true ∧ (s.win w).state = .live
                ∧ (s.win w).policy.commitMode = .prompt ∧ (s.win w).holdStatus = .clear) s.win)
          ∧ t.notices = s.notices.offerAll ((windowsIn o).flatMap fun w =>
              if mask.getLsbD w.val = true ∧ (s.win w).state = .live
                  ∧ (s.win w).policy.commitMode = .prompt ∧ (s.win w).holdStatus = .clear then
                entryNotices w (s.win w)
              else [])
          ∧ ∀ w : WindowId,
            (mask.getLsbD w.val = false → t.win w = s.win w)
            ∧ (mask.getLsbD w.val = true →
                ((s.win w).state = .settling ∨ (s.win w).policy.commitMode = .boundary
                  ∨ (s.win w).holdStatus ≠ .clear) →
                t.win w = { s.win w with armed := true })
            ∧ (mask.getLsbD w.val = true → (s.win w).state = .live →
                (s.win w).policy.commitMode = .prompt → (s.win w).holdStatus = .clear →
                EntersCommit { s.win w with armed := true } (t.win w)))

/-- DISCARD takes a LIVE window into a settle of kind DISCARD, whatever its hold, and clears at once
where its drain is complete; in any other state it is refused (R83, R84, R88). The form
left out, a LIVE window armed in PROMPT mode with its hold CLEAR, is one that no run reaches (R81).
What the port holds after the frame beside its result is the model's choice (log entries 8 and 9). -/
def Obligations.DiscardSettlesTheWindow : Prop :=
  ∀ (s : State) (w : WindowId), s.PortFree →
    ((s.win w).state ≠ .live →
      exec (.discard { args := [windowByte w] }) s =
        .next { s with mgmt := reported s [windowByte w] .refusedState })
    ∧ ((s.win w).state = .live → ¬(s.win w).Drained →
      ∃ t, exec (.discard { args := [windowByte w] }) s =
          .next { t.pump with mgmt := reported s [windowByte w] .done }
        ∧ Only [.windows] s t ∧ WindowBecomes s t w ((s.win w).afterEntry .discard))
    ∧ ((s.win w).state = .live → (s.win w).Drained → s.MapSound → ¬(s.win w).Prompted →
      ∃ t, exec (.discard { args := [windowByte w] }) s =
          .next { t.pump with mgmt := reported s [windowByte w] .done }
        ∧ Only [.windows, .lineMap, .notices] s t
        ∧ WindowBecomes s t w (s.win w).afterClear
        ∧ SegmentBecomes s t w (fun e => { e with pending := false })
        ∧ t.notices = s.notices.offer (.discardDone w (s.win w).pendingCount))

/-- RETIRE takes a LIVE window to FLATTENING, clears its pending marks, its armed flag and its hold
record, and begins the copies at once where nothing is in flight; in any other state it is refused
(R112, R113, R116, R117).
What the port holds after the frame beside its result is the model's choice (log entries 8 and 9), as is that
with the empty order the slot request is served before the H-port examines its head (log entry 4). -/
def Obligations.RetireBeginsFlattening : Prop :=
  ∀ (s : State) (w : WindowId) (o : Order), s.PortFree →
    ((s.win w).state ≠ .live →
      exec (.retire { args := [windowByte w] } o) s =
        .next { s with mgmt := reported s [windowByte w] .refusedState })
    ∧ ((s.win w).state = .live → s.MapSound → (s.win w).copyRequest = false →
      ∃ u, Only [.windows, .lineMap] s u
        ∧ WindowBecomes s u w { (s.win w).holdCleared with
            state := .flattening, pendingCount := 0, armed := false, cursor := some 0
            drainTimer := none }
        ∧ SegmentBecomes s u w (fun e => { e with pending := false })
        ∧ ((s.win w).requests ≠ 0 ∨ (s.win w).fills ≠ 0 →
            (NoKeptRequest s → exec (.retire { args := [windowByte w] } o) s =
              .next { u.pump with mgmt := reported s [windowByte w] .done })
            ∧ ∃ y, KeptThenHead u y ∧ exec (.retire { args := [windowByte w] } []) s =
              .next { y with mgmt := reported s [windowByte w] .done })
        ∧ ((s.win w).requests = 0 → (s.win w).fills = 0 →
            (NoKeptRequest s → ∃ t, WalksFrom u t w 0
              ∧ exec (.retire { args := [windowByte w] } []) s =
                .next { t.pump with mgmt := reported s [windowByte w] .done }
              ∧ (s.hport.channel = [] → exec (.retire { args := [windowByte w] } o) s =
                .next { t with mgmt := reported s [windowByte w] .done }))
            ∧ ∃ x y, WalkStops u x w 0 ∧ KeptThenHead x y
              ∧ exec (.retire { args := [windowByte w] } []) s =
                .next { y with mgmt := reported s [windowByte w] .done }))

/-- DROP switches an active window off at once: its segment and its record are reset, its slots are
orphaned and their held writes answered ERROR in slot order, its tracker counts, generation and parity
stay, and no notice is raised; with the empty order a kept slot request of another window takes a slot
freed so; in OFF it is refused (R15, R57, R70, R94, R117, R121).
That a RETIRING slot no longer holds its answered write is the model's reading (log entry 14).
That kept slot requests are served W0 first, before the H-port examines its head, and what the port holds
after the frame beside its result, are the model's choices (log entries 4, 8 and 9). -/
def Obligations.DropSwitchesTheWindowOff : Prop :=
  ∀ (s : State) (w : WindowId) (o : Order), s.PortFree →
    ((s.win w).state = .off →
      exec (.drop { args := [windowByte w] } o) s =
        .next { s with mgmt := reported s [windowByte w] .refusedState })
    ∧ ((s.win w).state ≠ .off → s.MapSound →
      ∃ t, ((∀ v, v ≠ w → (s.win v).copyRequest = false) →
          exec (.drop { args := [windowByte w] } o) s =
            .next { t.pump with mgmt := reported s [windowByte w] .done })
        ∧ (∃ y, KeptThenHead t y ∧ exec (.drop { args := [windowByte w] } []) s =
          .next { y with mgmt := reported s [windowByte w] .done })
        ∧ Only [.windows, .lineMap, .slots, .hport] s t
        ∧ WindowBecomes s t w
            { (s.win w).holdCleared with
              state := .off, settleKind := none, cursor := none, drainTimer := none
              armed := false, pendingCount := 0, dividerCount := 0, fills := 0
              copyRequest := false }
        ∧ SegmentBecomes s t w (fun _ => { published := .a, pending := false, filling := false })
        ∧ (∀ n, t.slot n = match s.slot n with
            | none => none
            | some k =>
              if k.window = w ∧ k.orphaned = false then
                if k.phase = .waiting then none
                else some { k with phase := .retiring, held := none, orphaned := true }
              else some k)
        ∧ t.hport = { s.hport with
            responses := s.hport.responses ++
              ([0, 1, 2, 3] : List SlotId).filterMap fun n =>
                match s.slot n with
                | none => none
                | some k =>
                  if k.window = w ∧ k.orphaned = false then
                    k.held.map fun h =>
                      { requester := h.requester, tag := h.tag, status := .error, data := []
                        duplicate := false }
                  else none })

/-- RESTART drops every active window together, its slots' held writes answered ERROR in slot order, and
resets the roles, the notices, with NOTICE released, and the device settings; the tracker, the issue
queue, the outstanding set, the geometry and the policies stay (R17, R20, R134, R135, R138, R141, R153).
That a RETIRING slot no longer holds its answered write is the model's reading (log entry 14).
What the port holds after the frame beside its result is the model's choice (log entries 8 and 9). -/
def Obligations.RestartResetsThePart : Prop :=
  ∀ (s : State) (o : Order), s.PortFree → s.MapSound →
    (∀ w, (s.win w).state = .off → (s.win w).copyRequest = false) →
    ∃ t, exec (.restart { args := [] } o) s = .next { t.pump with mgmt := reported s [] .done }
      ∧ Only [.windows, .roles, .lineMap, .slots, .hport, .notices, .settings, .lines] s t
      ∧ (∀ w, t.win w = if (s.win w).state = .off then s.win w else
          { (s.win w).holdCleared with
            state := .off, settleKind := none, cursor := none, drainTimer := none
            armed := false, pendingCount := 0, dividerCount := 0, fills := 0
            copyRequest := false })
      ∧ (∀ i, (∃ w, (s.win w).state ≠ .off ∧ (s.win w).geometry.Claims i) →
          t.lineMap.entry i = { published := .a, pending := false, filling := false })
      ∧ (∀ i, (∀ w, (s.win w).state ≠ .off → ¬(s.win w).geometry.Claims i) →
          t.lineMap.entry i = s.lineMap.entry i)
      ∧ (∀ n, t.slot n = match s.slot n with
          | none => none
          | some k =>
            if (s.win k.window).state ≠ .off ∧ k.orphaned = false then
              if k.phase = .waiting then none
              else some { k with phase := .retiring, held := none, orphaned := true }
            else some k)
      ∧ (∀ r w, t.role r w = .none) ∧ t.notices = { records := [], overflow := false }
      ∧ t.noticeAsserted = false
      ∧ t.settings = { hold0Polarity := .activeHigh, hold1Polarity := .activeHigh
                       noticeEnable := true, tickDivisor := 50 }
      ∧ t.lines = (if s.settings.tickDivisor = 50 then s.lines
          else { s.lines with edgeCount := 0 })
      ∧ t.hport = { s.hport with
          responses := s.hport.responses ++
            ([0, 1, 2, 3] : List SlotId).filterMap fun n =>
              match s.slot n with
              | none => none
              | some k =>
                if (s.win k.window).state ≠ .off ∧ k.orphaned = false then
                  k.held.map fun h =>
                    { requester := h.requester, tag := h.tag, status := .error, data := []
                      duplicate := false }
                else none }

/-- SET HOLD sets or removes manual hold: in LOADING it is only stored, in LIVE and SETTLING a change
strikes or releases the hold, and no change is no strike; CLEAR HOLD acknowledges a latched ACTIVE
hold (R98, R99, R100, R103).
What the port holds after the frame beside its result is the model's choice (log entries 8 and 9). -/
def Obligations.SetHoldAndClearHoldActOnTheHold : Prop :=
  ∀ (s : State) (w : WindowId), s.PortFree →
    ((s.win w).state = .loading → ∀ on : Bool,
      ∃ t, exec (.setHold { args := [windowByte w, flagCode on] }) s =
          .next { t.pump with mgmt := reported s [windowByte w, flagCode on] .done }
        ∧ Only [.windows] s t ∧ WindowBecomes s t w { s.win w with manualHold := on })
    ∧ ((s.win w).Running → ∀ on : Bool, (s.win w).manualHold = on →
      exec (.setHold { args := [windowByte w, flagCode on] }) s =
        .next { s.pump with mgmt := reported s [windowByte w, flagCode on] .done })
    ∧ ((s.win w).Running → (s.win w).manualHold = false →
      ∃ t x l, exec (.setHold { args := [windowByte w, 1] }) s =
          .next { t.pump with mgmt := reported s [windowByte w, 1] .done }
        ∧ Only [.windows, .notices] s t ∧ WindowBecomes s t w x
        ∧ LevelStrikes { s.win w with manualHold := true } x w .manual l
        ∧ t.notices = s.notices.offerAll l)
    ∧ ((s.win w).Running → (s.win w).manualHold = true →
      ∃ t x, exec (.setHold { args := [windowByte w, 0] }) s =
          .next { t.pump with mgmt := reported s [windowByte w, 0] .done }
        ∧ Only [.windows] s t ∧ WindowBecomes s t w x
        ∧ LevelReleases { s.win w with manualHold := false } x (t.levelAsserted w))
    ∧ ((s.win w).Running → (s.win w).policy.holdPolicy = .latched →
      ∃ t, exec (.clearHold { args := [windowByte w] }) s =
          .next { t.pump with mgmt := reported s [windowByte w] .done }
        ∧ Only [.windows] s t
        ∧ WindowBecomes s t w
            (if (s.win w).holdStatus = .active ∧ (s.win w).holdAck = false then
              { s.win w with holdAck := true
                             holdStatus := if s.levelAsserted w then .active else .releasing }
            else s.win w))

/-- FORCE FALLBACK sets or clears the forced redirection of a window that has a fallback image; the
hold commands are refused in the states and with the bytes their rules name, in the order of their
checks (R98, R100, R110).
What the port holds after the frame beside its result is the model's choice (log entries 8 and 9). -/
def Obligations.HoldCommandsAreChecked : Prop :=
  ∀ (s : State) (w : WindowId) (b : Byte), s.PortFree →
    (∀ on : Bool, (s.win w).Running → (s.win w).geometry.fallback ≠ none →
      ∃ t, exec (.forceFallback { args := [windowByte w, flagCode on] }) s =
          .next { t.pump with mgmt := reported s [windowByte w, flagCode on] .done }
        ∧ Only [.windows] s t ∧ WindowBecomes s t w { s.win w with forcedFallback := on })
    ∧ (b.toNat ≤ 1 → (s.win w).Running → (s.win w).geometry.fallback = none →
      exec (.forceFallback { args := [windowByte w, b] }) s =
        .next { s with mgmt := reported s [windowByte w, b] .refusedRange })
    ∧ (b.toNat ≤ 1 → ¬(s.win w).Running →
      exec (.forceFallback { args := [windowByte w, b] }) s =
        .next { s with mgmt := reported s [windowByte w, b] .refusedState })
    ∧ (b.toNat ≤ 1 → (s.win w).state = .off ∨ (s.win w).state = .flattening →
      exec (.setHold { args := [windowByte w, b] }) s =
        .next { s with mgmt := reported s [windowByte w, b] .refusedState })
    ∧ (1 < b.toNat →
      exec (.forceFallback { args := [windowByte w, b] }) s =
          .next { s with mgmt := reported s [windowByte w, b] .refusedRange }
        ∧ exec (.setHold { args := [windowByte w, b] }) s =
          .next { s with mgmt := reported s [windowByte w, b] .refusedRange })
    ∧ (¬(s.win w).Running ∨ (s.win w).policy.holdPolicy = .perBoundary →
      exec (.clearHold { args := [windowByte w] }) s =
        .next { s with mgmt := reported s [windowByte w] .refusedState })

/-- A frame of the wrong length gives BAD_LENGTH, one whose command byte names no command gives
BAD_COMMAND, and a window byte above 7 gives REFUSED_RANGE; none changes anything beyond the port. A
part of a frame that does not end it changes the port alone, or the notice queue for READ NOTICE; a frame
of any command clocked in two parts, with no event between them, leaves what the whole leaves; and a part
of another frame than the one the port is in does nothing. A frame that ends before its command byte is
complete leaves the port idle with its last result, and changes nothing else (R144, R145, R146, R147, R148).
What is shifted out stands in the model's own record (log entry 8), a frame is cut in parts at whole bytes
(log entry 5), and that a part the port cannot take does nothing is the model's choice (log entry 3). -/
def Obligations.BadFramesChangeThePortAlone : Prop :=
  (∀ (s : State) (f : Frame) (o : Order), s.PortFree → f.till = .csRises →
    (∀ c : CommandName,
      (isReadCommand c = false ∧ 8 * f.args.length + f.extra % 8 ≠ 8 * argumentBytes c
        ∨ isReadCommand c = true ∧ 8 * f.args.length + f.extra % 8 < 8 * argumentBytes c) →
      ∃ t, exec (frameCommand f o c) s = .next t ∧ Only [.mgmt] s t
        ∧ t.mgmt.lastResult = .badLength
        ∧ t.mgmt.sdo.bytes = s.statusByte :: List.replicate f.args.length 0)
    ∧ (∀ b : Byte, commandOfByte b = none →
      ∃ t, exec (.badCommand b f) s = .next t ∧ Only [.mgmt] s t
        ∧ t.mgmt.lastResult = .badCommand
        ∧ t.mgmt.sdo.bytes = s.statusByte :: List.replicate f.args.length 0)
    ∧ (∀ (b : Byte) (dummy : List Byte), 7 < b.toNat →
      ∃ t, exec (.readWindow { args := b :: dummy }) s = .next t ∧ Only [.mgmt] s t
        ∧ t.mgmt.lastResult = .refusedRange
        ∧ t.mgmt.sdo.bytes = s.statusByte :: List.replicate (dummy.length + 1) 0)
    ∧ ∀ c : CommandName,
      c ∈ [CommandName.writeGeometry, .writePolicy, .load, .arm, .discard, .retire, .drop, .setHold,
        .clearHold, .forceFallback] →
      8 * f.args.length + f.extra % 8 = 8 * argumentBytes c → 7 < (f.args.getD 0 0).toNat →
      ∃ t, exec (frameCommand f o c) s = .next t ∧ Only [.mgmt] s t
        ∧ t.mgmt.lastResult = .refusedRange
        ∧ t.mgmt.sdo.bytes = s.statusByte :: List.replicate f.args.length 0)
  ∧ (∀ (s : State) (f : Frame) (o : Order) (c : CommandName), s.inReset = false →
      f.till ≠ .csRises →
      ∃ t, exec (frameCommand f o c) s = .next t
        ∧ Only (if c = .readNotice then [.mgmt, .notices] else [.mgmt]) s t
        ∧ t.mgmt.lastResult = s.mgmt.lastResult
        ∧ (∀ n, s.mgmt.frameState = .inFrame (n + 1) → s.mgmt.command ≠ some c → t = s))
  ∧ (∀ (s : State) (l m : List Byte) (e : Nat) (o : Order), s.PortFree →
      (∀ c : CommandName,
        ∃ t, exec (frameCommand { args := l, till := .csLow } o c) s = .next t
          ∧ exec (frameCommand { args := m, extra := e } o c) t =
            exec (frameCommand { args := l ++ m, extra := e } o c) s)
      ∧ ∀ b : Byte,
        ∃ t, exec (.badCommand b { args := l, till := .csLow }) s = .next t
          ∧ exec (.badCommand b { args := m, extra := e }) t =
            exec (.badCommand b { args := l ++ m, extra := e }) s)
  ∧ ∀ (s : State) (i : Instr) (f : Frame) (o : Order), s.inReset = false → f.till = .csRisesEarly →
      ((∃ c, i = frameCommand f o c) ∨ ∃ b, commandOfByte b = none ∧ i = .badCommand b f) →
      (∀ n, s.mgmt.frameState = .inFrame (n + 1) → exec i s = .next s)
      ∧ ((∀ n, s.mgmt.frameState ≠ .inFrame (n + 1)) →
        ∃ t, exec i s = .next t ∧ Only [.mgmt] s t ∧ t.mgmt.frameState = .idle
          ∧ t.mgmt.lastResult = s.mgmt.lastResult
          ∧ t.mgmt.sdo.tail = (bitsOfByte (match s.mgmt.frameState with
              | .inFrame _ => s.mgmt.status
              | _ => s.statusByte)).take (f.extra % 8))
end

