-- ==== Sys2Proof/Laws/State.lean ====
section
/-! SUPPORT. What each update of the state leaves in each of its parts: one lemma for each field and
each update, so that no later proof unfolds a record update. -/

namespace Sys2Proof.Machine

variable (s : State)

/-! ### `modWin` -/

@[simp] theorem modWin_roles (w : WindowId) (f : Window → Window) : (s.modWin w f).roles =
    s.roles := rfl
@[simp] theorem modWin_lineMap (w : WindowId) (f : Window → Window) : (s.modWin w f).lineMap =
    s.lineMap := rfl
@[simp] theorem modWin_slots (w : WindowId) (f : Window → Window) : (s.modWin w f).slots =
    s.slots := rfl
@[simp] theorem modWin_table (w : WindowId) (f : Window → Window) : (s.modWin w f).table =
    s.table := rfl
@[simp] theorem modWin_hport (w : WindowId) (f : Window → Window) : (s.modWin w f).hport =
    s.hport := rfl
@[simp] theorem modWin_issueQueue (w : WindowId) (f : Window → Window) : (s.modWin w f).issueQueue =
    s.issueQueue := rfl
@[simp] theorem modWin_notices (w : WindowId) (f : Window → Window) : (s.modWin w f).notices =
    s.notices := rfl
@[simp] theorem modWin_mgmt (w : WindowId) (f : Window → Window) : (s.modWin w f).mgmt = s.mgmt := rfl
@[simp] theorem modWin_settings (w : WindowId) (f : Window → Window) : (s.modWin w f).settings =
    s.settings := rfl
@[simp] theorem modWin_lines (w : WindowId) (f : Window → Window) : (s.modWin w f).lines =
    s.lines := rfl
@[simp] theorem modWin_inReset (w : WindowId) (f : Window → Window) : (s.modWin w f).inReset =
    s.inReset := rfl
@[simp] theorem modWin_pending (w : WindowId) (f : Window → Window) : (s.modWin w f).pending =
    s.pending := rfl
@[simp] theorem modWin_role (w : WindowId) (f : Window → Window) (r : Requester) (u : WindowId) :
    (s.modWin w f).role r u = s.role r u := rfl
@[simp] theorem modWin_slot (w : WindowId) (f : Window → Window) (m : SlotId) :
    (s.modWin w f).slot m = s.slot m := rfl
@[simp] theorem modWin_entry (w : WindowId) (f : Window → Window) (j : EntryId) :
    (s.modWin w f).entry j = s.entry j := rfl

/-! ### `setRoles` -/

@[simp] theorem setRoles_windows (m : Vector (Vector Role 8) 16) : (s.setRoles m).windows =
    s.windows := rfl
@[simp] theorem setRoles_roles (m : Vector (Vector Role 8) 16) : (s.setRoles m).roles = m := rfl
@[simp] theorem setRoles_lineMap (m : Vector (Vector Role 8) 16) : (s.setRoles m).lineMap =
    s.lineMap := rfl
@[simp] theorem setRoles_slots (m : Vector (Vector Role 8) 16) : (s.setRoles m).slots = s.slots := rfl
@[simp] theorem setRoles_table (m : Vector (Vector Role 8) 16) : (s.setRoles m).table = s.table := rfl
@[simp] theorem setRoles_hport (m : Vector (Vector Role 8) 16) : (s.setRoles m).hport = s.hport := rfl
@[simp] theorem setRoles_issueQueue (m : Vector (Vector Role 8) 16) : (s.setRoles m).issueQueue =
    s.issueQueue := rfl
@[simp] theorem setRoles_notices (m : Vector (Vector Role 8) 16) : (s.setRoles m).notices =
    s.notices := rfl
@[simp] theorem setRoles_mgmt (m : Vector (Vector Role 8) 16) : (s.setRoles m).mgmt = s.mgmt := rfl
@[simp] theorem setRoles_settings (m : Vector (Vector Role 8) 16) : (s.setRoles m).settings =
    s.settings := rfl
@[simp] theorem setRoles_lines (m : Vector (Vector Role 8) 16) : (s.setRoles m).lines = s.lines := rfl
@[simp] theorem setRoles_inReset (m : Vector (Vector Role 8) 16) : (s.setRoles m).inReset =
    s.inReset := rfl
@[simp] theorem setRoles_pending (m : Vector (Vector Role 8) 16) : (s.setRoles m).pending =
    s.pending := rfl
@[simp] theorem setRoles_win (m : Vector (Vector Role 8) 16) (v : WindowId) : (s.setRoles m).win v =
    s.win v := rfl
@[simp] theorem setRoles_slot (m : Vector (Vector Role 8) 16) (k : SlotId) : (s.setRoles m).slot k =
    s.slot k := rfl
@[simp] theorem setRoles_entry (m : Vector (Vector Role 8) 16) (j : EntryId) :
    (s.setRoles m).entry j = s.entry j := rfl

/-! ### `setLineMap` -/

@[simp] theorem setLineMap_windows (m : LineMap) : (s.setLineMap m).windows = s.windows := rfl
@[simp] theorem setLineMap_roles (m : LineMap) : (s.setLineMap m).roles = s.roles := rfl
@[simp] theorem setLineMap_lineMap (m : LineMap) : (s.setLineMap m).lineMap = m := rfl
@[simp] theorem setLineMap_slots (m : LineMap) : (s.setLineMap m).slots = s.slots := rfl
@[simp] theorem setLineMap_table (m : LineMap) : (s.setLineMap m).table = s.table := rfl
@[simp] theorem setLineMap_hport (m : LineMap) : (s.setLineMap m).hport = s.hport := rfl
@[simp] theorem setLineMap_issueQueue (m : LineMap) : (s.setLineMap m).issueQueue =
    s.issueQueue := rfl
@[simp] theorem setLineMap_notices (m : LineMap) : (s.setLineMap m).notices = s.notices := rfl
@[simp] theorem setLineMap_mgmt (m : LineMap) : (s.setLineMap m).mgmt = s.mgmt := rfl
@[simp] theorem setLineMap_settings (m : LineMap) : (s.setLineMap m).settings = s.settings := rfl
@[simp] theorem setLineMap_lines (m : LineMap) : (s.setLineMap m).lines = s.lines := rfl
@[simp] theorem setLineMap_inReset (m : LineMap) : (s.setLineMap m).inReset = s.inReset := rfl
@[simp] theorem setLineMap_pending (m : LineMap) : (s.setLineMap m).pending = s.pending := rfl
@[simp] theorem setLineMap_win (m : LineMap) (v : WindowId) : (s.setLineMap m).win v = s.win v := rfl
@[simp] theorem setLineMap_role (m : LineMap) (r : Requester) (v : WindowId) :
    (s.setLineMap m).role r v = s.role r v := rfl
@[simp] theorem setLineMap_slot (m : LineMap) (k : SlotId) : (s.setLineMap m).slot k = s.slot k := rfl
@[simp] theorem setLineMap_entry (m : LineMap) (j : EntryId) : (s.setLineMap m).entry j =
    s.entry j := rfl

/-! ### `setSlot` -/

@[simp] theorem setSlot_windows (n : SlotId) (k : Option SlotWork) : (s.setSlot n k).windows =
    s.windows := rfl
@[simp] theorem setSlot_roles (n : SlotId) (k : Option SlotWork) : (s.setSlot n k).roles =
    s.roles := rfl
@[simp] theorem setSlot_lineMap (n : SlotId) (k : Option SlotWork) : (s.setSlot n k).lineMap =
    s.lineMap := rfl
@[simp] theorem setSlot_table (n : SlotId) (k : Option SlotWork) : (s.setSlot n k).table =
    s.table := rfl
@[simp] theorem setSlot_hport (n : SlotId) (k : Option SlotWork) : (s.setSlot n k).hport =
    s.hport := rfl
@[simp] theorem setSlot_issueQueue (n : SlotId) (k : Option SlotWork) : (s.setSlot n k).issueQueue =
    s.issueQueue := rfl
@[simp] theorem setSlot_notices (n : SlotId) (k : Option SlotWork) : (s.setSlot n k).notices =
    s.notices := rfl
@[simp] theorem setSlot_mgmt (n : SlotId) (k : Option SlotWork) : (s.setSlot n k).mgmt = s.mgmt := rfl
@[simp] theorem setSlot_settings (n : SlotId) (k : Option SlotWork) : (s.setSlot n k).settings =
    s.settings := rfl
@[simp] theorem setSlot_lines (n : SlotId) (k : Option SlotWork) : (s.setSlot n k).lines =
    s.lines := rfl
@[simp] theorem setSlot_inReset (n : SlotId) (k : Option SlotWork) : (s.setSlot n k).inReset =
    s.inReset := rfl
@[simp] theorem setSlot_pending (n : SlotId) (k : Option SlotWork) : (s.setSlot n k).pending =
    s.pending := rfl
@[simp] theorem setSlot_win (n : SlotId) (k : Option SlotWork) (v : WindowId) :
    (s.setSlot n k).win v = s.win v := rfl
@[simp] theorem setSlot_role (n : SlotId) (k : Option SlotWork) (r : Requester) (v : WindowId) :
    (s.setSlot n k).role r v = s.role r v := rfl
@[simp] theorem setSlot_entry (n : SlotId) (k : Option SlotWork) (j : EntryId) :
    (s.setSlot n k).entry j = s.entry j := rfl

/-! ### `setEntry` -/

@[simp] theorem setEntry_windows (i : EntryId) (e : Option InFlight) : (s.setEntry i e).windows =
    s.windows := rfl
@[simp] theorem setEntry_roles (i : EntryId) (e : Option InFlight) : (s.setEntry i e).roles =
    s.roles := rfl
@[simp] theorem setEntry_lineMap (i : EntryId) (e : Option InFlight) : (s.setEntry i e).lineMap =
    s.lineMap := rfl
@[simp] theorem setEntry_slots (i : EntryId) (e : Option InFlight) : (s.setEntry i e).slots =
    s.slots := rfl
@[simp] theorem setEntry_hport (i : EntryId) (e : Option InFlight) : (s.setEntry i e).hport =
    s.hport := rfl
@[simp] theorem setEntry_issueQueue (i : EntryId) (e : Option InFlight) :
    (s.setEntry i e).issueQueue = s.issueQueue := rfl
@[simp] theorem setEntry_notices (i : EntryId) (e : Option InFlight) : (s.setEntry i e).notices =
    s.notices := rfl
@[simp] theorem setEntry_mgmt (i : EntryId) (e : Option InFlight) : (s.setEntry i e).mgmt =
    s.mgmt := rfl
@[simp] theorem setEntry_settings (i : EntryId) (e : Option InFlight) : (s.setEntry i e).settings =
    s.settings := rfl
@[simp] theorem setEntry_lines (i : EntryId) (e : Option InFlight) : (s.setEntry i e).lines =
    s.lines := rfl
@[simp] theorem setEntry_inReset (i : EntryId) (e : Option InFlight) : (s.setEntry i e).inReset =
    s.inReset := rfl
@[simp] theorem setEntry_pending (i : EntryId) (e : Option InFlight) : (s.setEntry i e).pending =
    s.pending := rfl
@[simp] theorem setEntry_win (i : EntryId) (e : Option InFlight) (v : WindowId) :
    (s.setEntry i e).win v = s.win v := rfl
@[simp] theorem setEntry_role (i : EntryId) (e : Option InFlight) (r : Requester) (v : WindowId) :
    (s.setEntry i e).role r v = s.role r v := rfl
@[simp] theorem setEntry_slot (i : EntryId) (e : Option InFlight) (m : SlotId) :
    (s.setEntry i e).slot m = s.slot m := rfl

/-! ### `modHPort` -/

@[simp] theorem modHPort_windows (f : HPort → HPort) : (s.modHPort f).windows = s.windows := rfl
@[simp] theorem modHPort_roles (f : HPort → HPort) : (s.modHPort f).roles = s.roles := rfl
@[simp] theorem modHPort_lineMap (f : HPort → HPort) : (s.modHPort f).lineMap = s.lineMap := rfl
@[simp] theorem modHPort_slots (f : HPort → HPort) : (s.modHPort f).slots = s.slots := rfl
@[simp] theorem modHPort_table (f : HPort → HPort) : (s.modHPort f).table = s.table := rfl
@[simp] theorem modHPort_hport (f : HPort → HPort) : (s.modHPort f).hport = f s.hport := rfl
@[simp] theorem modHPort_issueQueue (f : HPort → HPort) : (s.modHPort f).issueQueue =
    s.issueQueue := rfl
@[simp] theorem modHPort_notices (f : HPort → HPort) : (s.modHPort f).notices = s.notices := rfl
@[simp] theorem modHPort_mgmt (f : HPort → HPort) : (s.modHPort f).mgmt = s.mgmt := rfl
@[simp] theorem modHPort_settings (f : HPort → HPort) : (s.modHPort f).settings = s.settings := rfl
@[simp] theorem modHPort_lines (f : HPort → HPort) : (s.modHPort f).lines = s.lines := rfl
@[simp] theorem modHPort_inReset (f : HPort → HPort) : (s.modHPort f).inReset = s.inReset := rfl
@[simp] theorem modHPort_pending (f : HPort → HPort) : (s.modHPort f).pending = s.pending := rfl
@[simp] theorem modHPort_win (f : HPort → HPort) (v : WindowId) : (s.modHPort f).win v =
    s.win v := rfl
@[simp] theorem modHPort_role (f : HPort → HPort) (r : Requester) (v : WindowId) :
    (s.modHPort f).role r v = s.role r v := rfl
@[simp] theorem modHPort_slot (f : HPort → HPort) (m : SlotId) : (s.modHPort f).slot m =
    s.slot m := rfl
@[simp] theorem modHPort_entry (f : HPort → HPort) (j : EntryId) : (s.modHPort f).entry j =
    s.entry j := rfl

/-! ### `setIssueQueue` -/

@[simp] theorem setIssueQueue_windows (q : List MOp) : (s.setIssueQueue q).windows = s.windows := rfl
@[simp] theorem setIssueQueue_roles (q : List MOp) : (s.setIssueQueue q).roles = s.roles := rfl
@[simp] theorem setIssueQueue_lineMap (q : List MOp) : (s.setIssueQueue q).lineMap = s.lineMap := rfl
@[simp] theorem setIssueQueue_slots (q : List MOp) : (s.setIssueQueue q).slots = s.slots := rfl
@[simp] theorem setIssueQueue_table (q : List MOp) : (s.setIssueQueue q).table = s.table := rfl
@[simp] theorem setIssueQueue_hport (q : List MOp) : (s.setIssueQueue q).hport = s.hport := rfl
@[simp] theorem setIssueQueue_issueQueue (q : List MOp) : (s.setIssueQueue q).issueQueue = q := rfl
@[simp] theorem setIssueQueue_notices (q : List MOp) : (s.setIssueQueue q).notices = s.notices := rfl
@[simp] theorem setIssueQueue_mgmt (q : List MOp) : (s.setIssueQueue q).mgmt = s.mgmt := rfl
@[simp] theorem setIssueQueue_settings (q : List MOp) : (s.setIssueQueue q).settings =
    s.settings := rfl
@[simp] theorem setIssueQueue_lines (q : List MOp) : (s.setIssueQueue q).lines = s.lines := rfl
@[simp] theorem setIssueQueue_inReset (q : List MOp) : (s.setIssueQueue q).inReset = s.inReset := rfl
@[simp] theorem setIssueQueue_pending (q : List MOp) : (s.setIssueQueue q).pending = s.pending := rfl
@[simp] theorem setIssueQueue_win (q : List MOp) (v : WindowId) : (s.setIssueQueue q).win v =
    s.win v := rfl
@[simp] theorem setIssueQueue_role (q : List MOp) (r : Requester) (v : WindowId) :
    (s.setIssueQueue q).role r v = s.role r v := rfl
@[simp] theorem setIssueQueue_slot (q : List MOp) (m : SlotId) : (s.setIssueQueue q).slot m =
    s.slot m := rfl
@[simp] theorem setIssueQueue_entry (q : List MOp) (j : EntryId) : (s.setIssueQueue q).entry j =
    s.entry j := rfl

/-! ### `modNotices` -/

@[simp] theorem modNotices_windows (f : NoticeQueue → NoticeQueue) : (s.modNotices f).windows =
    s.windows := rfl
@[simp] theorem modNotices_roles (f : NoticeQueue → NoticeQueue) : (s.modNotices f).roles =
    s.roles := rfl
@[simp] theorem modNotices_lineMap (f : NoticeQueue → NoticeQueue) : (s.modNotices f).lineMap =
    s.lineMap := rfl
@[simp] theorem modNotices_slots (f : NoticeQueue → NoticeQueue) : (s.modNotices f).slots =
    s.slots := rfl
@[simp] theorem modNotices_table (f : NoticeQueue → NoticeQueue) : (s.modNotices f).table =
    s.table := rfl
@[simp] theorem modNotices_hport (f : NoticeQueue → NoticeQueue) : (s.modNotices f).hport =
    s.hport := rfl
@[simp] theorem modNotices_issueQueue (f : NoticeQueue → NoticeQueue) :
    (s.modNotices f).issueQueue = s.issueQueue := rfl
@[simp] theorem modNotices_notices (f : NoticeQueue → NoticeQueue) : (s.modNotices f).notices =
    f s.notices := rfl
@[simp] theorem modNotices_mgmt (f : NoticeQueue → NoticeQueue) : (s.modNotices f).mgmt =
    s.mgmt := rfl
@[simp] theorem modNotices_settings (f : NoticeQueue → NoticeQueue) : (s.modNotices f).settings =
    s.settings := rfl
@[simp] theorem modNotices_lines (f : NoticeQueue → NoticeQueue) : (s.modNotices f).lines =
    s.lines := rfl
@[simp] theorem modNotices_inReset (f : NoticeQueue → NoticeQueue) : (s.modNotices f).inReset =
    s.inReset := rfl
@[simp] theorem modNotices_pending (f : NoticeQueue → NoticeQueue) : (s.modNotices f).pending =
    s.pending := rfl
@[simp] theorem modNotices_win (f : NoticeQueue → NoticeQueue) (v : WindowId) :
    (s.modNotices f).win v = s.win v := rfl
@[simp] theorem modNotices_role (f : NoticeQueue → NoticeQueue) (r : Requester) (v : WindowId) :
    (s.modNotices f).role r v = s.role r v := rfl
@[simp] theorem modNotices_slot (f : NoticeQueue → NoticeQueue) (m : SlotId) :
    (s.modNotices f).slot m = s.slot m := rfl
@[simp] theorem modNotices_entry (f : NoticeQueue → NoticeQueue) (j : EntryId) :
    (s.modNotices f).entry j = s.entry j := rfl

/-! ### `modMgmt` -/

@[simp] theorem modMgmt_windows (f : MgmtPort → MgmtPort) : (s.modMgmt f).windows = s.windows := rfl
@[simp] theorem modMgmt_roles (f : MgmtPort → MgmtPort) : (s.modMgmt f).roles = s.roles := rfl
@[simp] theorem modMgmt_lineMap (f : MgmtPort → MgmtPort) : (s.modMgmt f).lineMap = s.lineMap := rfl
@[simp] theorem modMgmt_slots (f : MgmtPort → MgmtPort) : (s.modMgmt f).slots = s.slots := rfl
@[simp] theorem modMgmt_table (f : MgmtPort → MgmtPort) : (s.modMgmt f).table = s.table := rfl
@[simp] theorem modMgmt_hport (f : MgmtPort → MgmtPort) : (s.modMgmt f).hport = s.hport := rfl
@[simp] theorem modMgmt_issueQueue (f : MgmtPort → MgmtPort) : (s.modMgmt f).issueQueue =
    s.issueQueue := rfl
@[simp] theorem modMgmt_notices (f : MgmtPort → MgmtPort) : (s.modMgmt f).notices = s.notices := rfl
@[simp] theorem modMgmt_mgmt (f : MgmtPort → MgmtPort) : (s.modMgmt f).mgmt = f s.mgmt := rfl
@[simp] theorem modMgmt_settings (f : MgmtPort → MgmtPort) : (s.modMgmt f).settings =
    s.settings := rfl
@[simp] theorem modMgmt_lines (f : MgmtPort → MgmtPort) : (s.modMgmt f).lines = s.lines := rfl
@[simp] theorem modMgmt_inReset (f : MgmtPort → MgmtPort) : (s.modMgmt f).inReset = s.inReset := rfl
@[simp] theorem modMgmt_pending (f : MgmtPort → MgmtPort) : (s.modMgmt f).pending = s.pending := rfl
@[simp] theorem modMgmt_win (f : MgmtPort → MgmtPort) (v : WindowId) : (s.modMgmt f).win v =
    s.win v := rfl
@[simp] theorem modMgmt_role (f : MgmtPort → MgmtPort) (r : Requester) (v : WindowId) :
    (s.modMgmt f).role r v = s.role r v := rfl
@[simp] theorem modMgmt_slot (f : MgmtPort → MgmtPort) (m : SlotId) : (s.modMgmt f).slot m =
    s.slot m := rfl
@[simp] theorem modMgmt_entry (f : MgmtPort → MgmtPort) (j : EntryId) : (s.modMgmt f).entry j =
    s.entry j := rfl

/-! ### `setSettings` -/

@[simp] theorem setSettings_windows (c : Settings) : (s.setSettings c).windows = s.windows := rfl
@[simp] theorem setSettings_roles (c : Settings) : (s.setSettings c).roles = s.roles := rfl
@[simp] theorem setSettings_lineMap (c : Settings) : (s.setSettings c).lineMap = s.lineMap := rfl
@[simp] theorem setSettings_slots (c : Settings) : (s.setSettings c).slots = s.slots := rfl
@[simp] theorem setSettings_table (c : Settings) : (s.setSettings c).table = s.table := rfl
@[simp] theorem setSettings_hport (c : Settings) : (s.setSettings c).hport = s.hport := rfl
@[simp] theorem setSettings_issueQueue (c : Settings) : (s.setSettings c).issueQueue =
    s.issueQueue := rfl
@[simp] theorem setSettings_notices (c : Settings) : (s.setSettings c).notices = s.notices := rfl
@[simp] theorem setSettings_mgmt (c : Settings) : (s.setSettings c).mgmt = s.mgmt := rfl
@[simp] theorem setSettings_settings (c : Settings) : (s.setSettings c).settings = c := rfl
@[simp] theorem setSettings_lines (c : Settings) : (s.setSettings c).lines = s.lines := rfl
@[simp] theorem setSettings_inReset (c : Settings) : (s.setSettings c).inReset = s.inReset := rfl
@[simp] theorem setSettings_pending (c : Settings) : (s.setSettings c).pending = s.pending := rfl
@[simp] theorem setSettings_win (c : Settings) (v : WindowId) : (s.setSettings c).win v =
    s.win v := rfl
@[simp] theorem setSettings_role (c : Settings) (r : Requester) (v : WindowId) :
    (s.setSettings c).role r v = s.role r v := rfl
@[simp] theorem setSettings_slot (c : Settings) (m : SlotId) : (s.setSettings c).slot m =
    s.slot m := rfl
@[simp] theorem setSettings_entry (c : Settings) (j : EntryId) : (s.setSettings c).entry j =
    s.entry j := rfl

/-! ### `modLines` -/

@[simp] theorem modLines_windows (f : LineInterface → LineInterface) : (s.modLines f).windows =
    s.windows := rfl
@[simp] theorem modLines_roles (f : LineInterface → LineInterface) : (s.modLines f).roles =
    s.roles := rfl
@[simp] theorem modLines_lineMap (f : LineInterface → LineInterface) : (s.modLines f).lineMap =
    s.lineMap := rfl
@[simp] theorem modLines_slots (f : LineInterface → LineInterface) : (s.modLines f).slots =
    s.slots := rfl
@[simp] theorem modLines_table (f : LineInterface → LineInterface) : (s.modLines f).table =
    s.table := rfl
@[simp] theorem modLines_hport (f : LineInterface → LineInterface) : (s.modLines f).hport =
    s.hport := rfl
@[simp] theorem modLines_issueQueue (f : LineInterface → LineInterface) :
    (s.modLines f).issueQueue = s.issueQueue := rfl
@[simp] theorem modLines_notices (f : LineInterface → LineInterface) : (s.modLines f).notices =
    s.notices := rfl
@[simp] theorem modLines_mgmt (f : LineInterface → LineInterface) : (s.modLines f).mgmt =
    s.mgmt := rfl
@[simp] theorem modLines_settings (f : LineInterface → LineInterface) : (s.modLines f).settings =
    s.settings := rfl
@[simp] theorem modLines_lines (f : LineInterface → LineInterface) : (s.modLines f).lines =
    f s.lines := rfl
@[simp] theorem modLines_inReset (f : LineInterface → LineInterface) : (s.modLines f).inReset =
    s.inReset := rfl
@[simp] theorem modLines_pending (f : LineInterface → LineInterface) : (s.modLines f).pending =
    s.pending := rfl
@[simp] theorem modLines_win (f : LineInterface → LineInterface) (v : WindowId) :
    (s.modLines f).win v = s.win v := rfl
@[simp] theorem modLines_role (f : LineInterface → LineInterface) (r : Requester) (v : WindowId) :
    (s.modLines f).role r v = s.role r v := rfl
@[simp] theorem modLines_slot (f : LineInterface → LineInterface) (m : SlotId) :
    (s.modLines f).slot m = s.slot m := rfl
@[simp] theorem modLines_entry (f : LineInterface → LineInterface) (j : EntryId) :
    (s.modLines f).entry j = s.entry j := rfl

/-! ### `raise` -/

@[simp] theorem raise_windows (n : Notice) : (s.raise n).windows = s.windows := rfl
@[simp] theorem raise_roles (n : Notice) : (s.raise n).roles = s.roles := rfl
@[simp] theorem raise_lineMap (n : Notice) : (s.raise n).lineMap = s.lineMap := rfl
@[simp] theorem raise_slots (n : Notice) : (s.raise n).slots = s.slots := rfl
@[simp] theorem raise_table (n : Notice) : (s.raise n).table = s.table := rfl
@[simp] theorem raise_hport (n : Notice) : (s.raise n).hport = s.hport := rfl
@[simp] theorem raise_issueQueue (n : Notice) : (s.raise n).issueQueue = s.issueQueue := rfl
@[simp] theorem raise_notices (n : Notice) : (s.raise n).notices = s.notices.offer n := rfl
@[simp] theorem raise_mgmt (n : Notice) : (s.raise n).mgmt = s.mgmt := rfl
@[simp] theorem raise_settings (n : Notice) : (s.raise n).settings = s.settings := rfl
@[simp] theorem raise_lines (n : Notice) : (s.raise n).lines = s.lines := rfl
@[simp] theorem raise_inReset (n : Notice) : (s.raise n).inReset = s.inReset := rfl
@[simp] theorem raise_pending (n : Notice) : (s.raise n).pending = s.pending := rfl
@[simp] theorem raise_win (n : Notice) (v : WindowId) : (s.raise n).win v = s.win v := rfl
@[simp] theorem raise_role (n : Notice) (r : Requester) (v : WindowId) : (s.raise n).role r v =
    s.role r v := rfl
@[simp] theorem raise_slot (n : Notice) (m : SlotId) : (s.raise n).slot m = s.slot m := rfl
@[simp] theorem raise_entry (n : Notice) (j : EntryId) : (s.raise n).entry j = s.entry j := rfl

/-! ### `respond` -/

@[simp] theorem respond_windows (r : HResponse) : (s.respond r).windows = s.windows := rfl
@[simp] theorem respond_roles (r : HResponse) : (s.respond r).roles = s.roles := rfl
@[simp] theorem respond_lineMap (r : HResponse) : (s.respond r).lineMap = s.lineMap := rfl
@[simp] theorem respond_slots (r : HResponse) : (s.respond r).slots = s.slots := rfl
@[simp] theorem respond_table (r : HResponse) : (s.respond r).table = s.table := rfl
@[simp] theorem respond_hport (r : HResponse) : (s.respond r).hport =
    { s.hport with responses := s.hport.responses ++ [r] } := rfl
@[simp] theorem respond_issueQueue (r : HResponse) : (s.respond r).issueQueue = s.issueQueue := rfl
@[simp] theorem respond_notices (r : HResponse) : (s.respond r).notices = s.notices := rfl
@[simp] theorem respond_mgmt (r : HResponse) : (s.respond r).mgmt = s.mgmt := rfl
@[simp] theorem respond_settings (r : HResponse) : (s.respond r).settings = s.settings := rfl
@[simp] theorem respond_lines (r : HResponse) : (s.respond r).lines = s.lines := rfl
@[simp] theorem respond_inReset (r : HResponse) : (s.respond r).inReset = s.inReset := rfl
@[simp] theorem respond_pending (r : HResponse) : (s.respond r).pending = s.pending := rfl
@[simp] theorem respond_win (r : HResponse) (v : WindowId) : (s.respond r).win v = s.win v := rfl
@[simp] theorem respond_role (r : HResponse) (q : Requester) (v : WindowId) :
    (s.respond r).role q v = s.role q v := rfl
@[simp] theorem respond_slot (r : HResponse) (m : SlotId) : (s.respond r).slot m = s.slot m := rfl
@[simp] theorem respond_entry (r : HResponse) (j : EntryId) : (s.respond r).entry j = s.entry j := rfl

/-! ### `issue` -/

@[simp] theorem issue_windows (op : MOp) : (s.issue op).windows = s.windows := rfl
@[simp] theorem issue_roles (op : MOp) : (s.issue op).roles = s.roles := rfl
@[simp] theorem issue_lineMap (op : MOp) : (s.issue op).lineMap = s.lineMap := rfl
@[simp] theorem issue_slots (op : MOp) : (s.issue op).slots = s.slots := rfl
@[simp] theorem issue_table (op : MOp) : (s.issue op).table = s.table := rfl
@[simp] theorem issue_hport (op : MOp) : (s.issue op).hport = s.hport := rfl
@[simp] theorem issue_issueQueue (op : MOp) : (s.issue op).issueQueue = s.issueQueue ++ [op] := rfl
@[simp] theorem issue_notices (op : MOp) : (s.issue op).notices = s.notices := rfl
@[simp] theorem issue_mgmt (op : MOp) : (s.issue op).mgmt = s.mgmt := rfl
@[simp] theorem issue_settings (op : MOp) : (s.issue op).settings = s.settings := rfl
@[simp] theorem issue_lines (op : MOp) : (s.issue op).lines = s.lines := rfl
@[simp] theorem issue_inReset (op : MOp) : (s.issue op).inReset = s.inReset := rfl
@[simp] theorem issue_pending (op : MOp) : (s.issue op).pending = s.pending := rfl
@[simp] theorem issue_win (op : MOp) (v : WindowId) : (s.issue op).win v = s.win v := rfl
@[simp] theorem issue_role (op : MOp) (r : Requester) (v : WindowId) : (s.issue op).role r v =
    s.role r v := rfl
@[simp] theorem issue_slot (op : MOp) (m : SlotId) : (s.issue op).slot m = s.slot m := rfl
@[simp] theorem issue_entry (op : MOp) (j : EntryId) : (s.issue op).entry j = s.entry j := rfl

/-! ### `modLine` -/

@[simp] theorem modLine_windows (v : WindowId) (i : Nat) (g : LineEntry → LineEntry) :
    (s.modLine v i g).windows = s.windows := rfl
@[simp] theorem modLine_roles (v : WindowId) (i : Nat) (g : LineEntry → LineEntry) :
    (s.modLine v i g).roles = s.roles := rfl
@[simp] theorem modLine_slots (v : WindowId) (i : Nat) (g : LineEntry → LineEntry) :
    (s.modLine v i g).slots = s.slots := rfl
@[simp] theorem modLine_table (v : WindowId) (i : Nat) (g : LineEntry → LineEntry) :
    (s.modLine v i g).table = s.table := rfl
@[simp] theorem modLine_hport (v : WindowId) (i : Nat) (g : LineEntry → LineEntry) :
    (s.modLine v i g).hport = s.hport := rfl
@[simp] theorem modLine_issueQueue (v : WindowId) (i : Nat) (g : LineEntry → LineEntry) :
    (s.modLine v i g).issueQueue = s.issueQueue := rfl
@[simp] theorem modLine_notices (v : WindowId) (i : Nat) (g : LineEntry → LineEntry) :
    (s.modLine v i g).notices = s.notices := rfl
@[simp] theorem modLine_mgmt (v : WindowId) (i : Nat) (g : LineEntry → LineEntry) :
    (s.modLine v i g).mgmt = s.mgmt := rfl
@[simp] theorem modLine_settings (v : WindowId) (i : Nat) (g : LineEntry → LineEntry) :
    (s.modLine v i g).settings = s.settings := rfl
@[simp] theorem modLine_lines (v : WindowId) (i : Nat) (g : LineEntry → LineEntry) :
    (s.modLine v i g).lines = s.lines := rfl
@[simp] theorem modLine_inReset (v : WindowId) (i : Nat) (g : LineEntry → LineEntry) :
    (s.modLine v i g).inReset = s.inReset := rfl
@[simp] theorem modLine_pending (v : WindowId) (i : Nat) (g : LineEntry → LineEntry) :
    (s.modLine v i g).pending = s.pending := rfl
@[simp] theorem modLine_win (v : WindowId) (i : Nat) (g : LineEntry → LineEntry) (u : WindowId) :
    (s.modLine v i g).win u = s.win u := rfl
@[simp] theorem modLine_role (v : WindowId) (i : Nat) (g : LineEntry → LineEntry) (r :
    Requester) (u : WindowId) : (s.modLine v i g).role r u = s.role r u := rfl
@[simp] theorem modLine_slot (v : WindowId) (i : Nat) (g : LineEntry → LineEntry) (m : SlotId) :
    (s.modLine v i g).slot m = s.slot m := rfl
@[simp] theorem modLine_entry (v : WindowId) (i : Nat) (g : LineEntry → LineEntry) (j : EntryId) :
    (s.modLine v i g).entry j = s.entry j := rfl

/-! ### `mapSegment` -/

@[simp] theorem mapSegment_windows (v : WindowId) (g : LineEntry → LineEntry) :
    (s.mapSegment v g).windows = s.windows := rfl
@[simp] theorem mapSegment_roles (v : WindowId) (g : LineEntry → LineEntry) :
    (s.mapSegment v g).roles = s.roles := rfl
@[simp] theorem mapSegment_slots (v : WindowId) (g : LineEntry → LineEntry) :
    (s.mapSegment v g).slots = s.slots := rfl
@[simp] theorem mapSegment_table (v : WindowId) (g : LineEntry → LineEntry) :
    (s.mapSegment v g).table = s.table := rfl
@[simp] theorem mapSegment_hport (v : WindowId) (g : LineEntry → LineEntry) :
    (s.mapSegment v g).hport = s.hport := rfl
@[simp] theorem mapSegment_issueQueue (v : WindowId) (g : LineEntry → LineEntry) :
    (s.mapSegment v g).issueQueue = s.issueQueue := rfl
@[simp] theorem mapSegment_notices (v : WindowId) (g : LineEntry → LineEntry) :
    (s.mapSegment v g).notices = s.notices := rfl
@[simp] theorem mapSegment_mgmt (v : WindowId) (g : LineEntry → LineEntry) :
    (s.mapSegment v g).mgmt = s.mgmt := rfl
@[simp] theorem mapSegment_settings (v : WindowId) (g : LineEntry → LineEntry) :
    (s.mapSegment v g).settings = s.settings := rfl
@[simp] theorem mapSegment_lines (v : WindowId) (g : LineEntry → LineEntry) :
    (s.mapSegment v g).lines = s.lines := rfl
@[simp] theorem mapSegment_inReset (v : WindowId) (g : LineEntry → LineEntry) :
    (s.mapSegment v g).inReset = s.inReset := rfl
@[simp] theorem mapSegment_pending (v : WindowId) (g : LineEntry → LineEntry) :
    (s.mapSegment v g).pending = s.pending := rfl
@[simp] theorem mapSegment_win (v : WindowId) (g : LineEntry → LineEntry) (u : WindowId) :
    (s.mapSegment v g).win u = s.win u := rfl
@[simp] theorem mapSegment_role (v : WindowId) (g : LineEntry → LineEntry) (r : Requester) (u :
    WindowId) : (s.mapSegment v g).role r u = s.role r u := rfl
@[simp] theorem mapSegment_slot (v : WindowId) (g : LineEntry → LineEntry) (m : SlotId) :
    (s.mapSegment v g).slot m = s.slot m := rfl
@[simp] theorem mapSegment_entry (v : WindowId) (g : LineEntry → LineEntry) (j : EntryId) :
    (s.mapSegment v g).entry j = s.entry j := rfl

/-! ### The replaced part -/

@[simp] theorem win_modWin_self (w : WindowId) (f : Window → Window) :
    (s.modWin w f).win w = f (s.win w) := by
  simp [State.win, State.modWin]

theorem win_modWin_of_ne {w v : WindowId} (h : v ≠ w) (f : Window → Window) :
    (s.modWin w f).win v = s.win v := by
  have : w.val ≠ v.val := fun e => h (Fin.ext e.symm)
  simp [State.win, State.modWin, Vector.getElem_set_ne _ _ this]

/-- The record of any window after the record of one is replaced. -/
theorem win_modWin (w v : WindowId) (f : Window → Window) :
    (s.modWin w f).win v = if v = w then f (s.win w) else s.win v := by
  by_cases h : v = w
  · subst h; simp
  · simp [h, win_modWin_of_ne]

@[simp] theorem slot_setSlot_self (n : SlotId) (k : Option SlotWork) :
    (s.setSlot n k).slot n = k := by
  simp [State.slot, State.setSlot]

theorem slot_setSlot_of_ne {n m : SlotId} (h : m ≠ n) (k : Option SlotWork) :
    (s.setSlot n k).slot m = s.slot m := by
  have : n.val ≠ m.val := fun e => h (Fin.ext e.symm)
  simp [State.slot, State.setSlot, Vector.getElem_set_ne _ _ this]

/-- The work of any slot after the work of one is replaced. -/
theorem slot_setSlot (n m : SlotId) (k : Option SlotWork) :
    (s.setSlot n k).slot m = if m = n then k else s.slot m := by
  by_cases h : m = n
  · subst h; simp
  · simp [h, slot_setSlot_of_ne]

@[simp] theorem entry_setEntry_self (i : EntryId) (e : Option InFlight) :
    (s.setEntry i e).entry i = e := by
  simp [State.entry, State.setEntry]

theorem entry_setEntry_of_ne {i j : EntryId} (h : j ≠ i) (e : Option InFlight) :
    (s.setEntry i e).entry j = s.entry j := by
  have : i.val ≠ j.val := fun e => h (Fin.ext e.symm)
  simp [State.entry, State.setEntry, Vector.getElem_set_ne _ _ this]

/-- Any entry of the in-flight table after one is replaced. -/
theorem entry_setEntry (i j : EntryId) (e : Option InFlight) :
    (s.setEntry i e).entry j = if j = i then e else s.entry j := by
  by_cases h : j = i
  · subst h; simp
  · simp [h, entry_setEntry_of_ne]

/-- While RESET_N is not asserted an event is taken. -/
@[simp] theorem whenRunning_of_running {s : State} (h : s.inReset = false) (f : State → State) :
    s.whenRunning f = f s := by
  simp [State.whenRunning, h]

/-- While RESET_N is asserted an event changes nothing. -/
@[simp] theorem whenRunning_of_reset {s : State} (h : s.inReset = true) (f : State → State) :
    s.whenRunning f = s := by
  simp [State.whenRunning, h]

/-- Two windows tables are equal when every record is. -/
theorem windows_eq_of_win {s t : State} (h : ∀ w, t.win w = s.win w) : t.windows = s.windows := by
  apply Vector.ext
  intro i hi
  exact h ⟨i, hi⟩

end Sys2Proof.Machine
end

