-- ==== Sys2Proof/Laws/Orders.lean ====
section
/-! SUPPORT. The order in which an event takes what the spec leaves unordered: every order a command
gives reaches each window, slot and agent once, and none else. -/

namespace Sys2Proof.Machine

theorem mem_firstMentions {α : Type} [DecidableEq α] {a : α} :
    ∀ {l : List α}, a ∈ firstMentions l ↔ a ∈ l
  | [] => by simp [firstMentions]
  | b :: l => by
    by_cases h : a = b
    · simp [firstMentions, h]
    · simp [firstMentions, h, mem_firstMentions (l := l)]

theorem nodup_firstMentions {α : Type} [DecidableEq α] : ∀ l : List α, (firstMentions l).Nodup
  | [] => List.nodup_nil
  | a :: l => by
    rw [firstMentions, List.nodup_cons]
    exact ⟨by simp, (nodup_firstMentions l).filter _⟩

/-- An arrangement holds the elements arranged, and none else. -/
@[simp] theorem mem_arrange {α : Type} [DecidableEq α] {named all : List α} {a : α} :
    a ∈ arrange named all ↔ a ∈ all := by
  simp only [arrange, mem_firstMentions, List.mem_append, List.mem_filter, decide_eq_true_eq]
  exact ⟨fun h => h.elim And.right id, Or.inr⟩

/-- An arrangement holds nothing twice. -/
theorem nodup_arrange {α : Type} [DecidableEq α] (named all : List α) :
    (arrange named all).Nodup := nodup_firstMentions _

/-- Every window is taken. -/
@[simp] theorem mem_windowsIn (o : Order) (w : WindowId) : w ∈ windowsIn o := by
  simp only [windowsIn, mem_arrange]
  revert w; decide

/-- No window is taken twice. -/
theorem nodup_windowsIn (o : Order) : (windowsIn o).Nodup := nodup_arrange _ _

/-- Every slot is taken. -/
@[simp] theorem mem_slotsIn (o : Order) (n : SlotId) : n ∈ slotsIn o := by
  simp only [slotsIn, mem_arrange]
  revert n; decide

/-- No slot is taken twice. -/
theorem nodup_slotsIn (o : Order) : (slotsIn o).Nodup := nodup_arrange _ _

/-- A tick reaches every window. -/
@[simp] theorem window_mem_tickAgentsIn (o : Order) (w : WindowId) :
    Agent.window w ∈ tickAgentsIn o := by
  simp only [tickAgentsIn, mem_arrange]
  revert w; decide

/-- A tick reaches the COMMITTED pulse. -/
@[simp] theorem pulse_mem_tickAgentsIn (o : Order) : Agent.pulse ∈ tickAgentsIn o := by
  simp only [tickAgentsIn, mem_arrange]
  decide

/-- A tick reaches each agent once. -/
theorem nodup_tickAgentsIn (o : Order) : (tickAgentsIn o).Nodup := nodup_arrange _ _

/-- Every window is among W0 to W7. -/
@[simp] theorem mem_allWindows (w : WindowId) : w ∈ allWindows := by revert w; decide

/-- Every slot is among slots 0 to 3. -/
@[simp] theorem mem_allSlots (n : SlotId) : n ∈ allSlots := by revert n; decide

/-! ### Events taken one after another -/

@[simp] theorem forWindows_nil (f : WindowId → State → State) (s : State) :
    s.forWindows [] f = s := rfl

@[simp] theorem forWindows_cons (w : WindowId) (ws : List WindowId)
    (f : WindowId → State → State) (s : State) :
    s.forWindows (w :: ws) f = (f w s).forWindows ws f := rfl

@[simp] theorem forSlots_nil (f : SlotId → State → State) (s : State) : s.forSlots [] f = s := rfl

@[simp] theorem forSlots_cons (n : SlotId) (ns : List SlotId)
    (f : SlotId → State → State) (s : State) :
    s.forSlots (n :: ns) f = (f n s).forSlots ns f := rfl

/-- What the event at each window keeps, the events at all of them keep. -/
theorem forWindows_keeps {P : State → Prop} {f : WindowId → State → State} :
    ∀ (ws : List WindowId), (∀ w ∈ ws, ∀ s, P s → P (f w s)) → ∀ s, P s → P (s.forWindows ws f)
  | [], _, _, hs => hs
  | w :: ws, hf, s, hs =>
    forWindows_keeps ws (fun v hv => hf v (List.mem_cons_of_mem w hv)) (f w s)
      (hf w List.mem_cons_self s hs)

/-- What the event at each slot keeps, the events at all of them keep. -/
theorem forSlots_keeps {P : State → Prop} {f : SlotId → State → State} :
    ∀ (ns : List SlotId), (∀ n ∈ ns, ∀ s, P s → P (f n s)) → ∀ s, P s → P (s.forSlots ns f)
  | [], _, _, hs => hs
  | n :: ns, hf, s, hs =>
    forSlots_keeps ns (fun v hv => hf v (List.mem_cons_of_mem n hv)) (f n s)
      (hf n List.mem_cons_self s hs)

/-- What an event taken at each of several windows does, where at each it changes that window's record
alone: the windows named are changed as the event at each changes a record with the property `P`, the
others stay, and what the event at each keeps is kept. -/
theorem forWindows_each {E : State → Prop} {P : WindowId → Window → Prop}
    {R : WindowId → Window → Window → Prop} {f : WindowId → State → State}
    (hf : ∀ w s, E s → P w (s.win w) → E (f w s) ∧ (∀ v, v ≠ w → (f w s).win v = s.win v)
      ∧ R w (s.win w) ((f w s).win w)) :
    ∀ (ws : List WindowId), ws.Nodup → ∀ s, E s → (∀ w ∈ ws, P w (s.win w)) →
      E (s.forWindows ws f) ∧ (∀ w ∈ ws, R w (s.win w) ((s.forWindows ws f).win w))
        ∧ ∀ w, w ∉ ws → (s.forWindows ws f).win w = s.win w
  | [], _, s, hs, _ => ⟨hs, fun w hw => absurd hw List.not_mem_nil, fun _ _ => rfl⟩
  | w :: ws, hn, s, hs, hp => by
    obtain ⟨hE, ho, hR⟩ := hf w s hs (hp w List.mem_cons_self)
    obtain ⟨hw, hn'⟩ := List.nodup_cons.mp hn
    have hne : ∀ {v}, v ∈ ws → v ≠ w := fun hv e => hw (e ▸ hv)
    obtain ⟨k₁, k₂, k₃⟩ := forWindows_each hf ws hn' (f w s) hE fun v hv => by
      rw [ho v (hne hv)]; exact hp v (List.mem_cons_of_mem w hv)
    rw [forWindows_cons]
    refine ⟨k₁, fun v hv => ?_, fun v hv => ?_⟩
    · rcases List.mem_cons.mp hv with rfl | hv
      · rw [k₃ v hw]; exact hR
      · rw [← ho v (hne hv)]; exact k₂ v hv
    · have hvw : v ≠ w := fun e => hv (e ▸ List.mem_cons_self)
      rw [k₃ v fun h => hv (List.mem_cons_of_mem w h), ho v hvw]

end Sys2Proof.Machine
end

