-- ==== Sys2Proof/Laws/Acceptance.lean ====
section
/-! SUPPORT. The acceptance at the end of an event: how the H-port takes its head requests, what it
never touches, and the order of kept slot requests (R57, R117, R124). -/

namespace Sys2Proof.Machine

/-! ### The head request -/

/-- With no request presented none is accepted. -/
theorem acceptHead_of_nil {s : State} (h : s.hport.channel = []) : s.acceptHead = none := by
  simp [State.acceptHead, h]

/-- A head request that can be accepted is taken off the channel and accepted. -/
theorem acceptHead_of_canAccept {s : State} {r : HRequest} {rest : List HRequest}
    (h : s.hport.channel = r :: rest) (hc : s.canAccept r = true) :
    s.acceptHead = some ((s.modHPort fun p => { p with channel := rest }).accept r) := by
  simp [State.acceptHead, h, hc]

/-- A head request that cannot be accepted stays. -/
theorem acceptHead_of_not_canAccept {s : State} {r : HRequest} {rest : List HRequest}
    (h : s.hport.channel = r :: rest) (hc : s.canAccept r = false) : s.acceptHead = none := by
  simp [State.acceptHead, h, hc]

/-- What an acceptance of the head gives, said once. -/
theorem acceptHead_eq_some {s t : State} (h : s.acceptHead = some t) :
    ∃ r rest, s.hport.channel = r :: rest ∧ s.canAccept r = true
      ∧ t = (s.modHPort fun p => { p with channel := rest }).accept r := by
  cases hch : s.hport.channel with
  | nil => simp [acceptHead_of_nil hch] at h
  | cons r rest =>
    cases hc : s.canAccept r with
    | false => simp [acceptHead_of_not_canAccept hch hc] at h
    | true =>
      rw [acceptHead_of_canAccept hch hc] at h
      exact ⟨r, rest, rfl, hc, (Option.some.inj h).symm⟩

/-- With no request presented the end of an event changes nothing more. -/
@[simp] theorem pump_of_nil {s : State} (h : s.hport.channel = []) : s.pump = s := by
  simp [State.pump, h, State.acceptHeads]

/-- A head request that cannot be accepted holds the channel (R124). -/
theorem pump_of_blocked {s : State} (h : s.acceptHead = none) : s.pump = s := by
  unfold State.pump
  cases s.hport.channel.length <;> simp [State.acceptHeads, h]

/-- While RESET_N is asserted no request is accepted (R124). -/
theorem acceptHead_of_reset {s : State} (h : s.inReset = true) : s.acceptHead = none := by
  cases hch : s.hport.channel with
  | nil => exact acceptHead_of_nil hch
  | cons r rest => exact acceptHead_of_not_canAccept hch (by simp [State.canAccept, h])

/-- What each acceptance of a head keeps, the end of an event keeps. -/
theorem pump_keeps {P : State → Prop}
    (h : ∀ s t, P s → s.acceptHead = some t → P t) {s : State} (hs : P s) : P s.pump := by
  have key : ∀ k s, P s → P (State.acceptHeads k s) := by
    intro k
    induction k with
    | zero => exact fun s hs => hs
    | succ k ih =>
      intro s hs
      cases ha : s.acceptHead with
      | none => simpa [State.acceptHeads, ha] using hs
      | some t => simpa [State.acceptHeads, ha] using ih t (h s t hs ha)
  exact key _ s hs

/-! ### What an acceptance changes -/

@[simp] theorem carryOut_channel (s : State) (r : HRequest) (d : Bool) (v : Verdict) :
    (s.carryOut r d v).hport.channel = s.hport.channel := by
  have hold : ∀ (s : State) w c, (s.eventOccurs w c).hport = s.hport := by
    intro s w c
    simp only [State.eventOccurs, State.strikeLatched, State.strikePerBoundary, State.becomeActive,
      State.cancelByHold]
    repeat' split
    all_goals simp
  cases v with
  | malformed c => simp [State.carryOut, State.answerLocally]
  | violation w c =>
    simp only [State.carryOut, State.violationEvent]
    split <;> simp [hold, State.answerLocally]
  | retry => simp [State.carryOut, State.answerLocally]
  | forward cls w a p =>
    simp only [State.carryOut]
    cases s.freeEntry with
    | none => rfl
    | some i => cases w <;> simp [State.forward]
  | firstWrite n w i =>
    simp only [State.carryOut, State.takeFirstWrite]
    have issue : ∀ (s : State) n, (s.issueSlot n).hport = s.hport := by
      intro s n
      simp only [State.issueSlot]
      repeat' split
      all_goals simp
    have wait : ∀ (s : State) n, (s.leaveWaiting n).hport = s.hport := by
      intro s n
      simp only [State.leaveWaiting, State.startPhase]
      repeat' split
      all_goals simp [issue]
    split <;> simp [issue, wait, State.allocate]

/-- An acceptance takes the head off the channel. -/
theorem acceptHead_channel {s t : State} (h : s.acceptHead = some t) :
    ∃ r, s.hport.channel = r :: t.hport.channel := by
  obtain ⟨r, rest, hch, -, rfl⟩ := acceptHead_eq_some h
  exact ⟨r, by simp [hch, State.accept, State.takePlace, HPort.setOutstanding]⟩

/-- At the end of an event the head request, if any, cannot be accepted (R124). -/
theorem acceptHead_pump (s : State) : s.pump.acceptHead = none := by
  have key : ∀ k (s : State), s.hport.channel.length ≤ k →
      (State.acceptHeads k s).acceptHead = none := by
    intro k
    induction k with
    | zero =>
      intro s hs
      exact acceptHead_of_nil (List.eq_nil_of_length_eq_zero (Nat.le_zero.mp hs))
    | succ k ih =>
      intro s hs
      cases ha : s.acceptHead with
      | none => simp [State.acceptHeads, ha]
      | some t =>
        obtain ⟨r, hr⟩ := acceptHead_channel ha
        have : t.hport.channel.length ≤ k := by
          have := congrArg List.length hr
          simp at this; omega
        simpa [State.acceptHeads, ha] using ih t this
  exact key _ s (Nat.le_refl _)

/-- A head request that can be accepted is accepted first, and the rest of the channel follows. -/
theorem pump_of_acceptHead {s t : State} (h : s.acceptHead = some t) : s.pump = t.pump := by
  obtain ⟨r, hr⟩ := acceptHead_channel h
  simp [State.pump, hr, State.acceptHeads, h]

/-- What of a window record no acceptance changes. -/
def Window.steady (x : Window) : Geometry × Policy × Half × Bool × Bool :=
  (x.geometry, x.policy, x.generation, x.parity, x.copyRequest)

/-- What no acceptance changes: every part but the windows, the line map, the slots, the table, the
H-port, the issue queue and the notices, and of the windows the steady fields (R24). -/
structure Steady where
  roles    : Vector (Vector Role 8) 16
  mgmt     : MgmtPort
  settings : Settings
  lines    : LineInterface
  inReset  : Bool
  pending  : List Instr
  windows  : WindowId → Geometry × Policy × Half × Bool × Bool

/-- The steady part of a state. -/
def State.steady (s : State) : Steady :=
  { roles := s.roles, mgmt := s.mgmt, settings := s.settings, lines := s.lines
    inReset := s.inReset, pending := s.pending, windows := fun w => (s.win w).steady }

/-- A change of one window's record that keeps its steady fields. -/
theorem steady_modWin (s : State) (w : WindowId) {f : Window → Window}
    (h : ∀ x, (f x).steady = x.steady) : (s.modWin w f).steady = s.steady := by
  have hw : (fun v => ((s.modWin w f).win v).steady) = fun v => (s.win v).steady := by
    funext v
    rw [win_modWin]
    split
    · next e => rw [h, e]
    · rfl
  simp only [State.steady, hw]; rfl

@[simp] theorem steady_setLineMap (s : State) (m : LineMap) : (s.setLineMap m).steady =
    s.steady := rfl
@[simp] theorem steady_setSlot (s : State) (n : SlotId) (k : Option SlotWork) :
    (s.setSlot n k).steady = s.steady := rfl
@[simp] theorem steady_setEntry (s : State) (i : EntryId) (e : Option InFlight) :
    (s.setEntry i e).steady = s.steady := rfl
@[simp] theorem steady_modHPort (s : State) (f : HPort → HPort) : (s.modHPort f).steady =
    s.steady := rfl
@[simp] theorem steady_issue (s : State) (op : MOp) : (s.issue op).steady = s.steady := rfl
@[simp] theorem steady_raise (s : State) (n : Notice) : (s.raise n).steady = s.steady := rfl
@[simp] theorem steady_respond (s : State) (r : HResponse) : (s.respond r).steady = s.steady := rfl
@[simp] theorem steady_modLine (s : State) (w : WindowId) (i : Nat) (f : LineEntry → LineEntry) :
    (s.modLine w i f).steady = s.steady := rfl
@[simp] theorem steady_answerLocally (s : State) (r : HRequest) (st : Status) (d : Bool) :
    (s.answerLocally r st d).steady = s.steady := rfl
@[simp] theorem steady_takePlace (s : State) (r : HRequest) : (s.takePlace r).steady = s.steady := rfl

theorem steady_becomeActive (s : State) (w : WindowId) (c : HoldSource) :
    (s.becomeActive w c).steady = s.steady := by
  have h₁ : (s.modWin w fun x => { x with holdStatus := .active }).steady = s.steady :=
    steady_modWin s w fun _ => rfl
  unfold State.becomeActive State.cancelByHold
  dsimp only
  split
  · rw [steady_raise, steady_modWin, steady_raise, h₁]
    intro x; rfl
  · rw [steady_raise, h₁]

theorem steady_eventOccurs (s : State) (w : WindowId) (c : HoldSource) :
    (s.eventOccurs w c).steady = s.steady := by
  have h₁ : (s.modWin w fun x => { x with holdAck := false }).steady = s.steady :=
    steady_modWin s w fun _ => rfl
  have h₂ : (s.modWin w fun x => { x with eventSince := true }).steady = s.steady :=
    steady_modWin s w fun _ => rfl
  unfold State.eventOccurs State.strikeLatched State.strikePerBoundary
  dsimp only
  split <;> split <;> simp only [steady_becomeActive, h₁, h₂]

theorem steady_issueSlot (s : State) (n : SlotId) : (s.issueSlot n).steady = s.steady := by
  unfold State.issueSlot
  repeat' split
  all_goals rfl

theorem steady_leaveWaiting (s : State) (n : SlotId) : (s.leaveWaiting n).steady = s.steady := by
  unfold State.leaveWaiting State.startPhase
  repeat' split
  all_goals simp [steady_issueSlot]

theorem steady_allocate (s : State) (n : SlotId) (k : SlotWork) :
    (s.allocate n k).steady = s.steady := by
  unfold State.allocate
  rw [steady_modWin, steady_setSlot]
  intro x; rfl

theorem steady_takeFirstWrite (s : State) (n : SlotId) (w : WindowId) (i : Nat) (h : HeldWrite) :
    (s.takeFirstWrite n w i h).steady = s.steady := by
  unfold State.takeFirstWrite
  dsimp only
  split <;> simp only [steady_leaveWaiting, steady_issueSlot, steady_allocate, steady_modLine]

theorem steady_countForward (x : Window) (cls : TrackerClass) (p : Option Bool) :
    (x.countForward cls p).steady = x.steady := by
  cases p with
  | none => rfl
  | some p => cases p <;> rfl

theorem steady_forward (s : State) (r : HRequest) (i : EntryId) (cls : TrackerClass)
    (w : Option WindowId) (a : Addr) (p : Option Bool) :
    (s.forward r i cls w a p).steady = s.steady := by
  unfold State.forward
  cases w with
  | none => rfl
  | some w =>
    dsimp only
    rw [steady_modWin _ _ fun x => steady_countForward x cls p]; rfl

theorem steady_carryOut (s : State) (r : HRequest) (d : Bool) (v : Verdict) :
    (s.carryOut r d v).steady = s.steady := by
  cases v with
  | malformed c => rfl
  | violation w c =>
    simp only [State.carryOut, State.violationEvent]
    split <;> simp [steady_eventOccurs]
  | retry => rfl
  | forward cls w a p =>
    simp only [State.carryOut]
    split
    · rfl
    · rw [steady_forward]
  | firstWrite n w i => exact steady_takeFirstWrite s n w i _

/-- An acceptance of a head keeps what every acceptance keeps. -/
theorem steady_acceptHead {s t : State} (h : s.acceptHead = some t) : t.steady = s.steady := by
  obtain ⟨r, rest, -, -, rfl⟩ := acceptHead_eq_some h
  rw [State.accept, steady_carryOut, steady_takePlace, steady_modHPort]

/-- The acceptances at the end of an event keep what every acceptance keeps. -/
theorem steady_pump (s : State) : s.pump.steady = s.steady :=
  pump_keeps (P := fun t => t.steady = s.steady) (fun _ _ hs h => (steady_acceptHead h).trans hs) rfl

/-- The same steady part, field by field. -/
theorem steady_eq {s t : State} (h : t.steady = s.steady) :
    t.roles = s.roles ∧ t.mgmt = s.mgmt ∧ t.settings = s.settings ∧ t.lines = s.lines
      ∧ t.inReset = s.inReset ∧ t.pending = s.pending
      ∧ ∀ w, (t.win w).geometry = (s.win w).geometry ∧ (t.win w).policy = (s.win w).policy
        ∧ (t.win w).generation = (s.win w).generation ∧ (t.win w).parity = (s.win w).parity
        ∧ (t.win w).copyRequest = (s.win w).copyRequest := by
  refine ⟨congrArg Steady.roles h, congrArg Steady.mgmt h, congrArg Steady.settings h,
    congrArg Steady.lines h, congrArg Steady.inReset h, congrArg Steady.pending h, fun w => ?_⟩
  have hw := congrFun (congrArg Steady.windows h) w
  simp only [State.steady, Window.steady, Prod.mk.injEq] at hw
  exact hw

/-! ### Kept slot requests -/

/-- A window without a kept slot request is not served. -/
theorem serveCopy_of_none {s : State} {w : WindowId} (h : (s.win w).copyRequest = false) :
    s.serveCopy w = s := by
  simp [State.serveCopy, h]

/-- Where no window keeps a slot request, the end of an event is the H-port's examination of its
head alone, whatever order the command gives. -/
theorem arbitrate_of_none {s : State} (h : ∀ w, (s.win w).copyRequest = false) (o : Order) :
    s.arbitrate o = s.pump := by
  have tail : ∀ (ws : List WindowId) (s : State), (∀ w, (s.win w).copyRequest = false) →
      (s.forWindows ws fun w t => t.serveCopy w) = s := by
    intro ws
    induction ws with
    | nil => exact fun s _ => rfl
    | cons w ws ih =>
      intro s hs
      rw [forWindows_cons, serveCopy_of_none (hs w)]
      exact ih s hs
  have turns : ∀ (o : Order) (s : State), (∀ w, (s.win w).copyRequest = false) →
      (∀ w, ((o.foldl State.turn s).win w).copyRequest = false)
        ∧ (o.foldl State.turn s).pump = s.pump := by
    intro o
    induction o with
    | nil => exact fun s hs => ⟨hs, rfl⟩
    | cons a o ih =>
      intro s hs
      have step : (∀ w, ((s.turn a).win w).copyRequest = false) ∧ (s.turn a).pump = s.pump := by
        cases a with
        | window w => simpa [State.turn, serveCopy_of_none (hs w)] using hs
        | slot n => exact ⟨hs, rfl⟩
        | pulse => exact ⟨hs, rfl⟩
        | edge l w => exact ⟨hs, rfl⟩
        | steering =>
          cases ha : s.acceptHead with
          | none => simpa [State.turn, ha] using hs
          | some t =>
            simp only [State.turn, ha, Option.getD_some]
            exact ⟨fun w => by
              rw [((steady_eq (steady_acceptHead ha)).2.2.2.2.2.2 w).2.2.2.2]; exact hs w,
              (pump_of_acceptHead ha).symm⟩
      obtain ⟨h₁, h₂⟩ := ih (s.turn a) step.1
      exact ⟨h₁, h₂.trans step.2⟩
  obtain ⟨h₁, h₂⟩ := turns o s h
  rw [State.arbitrate, tail _ _ h₁, h₂]

end Sys2Proof.Machine
end

