-- ==== Sys2Proof/Laws/LineMap.lean ====
section
/-! SUPPORT. The line map store: what an entry reads after a write or a change of a range, and that
every operation keeps the canonical form. -/

namespace Sys2Proof.Machine

/-! ### Lists of cells -/

/-- Every cell of a list in canonical form from `lo` on is numbered from `lo` on. -/
theorem le_of_cellsWf {lo k : Nat} {e : LineEntry} :
    ∀ {l : List (Nat × LineEntry)}, cellsWf lo l = true → (k, e) ∈ l → lo ≤ k
  | (j, x) :: l, h, hm => by
    simp only [cellsWf, Bool.and_eq_true, decide_eq_true_eq] at h
    obtain ⟨⟨⟨hlo, -⟩, -⟩, ht⟩ := h
    rcases List.mem_cons.mp hm with hm | hm
    · cases hm; exact hlo
    · exact Nat.le_of_succ_le (Nat.le_trans (Nat.succ_le_succ hlo) (le_of_cellsWf ht hm))

/-- A list in canonical form from a number on is so from any smaller number on. -/
theorem cellsWf_mono {lo lo' : Nat} (hle : lo' ≤ lo) {l : List (Nat × LineEntry)}
    (h : cellsWf lo l = true) : cellsWf lo' l = true := by
  cases l with
  | nil => rfl
  | cons c l =>
    simp only [cellsWf, Bool.and_eq_true, decide_eq_true_eq] at h ⊢
    exact ⟨⟨⟨Nat.le_trans hle h.1.1.1, h.1.1.2⟩, h.1.2⟩, h.2⟩

/-- An entry below every cell of a list in canonical form reads as the reset entry. -/
theorem entryIn_of_lt {lo i : Nat} (hi : i < lo) :
    ∀ {l : List (Nat × LineEntry)}, cellsWf lo l = true → entryIn l i = LineEntry.reset
  | [], _ => rfl
  | (k, x) :: l, h => by
    simp only [cellsWf, Bool.and_eq_true, decide_eq_true_eq] at h
    have hne : k ≠ i := by omega
    simp only [entryIn, hne, if_false]
    exact entryIn_of_lt (Nat.lt_succ_of_lt (Nat.lt_of_lt_of_le hi h.1.1.1)) h.2

/-- What an entry reads once a cell is put before a list that has no smaller cell. -/
theorem entryIn_putCell {i j lo : Nat} {e : LineEntry} {l : List (Nat × LineEntry)}
    (hl : cellsWf lo l = true) (hi : i < lo) :
    entryIn (putCell i e l) j = if j = i then e else entryIn l j := by
  by_cases he : e = LineEntry.reset
  · by_cases hj : j = i
    · subst hj; simp [putCell, he, entryIn_of_lt hi hl]
    · simp [putCell, he, hj]
  · by_cases hj : j = i
    · subst hj; simp [putCell, he, entryIn]
    · have : i ≠ j := fun h => hj h.symm
      simp [putCell, he, entryIn, hj, this]

/-- A cell put before a list that has no smaller cell leaves the list in canonical form. -/
theorem cellsWf_putCell {i lo lo' : Nat} {e : LineEntry} {l : List (Nat × LineEntry)}
    (hl : cellsWf lo l = true) (hi : i < lo) (hlo : lo' ≤ i) (hb : i < Config.lineEntries) :
    cellsWf lo' (putCell i e l) = true := by
  by_cases he : e = LineEntry.reset
  · simpa [putCell, he] using cellsWf_mono (by omega) hl
  · simp only [putCell, he, if_false, cellsWf, Bool.and_eq_true, decide_eq_true_eq]
    exact ⟨⟨⟨hlo, hb⟩, he⟩, cellsWf_mono hi hl⟩

/-- A write into the cells keeps their canonical form. -/
theorem cellsWf_writeIn {i : Nat} {e : LineEntry} (hb : i < Config.lineEntries) :
    ∀ {lo : Nat} {l : List (Nat × LineEntry)}, cellsWf lo l = true → lo ≤ i →
      cellsWf lo (writeIn l i e) = true
  | lo, [], _, hlo =>
    cellsWf_putCell (lo := i + 1) (l := []) rfl (Nat.lt_succ_self i) hlo hb
  | lo, (k, x) :: l, h, hlo => by
    have h' := h
    simp only [cellsWf, Bool.and_eq_true, decide_eq_true_eq] at h'
    obtain ⟨⟨⟨hk, hkb⟩, hx⟩, ht⟩ := h'
    by_cases h1 : k < i
    · simp only [writeIn, h1, if_true, cellsWf, Bool.and_eq_true, decide_eq_true_eq]
      exact ⟨⟨⟨hk, hkb⟩, hx⟩, cellsWf_writeIn hb ht h1⟩
    · by_cases h2 : k = i
      · subst h2
        simpa [writeIn] using cellsWf_putCell ht (Nat.lt_succ_self k) hlo hb
      · simp only [writeIn, h1, h2, if_false]
        refine cellsWf_putCell (lo := k) ?_ (by omega) hlo hb
        simp only [cellsWf, Bool.and_eq_true, decide_eq_true_eq]
        exact ⟨⟨⟨Nat.le_refl k, hkb⟩, hx⟩, ht⟩

/-- What an entry reads after a write into cells in canonical form. -/
theorem entryIn_writeIn {i j : Nat} {e : LineEntry} :
    ∀ {lo : Nat} {l : List (Nat × LineEntry)}, cellsWf lo l = true →
      entryIn (writeIn l i e) j = if j = i then e else entryIn l j
  | _, [], _ => entryIn_putCell (lo := i + 1) (l := []) rfl (Nat.lt_succ_self i)
  | lo, (k, x) :: l, h => by
    have h' := h
    simp only [cellsWf, Bool.and_eq_true, decide_eq_true_eq] at h'
    obtain ⟨⟨⟨hk, hkb⟩, hx⟩, ht⟩ := h'
    by_cases h1 : k < i
    · by_cases hj : k = j
      · subst hj
        have : k ≠ i := Nat.ne_of_lt h1
        simp [writeIn, h1, entryIn, this]
      · simp only [writeIn, h1, if_true, entryIn, hj, if_false]
        exact entryIn_writeIn ht
    · by_cases h2 : k = i
      · subst h2
        simp only [writeIn, Nat.lt_irrefl, if_false, if_true]
        rw [entryIn_putCell ht (Nat.lt_succ_self k)]
        by_cases hj : j = k
        · simp [hj]
        · have : k ≠ j := fun h => hj h.symm
          simp [hj, entryIn, this]
      · simp only [writeIn, h1, h2, if_false]
        refine entryIn_putCell (lo := k) ?_ (by omega)
        simp only [cellsWf, Bool.and_eq_true, decide_eq_true_eq]
        exact ⟨⟨⟨Nat.le_refl k, hkb⟩, hx⟩, ht⟩

/-! ### The store -/

/-- A write keeps the canonical form of the store. -/
theorem LineMap.wf_write {m : LineMap} (h : m.wf = true) (i : Nat) (e : LineEntry) :
    (m.write i e).wf = true := by
  by_cases hi : i < Config.lineEntries
  · simpa [LineMap.write, hi, LineMap.wf] using cellsWf_writeIn hi h (Nat.zero_le i)
  · simpa [LineMap.write, hi] using h

/-- An entry after a write: the written one, or as before. -/
theorem LineMap.entry_write {m : LineMap} (h : m.wf = true) {i : Nat} (hi : i < Config.lineEntries)
    (j : Nat) (e : LineEntry) : (m.write i e).entry j = if j = i then e else m.entry j := by
  simpa [LineMap.write, hi, LineMap.entry] using entryIn_writeIn h

/-- A write past the store changes nothing (R36). -/
theorem LineMap.write_past (m : LineMap) {i : Nat} (hi : Config.lineEntries ≤ i) (e : LineEntry) :
    m.write i e = m := by
  simp [LineMap.write, Nat.not_lt.mpr hi]

/-- The change of one cell by a change of a range. -/
def rangeEntry (lo n : Nat) (f : LineEntry → LineEntry) (c : Nat × LineEntry) : LineEntry :=
  if lo ≤ c.1 ∧ c.1 < lo + n then f c.2 else c.2

/-- The cells left by a change of a range. -/
def rangeCells (lo n : Nat) (f : LineEntry → LineEntry) (l : List (Nat × LineEntry)) :
    List (Nat × LineEntry) :=
  l.filterMap fun c =>
    if rangeEntry lo n f c = LineEntry.reset then none else some (c.1, rangeEntry lo n f c)

theorem LineMap.mapRange_cells (m : LineMap) (lo n : Nat) (f : LineEntry → LineEntry) :
    (m.mapRange lo n f).cells = rangeCells lo n f m.cells := rfl

/-- One more cell in front of a change of a range. -/
theorem rangeCells_cons (lo n : Nat) (f : LineEntry → LineEntry) (c : Nat × LineEntry)
    (l : List (Nat × LineEntry)) :
    rangeCells lo n f (c :: l) = putCell c.1 (rangeEntry lo n f c) (rangeCells lo n f l) := by
  by_cases h : rangeEntry lo n f c = LineEntry.reset <;> simp [rangeCells, putCell, h]

/-- A change of a range keeps the cells' canonical form. -/
theorem cellsWf_rangeCells (lo n : Nat) (f : LineEntry → LineEntry) :
    ∀ {b : Nat} {l : List (Nat × LineEntry)}, cellsWf b l = true →
      cellsWf b (rangeCells lo n f l) = true
  | _, [], _ => rfl
  | b, (k, x) :: l, h => by
    simp only [cellsWf, Bool.and_eq_true, decide_eq_true_eq] at h
    rw [rangeCells_cons]
    exact cellsWf_putCell (cellsWf_rangeCells lo n f h.2) (Nat.lt_succ_self k) h.1.1.1 h.1.1.2

/-- What an entry reads after a change of a range by an `f` that keeps the reset entry. -/
theorem entryIn_rangeCells {lo n : Nat} {f : LineEntry → LineEntry}
    (hf : f LineEntry.reset = LineEntry.reset) {j : Nat} :
    ∀ {b : Nat} {l : List (Nat × LineEntry)}, cellsWf b l = true →
      entryIn (rangeCells lo n f l) j =
        if lo ≤ j ∧ j < lo + n then f (entryIn l j) else entryIn l j
  | _, [], _ => by simp [rangeCells, entryIn, hf]
  | b, (k, x) :: l, h => by
    simp only [cellsWf, Bool.and_eq_true, decide_eq_true_eq] at h
    rw [rangeCells_cons, entryIn_putCell (cellsWf_rangeCells lo n f h.2) (Nat.lt_succ_self k),
      entryIn_rangeCells hf h.2]
    by_cases hj : j = k
    · subst hj; simp [rangeEntry, entryIn]
    · have : k ≠ j := fun e => hj e.symm
      simp [hj, entryIn, this]

/-- A change of a range keeps the canonical form of the store. -/
theorem LineMap.wf_mapRange {m : LineMap} (h : m.wf = true) (lo n : Nat)
    (f : LineEntry → LineEntry) : (m.mapRange lo n f).wf = true := by
  unfold LineMap.wf
  rw [LineMap.mapRange_cells]
  exact cellsWf_rangeCells lo n f h

/-- An entry after a change of a range by an `f` that keeps the reset entry. -/
theorem LineMap.entry_mapRange {m : LineMap} (h : m.wf = true) (lo n : Nat)
    {f : LineEntry → LineEntry} (hf : f LineEntry.reset = LineEntry.reset) (j : Nat) :
    (m.mapRange lo n f).entry j =
      if lo ≤ j ∧ j < lo + n then f (m.entry j) else m.entry j := by
  unfold LineMap.entry
  rw [LineMap.mapRange_cells]
  exact entryIn_rangeCells hf h

/-- Every entry of the empty store reads as the reset entry. -/
@[simp] theorem LineMap.entry_empty (i : Nat) : (LineMap.mk []).entry i = LineEntry.reset := rfl

/-- The store after RESET_N has the canonical form. -/
theorem reset_lineMap_wf : State.reset.lineMap.wf = true := rfl

/-- The entries past the store read as the reset entry. -/
theorem LineMap.entry_past {m : LineMap} (h : m.wf = true) {i : Nat}
    (hi : Config.lineEntries ≤ i) : m.entry i = LineEntry.reset := by
  have key : ∀ {b : Nat} {l : List (Nat × LineEntry)}, cellsWf b l = true →
      entryIn l i = LineEntry.reset := by
    intro b l
    induction l generalizing b with
    | nil => intro _; rfl
    | cons c l ih =>
      intro hw
      simp only [cellsWf, Bool.and_eq_true, decide_eq_true_eq] at hw
      have : c.1 ≠ i := by omega
      simp only [entryIn, this, if_false]
      exact ih hw.2
  exact key h

/-! ### The changes to an entry -/

@[simp] theorem flipped_reset : LineEntry.reset.flipped = LineEntry.reset := rfl

@[simp] theorem unpended_reset : LineEntry.reset.unpended = LineEntry.reset := rfl

@[simp] theorem flipped_pending (e : LineEntry) : e.flipped.pending = false := by
  cases h : e.pending <;> simp [LineEntry.flipped, h]

@[simp] theorem flipped_filling (e : LineEntry) : e.flipped.filling = e.filling := by
  cases h : e.pending <;> simp [LineEntry.flipped, h]

/-- A flipped entry has nothing more to flip. -/
@[simp] theorem flipped_flipped (e : LineEntry) : e.flipped.flipped = e.flipped := by
  cases h : e.pending <;> simp [LineEntry.flipped, h]

/-- The flip of a pending entry publishes its working bank (R86). -/
theorem flipped_of_pending {e : LineEntry} (h : e.pending = true) :
    e.flipped.published = e.working := by
  simp [LineEntry.flipped, h]

/-- The flip keeps an entry that is not pending (R86). -/
theorem flipped_of_not_pending {e : LineEntry} (h : e.pending = false) : e.flipped = e := by
  simp [LineEntry.flipped, h]

end Sys2Proof.Machine
end

