-- ==== Sys2Proof/Laws/Effects.lean ====
section
/-! SUPPORT. What the shared operations on a window do, each said once in the words of Safety: the hold
logic, the settles, the segment. -/

namespace Sys2Proof.Machine

/-! ### What is left alone -/

theorem Only.refl (ps : List Part) (s : State) : Only ps s s := fun p _ => by cases p <;> rfl

theorem Part.Same.trans {p : Part} {s t u : State} (h : p.Same s t) (k : p.Same t u) :
    p.Same s u := by
  cases p <;> exact Eq.trans k h

theorem Only.trans {ps : List Part} {s t u : State} (h : Only ps s t) (k : Only ps t u) :
    Only ps s u := fun p hp => (h p hp).trans (k p hp)

theorem Only.mono {ps qs : List Part} {s t : State} (h : Only ps s t) (hs : ∀ p ∈ ps, p ∈ qs) :
    Only qs s t := fun p hp => h p fun hm => hp (hs p hm)

theorem only_modWin (s : State) (w : WindowId) (f : Window → Window) :
    Only [.windows] s (s.modWin w f) := by
  intro p hp; cases p <;> first | rfl | simp at hp

theorem only_setSlot (s : State) (n : SlotId) (k : Option SlotWork) :
    Only [.slots] s (s.setSlot n k) := by
  intro p hp; cases p <;> first | rfl | simp at hp

theorem only_setEntry (s : State) (i : EntryId) (e : Option InFlight) :
    Only [.table] s (s.setEntry i e) := by
  intro p hp; cases p <;> first | rfl | simp at hp

theorem only_setLineMap (s : State) (m : LineMap) : Only [.lineMap] s (s.setLineMap m) := by
  intro p hp; cases p <;> first | rfl | simp at hp

theorem only_mapSegment (s : State) (w : WindowId) (f : LineEntry → LineEntry) :
    Only [.lineMap] s (s.mapSegment w f) := only_setLineMap s _

theorem only_modLine (s : State) (w : WindowId) (i : Nat) (f : LineEntry → LineEntry) :
    Only [.lineMap] s (s.modLine w i f) := only_setLineMap s _

theorem only_modHPort (s : State) (f : HPort → HPort) : Only [.hport] s (s.modHPort f) := by
  intro p hp; cases p <;> first | rfl | simp at hp

theorem only_respond (s : State) (r : HResponse) : Only [.hport] s (s.respond r) := only_modHPort s _

theorem only_issue (s : State) (op : MOp) : Only [.issueQueue] s (s.issue op) := by
  intro p hp; cases p <;> first | rfl | simp at hp

theorem only_raise (s : State) (n : Notice) : Only [.notices] s (s.raise n) := by
  intro p hp; cases p <;> first | rfl | simp at hp

theorem only_modLines (s : State) (f : LineInterface → LineInterface) :
    Only [.lines] s (s.modLines f) := by
  intro p hp; cases p <;> first | rfl | simp at hp

theorem win_eq_of_windows {s t : State} (h : t.windows = s.windows) (w : WindowId) :
    t.win w = s.win w := by simp [State.win, h]

theorem WindowBecomes.modWin (s : State) (w : WindowId) (f : Window → Window) :
    WindowBecomes s (s.modWin w f) w (f (s.win w)) :=
  ⟨by simp, fun _ hv => win_modWin_of_ne s hv f⟩

/-- A change that follows a change of the same window. -/
theorem WindowBecomes.trans {s t u : State} {w : WindowId} {x y : Window}
    (h : WindowBecomes s t w x) (k : WindowBecomes t u w y) : WindowBecomes s u w y :=
  ⟨k.1, fun v hv => (k.2 v hv).trans (h.2 v hv)⟩

/-- A change that leaves the windows table alone. -/
theorem WindowBecomes.of_windows {s t u : State} {w : WindowId} {x : Window}
    (h : WindowBecomes s t w x) (k : u.windows = t.windows) : WindowBecomes s u w x :=
  ⟨(win_eq_of_windows k w).trans h.1, fun v hv => (win_eq_of_windows k v).trans (h.2 v hv)⟩

/-! ### Conditions -/

@[simp] theorem isLiveOrSettling_iff (x : Window) :
    x.state.isLiveOrSettling = true ↔ x.Running := by
  simp [WindowState.isLiveOrSettling, Window.Running]

@[simp] theorem settlingCommit_iff (x : Window) : x.settlingCommit = true ↔ x.Committing := by
  simp [Window.settlingCommit, Window.Committing]

@[simp] theorem settlingDiscard_iff (x : Window) : x.settlingDiscard = true ↔ x.Discarding := by
  simp [Window.settlingDiscard, Window.Discarding]

@[simp] theorem drained_iff (x : Window) : x.drained = true ↔ x.Drained := by
  simp [Window.drained, Window.Drained, and_assoc]

/-- The prompt rule's test of a window that is LIVE (R81). -/
theorem promptReady_iff (x : Window) : x.promptReady = true ↔ x.state = .live ∧ x.Prompted := by
  simp [Window.promptReady, Window.Prompted]; tauto

/-- A settle has one kind (R6). -/
theorem not_committing_of_discarding {x : Window} (h : x.Discarding) : ¬x.Committing := by
  rintro ⟨-, hc⟩
  rw [h.2] at hc
  cases hc

/-! ### The store -/

/-- The store is sound where its cells are in canonical form and none is both pending and filling. -/
theorem mapSound_of_cells {s : State} (h : s.lineMap.wf = true)
    (hc : ∀ c ∈ s.lineMap.cells, ¬(c.2.pending = true ∧ c.2.filling = true)) : s.MapSound := by
  refine ⟨h, fun i => ?_⟩
  have key : ∀ l : List (Nat × LineEntry), (∀ c ∈ l, ¬(c.2.pending = true ∧ c.2.filling = true)) →
      ¬((entryIn l i).pending = true ∧ (entryIn l i).filling = true) := by
    intro l
    induction l with
    | nil => intro _ hp; cases hp.1
    | cons c l ih =>
      intro hl
      simp only [entryIn]
      split
      · exact hl c List.mem_cons_self
      · exact ih fun d hd => hl d (List.mem_cons_of_mem c hd)
  exact key _ hc

/-! ### The segment -/

/-- A change of the whole segment, for an `f` that keeps the reset entry. -/
theorem segmentBecomes_mapSegment {s : State} (h : s.lineMap.wf = true) (w : WindowId)
    {f : LineEntry → LineEntry} (hf : f LineEntry.reset = LineEntry.reset) :
    SegmentBecomes s (s.mapSegment w f) w f := by
  have hm := LineMap.entry_mapRange h (s.win w).geometry.mapOffset.toNat
    (s.win w).geometry.lineCount.toNat hf
  constructor
  · intro i hi
    show (s.lineMap.mapRange _ _ f).entry _ = _
    rw [hm, if_pos]
    · rfl
    · simp only [Geometry.entryIndex]; omega
  · intro j hj
    show (s.lineMap.mapRange _ _ f).entry _ = _
    rw [hm, if_neg]
    rintro ⟨h₁, h₂⟩
    exact hj (j - (s.win w).geometry.mapOffset.toNat) (by omega)
      (by simp only [Geometry.entryIndex]; omega)

theorem SegmentBecomes.of_lineMap {s t u : State} {w : WindowId} {f : LineEntry → LineEntry}
    (h : SegmentBecomes s t w f) (k : u.lineMap = t.lineMap) : SegmentBecomes s u w f := by
  unfold SegmentBecomes at h ⊢
  rw [k]; exact h

/-- One change of the whole segment after another. -/
theorem SegmentBecomes.trans {s t u : State} {w : WindowId} {f g : LineEntry → LineEntry}
    (h : SegmentBecomes s t w f) (hg : (t.win w).geometry = (s.win w).geometry)
    (k : SegmentBecomes t u w g) : SegmentBecomes s u w fun e => g (f e) := by
  unfold SegmentBecomes at h k ⊢
  rw [hg] at k
  refine ⟨fun i hi => ?_, fun j hj => (k.2 j hj).trans (h.2 j hj)⟩
  rw [k.1 i hi]
  show g (t.lineMap.entry ((t.win w).geometry.entryIndex i)) = _
  rw [hg, h.1 i hi]

/-- A change of one line's entry. -/
theorem lineBecomes_modLine {s : State} (h : s.lineMap.wf = true) {w : WindowId} {i : Nat}
    (hi : (s.win w).geometry.entryIndex i < 8192) (f : LineEntry → LineEntry) :
    LineBecomes s (s.modLine w i f) w i (f (s.lineEntry w i)) := by
  have hm := fun j => LineMap.entry_write h hi j (f (s.lineEntry w i))
  constructor
  · show (s.lineMap.write _ _).entry _ = _
    rw [hm, if_pos rfl]
  · intro j hj
    show (s.lineMap.write _ _).entry _ = _
    rw [hm, if_neg hj]

theorem LineBecomes.of_lineMap {s t u : State} {w : WindowId} {i : Nat} {e : LineEntry}
    (h : LineBecomes s t w i e) (k : u.lineMap = t.lineMap) : LineBecomes s u w i e := by
  unfold LineBecomes at h ⊢
  rw [k]; exact h

/-! ### One window's record and the notices of an event -/

/-- The state with window `w`'s record replaced by `x`, and the notices `l` raised one after another. -/
def State.patched (s : State) (w : WindowId) (x : Window) (l : List Notice) : State :=
  (s.modWin w fun _ => x).modNotices (·.offerAll l)

@[simp] theorem patched_win_self (s : State) (w : WindowId) (x : Window) (l : List Notice) :
    (s.patched w x l).win w = x := by simp [State.patched]

theorem patched_win_of_ne (s : State) {w v : WindowId} (h : v ≠ w) (x : Window) (l : List Notice) :
    (s.patched w x l).win v = s.win v := by simp [State.patched, win_modWin_of_ne s h]

@[simp] theorem patched_notices (s : State) (w : WindowId) (x : Window) (l : List Notice) :
    (s.patched w x l).notices = s.notices.offerAll l := rfl

theorem only_patched (s : State) (w : WindowId) (x : Window) (l : List Notice) :
    Only [.windows, .notices] s (s.patched w x l) := by
  intro p hp; cases p <;> first | rfl | simp at hp

/-- With no notice raised the windows alone change. -/
theorem only_patched_nil (s : State) (w : WindowId) (x : Window) :
    Only [.windows] s (s.patched w x []) := by
  intro p hp; cases p <;> first | rfl | simp at hp

theorem windowBecomes_patched (s : State) (w : WindowId) (x : Window) (l : List Notice) :
    WindowBecomes s (s.patched w x l) w x := ⟨by simp, fun _ hv => patched_win_of_ne s hv x l⟩

theorem modWin_eq_patched (s : State) (w : WindowId) (f : Window → Window) :
    s.modWin w f = s.patched w (f (s.win w)) [] := rfl

theorem modWin_modWin (s : State) (w : WindowId) (f g : Window → Window) :
    (s.modWin w f).modWin w g = s.modWin w fun x => g (f x) := by
  simp [State.modWin, Vector.set_set]

@[simp] theorem patched_modWin (s : State) (w : WindowId) (x : Window) (l : List Notice)
    (f : Window → Window) : (s.patched w x l).modWin w f = s.patched w (f x) l := by
  have h : (s.patched w x l).modWin w f =
      ((s.modWin w fun _ => x).modWin w f).modNotices (·.offerAll l) := rfl
  rw [h, modWin_modWin]; rfl

@[simp] theorem patched_raise (s : State) (w : WindowId) (x : Window) (l : List Notice) (n : Notice) :
    (s.patched w x l).raise n = s.patched w x (l ++ [n]) := by
  simp [State.patched, State.raise, State.modNotices, NoticeQueue.offerAll]

theorem raise_eq_patched (s : State) (w : WindowId) (n : Notice) :
    s.raise n = s.patched w (s.win w) [n] := by
  simp [State.patched, State.raise, State.modNotices, NoticeQueue.offerAll, State.modWin, State.win]

theorem patched_self (s : State) (w : WindowId) : s.patched w (s.win w) [] = s := by
  simp [State.patched, State.modNotices, NoticeQueue.offerAll, State.modWin, State.win]

/-- One patch after another of the same window. -/
theorem patched_patched (s : State) (w : WindowId) (x y : Window) (l m : List Notice) :
    (s.patched w x l).patched w y m = s.patched w y (l ++ m) := by
  have h : (s.patched w x l).patched w y m =
      ((s.patched w x l).modWin w fun _ => y).modNotices (·.offerAll m) := rfl
  rw [h, patched_modWin]
  simp [State.patched, State.modNotices, NoticeQueue.offerAll]

/-! ### The hold logic -/

/-- The level sources of a window depend on its policy, its manual hold, the sampled levels and the
settings alone (R96, R140). -/
theorem levelAsserted_congr {s t : State} {w : WindowId} (h₁ : t.lines.levels = s.lines.levels)
    (h₂ : t.settings = s.settings) (h₃ : (t.win w).policy = (s.win w).policy)
    (h₄ : (t.win w).manualHold = (s.win w).manualHold) : t.levelAsserted w = s.levelAsserted w := by
  unfold State.levelAsserted lineAsserted; rw [h₁, h₂, h₃, h₄]

theorem firstLevelSource_congr {s t : State} {w : WindowId} (h₁ : t.lines.levels = s.lines.levels)
    (h₂ : t.settings = s.settings) (h₃ : (t.win w).policy = (s.win w).policy)
    (h₄ : (t.win w).manualHold = (s.win w).manualHold) :
    t.firstLevelSource w = s.firstLevelSource w := by
  unfold State.firstLevelSource lineAsserted; rw [h₁, h₂, h₃, h₄]

/-- The hold status becomes ACTIVE (R91, R107). -/
theorem becomeActive_eq (s : State) (w : WindowId) (c : HoldSource) :
    ∃ x, BecomesActive (s.win w) x
      ∧ s.becomeActive w c = s.patched w x (activeNotices w (s.win w) c) := by
  by_cases h : (s.win w).Committing
  · have hd : (s.win w).settlingCommit = true := (settlingCommit_iff _).mpr h
    have hp : (s.win w).state = .settling ∧ (s.win w).settleKind = some .commit := h
    refine ⟨({ s.win w with holdStatus := .active } : Window).afterCancel true,
      ⟨fun _ => rfl, fun hn => absurd h hn⟩, ?_⟩
    simp only [State.becomeActive, hd, if_true, State.cancelByHold, modWin_eq_patched s,
      patched_raise, patched_modWin, patched_win_self, activeNotices, if_pos hp]
    rfl
  · have hd : (s.win w).settlingCommit = false := by
      rw [Bool.eq_false_iff]; exact fun e => h ((settlingCommit_iff _).mp e)
    have hp : ¬((s.win w).state = .settling ∧ (s.win w).settleKind = some .commit) := h
    refine ⟨_, ⟨fun hc => absurd hc h, fun _ => rfl⟩, ?_⟩
    simp only [State.becomeActive, hd, if_neg hp, activeNotices, modWin_eq_patched s, patched_raise]
    rfl

/-- A level source asserts at a window in LIVE or SETTLING (R99, R103). -/
theorem levelAsserts_eq (s : State) (w : WindowId) (c : HoldSource) (h : (s.win w).Running) :
    ∃ x l, LevelStrikes (s.win w) x w c l ∧ s.levelAsserts w c = s.patched w x l := by
  have hs : (s.win w).state.isLiveOrSettling = true := (isLiveOrSettling_iff _).mpr h
  unfold State.levelAsserts
  rw [if_pos hs]
  cases hp : (s.win w).policy.holdPolicy with
  | latched =>
    by_cases ha : (s.win w).holdStatus = .active
    · refine ⟨{ s.win w with holdAck := false }, [], ?_, ?_⟩
      · simp [LevelStrikes, hp, ha]
      · simp [State.strikeLatched, ha, modWin_eq_patched s]
    · obtain ⟨x, hx, e⟩ := becomeActive_eq (s.modWin w fun x => { x with holdAck := false }) w c
      refine ⟨x, activeNotices w (s.win w) c, ?_, ?_⟩
      · simp only [win_modWin_self] at hx
        simp [LevelStrikes, hp, ha, hx]
      · simp only [State.strikeLatched, if_neg ha]
        rw [e, win_modWin_self, modWin_eq_patched, patched_patched]; rfl
  | perBoundary =>
    by_cases ha : (s.win w).holdStatus = .clear
    · obtain ⟨x, hx, e⟩ := becomeActive_eq s w c
      refine ⟨x, activeNotices w (s.win w) c, ?_, ?_⟩
      · simp [LevelStrikes, hp, ha, hx]
      · simp only [State.strikePerBoundary, if_pos ha, e]
    · refine ⟨s.win w, [], ?_, ?_⟩
      · simp [LevelStrikes, hp, ha]
      · simp [State.strikePerBoundary, ha, patched_self]

/-- A level source asserts at a window in another state (R95). -/
theorem levelAsserts_of_not_running (s : State) (w : WindowId) (c : HoldSource)
    (h : ¬(s.win w).Running) : s.levelAsserts w c = s := by
  have hs : (s.win w).state.isLiveOrSettling = false := by
    rw [Bool.eq_false_iff]; exact fun e => h ((isLiveOrSettling_iff _).mp e)
  simp [State.levelAsserts, hs]

/-- A level source releases at a window in LIVE or SETTLING (R100, R103). -/
theorem levelReleases_eq (s : State) (w : WindowId) (h : (s.win w).Running) :
    ∃ x, LevelReleases (s.win w) x (s.levelAsserted w) ∧ s.levelReleases w = s.patched w x [] := by
  have hs : (s.win w).state.isLiveOrSettling = true := (isLiveOrSettling_iff _).mpr h
  unfold State.levelReleases
  split
  · next hc =>
    obtain ⟨-, h₁, h₂, h₃, h₄⟩ := hc
    refine ⟨{ s.win w with holdStatus := .releasing }, ⟨fun _ _ _ _ => rfl, ?_⟩, rfl⟩
    rintro (h | h | h | h)
    · rw [h₁] at h; cases h
    · exact absurd h₂ h
    · rw [h₃] at h; cases h
    · simp [h] at h₄
  · next hc =>
    refine ⟨s.win w, ⟨fun h₁ h₂ h₃ h₄ => absurd ⟨hs, h₁, h₂, h₃, by simp [h₄]⟩ hc,
      fun _ => rfl⟩, ?_⟩
    rw [patched_self]

/-- A release changes nothing but the hold status. -/
theorem LevelReleases.only_status {x y : Window} {left : Bool} (h : LevelReleases x y left) :
    ∃ st, y = { x with holdStatus := st } := by
  cases hp : x.policy.holdPolicy with
  | perBoundary => exact ⟨x.holdStatus, h.2 (.inl hp)⟩
  | latched =>
    by_cases hs : x.holdStatus = .active
    · rcases Bool.eq_false_or_eq_true x.holdAck with ha | ha
      · cases left with
        | true => exact ⟨x.holdStatus, h.2 (.inr (.inr (.inr rfl)))⟩
        | false => exact ⟨.releasing, h.1 hp hs ha rfl⟩
      · exact ⟨x.holdStatus, h.2 (.inr (.inr (.inl ha)))⟩
    · exact ⟨x.holdStatus, h.2 (.inr (.inl hs))⟩

/-- A level source releases at a window in another state (R95). -/
theorem levelReleases_of_not_running (s : State) (w : WindowId) (h : ¬(s.win w).Running) :
    s.levelReleases w = s := by
  have hs : (s.win w).state.isLiveOrSettling = false := by
    rw [Bool.eq_false_iff]; exact fun e => h ((isLiveOrSettling_iff _).mp e)
  simp [State.levelReleases, hs]

/-- An event occurs at a window in LIVE or SETTLING (R97, R99, R103). -/
theorem eventOccurs_eq (s : State) (w : WindowId) (c : HoldSource) (h : (s.win w).Running) :
    ∃ x l, EventStrikes (s.win w) x w c l ∧ s.eventOccurs w c = s.patched w x l := by
  have hs : (s.win w).state.isLiveOrSettling = true := (isLiveOrSettling_iff _).mpr h
  cases hp : (s.win w).policy.holdPolicy with
  | latched =>
    obtain ⟨x, l, hx, e⟩ := levelAsserts_eq s w c h
    refine ⟨x, l, ⟨fun _ => hx, fun h => by rw [hp] at h; cases h⟩, ?_⟩
    rw [← e]
    simp [State.eventOccurs, State.levelAsserts, hp, hs]
  | perBoundary =>
    obtain ⟨x, l, hx, e⟩ := levelAsserts_eq (s.modWin w fun x => { x with eventSince := true }) w c
      (by simpa [Window.Running] using h)
    simp only [win_modWin_self] at hx
    refine ⟨x, l, ⟨(fun h => by rw [hp] at h; cases h), fun _ => hx⟩, ?_⟩
    have e' : s.eventOccurs w c =
        (s.modWin w fun x => { x with eventSince := true }).levelAsserts w c := by
      simp [State.eventOccurs, State.levelAsserts, hp, hs]
    rw [e', e, modWin_eq_patched s, patched_patched]; rfl

/-- The evaluation of a hold that is CLEAR from the level sources (R106). -/
theorem evaluateHold_of_none {s : State} {w : WindowId} (h : s.firstLevelSource w = none) :
    s.evaluateHold w = s := by simp [State.evaluateHold, h]

theorem evaluateHold_of_some {s : State} {w : WindowId} {c : HoldSource}
    (h : s.firstLevelSource w = some c) : s.evaluateHold w = s.becomeActive w c := by
  simp [State.evaluateHold, h]

/-- A hold that becomes ACTIVE at a window that is in no COMMIT settle (R107). -/
theorem becomeActive_of_not_committing {s : State} {w : WindowId} (c : HoldSource)
    (h : ¬(s.win w).Committing) :
    s.becomeActive w c = s.patched w { s.win w with holdStatus := .active } [.holdActive w c] := by
  obtain ⟨x, hx, e⟩ := becomeActive_eq s w c
  have hp : ¬((s.win w).state = .settling ∧ (s.win w).settleKind = some .commit) := h
  rw [e, hx.2 h, activeNotices, if_neg hp]

end Sys2Proof.Machine
end

