-- ==== Sys2Proof/Laws/Settles.lean ====
section
/-! SUPPORT. What the settles do, each said once: the flip, the clear, the entry, the prompt rule, the
boundary and the expiry of a drain timer (R78 to R92). -/

namespace Sys2Proof.Machine

/-- The notices of a flip (R86, R93). -/
def flipNotices (w : WindowId) (x : Window) : List Notice :=
  if x.policy.commitNotices then [.commitDone w (x.generation + 1) x.pendingCount] else []

/-- The line interface after a flip of a window with the given policy (R86, R142). -/
def flipLines (x : Window) (l : LineInterface) : LineInterface :=
  if x.policy.commitOutput then { l with pulse := 2 } else l

/-- The segment, the pulse, the record and the notices of one window changed together. -/
def State.settled (s : State) (w : WindowId) (f : LineEntry → LineEntry)
    (g : LineInterface → LineInterface) (x : Window) (l : List Notice) : State :=
  ((s.mapSegment w f).modLines g).patched w x l

@[simp] theorem settled_win_self (s : State) (w : WindowId) (f : LineEntry → LineEntry)
    (g : LineInterface → LineInterface) (x : Window) (l : List Notice) :
    (s.settled w f g x l).win w = x := patched_win_self _ _ _ _

theorem only_settled (s : State) (w : WindowId) (f : LineEntry → LineEntry)
    (g : LineInterface → LineInterface) (x : Window) (l : List Notice) :
    Only [.windows, .lineMap, .notices, .lines] s (s.settled w f g x l) := by
  intro p hp; cases p <;> first | rfl | simp at hp

theorem windowBecomes_settled (s : State) (w : WindowId) (f : LineEntry → LineEntry)
    (g : LineInterface → LineInterface) (x : Window) (l : List Notice) :
    WindowBecomes s (s.settled w f g x l) w x := by
  refine ⟨by simp, fun v hv => ?_⟩
  rw [State.settled, patched_win_of_ne _ hv]; rfl

theorem segmentBecomes_settled {s : State} (h : s.lineMap.wf = true) (w : WindowId)
    {f : LineEntry → LineEntry} (hf : f LineEntry.reset = LineEntry.reset)
    (g : LineInterface → LineInterface) (x : Window) (l : List Notice) :
    SegmentBecomes s (s.settled w f g x l) w f :=
  (segmentBecomes_mapSegment h w hf).of_lineMap rfl

@[simp] theorem settled_notices (s : State) (w : WindowId) (f : LineEntry → LineEntry)
    (g : LineInterface → LineInterface) (x : Window) (l : List Notice) :
    (s.settled w f g x l).notices = s.notices.offerAll l := rfl

@[simp] theorem settled_lines (s : State) (w : WindowId) (f : LineEntry → LineEntry)
    (g : LineInterface → LineInterface) (x : Window) (l : List Notice) :
    (s.settled w f g x l).lines = g s.lines := rfl

/-- The flip (R86, R89, R90). -/
theorem takeFlip_eq (s : State) (w : WindowId) :
    s.takeFlip w = s.settled w LineEntry.flipped (flipLines (s.win w)) (s.win w).afterFlip
      (flipNotices w (s.win w)) := by
  have hm : (s.mapSegment w LineEntry.flipped).modWin w Window.flipped =
      (s.mapSegment w LineEntry.flipped).patched w (s.win w).afterFlip [] := rfl
  have hp : ((s.mapSegment w LineEntry.flipped).patched w (s.win w).afterFlip []).requestPulse =
      ((s.mapSegment w LineEntry.flipped).modLines fun l => { l with pulse := 2 }).patched w
        (s.win w).afterFlip [] := rfl
  have hl : flipLines (s.win w) =
      fun l => if (s.win w).policy.commitOutput then { l with pulse := 2 } else l := rfl
  simp only [State.takeFlip, hm, State.settled]
  cases ho : (s.win w).policy.commitOutput <;> cases hn : (s.win w).policy.commitNotices <;>
    simp only [hl, ho, flipNotices, hn, hp, patched_raise, if_true, Bool.false_eq_true, if_false,
      List.nil_append] <;> rfl

/-- The clear (R88, R89, R90). -/
theorem takeClear_eq (s : State) (w : WindowId) :
    s.takeClear w = s.settled w LineEntry.unpended id (s.win w).afterClear
      [.discardDone w (s.win w).pendingCount] := rfl

/-- A change of one window's record that keeps its geometry goes past a change of its segment. -/
theorem settled_patched (s : State) (w : WindowId) (y : Window) (f : LineEntry → LineEntry)
    (g : LineInterface → LineInterface) (x : Window) (l : List Notice)
    (h : y.geometry = (s.win w).geometry) :
    (s.patched w y []).settled w f g x l = s.settled w f g x l := by
  have e : (s.patched w y []).mapSegment w f = (s.mapSegment w f).patched w y [] := by
    have : (s.patched w y []).mapSegment w f =
        (s.patched w y []).setLineMap (s.lineMap.mapRange
          ((s.patched w y []).win w).geometry.mapOffset.toNat
          ((s.patched w y []).win w).geometry.lineCount.toNat f) := rfl
    rw [this, patched_win_self, h]; rfl
  have e' : ∀ u : State, (u.patched w y []).modLines g = (u.modLines g).patched w y [] := fun _ => rfl
  rw [State.settled, e, e', patched_patched]; rfl

/-- The entry to a COMMIT settle (R82). -/
theorem enterCommit_of_drained {s : State} {w : WindowId} (h : (s.win w).Drained) :
    s.enterCommit w = s.settled w LineEntry.flipped (flipLines (s.win w))
      ({ s.win w with armed := false } : Window).afterFlip (flipNotices w (s.win w)) := by
  have hd : ((s.modWin w fun x => { x.enterSettle .commit with armed := false }).win w).drained = true := by
    rw [win_modWin_self]; exact (drained_iff _).mpr h
  simp only [State.enterCommit, hd, if_true]
  rw [takeFlip_eq, win_modWin_self, modWin_eq_patched, settled_patched]
  · rfl
  · rfl

theorem enterCommit_of_not_drained {s : State} {w : WindowId} (h : ¬(s.win w).Drained) :
    s.enterCommit w = s.patched w ((s.win w).afterEntry .commit) [] := by
  have hd : ((s.modWin w fun x => { x.enterSettle .commit with armed := false }).win w).drained = false := by
    rw [win_modWin_self, Bool.eq_false_iff]; exact fun e => h ((drained_iff _).mp e)
  simp only [State.enterCommit, hd, Bool.false_eq_true, if_false]
  rfl

/-- Whatever its drain, the entry to a COMMIT settle changes these parts alone, and of the lines the
COMMITTED pulse alone (R82). -/
theorem enterCommit_spec (s : State) (w : WindowId) :
    Only [.windows, .lineMap, .notices, .lines] s (s.enterCommit w)
      ∧ (s.enterCommit w).lines.levels = s.lines.levels
      ∧ (s.enterCommit w).lines.edgeCount = s.lines.edgeCount
      ∧ ∃ x, WindowBecomes s (s.enterCommit w) w x ∧ EntersCommit (s.win w) x := by
  by_cases h : (s.win w).Drained
  · rw [enterCommit_of_drained h]
    refine ⟨only_settled _ _ _ _ _ _, ?_, ?_, _, windowBecomes_settled _ _ _ _ _ _, fun _ => rfl,
      fun hn => absurd h hn⟩ <;> (rw [settled_lines, flipLines]; split <;> rfl)
  · rw [enterCommit_of_not_drained h]
    exact ⟨(only_patched_nil _ _ _).mono (by simp), rfl, rfl, _, windowBecomes_patched _ _ _ _,
      fun hd => absurd hd h, fun _ => rfl⟩

/-- The prompt rule where it begins a settle (R81). -/
theorem promptTest_of_ready {s : State} {w : WindowId} (h : (s.win w).state = .live)
    (hp : (s.win w).Prompted) : s.promptTest w = s.enterCommit w := by
  simp [State.promptTest, (promptReady_iff _).mpr ⟨h, hp⟩]

/-- The prompt rule where it does not (R81). -/
theorem promptTest_of_not_ready {s : State} {w : WindowId}
    (h : ¬((s.win w).state = .live ∧ (s.win w).Prompted)) : s.promptTest w = s := by
  have : (s.win w).promptReady = false := by
    rw [Bool.eq_false_iff]; exact fun e => h ((promptReady_iff _).mp e)
  simp [State.promptTest, this]

/-- The drain test where the drain of a COMMIT settle is complete (R84). -/
theorem settleTest_of_committing {s : State} {w : WindowId} (hc : (s.win w).Committing)
    (hd : (s.win w).Drained) : s.settleTest w = s.flipAt w := by
  simp [State.settleTest, (drained_iff _).mpr hd, (settlingCommit_iff _).mpr hc]

/-- The drain test where the drain of a DISCARD settle is complete (R84). -/
theorem settleTest_of_discarding {s : State} {w : WindowId} (hc : (s.win w).Discarding)
    (hd : (s.win w).Drained) : s.settleTest w = s.clearAt w := by
  have hn : (s.win w).settlingCommit = false := by
    rw [Bool.eq_false_iff]
    exact fun e => not_committing_of_discarding hc ((settlingCommit_iff _).mp e)
  simp [State.settleTest, (drained_iff _).mpr hd, hn, (settlingDiscard_iff _).mpr hc]

/-- The drain test of a window that does not settle, or whose drain is not complete (R84). -/
theorem settleTest_of_waiting {s : State} {w : WindowId}
    (h : (s.win w).state = .settling → ¬(s.win w).Drained) : s.settleTest w = s := by
  unfold State.settleTest
  split
  · next hd =>
    have hd' := (drained_iff _).mp hd
    split
    · next hc => exact absurd hd' (h ((settlingCommit_iff _).mp hc).1)
    · split
      · next hc => exact absurd hd' (h ((settlingDiscard_iff _).mp hc).1)
      · rfl
  · rfl

/-- FLIP where it may be taken (R84, R86). -/
theorem exec_flip {s : State} {w : WindowId} (hr : s.inReset = false) (hc : (s.win w).Committing)
    (hd : (s.win w).Drained) : exec (.flip w) s = .next (s.flipAt w).pump := by
  show Host.Outcome.next (s.whenRunning _) = _
  rw [whenRunning_of_running hr]
  simp [(settlingCommit_iff _).mpr hc, (drained_iff _).mpr hd]

/-- CLEAR where it may be taken (R84, R88). -/
theorem exec_clear {s : State} {w : WindowId} (hr : s.inReset = false) (hc : (s.win w).Discarding)
    (hd : (s.win w).Drained) : exec (.clear w) s = .next (s.clearAt w).pump := by
  show Host.Outcome.next (s.whenRunning _) = _
  rw [whenRunning_of_running hr]
  simp [(settlingDiscard_iff _).mpr hc, (drained_iff _).mpr hd]

end Sys2Proof.Machine
end

