-- ==== Sys2Proof/Laws/Sweeps.lean ====
section
/-! SUPPORT. Events that reach several windows: what one event can do at a window, and what it does
where each window takes it in turn, each said once (R73, R78, R80, R96, R138). -/

namespace Sys2Proof.Machine

/-- What an event does at one window: the record it leaves, whether the segment is flipped, whether a
pulse of COMMITTED is requested, the notices. -/
structure WindowChange where
  record  : Window
  flips   : Bool
  pulse   : Bool
  notices : List Notice

/-- A change of the record alone. -/
def quiet (x : Window) : WindowChange := { record := x, flips := false, pulse := false, notices := [] }

/-- The line interface where a pulse is requested, or not (R142). -/
def pulsed (on : Bool) (l : LineInterface) : LineInterface := if on then { l with pulse := 2 } else l

/-- The line map where window `w`'s segment is flipped, or not (R86). -/
def State.flippedMap (s : State) (w : WindowId) (on : Bool) : State :=
  if on then s.mapSegment w LineEntry.flipped else s

/-- The state that an event at window `w` leaves. -/
def State.changed (s : State) (w : WindowId) (c : WindowChange) : State :=
  ((s.flippedMap w c.flips).modLines (pulsed c.pulse)).patched w c.record c.notices

@[simp] theorem changed_win_self (s : State) (w : WindowId) (c : WindowChange) :
    (s.changed w c).win w = c.record := patched_win_self _ _ _ _

theorem changed_win_of_ne (s : State) {w v : WindowId} (h : v ≠ w) (c : WindowChange) :
    (s.changed w c).win v = s.win v := by
  rw [State.changed, patched_win_of_ne _ h]
  show (s.flippedMap w c.flips).win v = _
  unfold State.flippedMap
  split <;> rfl

@[simp] theorem changed_notices (s : State) (w : WindowId) (c : WindowChange) :
    (s.changed w c).notices = s.notices.offerAll c.notices := by
  show (s.flippedMap w c.flips).notices.offerAll c.notices = _
  unfold State.flippedMap
  split <;> rfl

@[simp] theorem changed_lines (s : State) (w : WindowId) (c : WindowChange) :
    (s.changed w c).lines = pulsed c.pulse s.lines := by
  show pulsed c.pulse (s.flippedMap w c.flips).lines = _
  unfold State.flippedMap
  split <;> rfl

@[simp] theorem changed_lineMap (s : State) (w : WindowId) (c : WindowChange) :
    (s.changed w c).lineMap = (s.flippedMap w c.flips).lineMap := rfl

@[simp] theorem pulsed_levels (on : Bool) (l : LineInterface) : (pulsed on l).levels = l.levels := by
  unfold pulsed; split <;> rfl

@[simp] theorem pulsed_edgeCount (on : Bool) (l : LineInterface) :
    (pulsed on l).edgeCount = l.edgeCount := by
  unfold pulsed; split <;> rfl

theorem only_changed (s : State) (w : WindowId) (c : WindowChange) :
    Only [.windows, .lineMap, .notices, .lines] s (s.changed w c) := by
  have h : Only [.lineMap] s (s.flippedMap w c.flips) := by
    unfold State.flippedMap
    split
    · exact only_mapSegment _ _ _
    · exact Only.refl _ _
  exact ((h.mono (by simp)).trans ((only_modLines _ _).mono (by simp))).trans
    ((only_patched _ _ _ _).mono (by simp))

/-- A change that neither flips nor pulses. -/
theorem patched_eq_changed (s : State) (w : WindowId) (x : Window) (l : List Notice) :
    s.patched w x l = s.changed w { quiet x with notices := l } := rfl

/-- Nothing happens. -/
theorem changed_quiet_self (s : State) (w : WindowId) : s.changed w (quiet (s.win w)) = s :=
  patched_self s w

/-- A change of the record and notices goes before another change of the same window. -/
theorem patched_changed (s : State) (w : WindowId) {x : Window} (l : List Notice) (c : WindowChange)
    (h : x.geometry = (s.win w).geometry) :
    (s.patched w x l).changed w c = s.changed w { c with notices := l ++ c.notices } := by
  have e : (s.patched w x l).flippedMap w c.flips = (s.flippedMap w c.flips).patched w x l := by
    unfold State.flippedMap
    split
    · have : (s.patched w x l).mapSegment w LineEntry.flipped =
          (s.patched w x l).setLineMap (s.lineMap.mapRange
            ((s.patched w x l).win w).geometry.mapOffset.toNat
            ((s.patched w x l).win w).geometry.lineCount.toNat LineEntry.flipped) := rfl
      rw [this, patched_win_self, h]; rfl
    · rfl
  have e' : ∀ u : State, (u.patched w x l).modLines (pulsed c.pulse) =
      (u.modLines (pulsed c.pulse)).patched w x l := fun _ => rfl
  rw [State.changed, e, e', patched_patched]; rfl

/-- A change of the record and notices goes after another change of the same window. -/
theorem changed_patched (s : State) (w : WindowId) (c : WindowChange) (x : Window) (l : List Notice) :
    (s.changed w c).patched w x l =
      s.changed w { c with record := x, notices := c.notices ++ l } := by
  rw [State.changed, patched_patched]; rfl

/-! ### The entry to a commit -/

/-- The record after the entry to a COMMIT settle (R82). -/
def Window.afterCommit (x : Window) : Window :=
  if x.drained then ({ x with armed := false } : Window).afterFlip else x.afterEntry .commit

/-- What the entry to a COMMIT settle does (R82, R86). -/
def commitChange (w : WindowId) (x : Window) : WindowChange :=
  { record := x.afterCommit, flips := x.drained, pulse := x.drained && x.policy.commitOutput
    notices := entryNotices w x }

theorem entersCommit_iff {x y : Window} : EntersCommit x y ↔ y = x.afterCommit := by
  unfold EntersCommit Window.afterCommit
  by_cases h : x.Drained
  · simp [(drained_iff x).mpr h, h]
  · have : x.drained = false := by rw [Bool.eq_false_iff]; exact fun e => h ((drained_iff x).mp e)
    simp [this, h]

theorem enterCommit_eq (s : State) (w : WindowId) :
    s.enterCommit w = s.changed w (commitChange w (s.win w)) := by
  by_cases h : (s.win w).Drained
  · have hd := (drained_iff _).mpr h
    rw [enterCommit_of_drained h]
    simp only [commitChange, Window.afterCommit, entryNotices, hd, if_true, Bool.true_and]
    rfl
  · have hd : (s.win w).drained = false := by
      rw [Bool.eq_false_iff]; exact fun e => h ((drained_iff _).mp e)
    rw [enterCommit_of_not_drained h]
    simp only [commitChange, Window.afterCommit, entryNotices, hd, Bool.false_and, Bool.false_eq_true,
      if_false]
    rfl

/-- The prompt rule at a window (R81). -/
theorem promptTest_eq (s : State) (w : WindowId) :
    s.promptTest w = s.changed w
      (if (s.win w).promptReady then commitChange w (s.win w) else quiet (s.win w)) := by
  unfold State.promptTest
  split
  · exact enterCommit_eq s w
  · exact (changed_quiet_self s w).symm

/-! ### An event at each of several windows -/

/-- What an event taken at the windows `ws` in turn leaves, `c` giving what it does at each. -/
structure Sweep (s t : State) (ws : List WindowId) (c : WindowId → WindowChange) : Prop where
  only : Only [.windows, .lineMap, .notices, .lines] s t
  win : ∀ w ∈ ws, t.win w = (c w).record
  others : ∀ w, w ∉ ws → t.win w = s.win w
  notices : t.notices = s.notices.offerAll (ws.flatMap fun w => (c w).notices)
  lines : t.lines = pulsed (ws.any fun w => (c w).pulse) s.lines
  still : (∀ w ∈ ws, (c w).flips = false) → t.lineMap = s.lineMap
  wf : s.lineMap.wf = true → t.lineMap.wf = true
  flipped : s.lineMap.wf = true → ∀ w ∈ ws, (c w).flips = true →
    ∀ i, i < (s.win w).geometry.lineCount.toNat →
    t.lineMap.entry ((s.win w).geometry.entryIndex i) =
      (s.lineMap.entry ((s.win w).geometry.entryIndex i)).flipped
  same : s.lineMap.wf = true → ∀ j, (∀ w ∈ ws, (c w).flips = true →
      ∀ i, i < (s.win w).geometry.lineCount.toNat →
    j ≠ (s.win w).geometry.entryIndex i) → t.lineMap.entry j = s.lineMap.entry j

theorem offerAll_append (q : NoticeQueue) (l m : List Notice) :
    q.offerAll (l ++ m) = (q.offerAll l).offerAll m := by simp [NoticeQueue.offerAll]

/-- An event taken at several windows in turn, which at each does what `R` says of the record it finds
there. -/
theorem forWindows_sweep {R : WindowId → Window → WindowChange → Prop}
    {f : WindowId → State → State} {levels : LineLevels} {settings : Settings}
    (hf : ∀ w t, t.lines.levels = levels → t.settings = settings →
      ∃ c, f w t = t.changed w c ∧ R w (t.win w) c) :
    ∀ (ws : List WindowId), ws.Nodup → ∀ s, s.lines.levels = levels → s.settings = settings →
      ∃ c, (∀ w ∈ ws, R w (s.win w) (c w)) ∧ Sweep s (s.forWindows ws f) ws c
  | [], _, s, _, _ => by
    refine ⟨fun w => quiet (s.win w), fun w hw => absurd hw List.not_mem_nil, Only.refl _ _,
      fun w hw => absurd hw List.not_mem_nil, fun _ _ => rfl, rfl, rfl, fun _ => rfl, id,
      fun _ w hw => absurd hw List.not_mem_nil, fun _ _ _ => rfl⟩
  | w :: ws, hn, s, hl, hs => by
    obtain ⟨hw, hn'⟩ := List.nodup_cons.mp hn
    obtain ⟨c, he, hR⟩ := hf w s hl hs
    have hne : ∀ {v}, v ∈ ws → v ≠ w := fun hv e => hw (e ▸ hv)
    have hv : ∀ {v}, v ∈ ws → (s.changed w c).win v = s.win v := fun hv =>
      changed_win_of_ne s (hne hv) c
    have hmw : s.lineMap.wf = true → (s.changed w c).lineMap.wf = true := fun hm => by
      rw [changed_lineMap]
      unfold State.flippedMap
      split
      · exact LineMap.wf_mapRange hm _ _ _
      · exact hm
    obtain ⟨d, hd, k⟩ := forWindows_sweep hf ws hn' (s.changed w c)
      (by rw [changed_lines, pulsed_levels]; exact hl)
      (Eq.trans (only_changed s w c .settings (by simp)) hs)
    have hself : (Function.update d w c) w = c := Function.update_self ..
    have hother : ∀ {v}, v ∈ ws → (Function.update d w c) v = d v := fun hv =>
      Function.update_of_ne (hne hv) ..
    have own : s.lineMap.wf = true → ∀ j, (s.changed w c).lineMap.entry j =
        if c.flips = true ∧ ∃ i, i < (s.win w).geometry.lineCount.toNat
            ∧ j = (s.win w).geometry.entryIndex i then (s.lineMap.entry j).flipped
        else s.lineMap.entry j := by
      intro hm j
      rw [changed_lineMap]
      unfold State.flippedMap
      cases c.flips with
      | false => simp
      | true =>
        obtain ⟨h₁, h₂⟩ := segmentBecomes_mapSegment hm w (f := LineEntry.flipped) rfl
        simp only [true_and, if_true]
        split
        · next h =>
          obtain ⟨i, hi, rfl⟩ := h
          exact h₁ i hi
        · next h => exact h₂ j fun i hi e => h ⟨i, hi, e⟩
    have later : s.lineMap.wf = true → ∀ j, ((s.changed w c).forWindows ws f).lineMap.entry j =
          (s.changed w c).lineMap.entry j
        ∨ ((s.changed w c).forWindows ws f).lineMap.entry j =
          ((s.changed w c).lineMap.entry j).flipped := by
      intro hm j
      by_cases h : ∃ v ∈ ws, (d v).flips = true ∧ ∃ i, i < (s.win v).geometry.lineCount.toNat
          ∧ j = (s.win v).geometry.entryIndex i
      · obtain ⟨v, hvw, hf', i, hi, rfl⟩ := h
        have := k.flipped (hmw hm) v hvw hf' i
        rw [hv hvw] at this
        exact .inr (this hi)
      · refine .inl (k.same (hmw hm) j fun v hvw hf' i hi e => h ⟨v, hvw, hf', i, ?_, ?_⟩)
        · rwa [hv hvw] at hi
        · rwa [hv hvw] at e
    refine ⟨Function.update d w c, fun v hvw => ?_, ?_⟩
    · rcases List.mem_cons.mp hvw with rfl | hvw
      · rw [hself]; exact hR
      · rw [hother hvw, ← hv hvw]; exact hd v hvw
    · have hcongr : ∀ {α : Type} (g : WindowChange → α), ws.map (fun v => g (Function.update d w c v)) =
          ws.map fun v => g (d v) := fun g =>
        List.map_congr_left fun v hvw => by rw [hother hvw]
      rw [forWindows_cons, he]
      constructor
      · exact (only_changed s w c).trans k.only
      · intro v hvw
        rcases List.mem_cons.mp hvw with rfl | hvw
        · rw [hself, k.others v hw, changed_win_self]
        · rw [hother hvw]; exact k.win v hvw
      · intro v hvw
        have h₁ : v ≠ w := fun e => hvw (e ▸ List.mem_cons_self)
        rw [k.others v fun h => hvw (List.mem_cons_of_mem _ h), changed_win_of_ne s h₁]
      · rw [k.notices, changed_notices, List.flatMap_cons, hself, offerAll_append]
        simp only [List.flatMap_def, hcongr WindowChange.notices]
      · rw [k.lines, changed_lines, List.any_cons, hself]
        have : (ws.any fun v => (Function.update d w c v).pulse) = ws.any fun v => (d v).pulse := by
          have := congrArg (·.any id) (hcongr WindowChange.pulse)
          simpa only [List.any_map, Function.id_comp, Function.comp_def, id] using this
        rw [this]
        cases c.pulse <;> cases (ws.any fun v => (d v).pulse) <;> rfl
      · intro hq
        rw [k.still fun v hvw => by rw [← hother hvw]; exact hq v (List.mem_cons_of_mem _ hvw),
          changed_lineMap]
        have : c.flips = false := hself ▸ hq w List.mem_cons_self
        rw [this]; rfl
      · exact fun hm => k.wf (hmw hm)
      · intro hm v hvw hf' i hi
        have hfl : ((s.changed w c).lineMap.entry ((s.win v).geometry.entryIndex i)).flipped =
            (s.lineMap.entry ((s.win v).geometry.entryIndex i)).flipped := by
          rw [own hm]; split <;> simp
        rcases List.mem_cons.mp hvw with rfl | hvw
        · rw [hself] at hf'
          have h₁ : (s.changed v c).lineMap.entry ((s.win v).geometry.entryIndex i) =
              (s.lineMap.entry ((s.win v).geometry.entryIndex i)).flipped := by
            rw [own hm, if_pos ⟨hf', i, hi, rfl⟩]
          rcases later hm ((s.win v).geometry.entryIndex i) with h | h
          · rw [h, h₁]
          · rw [h, hfl]
        · rw [hother hvw] at hf'
          have := k.flipped (hmw hm) v hvw hf' i
          rw [hv hvw] at this
          rw [this hi, hfl]
      · intro hm j hj
        have h₁ : (s.changed w c).lineMap.entry j = s.lineMap.entry j := by
          rw [own hm, if_neg]
          rintro ⟨hf', i, hi, rfl⟩
          exact hj w List.mem_cons_self (by rw [hself]; exact hf') i hi rfl
        rw [← h₁]
        refine k.same (hmw hm) j fun v hvw hf' i hi => ?_
        rw [hv hvw] at hi ⊢
        exact hj v (List.mem_cons_of_mem _ hvw) (by rw [hother hvw]; exact hf') i hi

/-- A change of one window is a sweep of that window. -/
theorem changed_sweep (s : State) (w : WindowId) (c : WindowChange) :
    Sweep s (s.changed w c) [w] fun _ => c := by
  obtain ⟨d, hd, k⟩ := forWindows_sweep (R := fun _ _ d => d = c) (f := fun w t => t.changed w c)
    (fun w t _ _ => ⟨c, rfl, rfl⟩) [w] (List.nodup_singleton w) s rfl rfl
  obtain ⟨h, -⟩ := List.forall_mem_cons.mp hd
  exact { only := k.only, others := k.others, wf := k.wf
          win := fun v hv => by rw [List.mem_singleton.mp hv]; exact changed_win_self s w c
          notices := by rw [changed_notices]; simp
          lines := by rw [changed_lines]; simp
          still := fun hq => k.still fun v hv => by
            rw [List.mem_singleton.mp hv, h]; exact hq w (by simp)
          flipped := fun hm v hv hf => k.flipped hm v hv (by rw [List.mem_singleton.mp hv, h]; exact hf)
          same := fun hm j hj => k.same hm j fun v hv hf => hj v hv (by
            rw [List.mem_singleton.mp hv, h] at hf; exact hf) }

/-- The commits of a sweep, in the words of `CommitsDrain` (R82, R86, R142). -/
theorem Sweep.commitsDrain {s t : State} {ws : List WindowId} {c : WindowId → WindowChange}
    {enters : WindowId → Prop} {x : WindowId → Window} (k : Sweep s t ws c)
    (hm : s.lineMap.wf = true) (hg : ∀ w, (x w).geometry = (s.win w).geometry)
    (hf : ∀ w, w ∈ ws ∧ (c w).flips = true ↔ enters w ∧ (x w).Drained)
    (hp : ∀ w, w ∈ ws ∧ (c w).pulse = true ↔
      enters w ∧ (x w).Drained ∧ (x w).policy.commitOutput = true) :
    CommitsDrain s t enters x := by
  refine ⟨fun w i he hd hi => ?_, fun j hj => ?_, fun w he hd ho => ?_, fun h => ?_⟩
  · obtain ⟨hw, hfl⟩ := (hf w).mpr ⟨he, hd⟩
    rw [hg] at hi ⊢
    exact k.flipped hm w hw hfl i hi
  · refine k.same hm j fun w hw hfl i hi => ?_
    obtain ⟨he, hd⟩ := (hf w).mp ⟨hw, hfl⟩
    rw [← hg] at hi ⊢
    exact hj w i he hd hi
  · obtain ⟨hw, hpl⟩ := (hp w).mpr ⟨he, hd, ho⟩
    have : (ws.any fun w => (c w).pulse) = true := List.any_eq_true.mpr ⟨w, hw, hpl⟩
    rw [k.lines, this]; rfl
  · have : (ws.any fun w => (c w).pulse) = false := by
      rw [Bool.eq_false_iff]
      intro ha
      obtain ⟨w, hw, hpl⟩ := List.any_eq_true.mp ha
      obtain ⟨he, hd, ho⟩ := (hp w).mp ⟨hw, hpl⟩
      rw [h w he hd] at ho
      cases ho
    rw [k.lines, this]; rfl

end Sys2Proof.Machine
end

