-- ==== Sys2Proof/Laws/Edges.lean ====
section
/-! SUPPORT. Samples of the input lines: which edges a sample makes, and how one line's edge reaches the
windows (R139). -/

namespace Sys2Proof.Machine

/-! ### Levels -/

@[simp] theorem setLevels_levels (s : State) (l : LineLevels) : (s.setLevels l).lines.levels = l := rfl
@[simp] theorem setLevels_setLevels (s : State) (l m : LineLevels) :
    (s.setLevels l).setLevels m = s.setLevels m := rfl
@[simp] theorem setLevels_self (s : State) : s.setLevels s.lines.levels = s := rfl
@[simp] theorem setLevels_hport (s : State) (l : LineLevels) : (s.setLevels l).hport = s.hport := rfl
@[simp] theorem setLevels_win (s : State) (l : LineLevels) (w : WindowId) :
    (s.setLevels l).win w = s.win w := rfl

/-- The line sampled takes its level, and no other line does. -/
theorem levelAt_putLevel (l : LineLevels) (x : LineSample) (m : InputLine) :
    levelAt (putLevel l x) m = if m = x.line then x.level else levelAt l m := by
  obtain ⟨y, v⟩ := x
  cases y <;> cases m <;> rfl

/-- A line put to the level it has. -/
theorem putLevel_self {l : LineLevels} {x : LineSample} (h : levelAt l x.line = x.level) :
    putLevel l x = l := by
  obtain ⟨y, v⟩ := x
  cases y <;> (simp only [levelAt] at h; subst h; rfl)

/-- With one line sampled at a new level, that line alone changes. -/
theorem changedLines_putLevel {l : LineLevels} {x : LineSample} (h : levelAt l x.line = !x.level) :
    changedLines l (putLevel l x) = [x.line] := by
  have key : changedLines l (putLevel l x) = allLines.filter fun m => m = x.line :=
    List.filter_congr fun m _ => by
      rw [levelAt_putLevel]
      by_cases hm : m = x.line
      · subst hm; simp [h]
      · simp [hm]
  rw [key]
  cases x.line <;> rfl

/-- Equal levels make no edge. -/
theorem changedLines_self (l : LineLevels) : changedLines l l = [] := by
  simp [changedLines]

/-- What a window sees of the edge of the only line sampled is the levels sampled. -/
theorem seenLevels_putLevel (l : LineLevels) (x : LineSample) (ls : List InputLine) (h : x.line ∈ ls) :
    seenLevels l (putLevel l x) ls = putLevel l x := by
  obtain ⟨y, v⟩ := x
  cases y <;> simp_all [seenLevels, putLevel]

/-! ### The edges of one line -/

theorem mem_edgesIn_single {o : Order} {l : InputLine} {e : InputLine × WindowId} :
    e ∈ edgesIn o [l] ↔ e.1 = l := by
  obtain ⟨m, w⟩ := e
  simp only [edgesIn, mem_arrange, List.flatMap_cons, List.flatMap_nil, List.append_nil, List.mem_map,
    Prod.mk.injEq]
  exact ⟨fun ⟨v, _, h, _⟩ => h.symm, fun h => ⟨w, mem_allWindows w, h.symm, rfl⟩⟩

theorem edgesIn_single (o : Order) (l : InputLine) :
    edgesIn o [l] = (edgeOrder o l).map fun w => (l, w) := by
  have h : ∀ e ∈ edgesIn o [l], (l, e.2) = e := fun e he => by rw [← mem_edgesIn_single.mp he]
  rw [edgeOrder, List.map_map]
  exact ((List.map_congr_left h).trans (List.map_id _)).symm

/-- The edge of a line reaches every window. -/
@[simp] theorem mem_edgeOrder (o : Order) (l : InputLine) (w : WindowId) : w ∈ edgeOrder o l := by
  rw [edgeOrder, List.mem_map]
  exact ⟨(l, w), mem_edgesIn_single.mpr rfl, rfl⟩

/-- The edge of a line reaches no window twice. -/
theorem nodup_edgeOrder (o : Order) (l : InputLine) : (edgeOrder o l).Nodup := by
  have h : ((edgeOrder o l).map fun w => (l, w)).Nodup := edgesIn_single o l ▸ nodup_arrange _ _
  exact h.of_map _

/-- What the edge of one line does, with no request presented: every window takes it in the order
given. -/
theorem takeSample_of_edge {s : State} {x : LineSample} (o : Order) (hch : s.hport.channel = [])
    (h : levelAt s.lines.levels x.line = !x.level)
    (hf : ∀ w t, (State.edgeAt t x.line w).hport = t.hport)
    (hl : ∀ w t, (State.edgeAt t x.line w).lines.levels = t.lines.levels) :
    s.takeSample [x] o =
      (s.setLevels (putLevel s.lines.levels x)).forWindows (edgeOrder o x.line) fun w t =>
        t.edgeAt x.line w := by
  obtain ⟨new, hn⟩ : ∃ new, new = putLevel s.lines.levels x := ⟨_, rfl⟩
  have key : ∀ (ws : List WindowId) (done : List (InputLine × WindowId)) (t : State),
      t.hport.channel = [] →
      (State.takeEdges s.lines.levels new done (ws.map fun w => (x.line, w)) t).setLevels new =
        (t.setLevels new).forWindows ws fun w t => t.edgeAt x.line w := by
    intro ws
    induction ws with
    | nil => exact fun _ _ _ => rfl
    | cons w ws ih =>
      intro done t ht
      have hseen : ∀ l, seenLevels s.lines.levels new (x.line :: l) = new := fun l => by
        rw [hn]; exact seenLevels_putLevel _ _ _ List.mem_cons_self
      have hc : ((t.setLevels new).edgeAt x.line w).hport.channel = [] := by rw [hf]; exact ht
      have hlev : ((t.setLevels new).edgeAt x.line w).setLevels new = (t.setLevels new).edgeAt x.line w := by
        conv_rhs => rw [← setLevels_self ((t.setLevels new).edgeAt x.line w), hl]
        rfl
      rw [List.map_cons, State.takeEdges, hseen, pump_of_nil hc, ih _ _ hc, forWindows_cons, hlev]
  have hs : sampledLevels s.lines.levels [x] = new := hn.symm
  rw [State.takeSample]
  simp only [hs]
  rw [hn, changedLines_putLevel h, edgesIn_single, ← hn]
  exact key _ _ s hch

/-- A line sampled at the level it has makes no edge. -/
theorem takeSample_of_same {s : State} {x : LineSample} (o : Order)
    (h : levelAt s.lines.levels x.line = x.level) : s.takeSample [x] o = s := by
  have hs : sampledLevels s.lines.levels [x] = s.lines.levels := putLevel_self h
  rw [State.takeSample]
  simp only [hs, changedLines_self]
  have he : edgesIn o [] = [] :=
    List.eq_nil_iff_forall_not_mem.mpr fun e h => by simp [edgesIn] at h
  rw [he]; rfl

/-! ### An edge at one window -/

/-- What a rising edge of PUBREQ does at a window (R75, R81). -/
def pubreqChange (w : WindowId) (x : Window) : WindowChange :=
  if x.policy.pubreqEnable ∧ x.state.isLiveOrSettling then
    if ({ x with armed := true } : Window).promptReady then commitChange w { x with armed := true }
    else quiet { x with armed := true }
  else quiet x

theorem pubreqAt_eq (s : State) (w : WindowId) :
    s.pubreqAt w = s.changed w (pubreqChange w (s.win w)) := by
  unfold State.pubreqAt pubreqChange
  split
  · rw [promptTest_eq, modWin_eq_patched, patched_win_self, patched_changed s w [] _ (by rfl)]
    split <;> rfl
  · exact (changed_quiet_self s w).symm

/-- The record after the hold step of a boundary (R101, R104). -/
def Window.heldOver (x : Window) (asserted : Bool) : Window :=
  { x with
    holdStatus := if x.releasedNow asserted then .clear else x.holdStatus
    holdAck := if x.releasedNow asserted && decide (x.policy.holdPolicy = .latched) then false
      else x.holdAck
    eventSince := if x.policy.holdPolicy = .perBoundary then false else x.eventSince }

/-- The hold step of a boundary (R101, R104). -/
theorem boundaryHold_eq (s : State) (w : WindowId) :
    s.boundaryHold w = s.patched w ((s.win w).heldOver (s.levelAsserted w))
      (if (s.win w).releasedNow (s.levelAsserted w) then [.holdReleased w] else []) := by
  have hrel : s.boundaryReleases w = (s.win w).releasedNow (s.levelAsserted w) := rfl
  unfold State.boundaryHold
  cases hp : (s.win w).policy.holdPolicy with
  | latched =>
    cases hb : (s.win w).releasedNow (s.levelAsserted w) with
    | true => simp [hrel, hb, modWin_eq_patched s, patched_raise, Window.heldOver, hp]
    | false =>
      simp only [hrel, hb, Window.heldOver, hp, Bool.false_and, Bool.false_eq_true, if_false]
      exact (patched_self s w).symm
  | perBoundary =>
    cases hb : (s.win w).releasedNow (s.levelAsserted w) with
    | true => simp [hrel, hb, modWin_eq_patched s, patched_raise, Window.heldOver, hp]
    | false => simp [hrel, hb, modWin_eq_patched s, Window.heldOver, hp]

/-- What a boundary does at a window in LIVE or SETTLING (R78). -/
def boundaryChange (w : WindowId) (x : Window) (asserted : Bool) : WindowChange :=
  { record := if x.commitsNow asserted then (x.afterBoundary asserted).afterCommit
      else x.afterBoundary asserted
    flips := x.commitsNow asserted && x.drained
    pulse := x.commitsNow asserted && (x.drained && x.policy.commitOutput)
    notices := boundaryNotices w x asserted }

/-- Counting a boundary goes past the entry to a commit. -/
theorem afterCommit_countBoundary (x : Window) :
    x.afterCommit.countBoundary = x.countBoundary.afterCommit := by
  have h : x.countBoundary.drained = x.drained := rfl
  unfold Window.afterCommit
  rw [h]
  split <;> rfl

/-- A boundary at a window (R77, R78). -/
theorem boundaryAt_eq (s : State) (w : WindowId) :
    s.boundaryAt w =
      if (s.win w).state.isLiveOrSettling then
        s.changed w (boundaryChange w (s.win w) (s.levelAsserted w))
      else s := by
  unfold State.boundaryAt
  split
  case isFalse => rfl
  obtain ⟨x, hx⟩ : ∃ x, x = s.win w := ⟨_, rfl⟩
  obtain ⟨b, hb⟩ : ∃ b, b = s.levelAsserted w := ⟨_, rfl⟩
  have hrel : s.boundaryReleases w = x.releasedNow b := by rw [hx, hb]; rfl
  rw [boundaryHold_eq, hrel, ← hx, ← hb]
  have hel : (x.heldOver b).eligible = x.eligibleNow := rfl
  have hcount : (x.heldOver b).countBoundary = x.afterBoundary b := rfl
  have hgeo : (x.heldOver b).geometry = (s.win w).geometry := by rw [hx]; rfl
  have hst : (x.afterBoundary b).holdStatus = (x.heldOver b).holdStatus := rfl
  have hd : (x.heldOver b).drained = x.drained := rfl
  by_cases hp : x.releasedNow b = true ∧ (x.heldOver b).promptReady = true
  · obtain ⟨h₁, h₂⟩ := hp
    obtain ⟨hp₁, hp₂, hp₃, hp₄⟩ : x.policy.commitMode = .prompt ∧ x.state = .live ∧ x.armed = true
        ∧ (x.heldOver b).holdStatus = .clear := by
      have h := (promptReady_iff _).mp h₂
      exact ⟨h.2.1, h.1, h.2.2.1, h.2.2.2⟩
    have hc : x.commitsNow b = true := by
      simp [Window.commitsNow, hp₁, hp₂, hp₃, hst, hp₄, h₁]
    have hnb : (x.heldOver b).afterCommit.countBoundary.commitsAtBoundary = false := by
      have : (x.heldOver b).afterCommit.countBoundary.policy.commitMode = .prompt := by
        rw [afterCommit_countBoundary]; unfold Window.afterCommit; split <;> exact hp₁
      simp [Window.commitsAtBoundary, this]
    have hlate : boundaryNotices w x b = [.holdReleased w] ++ entryNotices w x := by
      simp [boundaryNotices, h₁, hc, hp₂]
    simp only [h₁, if_true]
    rw [promptTest_eq, patched_win_self, if_pos h₂, patched_changed s w _ _ hgeo, modWin_eq_patched,
      changed_patched, changed_win_self, changed_win_self]
    have hpat : (commitChange w (x.heldOver b)).record = (x.heldOver b).afterCommit := rfl
    simp only [hpat, hnb, Bool.false_eq_true, if_false, hp₂, if_true, ite_self]
    rw [afterCommit_countBoundary, hcount]
    simp only [boundaryChange, hc, hlate, if_true, Bool.true_and, commitChange, hd]
    simp only [List.append_nil]
    rfl
  · have hno : ∀ u : State, u = s.patched w (x.heldOver b)
          (if x.releasedNow b = true then [.holdReleased w] else []) →
        (if x.releasedNow b = true then u.promptTest w else u) = u := by
      rintro u rfl
      split
      · next h₁ =>
        rw [promptTest_of_not_ready]
        rw [patched_win_self]
        intro hh
        exact hp ⟨h₁, (promptReady_iff _).mpr hh⟩
      · rfl
    have hnp : ¬(x.state = .live ∧ x.armed = true ∧ (x.heldOver b).holdStatus = .clear
        ∧ x.policy.commitMode = .prompt ∧ x.releasedNow b = true) := by
      rintro ⟨h₁, h₂, h₃, h₄, h₅⟩
      exact hp ⟨h₅, (promptReady_iff _).mpr ⟨h₁, h₄, h₂, h₃⟩⟩
    dsimp only
    rw [hno _ rfl, modWin_eq_patched, patched_patched, patched_win_self, patched_win_self, hcount,
      List.append_nil, hel]
    by_cases he : x.eligibleNow = true
    · by_cases hl : x.state = .live
      · by_cases hcb : (x.afterBoundary b).commitsAtBoundary = true
        · obtain ⟨h₁, h₂, h₃⟩ : x.policy.commitMode = .boundary ∧ x.armed = true
              ∧ (x.heldOver b).holdStatus = .clear := by
            have h := hcb
            simp only [Window.commitsAtBoundary, Bool.and_eq_true, decide_eq_true_eq] at h
            exact ⟨h.1.1, h.1.2, h.2⟩
          have hc : x.commitsNow b = true := by
            simp [Window.commitsNow, h₁, h₂, hst, h₃, hl, he]
          rw [if_pos he, if_pos hl, if_pos hcb, enterCommit_eq, patched_win_self,
            patched_changed s w (x := x.afterBoundary b) _ _ hgeo]
          have hd' : (x.afterBoundary b).drained = x.drained := rfl
          have hen : entryNotices w (x.afterBoundary b) = entryNotices w x := rfl
          simp only [boundaryChange, hc, boundaryNotices, commitChange, hd', hen, if_true,
            Bool.true_and, hl]
          simp
          rfl
        · have hc : x.commitsNow b = false := by
            rw [Bool.eq_false_iff]
            intro hc
            have := hc
            simp only [Window.commitsNow, Bool.and_eq_true, Bool.or_eq_true, decide_eq_true_eq, hst]
              at this
            obtain ⟨⟨⟨h₁, h₂⟩, h₃⟩, h₄ | h₄⟩ := this
            · exact hcb (by simp [Window.commitsAtBoundary, hst, h₃]; exact ⟨h₄.1, h₂⟩)
            · exact hnp ⟨h₁, h₂, h₃, h₄⟩
          rw [if_pos he, if_pos hl, if_neg hcb, patched_eq_changed]
          simp [boundaryChange, hc, boundaryNotices, hl, quiet]
      · have hc : x.commitsNow b = false := by simp [Window.commitsNow, hl]
        have hset : x.state = .settling := by
          have hr := (isLiveOrSettling_iff x).mp (by rw [hx]; assumption)
          exact hr.resolve_left hl
        rw [if_pos he, if_neg hl, patched_raise, patched_eq_changed]
        simp [boundaryChange, hc, boundaryNotices, hset, he, quiet]
        rfl
    · have hc : x.commitsNow b = false := by
        rw [Bool.eq_false_iff]
        intro hc
        have := hc
        simp only [Window.commitsNow, Bool.and_eq_true, Bool.or_eq_true, decide_eq_true_eq, hst] at this
        obtain ⟨⟨⟨h₁, h₂⟩, h₃⟩, h₄ | h₄⟩ := this
        · exact he h₄.2
        · exact hnp ⟨h₁, h₂, h₃, h₄⟩
      rw [if_neg he, patched_eq_changed]
      simp [boundaryChange, hc, boundaryNotices, he, quiet]

/-! ### A level source at one window -/

/-- The record after its hold status becomes ACTIVE (R91). -/
def Window.activated (x : Window) : Window :=
  if x.settlingCommit then ({ x with holdStatus := .active } : Window).afterCancel true
  else { x with holdStatus := .active }

theorem becomesActive_iff {x y : Window} : BecomesActive x y ↔ y = x.activated := by
  unfold BecomesActive Window.activated
  by_cases h : x.Committing
  · simp [(settlingCommit_iff x).mpr h, h]
  · have : x.settlingCommit = false := by
      rw [Bool.eq_false_iff]; exact fun e => h ((settlingCommit_iff x).mp e)
    simp [this, h]

/-- The record after a level source strikes it in LIVE or SETTLING (R99, R103). -/
def Window.struck (x : Window) : Window :=
  match x.policy.holdPolicy with
  | .latched =>
    if x.holdStatus = .active then { x with holdAck := false }
    else ({ x with holdAck := false } : Window).activated
  | .perBoundary => if x.holdStatus = .clear then x.activated else x

/-- What a strike does is the record and the notices that `Window.struck` and `strikeNotices` give. -/
theorem levelStrikes_iff {x y : Window} {w : WindowId} {c : HoldSource} {l : List Notice} :
    LevelStrikes x y w c l ↔ y = x.struck ∧ l = strikeNotices x w c := by
  unfold LevelStrikes Window.struck strikeNotices
  cases hp : x.policy.holdPolicy <;> cases hs : x.holdStatus <;>
    simp [becomesActive_iff]

/-- The record after a level source releases it in LIVE or SETTLING (R100, R103). -/
def Window.letGo (x : Window) (left : Bool) : Window :=
  if x.policy.holdPolicy = .latched ∧ x.holdStatus = .active ∧ x.holdAck = true ∧ left = false then
    { x with holdStatus := .releasing }
  else x

theorem levelReleases_iff {x y : Window} {left : Bool} :
    LevelReleases x y left ↔ y = x.letGo left := by
  unfold LevelReleases Window.letGo
  cases hp : x.policy.holdPolicy <;> cases hs : x.holdStatus <;> cases ha : x.holdAck <;>
    cases left <;> simp

/-- What a level source that asserts does at a window (R95, R99, R103). -/
def assertChange (w : WindowId) (x : Window) (c : HoldSource) : WindowChange :=
  if x.state.isLiveOrSettling then { quiet x.struck with notices := strikeNotices x w c } else quiet x

theorem levelAsserts_changed (s : State) (w : WindowId) (c : HoldSource) :
    s.levelAsserts w c = s.changed w (assertChange w (s.win w) c) := by
  unfold assertChange
  split
  · next h =>
    obtain ⟨x, l, hx, e⟩ := levelAsserts_eq s w c ((isLiveOrSettling_iff _).mp h)
    obtain ⟨rfl, rfl⟩ := levelStrikes_iff.mp hx
    exact e
  · next h =>
    rw [levelAsserts_of_not_running s w c fun hr => h ((isLiveOrSettling_iff _).mpr hr)]
    exact (changed_quiet_self s w).symm

/-- What a level source that releases does at a window; `left` says whether one is still asserted (R95,
R100, R103). -/
def releaseChange (x : Window) (left : Bool) : WindowChange :=
  quiet (if x.state.isLiveOrSettling then x.letGo left else x)

theorem levelReleases_changed (s : State) (w : WindowId) :
    s.levelReleases w = s.changed w (releaseChange (s.win w) (s.levelAsserted w)) := by
  unfold releaseChange
  split
  · next h =>
    obtain ⟨x, hx, e⟩ := levelReleases_eq s w ((isLiveOrSettling_iff _).mp h)
    rw [← levelReleases_iff.mp hx]
    exact e
  · next h =>
    rw [levelReleases_of_not_running s w fun hr => h ((isLiveOrSettling_iff _).mpr hr)]
    exact (changed_quiet_self s w).symm

/-- Whether a level source is asserted at a window of the given record (R96). -/
def assertedAt (lv : LineLevels) (cf : Settings) (x : Window) : Bool :=
  lineAsserted lv cf x .hold0 || lineAsserted lv cf x .hold1 || x.manualHold

/-- What an edge of an input line does at a window, with the levels and settings given (R139, R140). -/
def edgeChange (lv : LineLevels) (cf : Settings) (l : InputLine) (w : WindowId) (x : Window) :
    WindowChange :=
  let hold := fun h =>
    if x.policy.sources.counts h then
      if lineActive lv cf h then assertChange w x (holdLineSource h)
      else releaseChange x (assertedAt lv cf x)
    else quiet x
  match l with
  | .sync =>
    if lv.sync then
      if x.state.isLiveOrSettling then boundaryChange w x (assertedAt lv cf x) else quiet x
    else quiet x
  | .pubreq => if lv.pubreq then pubreqChange w x else quiet x
  | .hold0 => hold .hold0
  | .hold1 => hold .hold1

theorem holdEdgeAt_eq (s : State) (h : HoldLine) (w : WindowId) :
    s.holdEdgeAt h w = s.changed w
      (if (s.win w).policy.sources.counts h then
        if lineActive s.lines.levels s.settings h then assertChange w (s.win w) (holdLineSource h)
        else releaseChange (s.win w) (assertedAt s.lines.levels s.settings (s.win w))
      else quiet (s.win w)) := by
  unfold State.holdEdgeAt
  split
  · split
    · exact levelAsserts_changed s w _
    · exact levelReleases_changed s w
  · exact (changed_quiet_self s w).symm

/-- An edge of an input line at a window (R139). -/
theorem edgeAt_eq (s : State) (l : InputLine) (w : WindowId) :
    s.edgeAt l w = s.changed w (edgeChange s.lines.levels s.settings l w (s.win w)) := by
  cases l with
  | sync =>
    simp only [State.edgeAt, edgeChange]
    split
    · rw [boundaryAt_eq]
      split
      · rfl
      · exact (changed_quiet_self s w).symm
    · exact (changed_quiet_self s w).symm
  | pubreq =>
    simp only [State.edgeAt, edgeChange]
    split
    · exact pubreqAt_eq s w
    · exact (changed_quiet_self s w).symm
  | hold0 => exact holdEdgeAt_eq s .hold0 w
  | hold1 => exact holdEdgeAt_eq s .hold1 w

/-- A change of the polarities at a window, from the settings `old` (R96, R140). -/
theorem polarityAt_eq (s : State) (old : Settings) (w : WindowId) :
    s.polarityAt old w = s.changed w
      (let was := fun h => lineAsserted s.lines.levels old (s.win w) h
       let is := fun h => lineAsserted s.lines.levels s.settings (s.win w) h
       if !was .hold0 && is .hold0 then assertChange w (s.win w) .hold0
       else if !was .hold1 && is .hold1 then assertChange w (s.win w) .hold1
       else if (was .hold0 && !is .hold0) || (was .hold1 && !is .hold1) then
         releaseChange (s.win w) (assertedAt s.lines.levels s.settings (s.win w))
       else quiet (s.win w)) := by
  simp only [State.polarityAt]
  split
  · exact levelAsserts_changed s w _
  · split
    · exact levelAsserts_changed s w _
    · split
      · exact levelReleases_changed s w
      · exact (changed_quiet_self s w).symm

/-- The edge of one line sampled alone at a new level, with no request presented: every window takes it,
in the order given (R139). -/
theorem sample_sweep {s : State} {x : LineSample} (o : Order) (hch : s.hport.channel = [])
    (h : levelAt s.lines.levels x.line = !x.level) :
    Sweep (s.setLevels (putLevel s.lines.levels x)) (s.takeSample [x] o) (edgeOrder o x.line)
      fun w => edgeChange (putLevel s.lines.levels x) s.settings x.line w (s.win w) := by
  rw [takeSample_of_edge o hch h
    (fun w t => by rw [edgeAt_eq]; exact only_changed _ _ _ .hport (by simp))
    (fun w t => by rw [edgeAt_eq, changed_lines, pulsed_levels])]
  obtain ⟨c, hc, hs⟩ := forWindows_sweep (levels := putLevel s.lines.levels x) (settings := s.settings)
    (R := fun w y c => c = edgeChange (putLevel s.lines.levels x) s.settings x.line w y)
    (f := fun w t => t.edgeAt x.line w)
    (fun w t hl hst => ⟨_, edgeAt_eq t x.line w, by rw [hl, hst]⟩)
    (edgeOrder o x.line) (nodup_edgeOrder o x.line) (s.setLevels (putLevel s.lines.levels x)) rfl rfl
  have e : c = fun w => edgeChange (putLevel s.lines.levels x) s.settings x.line w (s.win w) := by
    funext w
    exact hc w (mem_edgeOrder o x.line w)
  rw [← e]
  exact hs

end Sys2Proof.Machine
end

