-- ==== Sys2Proof/Laws/Fills.lean ====
section
/-! SUPPORT. What the shared operations on a slot do, each said once: issuing, leaving WAITING, merging
a held write into a line (R56 to R64). -/

namespace Sys2Proof.Machine

/-! ### Bytes of words and lines -/

/-- Byte `k` of the data word whose bytes are given (section 11.1). -/
theorem wordByte_wordOfBytes (f : Nat → Byte) {k : Nat} (h : k < 8) :
    wordByte (wordOfBytes f) k = f k := by
  apply BitVec.eq_of_getLsbD_eq
  intro i hi
  simp only [wordByte, wordOfBytes, BitVec.getLsbD_extractLsb', BitVec.getLsbD_append]
  match k, h with
  | 0, _ => simp [hi]
  | 1, _ => simp [hi, show ¬(8 + i < 8) by omega, show 8 + i - 8 = i by omega]
  | 2, _ =>
    simp [hi, show ¬(16 + i < 8) by omega, show 16 + i - 8 = 8 + i by omega,
      show ¬(8 + i < 8) by omega, show 8 + i - 8 = i by omega]
  | 3, _ =>
    simp [hi, show ¬(24 + i < 8) by omega, show 24 + i - 8 = 16 + i by omega,
      show ¬(16 + i < 8) by omega, show 16 + i - 8 = 8 + i by omega,
      show ¬(8 + i < 8) by omega, show 8 + i - 8 = i by omega]
  | 4, _ =>
    simp [hi, show ¬(32 + i < 8) by omega, show 32 + i - 8 = 24 + i by omega,
      show ¬(24 + i < 8) by omega, show 24 + i - 8 = 16 + i by omega,
      show ¬(16 + i < 8) by omega, show 16 + i - 8 = 8 + i by omega,
      show ¬(8 + i < 8) by omega, show 8 + i - 8 = i by omega]
  | 5, _ =>
    simp [hi, show ¬(40 + i < 8) by omega, show 40 + i - 8 = 32 + i by omega,
      show ¬(32 + i < 8) by omega, show 32 + i - 8 = 24 + i by omega,
      show ¬(24 + i < 8) by omega, show 24 + i - 8 = 16 + i by omega,
      show ¬(16 + i < 8) by omega, show 16 + i - 8 = 8 + i by omega,
      show ¬(8 + i < 8) by omega, show 8 + i - 8 = i by omega]
  | 6, _ =>
    simp [hi, show ¬(48 + i < 8) by omega, show 48 + i - 8 = 40 + i by omega,
      show ¬(40 + i < 8) by omega, show 40 + i - 8 = 32 + i by omega,
      show ¬(32 + i < 8) by omega, show 32 + i - 8 = 24 + i by omega,
      show ¬(24 + i < 8) by omega, show 24 + i - 8 = 16 + i by omega,
      show ¬(16 + i < 8) by omega, show 16 + i - 8 = 8 + i by omega,
      show ¬(8 + i < 8) by omega, show 8 + i - 8 = i by omega]
  | 7, _ =>
    simp [hi, show ¬(56 + i < 8) by omega, show 56 + i - 8 = 48 + i by omega,
      show ¬(48 + i < 8) by omega, show 48 + i - 8 = 40 + i by omega,
      show ¬(40 + i < 8) by omega, show 40 + i - 8 = 32 + i by omega,
      show ¬(32 + i < 8) by omega, show 32 + i - 8 = 24 + i by omega,
      show ¬(24 + i < 8) by omega, show 24 + i - 8 = 16 + i by omega,
      show ¬(16 + i < 8) by omega, show 16 + i - 8 = 8 + i by omega,
      show ¬(8 + i < 8) by omega, show 8 + i - 8 = i by omega]

/-- Byte `i` of the line whose bytes are given (R59). -/
theorem lineByte_lineOfBytes (f : Nat → Byte) {i : Nat} (h : i < 64) :
    lineByte (lineOfBytes f) i = f i := by
  have hw : (lineOfBytes f).toList.getD (i / 8) 0 = wordOfBytes fun k => f (8 * (i / 8) + k) := by
    have : i / 8 < 8 := by omega
    generalize i / 8 = j at this ⊢
    interval_cases j <;> rfl
  rw [lineByte, hw, wordByte_wordOfBytes _ (Nat.mod_lt _ (by decide))]
  congr 1
  omega

/-- An enabled byte of a held write replaces the line's; a disabled one leaves it (R59 step 2). -/
theorem lineByte_mergeBeats (l : Line) (o : Nat) (d : List Beat) {j b : Nat} {beat : Beat}
    (hj : d[j]? = some beat) (hb : b < 8) (hi : o + 8 * j + b < 64) :
    lineByte (mergeBeats l o d) (o + 8 * j + b) =
      if beat.mask.getLsbD b then wordByte beat.data b else lineByte l (o + 8 * j + b) := by
  rw [mergeBeats, lineByte_lineOfBytes _ hi]
  have h₁ : (o + 8 * j + b - o) / 8 = j := by omega
  have h₂ : (o + 8 * j + b - o) % 8 = b := by omega
  have h₃ : o ≤ o + 8 * j + b := by omega
  simp only [h₁, h₂, h₃, hj, true_and]

/-- A byte outside a held write keeps the line's value (R59 step 2). -/
theorem lineByte_mergeBeats_outside (l : Line) (o : Nat) (d : List Beat) {i : Nat} (hi : i < 64)
    (h : i < o ∨ o + 8 * d.length ≤ i) : lineByte (mergeBeats l o d) i = lineByte l i := by
  rw [mergeBeats, lineByte_lineOfBytes _ hi]
  rcases h with h | h
  · have : ¬(o ≤ i) := by omega
    split <;> simp [this]
  · have : d[(i - o) / 8]? = none := by
      rw [List.getElem?_eq_none_iff]; omega
    simp only [this]

/-! ### Issuing -/

theorem SlotBecomes.setSlot (s : State) (n : SlotId) (k : Option SlotWork) :
    SlotBecomes s (s.setSlot n k) n k := ⟨by simp, fun _ hm => slot_setSlot_of_ne s hm k⟩

theorem SlotBecomes.of_slots {s t u : State} {n : SlotId} {k : Option SlotWork}
    (h : SlotBecomes s t n k) (e : u.slots = t.slots) : SlotBecomes s u n k := by
  unfold SlotBecomes State.slot at h ⊢
  rw [e]; exact h

/-- A slot in READING issues the read of its line in its source bank (R58, R68). -/
theorem startPhase_reading (s : State) (n : SlotId) {k : SlotWork} (h : k.phase = .reading) :
    s.startPhase n k = (s.setSlot n (some k)).issue
      { tag := slotTag n, address := (s.win k.window).geometry.lineAddress k.source k.line
        access := .read 8 } := by
  simp [State.startPhase, State.issueSlot, SlotWork.operation, h]

/-- A slot in WRITING issues the write of its buffer to its line in its target bank (R61, R68). -/
theorem startPhase_writing (s : State) (n : SlotId) {k : SlotWork} {l : Line}
    (h : k.phase = .writing) (hl : k.buffer = some l) :
    s.startPhase n k = (s.setSlot n (some k)).issue
      { tag := slotTag n, address := (s.win k.window).geometry.lineAddress k.target k.line
        access := .write (beatsOfLine l) } := by
  simp [State.startPhase, State.issueSlot, SlotWork.operation, h, hl]

/-- A slot in WRITING without a buffer issues nothing. -/
theorem startPhase_empty (s : State) (n : SlotId) {k : SlotWork}
    (h : k.phase = .writing) (hl : k.buffer = none) :
    s.startPhase n k = s.setSlot n (some k) := by
  simp [State.startPhase, State.issueSlot, SlotWork.operation, h, hl]

/-- A slot that may leave WAITING does (R60). -/
theorem leaveWaiting_of_mayWrite {s : State} {n : SlotId} {k : SlotWork} (h : s.slot n = some k)
    (hm : k.mayWrite (s.win k.window) = true) :
    s.leaveWaiting n = s.startPhase n { k with phase := .writing, attempt := 1 } := by
  simp [State.leaveWaiting, h, hm]

/-- A slot that may not leave WAITING stays (R60). -/
theorem leaveWaiting_of_not {s : State} {n : SlotId} {k : SlotWork} (h : s.slot n = some k)
    (hm : k.mayWrite (s.win k.window) = false) : s.leaveWaiting n = s := by
  simp [State.leaveWaiting, h, hm]

/-- A fill may leave WAITING where no read of the previous epoch is left (R60). -/
theorem mayWrite_of_fill {k : SlotWork} {w : WindowId} {x : Window} (h : k.FillsFor w)
    (hp : k.phase = .waiting) : k.mayWrite x = decide (x.previousReads = 0) := by
  obtain ⟨-, ho, hk⟩ := h
  rcases hk with hk | hk <;> simp [SlotWork.mayWrite, SlotWork.isFill, ho, hk, hp]

theorem isFill_of_fillsFor {k : SlotWork} {w : WindowId} (h : k.FillsFor w) : k.isFill = true := by
  obtain ⟨-, ho, hk⟩ := h
  rcases hk with hk | hk <;> simp [SlotWork.isFill, ho, hk]

theorem isCopy_of_copiesFor {k : SlotWork} {w : WindowId} (h : k.CopiesFor w) :
    k.isCopy = true := by
  obtain ⟨-, ho, hk⟩ := h
  simp [SlotWork.isCopy, ho, hk]

/-- A command that acts on a slot acts where its condition holds of the slot's work. -/
theorem onSlot_of_cond {s : State} {n : SlotId} {k : SlotWork} {cond : SlotWork → Bool}
    {f : SlotWork → State → State} (hr : s.inReset = false) (h : s.slot n = some k)
    (hc : cond k = true) : s.onSlot n cond f = f k s := by
  simp [State.onSlot, hr, h, hc]

/-- A slot's new phase changes the slots and the issue queue alone. -/
theorem only_startPhase (s : State) (n : SlotId) (k : SlotWork) : Only [.slots,
    .issueQueue] s (s.startPhase n k) := by
  unfold State.startPhase State.issueSlot
  split
  · exact (only_setSlot _ _ _).mono (by simp)
  · split
    · exact (only_setSlot _ _ _).mono (by simp)
    · exact ((only_setSlot _ _ _).mono (by simp)).trans ((only_issue _ _).mono (by simp))

/-- A slot's new phase changes that slot alone. -/
theorem slotBecomes_startPhase (s : State) (n : SlotId) (k : SlotWork) :
    SlotBecomes s (s.startPhase n k) n (some k) := by
  unfold State.startPhase State.issueSlot
  split
  · exact SlotBecomes.setSlot _ _ _
  · split
    · exact SlotBecomes.setSlot _ _ _
    · exact (SlotBecomes.setSlot s n (some k)).of_slots rfl

/-- The line of a write of a whole line, and its beats again (R63). -/
theorem line_of_full_beats {d : List Beat} (h8 : d.length = 8) (hm : ∀ b ∈ d, b.mask = 0xFF) :
   (lineOfBeats d).toList = d.map Beat.data ∧ beatsOfLine (lineOfBeats d) = d := by
  match d, h8 with
  | [a,b,c,e,f,g,h,i], _ =>
    refine ⟨rfl, ?_⟩
    simp only [List.mem_cons, List.not_mem_nil, or_false, forall_eq_or_imp, forall_eq] at hm
    obtain ⟨a, am⟩ := a; obtain ⟨b, bm⟩ := b; obtain ⟨c, cm⟩ := c; obtain ⟨e, em⟩ := e
    obtain ⟨f, fm⟩ := f; obtain ⟨g, gm⟩ := g; obtain ⟨h, hm'⟩ := h; obtain ⟨i, im⟩ := i
    simp only at hm
    obtain ⟨h1,h2,h3,h4,h5,h6,h7,h8⟩ := hm
    subst h1 h2 h3 h4 h5 h6 h7 h8
    rfl

/-- A write of the whole line (R47). -/
theorem isFullLine_iff (d : List Beat) : isFullLine d = true ↔ (d.length = 8 ∧ ∀ b ∈ d, b.mask =
    0xFF) := by
  simp [isFullLine]

end Sys2Proof.Machine
end

