-- ==== Sys2Proof/Laws/Frames.lean ====
section
/-! SUPPORT. The management port: what the bytes of a frame do, and what a frame of the right length, of
a wrong length, and a read frame leave, said once (R144 to R148). -/

namespace Sys2Proof.Machine

/-! ### The bits of a frame -/

/-- The port at the end of the command byte of a frame that begins (R144, R145). -/
def State.opened (s : State) (c : Option CommandName) : MgmtPort :=
  { frameState := .inFrame 8, command := c, status := s.statusByte, taken := s.takenAtCommand c
    argBuffer := [], lastResult := s.mgmt.lastResult
    sdo := { bytes := [s.statusByte], tail := [] } }

/-- A port that is not in a frame takes the beginning of one with any command. -/
theorem takesPart_of_free {s : State} (h : s.PortFree) (c : Option CommandName) :
    s.mgmt.takesPart c = true := by
  unfold MgmtPort.takesPart
  split
  · next b hb => exact absurd hb (h.2 b)
  · rfl

/-- CS goes low on a port that is not in a frame. -/
theorem csFalls_of_free {s : State} (h : s.PortFree) :
    s.mgmt.csFalls s.statusByte =
      { s.mgmt with frameState := .inFrame 0, command := none, status := s.statusByte, taken := .nothing
                    argBuffer := [], sdo := { bytes := [], tail := [] } } := by
  unfold MgmtPort.csFalls
  split
  · next b hb => exact absurd hb (h.2 b)
  · rfl

/-- The bytes of a frame that begins. -/
theorem clocked_of_free {s : State} (h : s.PortFree) (c : Option CommandName) (f : Frame)
    (hf : f.till = .csRises ∨ f.till = .csLow) :
    s.clocked c f = f.args.foldl (s.clockByte c) (s.opened c, s.notices) := by
  have : s.clockCommand c (s.mgmt.csFalls s.statusByte) = s.opened c := by
    rw [csFalls_of_free h]; rfl
  unfold State.clocked
  split
  · next e => rw [e] at hf; simp at hf
  · next e => rw [e] at hf; simp at hf
  · show List.foldl _ (s.clockCommand c (s.mgmt.csFalls s.statusByte), s.notices) _ = _
    rw [this]

/-- The content that stands after the bytes `l` of a command other than READ NOTICE. -/
def State.takenAfter (s : State) (c : Option CommandName) (l : List Byte) (t : Taken) : Taken :=
  if 0 < argumentCount c ∧ argumentCount c ≤ l.length then
    s.takenAtArguments c (l.take (argumentCount c)) t
  else t

/-- What one byte of a command other than READ NOTICE does. -/
theorem clockByte_other (s : State) {c : Option CommandName} (hc : c ≠ some .readNotice) (m : MgmtPort)
    (q : NoticeQueue) (b : Byte) :
    s.clockByte c (m, q) b =
      ({ m with
          frameState := .inFrame (m.bits + 8)
          argBuffer :=
            if m.byteIndex < argumentCount c then m.argBuffer ++ [b] else m.argBuffer
          taken :=
            if m.byteIndex + 1 = argumentCount c then
              s.takenAtArguments c
                (if m.byteIndex < argumentCount c then m.argBuffer ++ [b] else m.argBuffer) m.taken
            else m.taken
          sdo := { bytes := m.sdo.bytes ++ [outByte c m.byteIndex m.taken], tail := [] } }, q) := by
  have hq : (match m.taken with
      | .slot (some _) => if False then q.removeHead else q
      | _ => q) = q := by
    split <;> simp
  simp only [State.clockByte, offered, hc, false_and, if_false]
  exact congrArg _ hq

/-- What the bytes of a frame other than READ NOTICE do: the arguments are stored, the content is taken
at the last of them, and the response goes out after them (R146). -/
theorem foldl_clockByte (s : State) {c : Option CommandName} (hc : c ≠ some .readNotice)
    (m : MgmtPort) (q : NoticeQueue) (hm : m.frameState = .inFrame 8) (ha : m.argBuffer = [])
    (ht : m.sdo.tail = []) (l : List Byte) :
    l.foldl (s.clockByte c) (m, q) =
      ({ m with
          frameState := .inFrame (8 + 8 * l.length)
          argBuffer := l.take (argumentCount c)
          taken := s.takenAfter c l m.taken
          sdo := { bytes := m.sdo.bytes ++
                    (List.range l.length).map fun i => outByte c i (s.takenAfter c l m.taken)
                   tail := [] } }, q) := by
  induction l using List.reverseRecOn with
  | nil =>
    obtain ⟨fs, cmd, st, tk, ab, lr, sdo⟩ := m
    obtain ⟨b, tl⟩ := sdo
    simp only at hm ha ht
    subst hm ha ht
    simp only [List.foldl_nil, List.length_nil, List.take_nil, List.range_zero, List.map_nil,
      List.append_nil, State.takenAfter]
    rw [if_neg (by omega)]
  | append_singleton l b ih =>
    rw [List.foldl_append, ih]
    have hi : MgmtPort.byteIndex
        { m with frameState := FrameState.inFrame (8 + 8 * l.length)
                 argBuffer := l.take (argumentCount c), taken := s.takenAfter c l m.taken
                 sdo := { bytes := m.sdo.bytes ++
                    (List.range l.length).map fun i => outByte c i (s.takenAfter c l m.taken)
                          tail := [] } } = l.length := by
      show (8 + 8 * l.length - 8) / 8 = _
      omega
    simp only [List.foldl_cons, List.foldl_nil, clockByte_other s hc, hi]
    have hb : (8 + 8 * l.length + 8) = 8 + 8 * (l ++ [b]).length := by simp; omega
    have htake : (if l.length < argumentCount c then l.take (argumentCount c) ++ [b]
        else l.take (argumentCount c)) = (l ++ [b]).take (argumentCount c) := by
      split
      · next h => rw [List.take_of_length_le (by omega), List.take_of_length_le (by simp; omega)]
      · next h => rw [List.take_append_of_le_length (by omega)]
    have htk : (if l.length + 1 = argumentCount c then
          s.takenAtArguments c (if l.length < argumentCount c then l.take (argumentCount c) ++ [b]
            else l.take (argumentCount c)) (s.takenAfter c l m.taken)
        else s.takenAfter c l m.taken) = s.takenAfter c (l ++ [b]) m.taken := by
      rw [htake]
      by_cases h : l.length + 1 = argumentCount c
      · simp only [State.takenAfter, List.length_append, List.length_singleton]
        rw [if_pos h, if_neg (by omega), if_pos (by omega)]
      · rw [if_neg h]
        simp only [State.takenAfter, List.length_append, List.length_singleton]
        by_cases h2 : 0 < argumentCount c ∧ argumentCount c ≤ l.length
        · rw [if_pos h2, if_pos (by omega), List.take_append_of_le_length (by omega)]
        · rw [if_neg h2, if_neg (by omega)]
    have hsdo : m.sdo.bytes ++ (List.range l.length).map (fun i => outByte c i (s.takenAfter c l m.taken))
          ++ [outByte c l.length (s.takenAfter c l m.taken)] =
        m.sdo.bytes ++ (List.range (l ++ [b]).length).map fun i =>
          outByte c i (s.takenAfter c (l ++ [b]) m.taken) := by
      have hout : ∀ i, i ≤ l.length → outByte c i (s.takenAfter c l m.taken)
          = outByte c i (s.takenAfter c (l ++ [b]) m.taken) := by
        intro i hle
        unfold outByte
        split
        · rfl
        · have h2 : ¬ l.length + 1 = argumentCount c := by omega
          rw [← htk, if_neg h2]
      rw [List.length_append, List.length_singleton, List.range_succ, List.map_append, List.map_singleton,
        List.append_assoc, hout _ (Nat.le_refl _)]
      congr 2
      exact List.map_congr_left fun i h => hout i (Nat.le_of_lt (List.mem_range.mp h))
    rw [htk, hsdo, htake]
    simp only [MgmtPort.bits, hb]

/-- What a part of a frame clocked to the end of CS leaves, for a frame that begins. -/
theorem frame_whole {s : State} (h : s.PortFree) (c : Option CommandName) (l : List Byte) (e : Nat)
    (atEnd : MgmtPort × NoticeQueue → State → ResultCode × State) (p : MgmtPort × NoticeQueue)
    (hp : l.foldl (s.clockByte c) (s.opened c, s.notices) = p) :
    s.frame c { args := l, extra := e } atEnd =
      { (atEnd p { s with notices := p.2 }).2 with
        mgmt := p.1.ended (tailBits c { args := l, extra := e } p)
          (atEnd p { s with notices := p.2 }).1 } := by
  have hc : s.clocked c { args := l, extra := e } = p := by
    rw [clocked_of_free h c _ (by simp), hp]
  simp only [State.frame, takesPart_of_free h, if_true, hc]
  rfl

/-- What a frame that ends before its command byte is complete leaves, whatever its command (R144). -/
theorem frame_early (s : State) (c : Option CommandName) (e : Nat)
    (atEnd : MgmtPort × NoticeQueue → State → ResultCode × State) :
    let m := s.mgmt.csFalls s.statusByte
    s.frame c { args := [], extra := e, till := .csRisesEarly } atEnd =
      if m.bits = 0 then
        s.modMgmt fun _ => m.ended ((bitsOfByte m.status).take (e % 8)) s.mgmt.lastResult
      else s := by
  intro m
  have hl : m.lastResult = s.mgmt.lastResult := by
    show (s.mgmt.csFalls s.statusByte).lastResult = _
    unfold MgmtPort.csFalls; split <;> rfl
  by_cases hp : s.mgmt.takesPart c = true
  · have hf : s.frame c { args := [], extra := e, till := .csRisesEarly } atEnd =
        s.modMgmt fun _ => m.endedEarly e := by
      rw [State.frame, if_pos hp]; rfl
    rw [hf]
    by_cases hb : m.bits = 0
    · rw [if_pos hb]
      show s.modMgmt (fun _ => if m.bits = 0 then _ else m) = _
      rw [if_pos hb, hl]
    · have hm : m = s.mgmt := by
        have hb : ¬(s.mgmt.csFalls s.statusByte).bits = 0 := hb
        show s.mgmt.csFalls s.statusByte = _
        unfold MgmtPort.csFalls at hb ⊢
        cases hf : s.mgmt.frameState <;> simp only [hf] at hb ⊢
        all_goals exact absurd rfl hb
      rw [if_neg hb]
      show s.modMgmt (fun _ => if m.bits = 0 then _ else m) = _
      rw [if_neg hb, hm]; rfl
  · have hb : ¬m.bits = 0 := by
      show ¬(s.mgmt.csFalls s.statusByte).bits = 0
      revert hp
      unfold MgmtPort.takesPart MgmtPort.csFalls MgmtPort.bits; split <;> simp_all
    rw [State.frame, if_neg hp, if_neg hb]

/-- Zero bytes go out where no response stands. -/
theorem map_outByte_nothing {c : Option CommandName} {t : Taken} (ht : t.bytes = []) (n : Nat) :
    (List.range n).map (fun i => outByte c i t) = List.replicate n (0 : Byte) := by
  apply List.ext_getElem
  · simp
  · intro i _ _
    simp [outByte, ht]

/-- What a whole frame of a command other than READ NOTICE leaves: its end with the content taken, the
arguments, and what went out. -/
theorem frame_spec {s : State} (h : s.PortFree) {c : Option CommandName} (hc : c ≠ some .readNotice)
    (l : List Byte) (e : Nat) (atEnd : MgmtPort × NoticeQueue → State → ResultCode × State) :
    ∃ m : MgmtPort, ∃ tail : List Bool,
      m.bitsAfter = 8 * l.length ∧ m.argBuffer = l.take (argumentCount c)
      ∧ m.taken = s.takenAfter c l (s.takenAtCommand c)
      ∧ (e % 8 = 0 → tail = [])
      ∧ s.frame c { args := l, extra := e } atEnd =
        { (atEnd (m, s.notices) s).2 with
          mgmt := portIdle (l.take (argumentCount c)) (atEnd (m, s.notices) s).1
            { bytes := s.statusByte :: (List.range l.length).map fun i =>
                outByte c i (s.takenAfter c l (s.takenAtCommand c))
              tail } } := by
  have hp := foldl_clockByte s hc (s.opened c) s.notices rfl rfl rfl l
  refine ⟨_, _, ?_, rfl, rfl, ?_, frame_whole h c l e atEnd _ hp⟩
  · show 8 + 8 * l.length - 8 = _; omega
  · intro he; simp [tailBits, he]

/-! ### Write-type frames -/

/-- The content of a write-type frame is none. -/
theorem takenAfter_of_write (s : State) {c : CommandName} (hc : isReadCommand c = false)
    (l : List Byte) : s.takenAfter (some c) l (s.takenAtCommand (some c)) = .nothing := by
  unfold State.takenAfter
  split <;> cases c <;> first | rfl | cases hc

theorem not_readNotice {c : CommandName} (hc : isReadCommand c = false) :
    (some c) ≠ some CommandName.readNotice := by
  rintro h; cases h; cases hc

/-- A write-type frame of exactly its argument bytes: the body's result, with the port as reported. -/
theorem writeFrame_exact {s : State} (hs : s.PortFree) {c : CommandName}
    (hc : isReadCommand c = false) {l : List Byte}
    (h : l.length = argumentBytes c) (body : Frame → State → ResultCode × State) :
    s.writeFrame c { args := l } body =
      { (body { args := l } s).2 with mgmt := reported s l (body { args := l } s).1 } := by
  obtain ⟨m, tail, hb, ha, ht, htl, hf⟩ := frame_spec hs (not_readNotice hc) l 0
    fun p t => if totalBits { args := l, extra := 0 } p.1 = 8 * argumentBytes c then
      body { args := p.1.argBuffer } t else (.badLength, t)
  have htake : l.take (argumentCount (some c)) = l := by
    show l.take (argumentBytes c) = l
    rw [← h, List.take_length]
  have hbits : totalBits { args := l, extra := 0 } m = 8 * argumentBytes c := by
    show m.bitsAfter + 0 % 8 = _; rw [hb, h]; rfl
  rw [htake] at ha hf
  rw [State.writeFrame, hf]
  simp only [hbits, if_true, ha, htl rfl, takenAfter_of_write s hc]
  rw [map_outByte_nothing rfl, reported]

/-- The outcome of a write-type command whose frame has exactly its argument bytes, from its body's. -/
theorem writeFrame_reports {s t : State} {c : CommandName} {l : List Byte} {r : ResultCode}
    {body : Frame → State → ResultCode × State} (hs : s.PortFree) (hc : isReadCommand c = false)
    (h : l.length = argumentBytes c) (hb : body { args := l } s = (r, t)) :
    (.next (s.whenRunning fun s => s.writeFrame c { args := l } body) : Answer) =
      .next { t with mgmt := reported s l r } := by
  rw [whenRunning_of_running hs.1, writeFrame_exact hs hc h, hb]

/-- A write-type frame of another length is refused with BAD_LENGTH, and changes the port alone (R147). -/
theorem writeFrame_badLength {s : State} (hs : s.PortFree) {c : CommandName}
    (hc : isReadCommand c = false) {l : List Byte} {e : Nat}
    (h : 8 * l.length + e % 8 ≠ 8 * argumentBytes c) (body : Frame → State → ResultCode × State) :
    ∃ args tail, s.writeFrame c { args := l, extra := e } body =
      { s with
        mgmt := portIdle args .badLength
          { bytes := s.statusByte :: List.replicate l.length 0, tail } } := by
  obtain ⟨m, tail, hb, ha, ht, htl, hf⟩ := frame_spec hs (not_readNotice hc) l e
    fun p t => if totalBits { args := l, extra := e } p.1 = 8 * argumentBytes c then
      body { args := p.1.argBuffer } t else (.badLength, t)
  have hbits : totalBits { args := l, extra := e } m ≠ 8 * argumentBytes c := by
    show m.bitsAfter + e % 8 ≠ _; rw [hb]; exact h
  refine ⟨l.take (argumentBytes c), tail, ?_⟩
  rw [State.writeFrame, hf]
  simp only [hbits, if_false, takenAfter_of_write s hc]
  rw [map_outByte_nothing rfl]
  rfl

/-! ### Read frames -/

/-- A read frame of a command other than READ NOTICE: the content taken gives the response and, where
the arguments are complete, the result; it changes the port alone (R146, R147). -/
theorem readFrame_spec {s : State} (hs : s.PortFree) {c : CommandName} (hc : c ≠ .readNotice)
    (l : List Byte) (e : Nat) :
    ∃ tail, (e % 8 = 0 → tail = []) ∧
      s.readFrame c { args := l, extra := e } =
        { s with
          mgmt := portIdle (l.take (argumentBytes c))
            (if 8 * argumentBytes c ≤ 8 * l.length + e % 8 then
              (s.takenAfter (some c) l (s.takenAtCommand (some c))).result else .badLength)
            { bytes := s.statusByte :: (List.range l.length).map fun i =>
                outByte (some c) i (s.takenAfter (some c) l (s.takenAtCommand (some c)))
              tail } } := by
  obtain ⟨m, tail, hb, ha, ht, htl, hf⟩ := frame_spec hs (c := some c) (by simpa using hc) l e
    fun p t => (if 8 * argumentBytes c ≤ totalBits { args := l, extra := e } p.1 then
      p.1.taken.result else .badLength, t)
  refine ⟨tail, htl, ?_⟩
  rw [State.readFrame, hf]
  have hbits : totalBits { args := l, extra := e } m = 8 * l.length + e % 8 := by
    show m.bitsAfter + e % 8 = _; rw [hb]
  simp only [hbits, ht]
  rfl

/-- A frame whose command byte names no command: zero bytes, BAD_COMMAND, and the port alone changes
(R147). -/
theorem badFrame_spec {s : State} (hs : s.PortFree) (l : List Byte) (e : Nat) :
    ∃ tail, s.frame none { args := l, extra := e } (fun _ t => (.badCommand, t)) =
      { s with
        mgmt := portIdle [] .badCommand
          { bytes := s.statusByte :: List.replicate l.length 0, tail } } := by
  obtain ⟨m, tail, hb, ha, ht, htl, hf⟩ := frame_spec hs (c := none) (by simp) l e
    fun _ t => (.badCommand, t)
  refine ⟨tail, ?_⟩
  rw [hf]
  have : s.takenAfter none l (s.takenAtCommand none) = .nothing := by
    unfold State.takenAfter; split <;> rfl
  rw [this, map_outByte_nothing rfl]
  rfl

/-! ### Bytes and checks -/

/-- A window byte names its window. -/
@[simp] theorem windowOfByte_windowByte (w : WindowId) : windowOfByte (windowByte w) = some w := by
  revert w; decide

/-- A byte above 7 names no window (R147). -/
theorem windowOfByte_of_lt {b : Byte} (h : 7 < b.toNat) : windowOfByte b = none := by
  have : ¬b.toNat < 8 := by omega
  simp [windowOfByte, this]

/-- The first byte of a frame. -/
@[simp] theorem frameByte_zero (b : Byte) (l : List Byte) (e : Nat) :
    frameByte { args := b :: l, extra := e } 0 = b := rfl

/-- The window check passes a frame whose first byte names a window. -/
@[simp] theorem onWindow_windowByte (w : WindowId) (l : List Byte) (e : Nat)
    (body : WindowId → State → ResultCode × State) (s : State) :
    onWindow { args := windowByte w :: l, extra := e } body s = body w s := by
  simp [onWindow]

/-- The window check refuses a first byte above 7 (R147). -/
theorem onWindow_of_lt {f : Frame} (h : 7 < (frameByte f 0).toNat)
    (body : WindowId → State → ResultCode × State) (s : State) :
    onWindow f body s = (.refusedRange, s) := by
  simp [onWindow, windowOfByte_of_lt h]

/-- On and off are their own codes. -/
@[simp] theorem flagOfByte_flagCode (on : Bool) : flagOfByte (flagCode on) = some on := by
  cases on <;> rfl

/-- A byte above 1 is no flag. -/
theorem flagOfByte_of_lt {b : Byte} (h : 1 < b.toNat) : flagOfByte b = none := by
  have h0 : b ≠ 0 := by rintro rfl; simp at h
  have h1 : b ≠ 1 := by rintro rfl; simp at h
  rw [flagOfByte, if_neg h0, if_neg h1]

/-! ### Fields -/

/-- A two-byte field from its bytes (R146). -/
theorem half_of_bytes (x : Half) : x.extractLsb' 8 8 ++ x.extractLsb' 0 8 = x := by
  apply BitVec.eq_of_getLsbD_eq; intro i hi
  simp only [BitVec.getLsbD_append, BitVec.getLsbD_extractLsb']
  split <;> simp_all
  omega

/-- A four-byte field from its bytes (R146). -/
theorem addr_of_bytes (x : Addr) : (x.extractLsb' 24 8 ++ x.extractLsb' 16 8 :
    Half) ++ (x.extractLsb' 8 8 ++ x.extractLsb' 0 8 : Half) = x := by
  have h1 : (x.extractLsb' 24 8 ++ x.extractLsb' 16 8 : Half) = x.extractLsb' 16 16 := by
    apply BitVec.eq_of_getLsbD_eq; intro i hi
    simp only [BitVec.getLsbD_append, BitVec.getLsbD_extractLsb']
    by_cases h : i < 8
    · simp [h, hi]
    · have : i - 8 < 8 := by omega
      have e : 24 + (i - 8) = 16 + i := by omega
      simp [h, hi, this, e]
  have h2 : (x.extractLsb' 8 8 ++ x.extractLsb' 0 8 : Half) = x.extractLsb' 0 16 := by
    apply BitVec.eq_of_getLsbD_eq; intro i hi
    simp only [BitVec.getLsbD_append, BitVec.getLsbD_extractLsb']
    by_cases h : i < 8
    · simp [h, hi]
    · have : i - 8 < 8 := by omega
      have e : 8 + (i - 8) = i := by omega
      simp [h, hi, this, e]
  rw [h1, h2]
  apply BitVec.eq_of_getLsbD_eq; intro i hi
  simp only [BitVec.getLsbD_append, BitVec.getLsbD_extractLsb']
  by_cases h : i < 16
  · simp [h]
  · have : i - 16 < 16 := by omega
    have e : 16 + (i - 16) = i := by omega
    simp [h, this, e]

/-- The fields of a WRITE GEOMETRY frame (R2). -/
theorem geometryOfFrame_geometryArgs (w : WindowId) (g : Geometry) (p : Byte) (fb : Addr) :
   geometryOfFrame { args := geometryArgs w g p fb } = { g with fallback := if p = 0 then none else some fb } := by
  simp only [geometryOfFrame, geometryArgs, frameAddr, frameHalf, frameByte, bytesOfAddr, bytesOfHalf]
  simp only [List.cons_append, List.nil_append, List.getD_cons_zero, List.getD_cons_succ,
      half_of_bytes, addr_of_bytes]

/-- A role is the role of its code. -/
theorem roleOfByte_roleCode (r : Role) : roleOfByte (roleCode r) = some r := by cases r <;> rfl

end Sys2Proof.Machine
end

