-- ==== Sys2Proof/Laws/Requests.lean ====
section
/-! SUPPORT. The class and the outcome of a request, each said once in the words of Safety, and its
acceptance (R24 to R33, R43 to R48). -/

namespace Sys2Proof.Machine

/-! ### The form checks -/

/-- A form fault gives its code (R25). -/
theorem malformedCode_of_fault {h : HPort} {r : HRequest} {c : MalformedCode} (hf : FormFault h r c) :
    malformedCode h r = some c := by
  unfold malformedCode
  dsimp only
  rw [show Config.lineBytes = 64 from rfl]
  cases c with
  | align => exact if_pos hf
  | length =>
    obtain ⟨h₁, h₂⟩ := hf
    rw [if_neg (not_not.mpr h₁), if_pos (by omega)]
  | span =>
    obtain ⟨h₁, h₂, h₃, h₄⟩ := hf
    rw [if_neg (not_not.mpr h₁), if_neg (by omega), if_pos (by omega)]
  | tagReuse =>
    obtain ⟨h₁, h₂, h₃, h₄, h₅, h₆⟩ := hf
    rw [if_neg (not_not.mpr h₁), if_neg (by omega), if_neg (by omega), if_pos h₆]

/-- A request that passes every form check has no code (R25). -/
theorem malformedCode_of_wellFormed {h : HPort} {r : HRequest} (hw : WellFormedRequest h r) :
    malformedCode h r = none := by
  unfold malformedCode
  dsimp only
  rw [show Config.lineBytes = 64 from rfl]
  have h₁ : ¬(r.address.toNat % 8 ≠ 0) := hw .align
  have h₂ : ¬(accessBeats r.access < 1 ∨ 8 < accessBeats r.access) := fun hc =>
    hw .length ⟨by omega, by omega⟩
  rw [if_neg h₁, if_neg h₂, if_neg, if_neg]
  · intro ht
    have h₃ : ¬((r.address.toNat + 8 * accessBeats r.access - 1) / 64 ≠ r.address.toNat / 64
        ∨ 0xFFFFFFFF < r.address.toNat + 8 * accessBeats r.access - 1) := fun hc =>
      hw .span ⟨by omega, by omega, by omega, hc⟩
    exact hw .tagReuse ⟨by omega, by omega, by omega, by omega, by omega, ht⟩
  · intro hc
    exact hw .span ⟨by omega, by omega, by omega, by omega⟩

/-! ### The ranges -/

@[simp] theorem isActive_iff (st : WindowState) : st.isActive = true ↔ st ≠ .off := by
  simp [WindowState.isActive]

theorem inApparent_iff (s : State) (a : Addr) (w : WindowId) :
    s.inApparent a w = true ↔
      (s.win w).state ≠ .off ∧ (s.win w).geometry.covers (s.win w).geometry.apparentBase a = true := by
  simp [State.inApparent]

theorem inShadow_iff (s : State) (a : Addr) (w : WindowId) :
    s.inShadow a w = true ↔ (s.win w).state ≠ .off
      ∧ ∃ b ∈ (s.win w).geometry.shadowBases, (s.win w).geometry.covers b a = true := by
  cases hf : (s.win w).geometry.fallback <;>
    simp [State.inShadow, Geometry.shadowBases, hf, or_assoc]

/-- The search finds the only window with a property. -/
theorem find_window {p : WindowId → Bool} {w : WindowId} (h : ∀ v, p v = true ↔ v = w) :
    allWindows.find? p = some w := by
  have hs : (allWindows.find? p).isSome = true := by
    rw [List.find?_isSome]; exact ⟨w, mem_allWindows w, (h w).mpr rfl⟩
  obtain ⟨v, hv⟩ := Option.isSome_iff_exists.mp hs
  rw [hv, (h v).mp (List.find?_some hv)]

/-- The search finds no window where none has the property. -/
theorem find_no_window {p : WindowId → Bool} (h : ∀ v, p v = false) :
    allWindows.find? p = none := by
  rw [List.find?_eq_none]; intro v _; simp [h v]

/-- The class of a well-formed request in one apparent range (R27). -/
theorem classify_apparent {s : State} {r : HRequest} {w : WindowId}
    (hw : WellFormedRequest s.hport r) (h : InApparentOf s r.address w) :
    s.classify r =
      apparentClass w (s.role r.requester w) (accessKind r.access) (s.win w).state := by
  have hf : allWindows.find? (s.inApparent r.address) = some w :=
    find_window fun v => (inApparent_iff s r.address v).trans (h v)
  simp only [State.classify, malformedCode_of_wellFormed hw, hf]

/-- No window's apparent range holds the address. -/
theorem find_inApparent_none {s : State} {a : Addr} (h : InNoApparent s a) :
    allWindows.find? (s.inApparent a) = none := by
  apply find_no_window
  intro v
  rw [Bool.eq_false_iff]
  intro hv
  obtain ⟨h₁, h₂⟩ := (inApparent_iff s a v).mp hv
  rw [h v h₁] at h₂
  cases h₂

/-- The class of a well-formed request in one window's shadow ranges (R31). -/
theorem classify_shadow {s : State} {r : HRequest} {w : WindowId}
    (hw : WellFormedRequest s.hport r) (h : InShadowOf s r.address w) :
    s.classify r = shadowClass w (s.role r.requester w) (s.win w).state := by
  have hf : allWindows.find? (s.inShadow r.address) = some w :=
    find_window fun v => (inShadow_iff s r.address v).trans (h.2 v)
  simp only [State.classify, malformedCode_of_wellFormed hw, find_inApparent_none h.1, hf]

/-- The class of a well-formed request outside every range (R33). -/
theorem classify_outside {s : State} {r : HRequest} (hw : WellFormedRequest s.hport r)
    (h : InNoRange s r.address) : s.classify r = .passThrough := by
  have hf : allWindows.find? (s.inShadow r.address) = none := by
    apply find_no_window
    intro v
    rw [Bool.eq_false_iff]
    intro hv
    obtain ⟨h₁, b, hb, h₂⟩ := (inShadow_iff s r.address v).mp hv
    rw [h.2 v h₁ b hb] at h₂
    cases h₂
  simp only [State.classify, malformedCode_of_wellFormed hw, find_inApparent_none h.1, hf]

/-! ### Free entries and slots -/

theorem freeEntry_of_lowest {s : State} {i : EntryId} (h : LowestFreeEntry s i) :
    s.freeEntry = some i := by
  unfold State.freeEntry
  rw [List.find?_eq_some_iff_getElem]
  refine ⟨by simp [h.1], i.val, by simp, by simp, fun j hj => ?_⟩
  have := h.2 ⟨j, by omega⟩ (by exact hj)
  simpa [Option.isNone_iff_eq_none] using Option.isSome_iff_ne_none.mpr this

theorem freeEntry_none {s : State} (h : ∀ i, s.entry i ≠ none) : s.freeEntry = none := by
  unfold State.freeEntry
  rw [List.find?_eq_none]; intro i _; simp [h i]

theorem freeSlot_of_lowest {s : State} {n : SlotId} (h : LowestFreeSlot s n) :
    s.freeSlot = some n := by
  obtain ⟨h₁, h₂⟩ := h
  unfold State.freeSlot allSlots
  rcases n with ⟨n, hn⟩
  have key : ∀ m : SlotId, m.val < n → (s.slot m).isNone = false := fun m hm => by
    simpa [Option.isNone_iff_eq_none] using Option.isSome_iff_ne_none.mpr (h₂ m hm)
  match n, hn with
  | 0, _ => simpa using h₁
  | 1, _ => simp [key 0 (by decide)]; simpa using h₁
  | 2, _ => simp [key 0 (by decide), key 1 (by decide)]; simpa using h₁
  | 3, _ => simp [key 0 (by decide), key 1 (by decide), key 2 (by decide)]; simpa using h₁

theorem freeSlot_none {s : State} (h : ∀ n, s.slot n ≠ none) : s.freeSlot = none := by
  unfold State.freeSlot
  rw [List.find?_eq_none]; intro i _; simp [h i]

/-! ### Acceptance -/

/-- A request that finds the channel empty and can be accepted is accepted in the event that presents
it (R24, R124). -/
theorem exec_requestAccepted {s : State} {r : HRequest} (hr : s.inReset = false)
    (hch : s.hport.channel = []) (hp : s.hport.placesHeld < 48)
    (hn : (s.outcome r).needsEntry = true → s.freeEntry.isSome = true) :
    exec (.requestAccepted r) s = .next (s.accept r) := by
  have hc : (s.modHPort fun h => { h with channel := h.channel ++ [r] }).canAccept r = true := by
    have h₁ : (s.modHPort fun h => { h with channel := h.channel ++ [r] }).canAccept r =
      (!s.inReset && decide (s.hport.placesHeld < Config.responsePlaces)
        && (!(s.outcome r).needsEntry || s.freeEntry.isSome)) := rfl
    rw [h₁, hr]
    have h₂ : s.hport.placesHeld < Config.responsePlaces := hp
    cases hv : (s.outcome r).needsEntry with
    | false => simp [h₂]
    | true => simp [h₂, hn hv]
  have hch' : (s.modHPort fun h => { h with channel := h.channel ++ [r] }).hport.channel = [r] := by
    show s.hport.channel ++ [r] = [r]
    rw [hch]; rfl
  have he : ((s.modHPort fun h => { h with channel := h.channel ++ [r] }).modHPort fun p =>
      { p with channel := [] }) = s := by
    show { s with hport := { s.hport with channel := [] } } = s
    rw [← hch]
  show Host.Outcome.next (State.pump _) = _
  rw [pump_of_acceptHead (acceptHead_of_canAccept hch' hc), he]
  congr 1
  apply pump_of_nil
  show ((s.takePlace r).carryOut r _ _).hport.channel = []
  rw [carryOut_channel]; exact hch

/-! ### Places -/

/-- The outstanding set after one pair joins or leaves it (R19). -/
theorem isOutstanding_setOutstanding (h : HPort) (r q : Requester) (g t : Tag) (on : Bool) :
    (h.setOutstanding r t on).isOutstanding q g = if q = r ∧ g =
    t then on else h.isOutstanding q g := by
  unfold HPort.setOutstanding HPort.isOutstanding
  by_cases hq : q = r
  · subst hq
    by_cases hg : g = t
    · subst hg; simp
    · have : t.val ≠ g.val := fun e => hg (Fin.ext e.symm)
      simp [hg, Vector.getElem_set_ne _ _ this]
  · have : r.val ≠ q.val := fun e => hq (Fin.ext e.symm)
    simp [hq, Vector.getElem_set_ne _ _ this]

/-- An accepted request holds a place (R19, R125). -/
theorem holdsPlace_takePlace (s : State) (r : HRequest) : HoldsPlace s (s.takePlace r) r := by
  refine ⟨rfl, rfl, fun q g => ?_⟩
  show (s.hport.setOutstanding r.requester r.tag true).isOutstanding q g = _
  rw [isOutstanding_setOutstanding]
  by_cases h : q = r.requester ∧ g = r.tag
  · simp [h]
  · rw [if_neg h]
    have : (decide (q = r.requester) && decide (g = r.tag)) = false := by simpa using h
    simp [this]

/-- A local answer of an accepted request (R24). -/
theorem answeredLocally_takePlace (s : State) (r : HRequest) (st : Status) :
    AnsweredLocally s ((s.takePlace r).answerLocally r st
      (s.hport.isOutstanding r.requester r.tag)) r st :=
  ⟨holdsPlace_takePlace s r, rfl⟩

end Sys2Proof.Machine
end

