-- ==== Sys2Proof/Laws/Load.lean ====
section
/-! SUPPORT. The checks of LOAD, each said once in the words of Safety (R9 to R11). -/

namespace Sys2Proof.Machine

/-- Two ranges overlap where they have a byte in common (R11). -/
theorem rangesOverlap_iff (b n c m : Nat) : rangesOverlap b n c m = true ↔ RangesMeet b n c m := by
  simp only [rangesOverlap, decide_eq_true_eq, RangesMeet]
  constructor
  · intro h; exact ⟨max b c, by omega⟩
  · rintro ⟨a, h⟩; omega

/-- Work is left from an earlier life of the window (R9). -/
theorem loadBusy_iff (s : State) (w : WindowId) : s.loadBusy w = true ↔ BusyFault s w := by
  simp only [State.loadBusy, State.slotNames, BusyFault, Bool.or_eq_true, decide_eq_true_eq,
      List.any_eq_true, Option.any_eq_true]
  constructor
  · rintro (h | ⟨n, -, k, hk, h⟩)
    · exact .inl h
    · exact .inr ⟨n, k, hk, h⟩
  · rintro (h | ⟨n, k, hk, h⟩)
    · exact .inl h
    · exact .inr ⟨n, mem_allSlots n, k, hk, h⟩

/-- The bases of a geometry as numbers. -/
theorem bases_eq (g : Geometry) : g.bases = (g.apparentBase :: g.shadowBases).map BitVec.toNat := by
  simp only [Geometry.bases, Geometry.shadowBases]
  cases g.fallback <;> rfl

/-- The range check of LOAD (R10). -/
theorem outOfRange_iff (g : Geometry) : g.outOfRange = true ↔ ¬ g.Loadable := by
  simp only [Geometry.outOfRange, Geometry.Loadable, bases_eq, List.any_map, Bool.or_eq_true,
      decide_eq_true_eq, List.any_eq_true, Function.comp, Geometry.size, Config.lineBytes]
  constructor
  · rintro ((((((h|h)|h)|h)|h)|⟨b,hb,h⟩)|⟨b,hb,h⟩) ⟨h1,h2,h3,h4,h5,h6⟩
    · omega
    · omega
    · omega
    · omega
    · omega
    · exact h (h6 b hb).1
    · have h' : 2^32 < b.toNat + 64 * g.lineCount.toNat := of_decide_eq_true h
      have := (h6 b hb).2; omega
  · intro h
    by_contra hc
    push Not at hc
    obtain ⟨⟨⟨⟨⟨⟨h1,h2⟩,h3⟩,h4⟩,h5⟩,h6⟩,h7⟩ := hc
    refine h ⟨h1,h2,h3,h4,h5,fun b hb => ⟨h6 b hb, ?_⟩⟩
    have h' : b.toNat + 64 * g.lineCount.toNat ≤ 2^32 :=
      Nat.not_lt.mp (of_decide_eq_false (Bool.eq_false_iff.mpr (h7 b hb)))
    omega

/-- Two ranges of one geometry overlap (R11). -/
theorem anyTwoOverlap_iff (n : Nat) : ∀ l : List Addr, anyTwoOverlap n (l.map BitVec.toNat) = true ↔
   ¬ l.Pairwise fun b c => ¬ RangesMeet b.toNat n c.toNat n
  | [] => by simp [anyTwoOverlap]
  | b :: l => by
    simp only [List.map_cons, anyTwoOverlap, Bool.or_eq_true, List.any_map, List.any_eq_true,
        Function.comp, rangesOverlap_iff, anyTwoOverlap_iff n l, List.pairwise_cons]
    constructor
    · rintro (⟨c,hc,h⟩|h) ⟨h1,h2⟩
      · exact h1 c hc h
      · exact h h2
    · intro h
      by_contra hc
      push Not at hc
      exact h ⟨fun c hc' => hc.1 c hc', hc.2⟩

/-- Another active window has a property. -/
theorem otherActive_iff (s : State) (w : WindowId) (p : Geometry → Bool) : s.otherActive w p =
    true ↔ ∃ v, v ≠ w ∧ (s.win v).state ≠ .off ∧ p (s.win v).geometry = true := by
  simp [State.otherActive, isActive_iff, and_assoc]

/-- The overlap check of LOAD (R11). -/
theorem loadOverlap_iff (s : State) (w : WindowId) : s.loadOverlap w = true ↔ OverlapFault s w := by
  simp only [State.loadOverlap, OverlapFault, Bool.or_eq_true, bases_eq, anyTwoOverlap_iff,
      otherActive_iff, Geometry.overlaps, List.any_map, List.any_eq_true, Function.comp,
      rangesOverlap_iff]
  rfl

/-- The map check of LOAD, behind its range check (R11). -/
theorem loadMapFault_iff (s : State) (w : WindowId) (h :
    (s.win w).geometry.Loadable): s.loadMapFault w = true ↔ MapFault s w := by
  simp only [State.loadMapFault, MapFault, Bool.or_eq_true, otherActive_iff, Geometry.sharesSegment,
      rangesOverlap_iff]
  have := h.1
  constructor
  · rintro (h|h)
    · have h' : 8192 < (s.win w).geometry.mapOffset.toNat + (s.win w).geometry.lineCount.toNat := of_decide_eq_true h
      left; show 8191 < (s.win w).geometry.mapOffset.toNat + (s.win w).geometry.lineCount.toNat - 1; omega
    · exact .inr h
  · rintro (h|h)
    · have h' : 8191 < (s.win w).geometry.mapOffset.toNat + (s.win w).geometry.lineCount.toNat - 1 := h
      left
      apply decide_eq_true
      show 8192 < (s.win w).geometry.mapOffset.toNat + (s.win w).geometry.lineCount.toNat
      omega
    · exact .inr h

end Sys2Proof.Machine
end

