-- ==== Sys2Proof/Laws/Responses.lean ====
section
/-! SUPPORT. What read frames shift out, each said once: the bits of a flag byte, the bytes of a frame,
the record slots of READ NOTICE (R137, R146, R149 to R151). -/

namespace Sys2Proof.Machine

/-! ### READ NOTICE -/

/-- The queue without its oldest records (R137). -/
def NoticeQueue.without (q : NoticeQueue) (k : Nat) : NoticeQueue := NoticeQueue.removeHead^[k] q

/-- What removals leave: the later records, and the overflow flag unless they empty the queue. -/
theorem without_spec (k : Nat) (q : NoticeQueue) :
    (q.without k).records = q.records.drop k
      ∧ (q.records ≠ [] → q.records.length ≤ k → (q.without k).overflow = false)
      ∧ (k < q.records.length ∨ q.records = [] → (q.without k).overflow = q.overflow) := by
  induction k generalizing q with
  | zero => exact ⟨rfl, fun h₁ h₂ => absurd (List.length_eq_zero_iff.mp (by omega)) h₁, fun _ => rfl⟩
  | succ k ih =>
    obtain ⟨a, b, c⟩ := ih q.removeHead
    show (q.removeHead.without k).records = _ ∧ (_ → _ → (q.removeHead.without k).overflow = _)
      ∧ (_ → (q.removeHead.without k).overflow = _)
    cases hq : q.records with
    | nil =>
      have hrm : q.removeHead = q := by simp [NoticeQueue.removeHead, hq]
      rw [hrm] at a c ⊢
      exact ⟨by rw [a, hq]; simp, fun h => absurd rfl h, fun _ => c (.inr hq)⟩
    | cons n l =>
      have hrm : q.removeHead = { records := l, overflow := q.overflow && !l.isEmpty } := by
        simp [NoticeQueue.removeHead, hq]
      rw [hrm] at a b c ⊢
      refine ⟨a, fun _ h => ?_, fun h => ?_⟩
      · cases l with
        | nil => rw [c (.inr rfl)]; simp
        | cons m l => exact b (by simp) (by simpa using h)
      · have h : k < l.length := by
          rcases h with h | h
          · simpa using h
          · cases h
        rw [c (.inl h)]
        cases l with
        | nil => simp at h
        | cons m l => simp

/-- A record slot has 16 bytes. -/
theorem length_slotBytes (n : Option Notice) : (slotBytes n).length = 16 := by
  cases n with
  | none => rfl
  | some n => simp [slotBytes, noticeBytes, bytesOfAddr, bytesOfHalf]

/-- The slot that a READ NOTICE frame is inside of, after `len` bytes. -/
def slotTaken (q : NoticeQueue) (len : Nat) : Taken :=
  if len % 16 = 0 then .nothing else .slot (q.without (len / 16)).records.head?

/-- What one byte of READ NOTICE does where no notice joins between the bytes: the bytes of the slot's
record go out, and the last of them removes it (R137, R151). -/
theorem clockByte_readNotice (s : State) (m : MgmtPort) (q : NoticeQueue) (b : Byte) (k n : Nat)
    (hb : m.frameState = .inFrame (8 + 8 * (16 * k + n))) (ht : m.taken = slotTaken q n) :
    s.clockByte (some .readNotice) (m, q.without (n / 16)) b =
      ({ m with
          frameState := .inFrame (8 + 8 * (16 * k + (n + 1)))
          taken := slotTaken q (n + 1)
          sdo := { bytes := m.sdo.bytes ++ [(slotBytes q.records[n / 16]?).getD (n % 16) 0]
                   tail := [] } }, q.without ((n + 1) / 16)) := by
  obtain ⟨fs, cmd, st, tk, ab, lr, sdo⟩ := m
  simp only at hb ht
  subst hb ht
  have hi : MgmtPort.byteIndex
      { frameState := .inFrame (8 + 8 * (16 * k + n)), command := cmd, status := st
        taken := slotTaken q n, argBuffer := ab, lastResult := lr, sdo } = 16 * k + n := by
    show (8 + 8 * (16 * k + n) - 8) / 8 = _
    omega
  have hm : (16 * k + n) % 16 = n % 16 := by omega
  have hoff : offered (some .readNotice) (16 * k + n) (slotTaken q n) (q.without (n / 16)) =
      .slot q.records[n / 16]? := by
    have hh : (q.without (n / 16)).records.head? = q.records[n / 16]? := by
      rw [(without_spec _ q).1, List.head?_drop]
    unfold offered slotTaken
    rw [hm, hh]
    by_cases h0 : n % 16 = 0
    · rw [if_pos ⟨rfl, h0⟩]
    · rw [if_neg (by simp [h0]), if_neg h0]
  have hq : (match q.records[n / 16]? with
      | some _ => if n % 16 = 15 then (q.without (n / 16)).removeHead else q.without (n / 16)
      | none => q.without (n / 16)) = q.without ((n + 1) / 16) := by
    have hs : ∀ j, (q.without j).removeHead = q.without (j + 1) := fun j =>
      (Function.iterate_succ_apply' _ _ _).symm
    by_cases h : n % 16 = 15
    · rw [show (n + 1) / 16 = n / 16 + 1 by omega, ← hs, if_pos h]
      cases hr : q.records[n / 16]? with
      | some _ => rfl
      | none =>
        have : (q.without (n / 16)).records = [] := by
          rw [(without_spec _ q).1, List.drop_eq_nil_iff]; exact List.getElem?_eq_none_iff.mp hr
        simp [NoticeQueue.removeHead, this]
    · rw [show (n + 1) / 16 = n / 16 by omega, if_neg h]
      split <;> rfl
  have ht' : (if n % 16 = 15 then Taken.nothing else .slot q.records[n / 16]?) =
      slotTaken q (n + 1) := by
    unfold slotTaken
    by_cases h : n % 16 = 15
    · rw [if_pos h, if_pos (by omega)]
    · rw [if_neg h, if_neg (by omega), show (n + 1) / 16 = n / 16 by omega, (without_spec _ q).1,
        List.head?_drop]
  have hout : outByte (some .readNotice) (16 * k + n) (.slot q.records[n / 16]?) =
      (slotBytes q.records[n / 16]?).getD (n % 16) 0 := by
    rw [← hm]; rfl
  simp only [State.clockByte, hi, hoff, hm, hout, true_and]
  simp only [show argumentCount (some .readNotice) = 0 from rfl, Nat.not_lt_zero, if_false,
    Nat.add_one_ne_zero]
  refine Prod.ext ?_ ?_
  · simp only [MgmtPort.bits, ht']
    congr 2
  · exact Eq.trans (by cases q.records[n / 16]? <;> rfl) hq

/-- What the bytes of a READ NOTICE frame do from a slot boundary on where no notice joins between
them: the records go out oldest first, each removed with its last byte (R137, R151). -/
theorem foldl_readNotice (s : State) (m : MgmtPort) (q : NoticeQueue) (k : Nat)
    (hb : m.frameState = .inFrame (8 + 8 * (16 * k))) (ht : m.taken = .nothing) (hs : m.sdo.tail = [])
    (l : List Byte) :
    l.foldl (s.clockByte (some .readNotice)) (m, q) =
      ({ m with
          frameState := .inFrame (8 + 8 * (16 * k + l.length))
          taken := slotTaken q l.length
          sdo := { bytes := m.sdo.bytes ++ (List.range l.length).map fun i =>
                    (slotBytes q.records[i / 16]?).getD (i % 16) 0
                   tail := [] } }, q.without (l.length / 16)) := by
  induction l using List.reverseRecOn with
  | nil =>
    obtain ⟨fs, cmd, st, tk, ab, lr, sdo⟩ := m
    obtain ⟨b, tl⟩ := sdo
    simp only at hb ht hs
    subst hb ht hs
    simp [slotTaken, NoticeQueue.without]
  | append_singleton l b ih =>
    rw [List.foldl_append, ih, List.foldl_cons, List.foldl_nil,
      clockByte_readNotice s _ q b k l.length rfl rfl]
    simp only [List.length_append, List.length_singleton, List.range_succ, List.map_append,
      List.map_singleton, List.append_assoc]

/-! ### Flags -/

/-- The bits of one flag in a byte. -/
theorem getLsbD_bitAt (i j : Nat) (b : Bool) (hi : i < 8) (hj : j < 8) :
    (bitAt i b).getLsbD j = (b && decide (i = j)) := by
  interval_cases i <;> interval_cases j <;> cases b <;> rfl

/-- The bits of a byte of eight flags. -/
theorem bits_of_eight (a b c d e f g h : Bool) :
    let x := bitAt 0 a ||| bitAt 1 b ||| bitAt 2 c ||| bitAt 3 d ||| bitAt 4 e ||| bitAt 5 f
      ||| bitAt 6 g ||| bitAt 7 h
    x.getLsbD 0 = a ∧ x.getLsbD 1 = b ∧ x.getLsbD 2 = c ∧ x.getLsbD 3 = d ∧ x.getLsbD 4 = e
      ∧ x.getLsbD 5 = f ∧ x.getLsbD 6 = g ∧ x.getLsbD 7 = h := by
  simp (disch := decide) only [BitVec.getLsbD_or, getLsbD_bitAt]
  simp

/-- The bits of a byte of four flags. -/
theorem bits_of_four : ∀ a b c d : Bool,
    let x := bitAt 0 a ||| bitAt 1 b ||| bitAt 2 c ||| bitAt 3 d
    x.getLsbD 0 = a ∧ x.getLsbD 1 = b ∧ x.getLsbD 2 = c ∧ x.getLsbD 3 = d ∧ x.toNat < 16 := by
  decide

end Sys2Proof.Machine
end

