-- ==== Sys2Proof/Laws/Walk.lean ====
section
/-! SUPPORT. What the flatten logic's operations do, each said once: the walk, the kept slot request,
the turns at the end of an event, the tests that follow a lowered count (R84, R116 to R118). -/

namespace Sys2Proof.Machine

/-! ### The walk -/

/-- The search for the next line published B: what it stops at, and what it has passed (R117). -/
theorem nextLineInB_spec (m : LineMap) (g : Geometry) : ∀ fuel i,
    i ≤ nextLineInB m g fuel i ∧ nextLineInB m g fuel i ≤ i + fuel
      ∧ (∀ l, i ≤ l → l < nextLineInB m g fuel i → (m.entry (g.entryIndex l)).published = .a)
      ∧ (nextLineInB m g fuel i < i + fuel →
          (m.entry (g.entryIndex (nextLineInB m g fuel i))).published = .b)
  | 0, i => by
    refine ⟨Nat.le_refl i, Nat.le_refl i, fun l h₁ h₂ => ?_, fun h => ?_⟩
    · simp only [nextLineInB] at h₂; omega
    · simp only [nextLineInB] at h; omega
  | fuel + 1, i => by
    by_cases h : (m.entry (g.entryIndex i)).published = .b
    · simp only [nextLineInB, if_pos h]
      exact ⟨Nat.le_refl i, by omega, fun l h₁ h₂ => absurd h₁ (by omega), fun _ => h⟩
    · obtain ⟨h₁, h₂, h₃, h₄⟩ := nextLineInB_spec m g fuel (i + 1)
      simp only [nextLineInB, if_neg h]
      refine ⟨by omega, by omega, fun l hl hl' => ?_, fun hlt => h₄ (by omega)⟩
      by_cases e : l = i
      · subst e
        cases hp : (m.entry (g.entryIndex l)).published with
        | a => rfl
        | b => exact absurd hp h
      · exact h₃ l (by omega) hl'

/-- The walk stops at the first line published B, with a request kept (R117). -/
theorem walkFrom_of_first {s : State} {w : WindowId} {i j : Nat} (h : FirstInB s w i j) :
    s.walkFrom w i = s.modWin w fun x => { x with cursor := some j, copyRequest := true } := by
  obtain ⟨h₁, h₂, h₃, h₄⟩ := h
  obtain ⟨k₁, k₂, k₃, k₄⟩ := nextLineInB_spec s.lineMap (s.win w).geometry
    ((s.win w).geometry.lineCount.toNat - i) i
  have hn : nextLineInB s.lineMap (s.win w).geometry
      ((s.win w).geometry.lineCount.toNat - i) i = j := by
    generalize nextLineInB _ _ _ _ = n at k₁ k₂ k₃ k₄ ⊢
    rcases Nat.lt_trichotomy n j with hlt | heq | hgt
    · have hb := k₄ (by omega)
      have ha := h₄ n k₁ hlt
      rw [State.lineEntry, hb] at ha
      cases ha
    · exact heq
    · have ha := k₃ j h₁ hgt
      rw [State.lineEntry, ha] at h₃
      cases h₃
  have hlt : ¬(s.win w).geometry.lineCount.toNat ≤ j := by omega
  simp only [State.walkFrom, hn, if_neg hlt]

/-- With no line left in B the walk ends the retirement (R117, R118). -/
theorem walkFrom_of_none {s : State} {w : WindowId} {i : Nat} (h : NoneInB s w i) :
    s.walkFrom w i = s.flattenDone w := by
  obtain ⟨k₁, k₂, -, k₄⟩ := nextLineInB_spec s.lineMap (s.win w).geometry
    ((s.win w).geometry.lineCount.toNat - i) i
  have hn : (s.win w).geometry.lineCount.toNat ≤ nextLineInB s.lineMap (s.win w).geometry
      ((s.win w).geometry.lineCount.toNat - i) i := by
    generalize nextLineInB _ _ _ _ = n at k₁ k₂ k₄ ⊢
    by_contra hlt
    have hb := k₄ (by omega)
    have ha := h n k₁ (by omega)
    rw [State.lineEntry, hb] at ha
    cases ha
  simp only [State.walkFrom, if_pos hn]

/-- The walk does one of two things (R117, R118). -/
theorem first_or_none (s : State) (w : WindowId) (i : Nat) :
    (∃ j, FirstInB s w i j) ∨ NoneInB s w i := by
  obtain ⟨k₁, -, k₃, k₄⟩ := nextLineInB_spec s.lineMap (s.win w).geometry
    ((s.win w).geometry.lineCount.toNat - i) i
  generalize nextLineInB _ _ _ _ = n at k₁ k₃ k₄
  by_cases hlt : n < (s.win w).geometry.lineCount.toNat
  · exact .inl ⟨n, k₁, hlt, k₄ (by omega), k₃⟩
  · exact .inr fun l h₁ h₂ => k₃ l h₁ (by omega)

/-- The first line published B is one line (R117). -/
theorem firstInB_unique {s : State} {w : WindowId} {i j l : Nat} (hj : FirstInB s w i j)
    (hl : FirstInB s w i l) : j = l := by
  obtain ⟨h₁, -, h₂, h₃⟩ := hj
  obtain ⟨k₁, -, k₂, k₃⟩ := hl
  rcases Nat.lt_trichotomy j l with h | h | h
  · rw [k₃ j h₁ h] at h₂; cases h₂
  · exact h
  · rw [h₃ l k₁ h] at k₂; cases k₂

/-- The end of a retirement (R118). -/
theorem retired_flattenDone {s : State} (h : s.lineMap.wf = true) (w : WindowId) :
    Retired s (s.flattenDone w) w := by
  refine ⟨?_, ?_, ?_, rfl⟩
  · intro p hp; cases p <;> first | rfl | simp at hp
  · refine ⟨?_, fun v hv => ?_⟩
    · simp only [State.flattenDone, raise_win, win_modWin_self]; rfl
    · simp only [State.flattenDone, raise_win, win_modWin_of_ne _ hv]; rfl
  · exact (segmentBecomes_mapSegment h w (f := fun _ => LineEntry.reset) rfl).of_lineMap rfl

/-! ### The kept slot request -/

/-- The work a slot takes for the copy of line `j` (R55, R68). -/
def copyWork (w : WindowId) (j : Nat) : SlotWork :=
  { phase := .reading, kind := .flattenCopy, window := w, line := j, source := .b, target := .a
    held := none, buffer := none, attempt := 1, orphaned := false }

/-- A kept request served by slot `m`: the parts it changes (R57, R68, R117). -/
theorem serveCopyWith_eq (s : State) (w : WindowId) (m : SlotId) :
    s.serveCopyWith w m =
      ((s.modWin w fun x => { x with copyRequest := false, fills := x.fills + 1 }).setSlot m
        (some (copyWork w (((s.win w).cursor).getD 0)))).issue
        { tag := slotTag m
          address := (s.win w).geometry.lineAddress .b (((s.win w).cursor).getD 0)
          access := .read 8 } := by
  have h : (s.modWin w fun x => { x with copyRequest := false }).allocate m
      (copyWork w (((s.win w).cursor).getD 0)) =
      (s.modWin w fun x => { x with copyRequest := false, fills := x.fills + 1 }).setSlot m
        (some (copyWork w (((s.win w).cursor).getD 0))) :=
    congrArg (fun t => State.setSlot t m (some (copyWork w (((s.win w).cursor).getD 0))))
      (modWin_modWin s w (fun x => { x with copyRequest := false })
        fun x => { x with fills := x.fills + 1 })
  show State.issueSlot (State.allocate _ m (copyWork w (((s.win w).cursor).getD 0))) m = _
  rw [h]
  have hg : (((s.modWin w fun x => { x with copyRequest := false, fills := x.fills + 1 }).setSlot m
      (some (copyWork w (((s.win w).cursor).getD 0)))).win w).geometry = (s.win w).geometry := by
    simp
  simp only [State.issueSlot, slot_setSlot_self, SlotWork.operation, copyWork]
  rw [← hg]; rfl

/-- A kept request is served by the lowest-numbered FREE slot (R57). -/
theorem serveCopy_of_free {s : State} {w : WindowId} {m : SlotId}
    (hk : (s.win w).copyRequest = true) (hm : LowestFreeSlot s m) :
    s.serveCopy w = s.serveCopyWith w m := by
  simp [State.serveCopy, hk, freeSlot_of_lowest hm]

/-- A served request begins the copy of the line that the walk stopped at (R68, R117). -/
theorem copyStarts_serveCopyWith {s : State} {w : WindowId} {j : Nat} (m : SlotId)
    (hc : (s.win w).cursor = some j) : CopyStarts s (s.serveCopyWith w m) w j m := by
  rw [serveCopyWith_eq, hc, Option.getD_some]
  refine ⟨?_, ⟨?_, fun v hv => ?_⟩, ?_, _, rfl, rfl, rfl, rfl⟩
  · intro p hp; cases p <;> first | rfl | simp at hp
  · rw [issue_win, setSlot_win, win_modWin_self, ← hc]
  · rw [issue_win, setSlot_win, win_modWin_of_ne _ hv]
  · exact (SlotBecomes.setSlot (s.modWin w _) m _).of_slots rfl

/-- With no slot FREE a kept request stays kept (R57). -/
theorem serveCopy_of_full {s : State} (w : WindowId) (h : ∀ m, s.slot m ≠ none) :
    s.serveCopy w = s := by
  simp [State.serveCopy, freeSlot_none h]

/-- Some slot is the lowest-numbered FREE one, or none is FREE (R57). -/
theorem lowestFreeSlot_or_full (s : State) :
    (∃ m, LowestFreeSlot s m) ∨ ∀ m, s.slot m ≠ none := by
  by_cases h0 : s.slot 0 = none
  · exact .inl ⟨0, h0, fun m hm => absurd hm (by simp)⟩
  by_cases h1 : s.slot 1 = none
  · refine .inl ⟨1, h1, fun m hm => ?_⟩
    rwa [show m = 0 by revert m; decide]
  by_cases h2 : s.slot 2 = none
  · refine .inl ⟨2, h2, fun m hm => ?_⟩
    rcases (show m = 0 ∨ m = 1 by revert m; decide) with e | e <;> rwa [e]
  by_cases h3 : s.slot 3 = none
  · refine .inl ⟨3, h3, fun m hm => ?_⟩
    rcases (show m = 0 ∨ m = 1 ∨ m = 2 by revert m; decide) with e | e | e <;> rwa [e]
  · refine .inr fun m => ?_
    rcases (show m = 0 ∨ m = 1 ∨ m = 2 ∨ m = 3 by revert m; decide) with e | e | e | e <;> rwa [e]

/-- A window's request is served, or nothing changes; either way the other windows, the line map and
the H-port stay, and a second try changes nothing (R57). -/
theorem serveCopy_spec (s : State) (w : WindowId) :
    (∀ v, v ≠ w → (s.serveCopy w).win v = s.win v) ∧ (s.serveCopy w).hport = s.hport
      ∧ (s.serveCopy w).lineMap = s.lineMap ∧ (s.serveCopy w).inReset = s.inReset
      ∧ (s.serveCopy w).serveCopy w = s.serveCopy w := by
  by_cases hk : (s.win w).copyRequest = true
  · rcases lowestFreeSlot_or_full s with ⟨m, hm⟩ | hn
    · rw [serveCopy_of_free hk hm]
      have hw : ((s.serveCopyWith w m).win w).copyRequest = false := by
        rw [serveCopyWith_eq, issue_win, setSlot_win, win_modWin_self]
      refine ⟨fun v hv => ?_, ?_, ?_, ?_, serveCopy_of_none hw⟩
      · rw [serveCopyWith_eq, issue_win, setSlot_win, win_modWin_of_ne _ hv]
      all_goals rw [serveCopyWith_eq]; rfl
    · rw [serveCopy_of_full w hn]
      exact ⟨fun _ _ => rfl, rfl, rfl, rfl, serveCopy_of_full w hn⟩
  · have h := serveCopy_of_none (s := s) (w := w) (by simpa using hk)
    rw [h]
    exact ⟨fun _ _ => rfl, rfl, rfl, rfl, h⟩

/-- Where one window at most keeps a request, serving every window serves it. -/
theorem forWindows_serveCopy {w : WindowId} :
    ∀ (ws : List WindowId) (s : State), (∀ v, v ≠ w → (s.win v).copyRequest = false) →
      (s.forWindows ws fun v t => t.serveCopy v) = s ∨
        (s.forWindows ws fun v t => t.serveCopy v) = s.serveCopy w
  | [], s, _ => .inl rfl
  | v :: ws, s, h => by
    by_cases hv : v = w
    · subst hv
      obtain ⟨h₁, -, -, -, h₅⟩ := serveCopy_spec s v
      right
      rcases forWindows_serveCopy ws (s.serveCopy v) (fun u hu => by rw [h₁ u hu]; exact h u hu) with
        e | e
      · exact e
      · exact e.trans h₅
    · rw [forWindows_cons, serveCopy_of_none (h v hv)]
      exact forWindows_serveCopy ws s h

/-- Where one window at most keeps a request, serving all eight windows serves it. -/
theorem forWindows_serveCopy_all {s : State} {w : WindowId}
    (h : ∀ v, v ≠ w → (s.win v).copyRequest = false) :
    (s.forWindows allWindows fun v t => t.serveCopy v) = s.serveCopy w := by
  obtain ⟨h₁, -, -, -, h₅⟩ := serveCopy_spec s w
  have key : ∀ (ws : List WindowId), w ∈ ws →
      (s.forWindows ws fun v t => t.serveCopy v) = s.serveCopy w := by
    intro ws
    induction ws with
    | nil => intro hm; cases hm
    | cons v ws ih =>
      intro hm
      by_cases hv : v = w
      · subst hv
        rcases forWindows_serveCopy ws (s.serveCopy v)
          (fun u hu => by rw [h₁ u hu]; exact h u hu) with e | e
        · exact e
        · exact e.trans h₅
      · rw [forWindows_cons, serveCopy_of_none (h v hv)]
        exact ih ((List.mem_cons.mp hm).resolve_left fun e => hv e.symm)
  exact key allWindows (mem_allWindows w)

/-- Where one window at most keeps a request and no request stands on the H-port, the end of an event
serves that window, whatever order the command gives (R57, R117). -/
theorem arbitrate_of_one {s : State} {w : WindowId} (hch : s.hport.channel = [])
    (h : ∀ v, v ≠ w → (s.win v).copyRequest = false) (o : Order) : s.arbitrate o = s.serveCopy w := by
  obtain ⟨h₁, h₂, -, -, h₅⟩ := serveCopy_spec s w
  have hs : ∀ t, t = s ∨ t = s.serveCopy w → t.hport.channel = []
      ∧ ∀ v, v ≠ w → (t.win v).copyRequest = false := by
    rintro t (rfl | rfl)
    · exact ⟨hch, h⟩
    · exact ⟨by rw [h₂]; exact hch, fun v hv => by rw [h₁ v hv]; exact h v hv⟩
  have turns : ∀ (o : Order) (t : State), t = s ∨ t = s.serveCopy w →
      o.foldl State.turn t = s ∨ o.foldl State.turn t = s.serveCopy w := by
    intro o
    induction o with
    | nil => exact fun t ht => ht
    | cons a o ih =>
      intro t ht
      refine ih (t.turn a) ?_
      cases a with
      | window v =>
        by_cases hv : v = w
        · subst hv
          right
          rcases ht with rfl | rfl
          · rfl
          · exact h₅
        · show t.serveCopy v = s ∨ t.serveCopy v = s.serveCopy w
          rw [serveCopy_of_none ((hs t ht).2 v hv)]; exact ht
      | slot n => exact ht
      | pulse => exact ht
      | edge l v => exact ht
      | steering =>
        show (t.acceptHead).getD t = s ∨ (t.acceptHead).getD t = s.serveCopy w
        rw [acceptHead_of_nil (hs t ht).1]; exact ht
  have ht := turns o s (.inl rfl)
  have hch' := hs _ ht
  unfold State.arbitrate
  rw [forWindows_serveCopy_all hch'.2]
  have e : (o.foldl State.turn s).serveCopy w = s.serveCopy w := by
    rcases ht with e | e <;> rw [e]
    exact h₅
  rw [e]
  exact pump_of_nil (by rw [h₂]; exact hch)

/-- The walk from line `i` on, and its slot request as it is served (R57, R117, R118). -/
theorem walksFrom_serveCopy {s : State} {w : WindowId} (i : Nat) (hm : s.lineMap.wf = true)
    (hk : ∀ v, v ≠ w → (s.win v).copyRequest = false) :
    WalksFrom s ((s.walkFrom w i).serveCopy w) w i
      ∧ ∀ v, v ≠ w → ((s.walkFrom w i).win v).copyRequest = false := by
  rcases first_or_none s w i with ⟨j, hj⟩ | hn
  · obtain ⟨u, hu⟩ : ∃ u, u = s.modWin w fun x => { x with cursor := some j, copyRequest := true } :=
      ⟨_, rfl⟩
    have hw : WindowBecomes s u w { s.win w with cursor := some j, copyRequest := true } :=
      hu ▸ WindowBecomes.modWin s w _
    have ho : Only [.windows] s u := hu ▸ only_modWin s w _
    have hsl : ∀ m, u.slot m = s.slot m := fun m => by rw [hu]; rfl
    have hq : u.issueQueue = s.issueQueue := by rw [hu]; rfl
    have hg : (u.win w).geometry = (s.win w).geometry := by rw [hw.1]
    rw [walkFrom_of_first hj, ← hu]
    refine ⟨⟨fun j' m hj' hf => ?_, fun j' hj' hf => ?_, fun hn => ?_⟩, fun v hv => ?_⟩
    · obtain rfl := firstInB_unique hj hj'
      rw [serveCopy_of_free (m := m) (by rw [hw.1]) (by simpa [LowestFreeSlot, hsl] using hf)]
      obtain ⟨h₁, h₂, h₃, op, h₄, h₅, h₆, h₇⟩ := copyStarts_serveCopyWith (s := u) (w := w) (j := j) m
        (by rw [hw.1])
      refine ⟨(ho.mono (by simp)).trans h₁, ⟨h₂.1.trans (by rw [hw.1]), fun v hv =>
        (h₂.2 v hv).trans (hw.2 v hv)⟩, ⟨h₃.1, fun n hn => (h₃.2 n hn).trans (hsl n)⟩, op, h₄,
        by rw [h₅, hg], h₆, by rw [h₇, hq]⟩
    · obtain rfl := firstInB_unique hj hj'
      rw [serveCopy_of_full w (by simpa [hsl] using hf)]
      exact ⟨ho, hw⟩
    · exact absurd (hn j hj.1 hj.2.1) (by rw [hj.2.2.1]; simp)
    · rw [hw.2 v hv]; exact hk v hv
  · have hr := retired_flattenDone hm w
    rw [walkFrom_of_none hn]
    have hs : (s.flattenDone w).serveCopy w = s.flattenDone w := serveCopy_of_none (by rw [hr.2.1.1])
    refine ⟨⟨fun j _ hj _ => ?_, fun j hj _ => ?_, fun _ => by rw [hs]; exact hr⟩, fun v hv => ?_⟩
    · exact absurd (hn j hj.1 hj.2.1) (by rw [hj.2.2.1]; simp)
    · exact absurd (hn j hj.1 hj.2.1) (by rw [hj.2.2.1]; simp)
    · rw [hr.2.1.2 v hv]; exact hk v hv

/-- The walk from line `i` on, with the end of its event: with the empty order its slot request is
served before the H-port examines its head; with no request presented the order does not matter (R57,
R117, R118). -/
theorem walksFrom_arbitrate {s : State} {w : WindowId} (i : Nat) (hm : s.lineMap.wf = true)
    (hk : ∀ v, v ≠ w → (s.win v).copyRequest = false) :
    ∃ t, WalksFrom s t w i ∧ (s.walkFrom w i).arbitrate [] = t.pump
      ∧ (s.hport.channel = [] → ∀ o, (s.walkFrom w i).arbitrate o = t) := by
  obtain ⟨h, hk'⟩ := walksFrom_serveCopy i hm hk
  refine ⟨_, h, ?_, fun hch o => arbitrate_of_one ?_ hk' o⟩
  · show ((s.walkFrom w i).forWindows allWindows fun v t => t.serveCopy v).pump = _
    rw [forWindows_serveCopy_all hk']
  · rcases first_or_none s w i with ⟨j, hj⟩ | hn
    · rw [walkFrom_of_first hj]; exact hch
    · rw [walkFrom_of_none hn]; exact hch

/-! ### Lowered counts -/

/-- The tests at an event that lowered a count of window `w`, with the end of the event: the flip, the
clear, the beginning of the copies, or nothing (R84, R116). -/
theorem drainFollows_tests {u : State} {w : WindowId} {o : Order} (hr : u.inReset = false) (hk :
    NoKeptRequest u) :
   DrainFollows (.next ((u.drainTests w).arbitrate o)) u w o := by
  have hst : ∀ v : State, (v.win w).state ≠ .flattening → v.flattenTest w = v := by
    intro v h; unfold State.flattenTest; rw [if_neg]; simp [Window.flattenDrained, h]
  have kept_patch : ∀ (v : State) (x : Window) (l : List Notice), NoKeptRequest v →
      x.copyRequest = false → NoKeptRequest (v.patched w x l) := by
    intro v x l hv hx z
    by_cases hz : z = w
    · subst hz; rw [patched_win_self]; exact hx
    · rw [patched_win_of_ne _ hz]; exact hv z
  have kept_settled : ∀ (v : State) f g (x : Window) (l : List Notice), NoKeptRequest v →
      x.copyRequest = false → NoKeptRequest (v.settled w f g x l) := by
    intro v f g x l hv hx
    exact kept_patch _ x l (fun z => hv z) hx
  have kept_prompt : ∀ v : State, NoKeptRequest v → NoKeptRequest (v.promptTest w)
      ∧ ((v.promptTest w).win w).state ≠ .flattening ∨ (v.win w).state = .flattening := by
    intro v hv
    by_cases h : (v.win w).state = .flattening
    · exact .inr h
    left
    by_cases hp : (v.win w).state = .live ∧ (v.win w).Prompted
    · rw [promptTest_of_ready hp.1 hp.2]
      by_cases hd : (v.win w).Drained
      · rw [enterCommit_of_drained hd]
        exact ⟨kept_settled _ _ _ _ _ hv (hv w), by rw [settled_win_self]; intro h; cases h⟩
      · rw [enterCommit_of_not_drained hd]
        exact ⟨kept_patch _ _ _ hv (hv w), by rw [patched_win_self]; intro h; cases h⟩
    · rw [promptTest_of_not_ready hp]; exact ⟨hv, h⟩
  refine ⟨fun hc hd => ?_, fun hc hd => ?_, fun h1 h2 h3 => ?_, fun h1 h2 => ?_⟩
  · have hkf : NoKeptRequest (u.flipAt w) ∧ ((u.flipAt w).win w).state ≠ .flattening := by
      have := kept_prompt (u.takeFlip w) (by rw [takeFlip_eq]; exact kept_settled _ _ _ _ _ hk (hk w))
      exact this.resolve_right (by rw [takeFlip_eq, settled_win_self]; intro h; cases h)
    rw [exec_flip hr hc hd, State.drainTests, settleTest_of_committing hc hd, hst _ hkf.2, arbitrate_of_none hkf.1]
  · have hkf : NoKeptRequest (u.clearAt w) ∧ ((u.clearAt w).win w).state ≠ .flattening := by
      have := kept_prompt (u.takeClear w) (by rw [takeClear_eq]; exact kept_settled _ _ _ _ _ hk (hk w))
      exact this.resolve_right (by rw [takeClear_eq, settled_win_self]; intro h; cases h)
    rw [exec_clear hr hc hd, State.drainTests, settleTest_of_discarding hc hd, hst _ hkf.2, arbitrate_of_none hkf.1]
  · have e : u.settleTest w = u := settleTest_of_waiting (fun h => by rw [h1] at h; cases h)
    have hfd : (u.win w).flattenDrained = true := by simp [Window.flattenDrained, h1, h2, h3, hk w]
    have e2 : exec (.flattenDrainComplete w o) u = .next ((u.walkFrom w 0).arbitrate o) := by
      show Host.Outcome.next (u.whenRunning _) = _
      rw [whenRunning_of_running hr, if_pos hfd]
    rw [e2, State.drainTests, e, State.flattenTest, if_pos hfd]
  · have e : u.settleTest w = u := settleTest_of_waiting h1
    have e3 : u.flattenTest w = u := by
      unfold State.flattenTest; rw [if_neg]
      intro h
      simp only [Window.flattenDrained, Bool.and_eq_true, decide_eq_true_eq, Bool.not_eq_true'] at h
      rcases h2 h.1.1.1 with h' | h'
      · exact h' h.1.1.2
      · exact h' h.1.2
    rw [State.drainTests, e, e3, arbitrate_of_none hk]

/-- Requests stay unkept where the flags stay. -/
theorem NoKeptRequest.of_eq {s u : State} (h : NoKeptRequest s) (he : ∀ w, (u.win w).copyRequest =
    (s.win w).copyRequest) : NoKeptRequest u := fun w => (he w).trans (h w)

/-! ### The end of an event with the empty order -/

/-- A kept slot request as it is served (R57, R117). -/
theorem keptServed_serveCopy (s : State) (w : WindowId) : KeptServed s (s.serveCopy w) w := by
  refine ⟨fun j m hk hc hm => ?_, fun h => ?_⟩
  · rw [serveCopy_of_free hk hm]; exact copyStarts_serveCopyWith m hc
  · exact h.elim serveCopy_of_none (serveCopy_of_full w)

/-- The turns of several windows (R57). -/
theorem keptServedIn_forWindows : ∀ (ws : List WindowId) (s : State),
    KeptServedIn ws s (s.forWindows ws fun w t => t.serveCopy w)
  | [], _ => rfl
  | w :: ws, s => ⟨s.serveCopy w, keptServed_serveCopy s w, keptServedIn_forWindows ws _⟩

/-- The end of an event with the empty order (R57, R117, R124). -/
theorem keptThenHead_arbitrate (s : State) : KeptThenHead s (s.arbitrate []) :=
  ⟨_, keptServedIn_forWindows allWindows s, rfl⟩

/-- The walk from line `i` on, before its slot request is served (R117, R118). -/
theorem walkStops_walkFrom {s : State} (h : s.lineMap.wf = true) (w : WindowId) (i : Nat) :
    WalkStops s (s.walkFrom w i) w i := by
  refine ⟨fun j hj => ?_, fun hn => ?_⟩
  · rw [walkFrom_of_first hj]; exact ⟨only_modWin s w _, WindowBecomes.modWin s w _⟩
  · rw [walkFrom_of_none hn]; exact retired_flattenDone h w

/-- The entry to a COMMIT settle does not look at the H-port (R82). -/
theorem enterCommit_unasked (s : State) (w : WindowId) :
    s.unasked.enterCommit w = (s.enterCommit w).unasked := by
  by_cases h : (s.win w).Drained
  · rw [enterCommit_of_drained h, enterCommit_of_drained (s := s.unasked) h]; rfl
  · rw [enterCommit_of_not_drained h, enterCommit_of_not_drained (s := s.unasked) h]; rfl

/-- The prompt rule does not look at the H-port (R81). -/
theorem promptTest_unasked (s : State) (w : WindowId) :
    s.unasked.promptTest w = (s.promptTest w).unasked := by
  by_cases h : (s.win w).state = .live ∧ (s.win w).Prompted
  · rw [promptTest_of_ready h.1 h.2, promptTest_of_ready (s := s.unasked) h.1 h.2, enterCommit_unasked]
  · rw [promptTest_of_not_ready h, promptTest_of_not_ready (s := s.unasked) h]

/-- The flip does not look at the H-port (R86). -/
theorem flipAt_unasked (s : State) (w : WindowId) : s.unasked.flipAt w = (s.flipAt w).unasked := by
  have h : s.unasked.takeFlip w = (s.takeFlip w).unasked := by rw [takeFlip_eq, takeFlip_eq]; rfl
  rw [State.flipAt, h, promptTest_unasked]; rfl

/-- The clear does not look at the H-port (R88). -/
theorem clearAt_unasked (s : State) (w : WindowId) : s.unasked.clearAt w = (s.clearAt w).unasked := by
  have h : s.unasked.takeClear w = (s.takeClear w).unasked := by rw [takeClear_eq, takeClear_eq]; rfl
  rw [State.clearAt, h, promptTest_unasked]; rfl

/-- The prompt rule leaves the H-port as it is and begins no retirement (R81). -/
theorem promptTest_spec (s : State) (w : WindowId) (h : (s.win w).state = .live) :
    (s.promptTest w).hport = s.hport ∧ ((s.promptTest w).win w).state ≠ .flattening := by
  by_cases hp : (s.win w).Prompted
  · rw [promptTest_of_ready h hp]
    by_cases hd : (s.win w).Drained
    · rw [enterCommit_of_drained hd, settled_win_self]; exact ⟨rfl, by intro h; cases h⟩
    · rw [enterCommit_of_not_drained hd, patched_win_self]; exact ⟨rfl, by intro h; cases h⟩
  · rw [promptTest_of_not_ready fun hc => hp hc.2, h]; exact ⟨rfl, by intro h; cases h⟩

/-- The drain test of a window whose copies cannot begin (R116). -/
theorem flattenTest_of_waiting {s : State} {w : WindowId} (h : (s.win w).state = .flattening →
    (s.win w).requests ≠ 0 ∨ (s.win w).fills ≠ 0 ∨ (s.win w).copyRequest = true) :
    s.flattenTest w = s := by
  unfold State.flattenTest; rw [if_neg]; intro hf
  simp only [Window.flattenDrained, Bool.and_eq_true, decide_eq_true_eq, Bool.not_eq_true'] at hf
  rcases h hf.1.1.1 with h | h | h
  · exact h hf.1.1.2
  · exact h hf.1.2
  · rw [hf.2] at h; cases h

/-- The tests at an event that lowered a count, before the end of the event (R84, R116). -/
theorem drainTaken_drainTests {u : State} (hr : u.inReset = false) (hm : u.lineMap.wf = true) (w : WindowId) :
    DrainTaken u (u.drainTests w) w := by
  have hf := promptTest_spec (u.takeFlip w) w (by rw [takeFlip_eq, settled_win_self]; rfl)
  have hc := promptTest_spec (u.takeClear w) w (by rw [takeClear_eq, settled_win_self]; rfl)
  refine ⟨fun c d => ?_, fun c d => ?_, fun h1 h2 h3 h4 => ?_, fun h1 h2 => ?_⟩
  · have e : u.drainTests w = u.flipAt w := by
      rw [State.drainTests, settleTest_of_committing c d]
      exact flattenTest_of_waiting fun h => absurd h hf.2
    rw [e]
    refine ⟨hf.1.trans (by rw [takeFlip_eq]; rfl), ?_⟩
    rw [exec_flip (s := u.unasked) hr c d, flipAt_unasked, pump_of_nil rfl]
  · have e : u.drainTests w = u.clearAt w := by
      rw [State.drainTests, settleTest_of_discarding c d]
      exact flattenTest_of_waiting fun h => absurd h hc.2
    rw [e]
    refine ⟨hc.1.trans (by rw [takeClear_eq]; rfl), ?_⟩
    rw [exec_clear (s := u.unasked) hr c d, clearAt_unasked, pump_of_nil rfl]
  · have e : u.drainTests w = u.walkFrom w 0 := by
      rw [State.drainTests, settleTest_of_waiting fun h => by rw [h1] at h; cases h]
      simp [State.flattenTest, Window.flattenDrained, h1, h2, h3, h4]
    rw [e]; exact walkStops_walkFrom hm w 0
  · rw [State.drainTests, settleTest_of_waiting h1, flattenTest_of_waiting h2]

/-- The tests at an event that lowered a count, with the end of the event (R84, R116). -/
theorem drainThenKept_tests {u : State} (hr : u.inReset = false) (hm : u.lineMap.wf = true) (w : WindowId) :
    DrainThenKept (.next ((u.drainTests w).arbitrate [])) u w :=
  ⟨_, _, drainTaken_drainTests hr hm w, keptThenHead_arbitrate _, rfl⟩
end Sys2Proof.Machine
end

