-- ==== Sys2Proof/Laws/Slots.lean ====
section
/-! SUPPORT. What is done to several slots or windows in one event, each said once: the release of the
slots in WAITING (R60), orphaning (R70), the drop of several windows (R15, R17). -/

namespace Sys2Proof.Machine

/-! ### Leaving WAITING -/

/-- Turns that change nothing. -/
theorem forSlots_id {s : State} {f : SlotId → State → State} (h : ∀ n, f n s = s) : ∀ ns,
    s.forSlots ns f = s
 | [] => rfl
 | n :: ns => by rw [forSlots_cons, h n]; exact forSlots_id h ns

/-- With no fill of the window in WAITING no slot leaves it (R60). -/
theorem leaveWaitingOf_none {s : State} {w : WindowId} (h : ∀ n k, s.slot n = some k →
    k.FillsFor w → k.phase ≠ .waiting) (ns : List SlotId) :
   s.leaveWaitingOf w ns = s := by
  refine forSlots_id (fun n => ?_) ns
  cases hs : s.slot n with
  | none => simp
  | some k =>
    simp only [Option.any_some]
    split
    · next hw =>
      have hw : k.window = w := by simpa using hw
      apply leaveWaiting_of_not hs
      rw [Bool.eq_false_iff]; intro hm
      simp only [SlotWork.mayWrite, SlotWork.isFill, Bool.and_eq_true, decide_eq_true_eq,
          Bool.not_eq_true', ne_eq] at hm
      refine h n k hs ⟨hw, hm.1.1.1, ?_⟩ hm.1.2
      cases hk : k.kind <;> simp_all
    · rfl

/-- One slot's part in the release of the slots in WAITING (R60, R61). -/
theorem leaveWaiting_turn (w : WindowId) (n : SlotId) (s : State) (hp : (s.win w).previousReads = 0) :
   let t := if ((s.slot n).any fun k => k.window = w) = true then s.leaveWaiting n else s
   Only [.slots, .issueQueue] s t ∧ (∀ m, m ≠ n → t.slot m = s.slot m) ∧
   t.issueQueue = s.issueQueue ++ (waitingWrite s w n).toList ∧
   (∀ k, s.slot n = some k → k.FillsFor w → k.phase = .waiting → t.slot n =
       some { k with phase := .writing, attempt := 1 }) ∧
   ((∀ k, s.slot n = some k → ¬(k.FillsFor w ∧ k.phase = .waiting)) → t.slot n = s.slot n) := by
  intro t
  by_cases h : ∃ k, s.slot n = some k ∧ k.FillsFor w ∧ k.phase = .waiting
  · obtain ⟨k, hs, hf, hph⟩ := h
    have hw := hf.1
    have ht : t = s.startPhase n { k with phase := .writing, attempt := 1 } := by
      show (if _ then _ else _) = _
      rw [if_pos (by rw [hs]; simp [hw]), leaveWaiting_of_mayWrite hs (by rw [mayWrite_of_fill hf hph, hw]; simp [hp])]
    rw [ht]
    have hsb := slotBecomes_startPhase s n { k with phase := .writing, attempt := 1 }
    refine ⟨only_startPhase _ _ _, hsb.2, ?_, ?_, fun hc => absurd ⟨hf, hph⟩ (hc k hs)⟩
    · have hww : waitingWrite s w n = k.buffer.map fun l =>
          { tag := ⟨32 + n.val, by omega⟩
            address := (s.win w).geometry.bankBase k.target + BitVec.ofNat 32 (64 * k.line)
            access := .write (l.toList.map fun x => { data := x, mask := 0xFF }) } := by
        unfold waitingWrite
        rw [hs]
        exact if_pos ⟨hw, hf.2.1, hf.2.2, hph⟩
      rw [hww]
      cases hb : k.buffer with
      | none => rw [startPhase_empty _ _ rfl (by first | exact hb | rfl)]; simp
      | some l =>
        rw [startPhase_writing _ _ rfl (by first | exact hb | rfl)]
        subst hw; rfl
    · intro k' hk' hf' hp'
      rw [hs] at hk'; cases hk'
      exact hsb.1
  · push Not at h
    have ht : t = s := by
      show (if _ then _ else _) = _
      split
      · next hc =>
        cases hs : s.slot n with
        | none => rw [hs] at hc; simp at hc
        | some k =>
          have hw : k.window = w := by rw [hs] at hc; simpa using hc
          apply leaveWaiting_of_not hs
          rw [Bool.eq_false_iff]; intro hm
          simp only [SlotWork.mayWrite, SlotWork.isFill, Bool.and_eq_true, decide_eq_true_eq,
              Bool.not_eq_true', ne_eq] at hm
          refine h k hs ⟨hw, hm.1.1.1, ?_⟩ hm.1.2
          cases hk : k.kind <;> simp_all
      · rfl
    rw [ht]
    have hww : waitingWrite s w n = none := by
      unfold waitingWrite
      split
      · rfl
      · next k hs => exact if_neg fun hc => h k hs ⟨hc.1, hc.2.1, hc.2.2.1⟩ hc.2.2.2
    rw [hww]
    exact ⟨Only.refl _ _, fun _ _ => rfl, by simp, fun k hs hf hp => absurd hp (h k hs hf), fun _ => rfl⟩

/-- Every slot of a window that may leave WAITING does, in whatever order, and no other slot changes
(R60, R61). -/
theorem leaveWaitingOf_spec (w : WindowId) : ∀ (ns : List SlotId), ns.Nodup → ∀ (s : State),
    (s.win w).previousReads = 0 →
   Only [.slots, .issueQueue] s (s.leaveWaitingOf w ns) ∧ (∀ m, m ∉ ns →
       (s.leaveWaitingOf w ns).slot m = s.slot m) ∧
   (s.leaveWaitingOf w ns).issueQueue = s.issueQueue ++ ns.filterMap (waitingWrite s w) ∧
   (∀ n ∈ ns, (∀ k, s.slot n = some k → k.FillsFor w → k.phase = .waiting →
       (s.leaveWaitingOf w ns).slot n = some { k with phase := .writing, attempt := 1 }) ∧
   ((∀ k, s.slot n = some k → ¬(k.FillsFor w ∧ k.phase = .waiting)) →
      (s.leaveWaitingOf w ns).slot n = s.slot n)) := by
  intro ns
  induction ns with
  | nil =>
    intro _ s _
    exact ⟨Only.refl _ _, fun _ _ => rfl, by simp [State.leaveWaitingOf], fun n hn => by cases hn⟩
  | cons n ns ih =>
    intro hnd s hp
    rw [List.nodup_cons] at hnd
    obtain ⟨t1, t2, t3, t4, t5⟩ := leaveWaiting_turn w n s hp
    set t := if ((s.slot n).any fun k => k.window = w) = true then s.leaveWaiting n else s with ht
    have hwin : t.windows = s.windows := t1 .windows (by simp)
    have htw : t.win w = s.win w := win_eq_of_windows hwin w
    obtain ⟨r1, r2, r3, r4⟩ := ih hnd.2 t (by rw [htw]; exact hp)
    have hcons : s.leaveWaitingOf w (n :: ns) = t.leaveWaitingOf w ns := rfl
    rw [hcons]
    have hww : ns.filterMap (waitingWrite t w) = ns.filterMap (waitingWrite s w) := by
      refine List.filterMap_congr fun m hm => ?_
      have hmn : m ≠ n := fun e => hnd.1 (e ▸ hm)
      unfold waitingWrite
      rw [t2 m hmn, htw]
    refine ⟨t1.trans r1, fun m hm => ?_, ?_, fun m hm => ?_⟩
    · rw [List.mem_cons, not_or] at hm; rw [r2 m hm.2, t2 m hm.1]
    · rw [r3, t3, hww, List.filterMap_cons, List.append_assoc]
      cases waitingWrite s w n <;> rfl
    · by_cases hmn : m = n
      · subst hmn
        refine ⟨fun k hs hf hph => ?_, fun hc => ?_⟩
        · rw [r2 m hnd.1, t4 k hs hf hph]
        · rw [r2 m hnd.1, t5 hc]
      · have hm' : m ∈ ns := (List.mem_cons.mp hm).resolve_left hmn
        obtain ⟨a, b⟩ := r4 m hm'
        rw [t2 m hmn] at a b
        exact ⟨a, b⟩

/-! ### Orphaning and drops -/

/-- What becomes of a slot when the windows with a property are dropped (R70). -/
def orphanedWork (p : WindowId → Bool) : Option SlotWork → Option SlotWork
  | none => none
  | some k => if p k.window = true ∧ k.orphaned = false then
       if k.phase = .waiting then none else some { k with phase := .retiring, held := none, orphaned := true }
     else some k

/-- The answer that orphaning a slot gives (R70). -/
def orphanAnswer (p : WindowId → Bool) : Option SlotWork → Option HResponse
  | none => none
  | some k => if p k.window = true ∧ k.orphaned = false then
       k.held.map fun h => { requester := h.requester, tag := h.tag, status := .error, data := [], duplicate := false }
     else none

/-- Orphaning, slot by slot: the slots, and the answers in slot order (R70, R125). -/
theorem orphanSlots_spec (ws : List WindowId) : ∀ (ns : List SlotId), ns.Nodup → ∀ s : State,
   let t := s.forSlots ns fun n t =>
    match t.slot n with
    | none => t
    | some k => if k.window ∈ ws ∧ !k.orphaned then t.orphan n k else t
   Only [.slots, .hport] s t ∧ (∀ n, t.slot n =
       if n ∈ ns then orphanedWork (fun w => decide (w ∈ ws)) (s.slot n) else s.slot n) ∧
   t.hport = { s.hport with
      responses := s.hport.responses ++
        ns.filterMap fun n => orphanAnswer (fun w => decide (w ∈ ws)) (s.slot n) } := by
  intro ns
  induction ns with
  | nil => intro _ s; exact ⟨Only.refl _ _, fun n => by simp, by simp⟩
  | cons n ns ih =>
    intro hnd s
    rw [List.nodup_cons] at hnd
    have turn : ∀ u, u = (match s.slot n with
    | none => s
    | some k => if k.window ∈ ws ∧ !k.orphaned then s.orphan n k else s) →
      Only [.slots, .hport] s u ∧ u.slot n = orphanedWork (fun w => decide (w ∈ ws)) (s.slot n) ∧
        (∀ m, m ≠ n → u.slot m = s.slot m) ∧
       u.hport = { s.hport with
          responses := s.hport.responses ++
            (orphanAnswer (fun w => decide (w ∈ ws)) (s.slot n)).toList } := by
      rintro u rfl
      cases hs : s.slot n with
      | none => exact ⟨Only.refl _ _, by simpa [orphanedWork] using hs, fun _ _ => rfl, by simp [orphanAnswer]⟩
      | some k =>
        by_cases hc : k.window ∈ ws ∧ (!k.orphaned) = true
        · have hc' : k.window ∈ ws ∧ k.orphaned = false := by simpa using hc
          simp only [if_pos hc]
          have hA : ∃ v, s.answerHeld k.held .error = v ∧ Only [.hport] s v ∧
              v.hport = { s.hport with
                responses := s.hport.responses ++
                  (orphanAnswer (fun w => decide (w ∈ ws)) (some k)).toList } := by
            refine ⟨_, rfl, ?_, ?_⟩
            · cases hh : k.held with
              | none => exact Only.refl _ _
              | some h => exact only_respond _ _
            · cases hh : k.held with
              | none => simp [orphanAnswer, hh, hc', State.answerHeld]
              | some h => simp [orphanAnswer, hh, hc', State.answerHeld]
          obtain ⟨v, hv, ho, hh⟩ := hA
          have hsv : ∀ m, v.slot m = s.slot m := fun m => by unfold State.slot; rw [ho .slots (by simp)]
          by_cases hp : k.phase = .waiting
          · have e : s.orphan n k = v.setSlot n none := by unfold State.orphan; rw [hv, if_pos hp]
            rw [e]
            refine ⟨(ho.mono (by simp)).trans ((only_setSlot _ _ _).mono (by simp)), by simp [orphanedWork, hc', hp],
              fun m hm => by rw [slot_setSlot_of_ne _ hm, hsv], hh⟩
          · have e : s.orphan n k = v.setSlot n (some
                { k with phase := .retiring, held := none, orphaned := true }) := by
              unfold State.orphan; rw [hv, if_neg hp]
            rw [e]
            refine ⟨(ho.mono (by simp)).trans ((only_setSlot _ _ _).mono (by simp)), by simp [orphanedWork, hc', hp],
              fun m hm => by rw [slot_setSlot_of_ne _ hm, hsv], hh⟩
        · have hc' : ¬(k.window ∈ ws ∧ k.orphaned = false) := by simpa using hc
          simp only [if_neg hc]
          exact ⟨Only.refl _ _, by simp only [orphanedWork, decide_eq_true_eq, if_neg hc']; exact hs,
            fun _ _ => trivial, by simp [orphanAnswer, hc']⟩
    rw [forSlots_cons]
    generalize hu : (match s.slot n with
    | none => s
    | some k => if k.window ∈ ws ∧ !k.orphaned then s.orphan n k else s) = u
    obtain ⟨t1, t2, t3, t4⟩ := turn u hu.symm
    obtain ⟨r1, r2, r3⟩ := ih hnd.2 u
    refine ⟨t1.trans r1, fun m => ?_, ?_⟩
    · rw [r2 m]
      by_cases hmn : m = n
      · subst hmn; simp [hnd.1, t2]
      · simp [hmn, t3 m hmn]
    · rw [r3, t4]
      have : (List.filterMap (fun m => orphanAnswer (fun w => decide (w ∈ ws)) (u.slot m)) ns) =
          List.filterMap (fun m => orphanAnswer (fun w => decide (w ∈ ws)) (s.slot m)) ns := by
        apply List.filterMap_congr
        intro m hm
        rw [t3 m (fun e => hnd.1 (e ▸ hm))]
      rw [this]
      cases hA : orphanAnswer (fun w => decide (w ∈ ws)) (s.slot n) <;> simp [hA]

/-- A window's part in a drop (R15). -/
theorem dropRecord_spec {s : State} (hm : s.lineMap.wf = true) (w : WindowId) :
   Only [.windows, .lineMap] s (s.dropRecord w) ∧ WindowBecomes s (s.dropRecord w) w (s.win w).dropped
    ∧ SegmentBecomes s (s.dropRecord w) w (fun _ => LineEntry.reset) ∧ (s.dropRecord w).lineMap.wf = true := by
  refine ⟨?_, ⟨?_, fun v hv => ?_⟩,
    (segmentBecomes_mapSegment hm w (f := fun _ => LineEntry.reset) rfl).of_lineMap rfl,
    LineMap.wf_mapRange hm _ _ _⟩
  · intro p hp; cases p <;> first | rfl | simp at hp
  · unfold State.dropRecord; rw [win_modWin_self]; rfl
  · unfold State.dropRecord; rw [win_modWin_of_ne _ hv]; rfl

/-- The windows dropped together (R15, R17). -/
theorem dropRecords_spec : ∀ (ws : List WindowId), ws.Nodup → ∀ s : State, s.lineMap.wf = true →
   let t := s.forWindows ws fun w t => t.dropRecord w
   Only [.windows, .lineMap] s t ∧ (∀ w, t.win w = if w ∈ ws then (s.win w).dropped else s.win w) ∧
    (∀ i, (∃ w ∈ ws, (s.win w).geometry.Claims i) → t.lineMap.entry i = LineEntry.reset) ∧
    (∀ i, (∀ w ∈ ws, ¬ (s.win w).geometry.Claims i) → t.lineMap.entry i = s.lineMap.entry i) := by
  intro ws
  induction ws with
  | nil =>
    intro _ s _
    exact ⟨Only.refl _ _, fun w => by simp, fun i h => (by obtain ⟨w, h, _⟩ := h; cases h), fun _ _ => rfl⟩
  | cons w ws ih =>
    intro hnd s hm
    rw [List.nodup_cons] at hnd
    obtain ⟨d1, d2, d3, d4⟩ := dropRecord_spec hm w
    obtain ⟨r1, r2, r3, r4⟩ := ih hnd.2 (s.dropRecord w) d4
    have hg : ∀ v, ((s.dropRecord w).win v).geometry = (s.win v).geometry := fun v => by
      by_cases hv : v = w
      · subst hv; rw [d2.1]; rfl
      · rw [d2.2 v hv]
    have hcl : ∀ i, (s.win w).geometry.Claims i → (s.dropRecord w).lineMap.entry i = LineEntry.reset := by
      intro i ⟨a, b⟩
      have := d3.1 (i - (s.win w).geometry.mapOffset.toNat) (by omega)
      rwa [show (s.win w).geometry.entryIndex (i - (s.win w).geometry.mapOffset.toNat) = i by
        unfold Geometry.entryIndex; omega] at this
    have hnc : ∀ i, ¬(s.win w).geometry.Claims i → (s.dropRecord w).lineMap.entry i = s.lineMap.entry i := by
      intro i h
      apply d3.2
      intro j hj e
      apply h
      subst e; unfold Geometry.Claims Geometry.entryIndex; omega
    refine ⟨d1.trans r1, fun v => ?_, fun i h => ?_, fun i h => ?_⟩
    · rw [forWindows_cons, r2 v]
      by_cases hv : v = w
      · subst hv; simp [hnd.1, d2.1]
      · simp [hv, d2.2 v hv]
    · by_cases hx : ∃ v ∈ ws, ((s.dropRecord w).win v).geometry.Claims i
      · exact r3 i hx
      · push Not at hx
        rw [forWindows_cons, r4 i hx]
        obtain ⟨v, hv, hc⟩ := h
        rcases List.mem_cons.mp hv with e | e
        · subst e; exact hcl i hc
        · exact absurd (by rw [hg]; exact hc) (hx v e)
    · rw [forWindows_cons, r4 i (fun v hv => by rw [hg]; exact h v (List.mem_cons_of_mem _ hv)),
        hnc i (h w List.mem_cons_self)]

end Sys2Proof.Machine
end

