-- ==== Sys2Proof/Laws/Unread.lean ====
section
/-! SUPPORT. What a command does at the end of its frame does not depend on what the management port
holds: every operation gives, from a state with another port, what it gives with that port put in (R144 to
R148). -/

namespace Sys2Proof.Machine

/-- The state with another content of the management port. -/
def State.atPort (s : State) (m : MgmtPort) : State := { s with mgmt := m }

/-! ### What is read of a state -/

@[simp] theorem atPort_win (s : State) (m : MgmtPort) (w : WindowId) :
    (s.atPort m).win w = s.win w := rfl
@[simp] theorem atPort_role (s : State) (m : MgmtPort) (r : Requester) (w : WindowId) :
    (s.atPort m).role r w = s.role r w := rfl
@[simp] theorem atPort_slot (s : State) (m : MgmtPort) (n : SlotId) :
    (s.atPort m).slot n = s.slot n := rfl
@[simp] theorem atPort_entry (s : State) (m : MgmtPort) (i : EntryId) :
    (s.atPort m).entry i = s.entry i := rfl
@[simp] theorem atPort_lineEntry (s : State) (m : MgmtPort) (w : WindowId) (i : Nat) :
    (s.atPort m).lineEntry w i = s.lineEntry w i := rfl
@[simp] theorem atPort_freeSlot (s : State) (m : MgmtPort) :
    (s.atPort m).freeSlot = s.freeSlot := rfl
@[simp] theorem atPort_freeEntry (s : State) (m : MgmtPort) :
    (s.atPort m).freeEntry = s.freeEntry := rfl
@[simp] theorem atPort_levelAsserted (s : State) (m : MgmtPort) (w : WindowId) :
    (s.atPort m).levelAsserted w = s.levelAsserted w := rfl
@[simp] theorem atPort_firstLevelSource (s : State) (m : MgmtPort) (w : WindowId) :
    (s.atPort m).firstLevelSource w = s.firstLevelSource w := rfl
@[simp] theorem atPort_boundaryReleases (s : State) (m : MgmtPort) (w : WindowId) :
    (s.atPort m).boundaryReleases w = s.boundaryReleases w := rfl
@[simp] theorem atPort_loadBusy (s : State) (m : MgmtPort) (w : WindowId) :
    (s.atPort m).loadBusy w = s.loadBusy w := rfl
@[simp] theorem atPort_loadOverlap (s : State) (m : MgmtPort) (w : WindowId) :
    (s.atPort m).loadOverlap w = s.loadOverlap w := rfl
@[simp] theorem atPort_loadMapFault (s : State) (m : MgmtPort) (w : WindowId) :
    (s.atPort m).loadMapFault w = s.loadMapFault w := rfl
@[simp] theorem atPort_maskPasses (s : State) (m : MgmtPort) (b : Byte) :
    (s.atPort m).maskPasses b = s.maskPasses b := rfl
@[simp] theorem atPort_activeWindows (s : State) (m : MgmtPort) :
    (s.atPort m).activeWindows = s.activeWindows := rfl
@[simp] theorem atPort_canAccept (s : State) (m : MgmtPort) (r : HRequest) :
    (s.atPort m).canAccept r = s.canAccept r := rfl
@[simp] theorem atPort_outcome (s : State) (m : MgmtPort) (r : HRequest) :
    (s.atPort m).outcome r = s.outcome r := rfl
@[simp] theorem atPort_hport (s : State) (m : MgmtPort) :
    (s.atPort m).hport = s.hport := rfl
@[simp] theorem atPort_lines (s : State) (m : MgmtPort) :
    (s.atPort m).lines = s.lines := rfl
@[simp] theorem atPort_settings (s : State) (m : MgmtPort) :
    (s.atPort m).settings = s.settings := rfl
@[simp] theorem atPort_roles (s : State) (m : MgmtPort) :
    (s.atPort m).roles = s.roles := rfl
@[simp] theorem atPort_lineMap (s : State) (m : MgmtPort) :
    (s.atPort m).lineMap = s.lineMap := rfl
@[simp] theorem atPort_issueQueue (s : State) (m : MgmtPort) :
    (s.atPort m).issueQueue = s.issueQueue := rfl
@[simp] theorem atPort_inReset (s : State) (m : MgmtPort) :
    (s.atPort m).inReset = s.inReset := rfl
@[simp] theorem atPort_notices (s : State) (m : MgmtPort) :
    (s.atPort m).notices = s.notices := rfl

/-! ### Updates -/

@[simp] theorem modWin_atPort (s : State) (m : MgmtPort) (w : WindowId) (f : Window → Window) :
    (s.atPort m).modWin w f = (s.modWin w f).atPort m := rfl
@[simp] theorem setRoles_atPort (s : State) (m : MgmtPort) (r : Vector (Vector Role 8) 16) :
    (s.atPort m).setRoles r = (s.setRoles r).atPort m := rfl
@[simp] theorem setSlot_atPort (s : State) (m : MgmtPort) (n : SlotId) (k : Option SlotWork) :
    (s.atPort m).setSlot n k = (s.setSlot n k).atPort m := rfl
@[simp] theorem setEntry_atPort (s : State) (m : MgmtPort) (i : EntryId) (e : Option InFlight) :
    (s.atPort m).setEntry i e = (s.setEntry i e).atPort m := rfl
@[simp] theorem setLineMap_atPort (s : State) (m : MgmtPort) (l : LineMap) :
    (s.atPort m).setLineMap l = (s.setLineMap l).atPort m := rfl
@[simp] theorem modHPort_atPort (s : State) (m : MgmtPort) (f : HPort → HPort) :
    (s.atPort m).modHPort f = (s.modHPort f).atPort m := rfl
@[simp] theorem setIssueQueue_atPort (s : State) (m : MgmtPort) (q : List MOp) :
    (s.atPort m).setIssueQueue q = (s.setIssueQueue q).atPort m := rfl
@[simp] theorem modNotices_atPort (s : State) (m : MgmtPort) (f : NoticeQueue → NoticeQueue) :
    (s.atPort m).modNotices f = (s.modNotices f).atPort m := rfl
@[simp] theorem setSettings_atPort (s : State) (m : MgmtPort) (c : Settings) :
    (s.atPort m).setSettings c = (s.setSettings c).atPort m := rfl
@[simp] theorem modLines_atPort (s : State) (m : MgmtPort) (f : LineInterface → LineInterface) :
    (s.atPort m).modLines f = (s.modLines f).atPort m := rfl
@[simp] theorem modLine_atPort (s : State) (m : MgmtPort) (w : WindowId) (i : Nat) (f : LineEntry →
    LineEntry) :
    (s.atPort m).modLine w i f = (s.modLine w i f).atPort m := rfl
@[simp] theorem mapSegment_atPort (s : State) (m : MgmtPort) (w : WindowId) (f : LineEntry → LineEntry)
    :
    (s.atPort m).mapSegment w f = (s.mapSegment w f).atPort m := rfl
@[simp] theorem raise_atPort (s : State) (m : MgmtPort) (n : Notice) :
    (s.atPort m).raise n = (s.raise n).atPort m := rfl
@[simp] theorem respond_atPort (s : State) (m : MgmtPort) (r : HResponse) :
    (s.atPort m).respond r = (s.respond r).atPort m := rfl
@[simp] theorem issue_atPort (s : State) (m : MgmtPort) (o : MOp) :
    (s.atPort m).issue o = (s.issue o).atPort m := rfl
@[simp] theorem requestPulse_atPort (s : State) (m : MgmtPort) :
    (s.atPort m).requestPulse = (s.requestPulse ).atPort m := rfl
@[simp] theorem takePlace_atPort (s : State) (m : MgmtPort) (r : HRequest) :
    (s.atPort m).takePlace r = (s.takePlace r).atPort m := rfl
@[simp] theorem answerLocally_atPort (s : State) (m : MgmtPort) (r : HRequest) (st : Status) (d : Bool)
    :
    (s.atPort m).answerLocally r st d = (s.answerLocally r st d).atPort m := rfl
@[simp] theorem allocate_atPort (s : State) (m : MgmtPort) (n : SlotId) (k : SlotWork) :
    (s.atPort m).allocate n k = (s.allocate n k).atPort m := rfl
@[simp] theorem release_atPort (s : State) (m : MgmtPort) (n : SlotId) (w : WindowId) :
    (s.atPort m).release n w = (s.release n w).atPort m := rfl
@[simp] theorem takeClear_atPort (s : State) (m : MgmtPort) (w : WindowId) :
    (s.atPort m).takeClear w = (s.takeClear w).atPort m := rfl
@[simp] theorem beginRetire_atPort (s : State) (m : MgmtPort) (w : WindowId) :
    (s.atPort m).beginRetire w = (s.beginRetire w).atPort m := rfl
@[simp] theorem flattenDone_atPort (s : State) (m : MgmtPort) (w : WindowId) :
    (s.atPort m).flattenDone w = (s.flattenDone w).atPort m := rfl
@[simp] theorem takeLoad_atPort (s : State) (m : MgmtPort) (w : WindowId) :
    (s.atPort m).takeLoad w = (s.takeLoad w).atPort m := rfl
@[simp] theorem dropRecord_atPort (s : State) (m : MgmtPort) (w : WindowId) :
    (s.atPort m).dropRecord w = (s.dropRecord w).atPort m := rfl

/-! ### Operations -/

@[simp] theorem takeFlip_atPort (s : State) (m : MgmtPort) (w : WindowId) :
    (s.atPort m).takeFlip w = (s.takeFlip w).atPort m := by
  rw [takeFlip_eq, takeFlip_eq]; rfl
@[simp] theorem cancelByHold_atPort (s : State) (m : MgmtPort) (w : WindowId) :
    (s.atPort m).cancelByHold w = (s.cancelByHold w).atPort m := by
  unfold State.cancelByHold; rfl
@[simp] theorem becomeActive_atPort (s : State) (m : MgmtPort) (w : WindowId) (c : HoldSource) :
    (s.atPort m).becomeActive w c = (s.becomeActive w c).atPort m := by
  unfold State.becomeActive; (repeat (any_goals split)) <;> simp_all
@[simp] theorem strikeLatched_atPort (s : State) (m : MgmtPort) (w : WindowId) (c : HoldSource) :
    (s.atPort m).strikeLatched w c = (s.strikeLatched w c).atPort m := by
  unfold State.strikeLatched; simp; (repeat (any_goals split)) <;> rfl
@[simp] theorem strikePerBoundary_atPort (s : State) (m : MgmtPort) (w : WindowId) (c : HoldSource) :
    (s.atPort m).strikePerBoundary w c = (s.strikePerBoundary w c).atPort m := by
  unfold State.strikePerBoundary; simp; (repeat (any_goals split)) <;> rfl
@[simp] theorem levelAsserts_atPort (s : State) (m : MgmtPort) (w : WindowId) (c : HoldSource) :
    (s.atPort m).levelAsserts w c = (s.levelAsserts w c).atPort m := by
  unfold State.levelAsserts; (repeat (any_goals split)) <;> simp_all
@[simp] theorem levelReleases_atPort (s : State) (m : MgmtPort) (w : WindowId) :
    (s.atPort m).levelReleases w = (s.levelReleases w).atPort m := by
  unfold State.levelReleases; (repeat (any_goals split)) <;> simp_all
@[simp] theorem eventOccurs_atPort (s : State) (m : MgmtPort) (w : WindowId) (c : HoldSource) :
    (s.atPort m).eventOccurs w c = (s.eventOccurs w c).atPort m := by
  unfold State.eventOccurs; simp; (repeat (any_goals split)) <;> rfl
@[simp] theorem violationEvent_atPort (s : State) (m : MgmtPort) (w : WindowId) :
    (s.atPort m).violationEvent w = (s.violationEvent w).atPort m := by
  unfold State.violationEvent; (repeat (any_goals split)) <;> simp_all
@[simp] theorem evaluateHold_atPort (s : State) (m : MgmtPort) (w : WindowId) :
    (s.atPort m).evaluateHold w = (s.evaluateHold w).atPort m := by
  unfold State.evaluateHold; simp; (repeat (any_goals split)) <;> rfl
@[simp] theorem polarityAt_atPort (s : State) (m : MgmtPort) (c : Settings) (w : WindowId) :
    (s.atPort m).polarityAt c w = (s.polarityAt c w).atPort m := by
  unfold State.polarityAt; simp; (repeat (any_goals split)) <;> rfl
@[simp] theorem enterCommit_atPort (s : State) (m : MgmtPort) (w : WindowId) :
    (s.atPort m).enterCommit w = (s.enterCommit w).atPort m := by
  by_cases h : (s.win w).Drained
  · rw [enterCommit_of_drained h, enterCommit_of_drained (s := s.atPort m) h]; rfl
  · rw [enterCommit_of_not_drained h, enterCommit_of_not_drained (s := s.atPort m) h]; rfl
@[simp] theorem promptTest_atPort (s : State) (m : MgmtPort) (w : WindowId) :
    (s.atPort m).promptTest w = (s.promptTest w).atPort m := by
  unfold State.promptTest; simp; (repeat (any_goals split)) <;> rfl
@[simp] theorem flipAt_atPort (s : State) (m : MgmtPort) (w : WindowId) :
    (s.atPort m).flipAt w = (s.flipAt w).atPort m := by
  unfold State.flipAt; simp
@[simp] theorem clearAt_atPort (s : State) (m : MgmtPort) (w : WindowId) :
    (s.atPort m).clearAt w = (s.clearAt w).atPort m := by
  unfold State.clearAt; simp
@[simp] theorem settleTest_atPort (s : State) (m : MgmtPort) (w : WindowId) :
    (s.atPort m).settleTest w = (s.settleTest w).atPort m := by
  unfold State.settleTest; (repeat (any_goals split)) <;> simp_all
@[simp] theorem enterDiscard_atPort (s : State) (m : MgmtPort) (w : WindowId) :
    (s.atPort m).enterDiscard w = (s.enterDiscard w).atPort m := by
  unfold State.enterDiscard; simp
@[simp] theorem issueSlot_atPort (s : State) (m : MgmtPort) (n : SlotId) :
    (s.atPort m).issueSlot n = (s.issueSlot n).atPort m := by
  unfold State.issueSlot; simp; (repeat (any_goals split)) <;> rfl
@[simp] theorem startPhase_atPort (s : State) (m : MgmtPort) (n : SlotId) (k : SlotWork) :
    (s.atPort m).startPhase n k = (s.startPhase n k).atPort m := by
  unfold State.startPhase; simp
@[simp] theorem leaveWaiting_atPort (s : State) (m : MgmtPort) (n : SlotId) :
    (s.atPort m).leaveWaiting n = (s.leaveWaiting n).atPort m := by
  unfold State.leaveWaiting; simp; (repeat (any_goals split)) <;> rfl
@[simp] theorem takeFirstWrite_atPort (s : State) (m : MgmtPort) (n : SlotId) (w : WindowId) (i : Nat)
    (h : HeldWrite) :
    (s.atPort m).takeFirstWrite n w i h = (s.takeFirstWrite n w i h).atPort m := by
  unfold State.takeFirstWrite; simp; (repeat (any_goals split)) <;> rfl
@[simp] theorem answerHeld_atPort (s : State) (m : MgmtPort) (h : Option HeldWrite) (st : Status) :
    (s.atPort m).answerHeld h st = (s.answerHeld h st).atPort m := by
  unfold State.answerHeld; simp; (repeat (any_goals split)) <;> rfl
@[simp] theorem orphan_atPort (s : State) (m : MgmtPort) (n : SlotId) (k : SlotWork) :
    (s.atPort m).orphan n k = (s.orphan n k).atPort m := by
  unfold State.orphan; simp; (repeat (any_goals split)) <;> rfl
@[simp] theorem walkFrom_atPort (s : State) (m : MgmtPort) (w : WindowId) (i : Nat) :
    (s.atPort m).walkFrom w i = (s.walkFrom w i).atPort m := by
  rcases first_or_none s w i with ⟨j, hj⟩ | hn
  · rw [walkFrom_of_first hj, walkFrom_of_first (s := s.atPort m) hj]; rfl
  · rw [walkFrom_of_none hn, walkFrom_of_none (s := s.atPort m) hn]; rfl
@[simp] theorem flattenTest_atPort (s : State) (m : MgmtPort) (w : WindowId) :
    (s.atPort m).flattenTest w = (s.flattenTest w).atPort m := by
  unfold State.flattenTest; simp; (repeat (any_goals split)) <;> rfl
@[simp] theorem serveCopyWith_atPort (s : State) (m : MgmtPort) (w : WindowId) (n : SlotId) :
    (s.atPort m).serveCopyWith w n = (s.serveCopyWith w n).atPort m := by
  unfold State.serveCopyWith; simp
@[simp] theorem serveCopy_atPort (s : State) (m : MgmtPort) (w : WindowId) :
    (s.atPort m).serveCopy w = (s.serveCopy w).atPort m := by
  unfold State.serveCopy; simp; (repeat (any_goals split)) <;> rfl
@[simp] theorem forward_atPort (s : State) (m : MgmtPort) (r : HRequest) (i : EntryId) (c :
    TrackerClass) (w : Option WindowId) (a : Addr) (p : Option Bool) :
    (s.atPort m).forward r i c w a p = (s.forward r i c w a p).atPort m := by
  unfold State.forward; simp; (repeat (any_goals split)) <;> rfl
@[simp] theorem carryOut_atPort (s : State) (m : MgmtPort) (r : HRequest) (d : Bool) (v : Verdict) :
    (s.atPort m).carryOut r d v = (s.carryOut r d v).atPort m := by
  unfold State.carryOut; simp; (repeat (any_goals split)) <;> rfl
@[simp] theorem accept_atPort (s : State) (m : MgmtPort) (r : HRequest) :
    (s.atPort m).accept r = (s.accept r).atPort m := by
  unfold State.accept; simp
@[simp] theorem storePolicy_atPort (s : State) (m : MgmtPort) (w : WindowId) (p : Policy) :
    (s.atPort m).storePolicy w p = (s.storePolicy w p).atPort m := by
  unfold State.storePolicy; (repeat (any_goals split)) <;> simp_all
@[simp] theorem storeSettings_atPort (s : State) (m : MgmtPort) (c : Settings) :
    (s.atPort m).storeSettings c = (s.storeSettings c).atPort m := by
  unfold State.storeSettings; (repeat (any_goals split)) <;> simp_all
@[simp] theorem setManualHold_atPort (s : State) (m : MgmtPort) (w : WindowId) (b : Bool) :
    (s.atPort m).setManualHold w b = (s.setManualHold w b).atPort m := by
  unfold State.setManualHold; simp; (repeat (any_goals split)) <;> rfl
@[simp] theorem acknowledgeHold_atPort (s : State) (m : MgmtPort) (w : WindowId) :
    (s.atPort m).acknowledgeHold w = (s.acknowledgeHold w).atPort m := by
  unfold State.acknowledgeHold; (repeat (any_goals split)) <;> simp_all
@[simp] theorem takeArm_atPort (s : State) (m : MgmtPort) (w : WindowId) :
    (s.atPort m).takeArm w = (s.takeArm w).atPort m := by
  unfold State.takeArm; simp


/-! ### The end of an event -/

theorem acceptHead_atPort (s : State) (m : MgmtPort) :
    (s.atPort m).acceptHead = s.acceptHead.map (·.atPort m) := by
  unfold State.acceptHead
  simp only [atPort_hport]
  split
  · rfl
  · simp only [atPort_canAccept]; split <;> simp_all
theorem acceptHeads_atPort (m : MgmtPort) : ∀ (k : Nat) (s : State), State.acceptHeads k (s.atPort m) =
    (State.acceptHeads k s).atPort m
  | 0, _ => rfl
  | k + 1, s => by
    unfold State.acceptHeads
    rw [acceptHead_atPort]
    cases s.acceptHead with
    | none => rfl
    | some t => exact acceptHeads_atPort m k t
@[simp] theorem pump_atPort (s : State) (m : MgmtPort) :
    (s.atPort m).pump = s.pump.atPort m := acceptHeads_atPort m _ s
theorem forWindows_atPort {f : WindowId → State → State} (m : MgmtPort) (hf : ∀ w t, f w (t.atPort m) =
    (f w t).atPort m) :
    ∀ (ws : List WindowId) (s : State), (s.atPort m).forWindows ws f = (s.forWindows ws f).atPort m
  | [], _ => rfl
  | w :: ws, s => by rw [forWindows_cons, forWindows_cons, hf]; exact forWindows_atPort m hf ws _
theorem forSlots_atPort {f : SlotId → State → State} (m : MgmtPort) (hf : ∀ w t, f w (t.atPort m) = (f
    w t).atPort m) :
    ∀ (ws : List SlotId) (s : State), (s.atPort m).forSlots ws f = (s.forSlots ws f).atPort m
  | [], _ => rfl
  | w :: ws, s => by rw [forSlots_cons, forSlots_cons, hf]; exact forSlots_atPort m hf ws _
@[simp] theorem turn_atPort (s : State) (m : MgmtPort) (a : Agent) :
    (s.atPort m).turn a = (s.turn a).atPort m := by
  cases a <;> simp [State.turn, acceptHead_atPort]
@[simp] theorem arbitrate_atPort (s : State) (m : MgmtPort) (o : Order) :
    (s.atPort m).arbitrate o = (s.arbitrate o).atPort m := by
  have h : ∀ (o : Order) (s : State), o.foldl State.turn (s.atPort m) = (o.foldl State.turn s).atPort m
      := by
    intro o; induction o with
    | nil => intro s; rfl
    | cons a o ih => intro s; simp [ih]
  unfold State.arbitrate
  rw [h, forWindows_atPort m (fun w t => serveCopy_atPort t m w), pump_atPort]
@[simp] theorem dropWindows_atPort (s : State) (m : MgmtPort) (ws : List WindowId) :
    (s.atPort m).dropWindows ws = (s.dropWindows ws).atPort m := by
  unfold State.dropWindows State.orphanSlots
  rw [forWindows_atPort m fun w t => rfl, forSlots_atPort m]
  intro n t
  simp only [atPort_slot]
  split
  · rfl
  · split
    · simp
    · rfl
@[simp] theorem takeRestart_atPort (s : State) (m : MgmtPort) :
    (s.atPort m).takeRestart = s.takeRestart.atPort m := by
  simp [State.takeRestart]
@[simp] theorem setArmed_atPort (s : State) (m : MgmtPort) (b : Byte) (on : Bool) :
    (s.atPort m).setArmed b on = (s.setArmed b on).atPort m :=
  forWindows_atPort m (fun _ _ => rfl) _ _

/-- The body of a command does not look at the management port, and leaves it to the end of the frame
(R147, R148). -/
def Unread (f : State → ResultCode × State) : Prop := ∀ s m, f (s.atPort m) = ((f s).1, (f s).2.atPort
    m)

/-! ### Bodies -/

/-- The window byte check does not look at the port (R147). -/
theorem unread_onWindow {f : Frame} {body : WindowId → State → ResultCode × State} (h : ∀ w, Unread
    (body w)) : Unread (onWindow f body) := by
  intro s m; unfold onWindow; split
  · rfl
  · exact h _ s m
/-- A check of the state, with a body on each side. -/
theorem unread_ite {c : State → Prop} [inst : ∀ s, Decidable (c s)] {a b : State → ResultCode × State}
    (hc : ∀ s m, c (s.atPort m) ↔ c s) (ha : Unread a) (hb : Unread b) :
    Unread fun s => if c s then a s else b s := by
  intro s m
  by_cases h : c s
  · simp only [if_pos h, if_pos ((hc s m).mpr h)]; exact ha s m
  · simp only [if_neg h, if_neg fun h' => h ((hc s m).mp h')]; exact hb s m
/-- A refusal does not look at the port (R147). -/
theorem unread_refuse (r : ResultCode) : Unread (refuse r) := fun _ _ => rfl
/-- An executed command does not look at the port (R148). -/
theorem unread_accepted {f : State → State} (h : ∀ s m, f (s.atPort m) = (f s).atPort m)
    : Unread fun s => accepted (f s) := by
  intro s m; simp [accepted, h]
theorem unread_writeGeometryAt (f : Frame) (w : WindowId) : Unread (writeGeometryAt f w) :=
  unread_ite (c := fun s => (s.win w).state = .off) (fun _ _ => Iff.rfl)
      (unread_accepted fun _ _ => rfl) (unread_refuse _)
theorem unread_writePolicyAt (f : Frame) (w : WindowId) : Unread (writePolicyAt f w) := by
  refine unread_ite (c := fun s => (s.win w).state = .settling ∨ (s.win w).state = .flattening)
      (fun _ _ => Iff.rfl) (unread_refuse _) ?_
  refine unread_ite (c := fun s => (s.win w).state = .live ∧ (s.win w).holdStatus ≠ .clear ∧
      holdFieldsDiffer f (s.win w)) (fun _ _ => Iff.rfl) (unread_refuse _) ?_
  cases policyOfFrame f with
  | none => exact unread_refuse _
  | some p => exact unread_accepted fun s m => storePolicy_atPort s m w p
theorem unread_writeRolesBody (f : Frame) : Unread (writeRolesBody f) := by
  intro s m; unfold writeRolesBody; split <;> simp [accepted, refuse]
theorem unread_writeDeviceSettingsBody (f : Frame) (o : Order)
    : Unread (writeDeviceSettingsBody f o) := by
  unfold writeDeviceSettingsBody
  cases settingsOfFrame f with
  | none => exact unread_refuse _
  | some c =>
    refine unread_accepted fun s m => ?_
    simp only [atPort_settings, storeSettings_atPort]
    exact forWindows_atPort m (fun w t => polarityAt_atPort t m _ w) _ _
theorem unread_loadAt (w : WindowId) : Unread (loadAt w) := by
  refine unread_ite (c := fun s => (s.win w).state ≠ .off) (fun _ _ => Iff.rfl) (unread_refuse _) ?_
  refine unread_ite (c := fun s => s.loadBusy w = true) (fun _ _ => Iff.rfl) (unread_refuse _) ?_
  refine unread_ite (c := fun s => (s.win w).geometry.outOfRange = true) (fun _ _ => Iff.rfl)
      (unread_refuse _) ?_
  refine unread_ite (c := fun s => s.loadOverlap w = true) (fun _ _ => Iff.rfl) (unread_refuse _) ?_
  exact unread_ite (c := fun s => s.loadMapFault w = true) (fun _ _ => Iff.rfl)
      (unread_refuse _) (unread_accepted fun _ _ => rfl)
theorem unread_armAt (w : WindowId) : Unread (armAt w) :=
  unread_ite (c := fun s => (s.win w).state = .loading) (fun _ _ => Iff.rfl)
      (unread_accepted fun s m => takeArm_atPort s m w) (unread_refuse _)
theorem unread_publishBody (f : Frame) (o : Order) : Unread (publishBody f o) := by
  refine unread_ite (c := fun s => s.maskPasses (frameByte f 0) = true) (fun _ _ => Iff.rfl)
      (unread_accepted fun s m => ?_) (unread_refuse _)
  rw [setArmed_atPort]; exact forWindows_atPort m (fun w t => promptTest_atPort t m w) _ _
theorem unread_unpublishBody (f : Frame) : Unread (unpublishBody f) :=
  unread_ite (c := fun s => s.maskPasses (frameByte f 0) = true) (fun _ _ => Iff.rfl)
      (unread_accepted fun s m => setArmed_atPort s m _ _) (unread_refuse _)
theorem unread_discardAt (w : WindowId) : Unread (discardAt w) :=
  unread_ite (c := fun s => (s.win w).state = .live) (fun _ _ => Iff.rfl)
      (unread_accepted fun s m => enterDiscard_atPort s m w) (unread_refuse _)
theorem unread_retireAt (o : Order) (w : WindowId) : Unread (retireAt o w) :=
  unread_ite (c := fun s => (s.win w).state = .live) (fun _ _ => Iff.rfl) (fun s m => by simp)
      (unread_refuse _)
theorem unread_dropAt (o : Order) (w : WindowId) : Unread (dropAt o w) :=
  unread_ite (c := fun s => (s.win w).state.isActive = true) (fun _ _ => Iff.rfl)
      (fun s m => by simp) (unread_refuse _)
theorem unread_restart (o : Order) : Unread (fun t => (.done, t.takeRestart.arbitrate o)) := by
  intro s m; simp
theorem unread_setHoldAt (f : Frame) (w : WindowId) : Unread (setHoldAt f w) := by
  unfold setHoldAt
  cases flagOfByte (frameByte f 1) with
  | none => exact unread_refuse _
  | some on =>
    exact unread_ite (c := fun s => (s.win w).state = .off ∨ (s.win w).state = .flattening)
        (fun _ _ => Iff.rfl) (unread_refuse _)
        (unread_accepted fun s m => setManualHold_atPort s m w on)
theorem unread_clearHoldAt (w : WindowId) : Unread (clearHoldAt w) :=
  unread_ite (c := fun s => (s.win w).state.isLiveOrSettling = true ∧ (s.win w).policy.holdPolicy =
      .latched) (fun _ _ => Iff.rfl) (unread_accepted fun s m => acknowledgeHold_atPort s m w)
      (unread_refuse _)
theorem unread_forceFallbackAt (f : Frame) (w : WindowId) : Unread (forceFallbackAt f w) := by
  unfold forceFallbackAt
  cases flagOfByte (frameByte f 1) with
  | none => exact unread_refuse _
  | some on =>
    exact unread_ite (c := fun s => (s.win w).state.isLiveOrSettling = true)
        (fun _ _ => Iff.rfl) (unread_ite (c := fun s => (s.win w).geometry.fallback.isSome = true)
        (fun _ _ => Iff.rfl) (unread_accepted fun _ _ => rfl) (unread_refuse _)) (unread_refuse _)

end Sys2Proof.Machine
end

