-- ==== Sys2Proof/Tests/Slice0.lean ====
section
/-! SUPPORT. Tests: the form checks refuse an ill-formed term each, single steps answer as the spec's
worked examples say, and every statement with hypotheses has a state that meets them. -/

namespace Sys2Proof.Tests.Slice0

open Sys2Proof Sys2Proof.Machine

/-! ### Form checks -/

theorem test_frame_of_eight_extra_bits_is_ill_formed :
    (Instr.load { args := [0], extra := 8 }).wellFormed = false := by decide

theorem test_write_of_sixteen_beats_is_ill_formed :
    (Instr.requestAccepted
      { requester := 0, tag := 0, address := 0
        access := .write (List.replicate 16 { data := 0, mask := 0 }) }).wellFormed = false := by
  decide

theorem test_response_of_nine_words_is_ill_formed :
    (Instr.trackerResponse 0 0 (List.replicate 9 0) []).wellFormed = false := by decide

theorem test_retry_with_data_is_ill_formed :
    (Instr.strayResponseDiscarded 40 2 [0]).wellFormed = false := by decide

theorem test_failure_of_status_okay_is_ill_formed :
    (Instr.fillFails 0 0 []).wellFormed = false
      ∧ (Instr.flattenCopyFailed 0 0 []).wellFormed = false := by decide

theorem test_part_of_a_frame_cut_inside_a_byte_is_ill_formed :
    (Instr.readNotice { args := [0], extra := 1, till := .csLow }).wellFormed = false
      ∧ (Instr.readNotice { args := [0], till := .csFell }).wellFormed = false := by decide

theorem test_short_frame_with_a_whole_byte_is_ill_formed :
    (Instr.readStatus { args := [0], till := .csRisesEarly }).wellFormed = false
      ∧ (Instr.readStatus { args := [], extra := 8, till := .csRisesEarly }).wellFormed = false := by
  decide

theorem test_line_sampled_twice_is_ill_formed :
    (Instr.boundary { others := [{ line := .sync, level := false }] }).wellFormed = false
      ∧ (Instr.holdLineEdge .hold1 true { others := [{ line := .hold1, level := true }] }).wellFormed
        = false := by decide

theorem test_bad_command_that_names_a_command_is_ill_formed :
    (Instr.badCommand 0x01 { args := [] }).wellFormed = false := by decide

/-! ### States -/

/-- The state that a command leaves. -/
def after (c : Instr) (s : State) : State :=
  match exec c s with
  | .next t => t
  | .fault _ => s
  | .refused _ => s

/-- The machine after reset with one window's record replaced. -/
def one (w : WindowId) (x : Window) : State := State.reset.modWin w fun _ => x

/-- A state with one cell of the role matrix replaced. -/
def cast (r : Requester) (w : WindowId) (a : Role) (s : State) : State :=
  s.setRoles (s.roles.set r.val ((s.roles[r.val]).set w.val a))

/-- A state whose line map lists the cells given. -/
def marked (l : List (Nat × LineEntry)) (s : State) : State := s.setLineMap { cells := l }

/-- A write of `n` beats with every byte enabled. -/
def fullBeats (n : Nat) : List Beat := List.replicate n { data := 0x1122334455667788, mask := 0xFF }

/-- A line of zeros. -/
def zeroLine : Line := Vector.replicate 8 0

/-- W4 of the worked example of chapter 4: LIVE, one reader of the previous epoch in flight. -/
def w4 : Window :=
  { Window.reset with
    geometry := { apparentBase := 0x00500000, lineCount := 16, mapOffset := 1024
                  bankA := 0x00510000, bankB := 0x00510400, fallback := none }
    state := .live, generation := 5, reads1 := 1, requests := 1 }

/-- The reader of the previous epoch. -/
def oldReader : InFlight :=
  { requester := 4, tag := 0, address := 0x00500080, kind := .read, beats := 8, cls := .publishedRead
    window := some 4
    parity := some true }

/-- The start of the worked example of chapter 4. -/
def chapter4 : State :=
  (cast 1 4 .producer (cast 4 4 .consumer (marked
    [(1027, { published := .b, pending := false, filling := false })] (one 4 w4)))).setEntry 0
    (some oldReader)

/-- E1 of chapter 4. -/
def e1 : State := after (.requestAccepted
  { requester := 1, tag := 0, address := 0x00500090, access := .write (fullBeats 2) }) chapter4

/-- E2 of chapter 4. -/
def e2 : State := after (.requestAccepted
  { requester := 1, tag := 1, address := 0x005000C0, access := .write (fullBeats 8) }) e1

/-! ### The worked example of chapter 4 -/

theorem test_E1_partial_first_write_reads_the_published_line :
    (e1.slot 0).map (fun k => (k.phase, k.kind, k.attempt)) = some (.reading, .firstWrite, 1)
      ∧ e1.issueQueue = [{ tag := 32, address := 0x00510080, access := .read 8 }]
      ∧ (e1.lineEntry 4 2).filling = true ∧ (e1.win 4).fills = 1 := by decide

theorem test_E2_full_line_write_waits_for_the_old_reader :
    (e2.slot 1).map (fun k => (k.phase, k.kind)) = some (.waiting, .fullLine)
      ∧ (e2.win 4).fills = 2 := by decide

theorem test_E4_retry_reissues_the_read :
    ((after (.fillOperationRetry 0) e2).slot 0).map (fun k => k.attempt) = some 2
      ∧ (after (.fillOperationRetry 0) e2).issueQueue.getLast? =
        some { tag := 32, address := 0x00510080, access := .read 8 } := by decide

/-- E5 of chapter 4. -/
def e5 : State := after (.fillReadDone 0 zeroLine) e2

theorem test_E5_merge_takes_bytes_10H_to_1FH :
    ((e5.slot 0).map fun k => (k.phase, k.buffer)) =
      some (.waiting, some #v[0, 0, 0x1122334455667788, 0x1122334455667788, 0, 0, 0, 0]) := by
  decide

theorem test_E6_write_to_a_filling_line_is_retried :
    (after (.requestAccepted
      { requester := 1, tag := 2, address := 0x00500098, access := .write (fullBeats 1) })
      e5).hport.responses =
      [{ requester := 1, tag := 2, status := .retry, data := [], duplicate := false }] := by decide

/-- E7 of chapter 4. -/
def e7 : State := after (.trackerResponse 0 0 (List.replicate 8 0) []) e5

theorem test_E7_last_old_reader_releases_both_slots :
    (e7.slot 0).map (fun k => (k.phase, k.attempt)) = some (.writing, 1)
      ∧ (e7.slot 1).map (fun k => (k.phase, k.attempt)) = some (.writing, 1)
      ∧ (e7.issueQueue.drop 1).map (fun op => (op.tag, op.address)) =
        [(32, 0x00510480), (33, 0x005100C0)]
      ∧ (e7.win 4).reads1 = 0 ∧ (e7.win 4).requests = 0 := by decide

/-- E8 of chapter 4. -/
def e8 : State := after (.fillCompletes 1 []) e7

theorem test_E8_fill_completes :
    e8.lineEntry 4 3 = { published := .b, pending := true, filling := false }
      ∧ (e8.win 4).pendingCount = 1 ∧ e8.slot 1 = none
      ∧ e8.hport.responses.getLast? =
        some { requester := 1, tag := 1, status := .okay, data := [], duplicate := false } := by
  decide

theorem test_E9_write_error_fails_the_fill :
    (after (.fillFails 0 1 []) e8).notices.records = [.fillFailed 4 1 0x00500090 .writeError]
      ∧ ((after (.fillFails 0 1 []) e8).lineEntry 4 2).filling = false
      ∧ (after (.fillFails 0 1 []) e8).slot 0 = none := by decide

/-! ### The worked example of chapter 5 -/

/-- W4 before S8 of chapter 5: a COMMIT settle that waits for one producer write. -/
def s7 : State :=
  (marked [(1027, { published := .b, pending := true, filling := false })] (one 4
    { w4 with state := .settling, settleKind := some .commit, reads0 := 1, reads1 := 0
              producerWrites := 1, requests := 2, pendingCount := 1, drainTimer := some 1000
              policy := { Policy.reset with
                divider := 2, drainLimit := 1000, commitNotices := true, commitOutput := true
                sources := { hold0 := true, hold1 := false, violation := false
                             fillFailed := false } } })).setEntry 0
    (some { requester := 1, tag := 4, address := 0x005000C0, kind := .write, beats := 1
            cls := .producerWrite, window := some 4, parity := none })

/-- S8 of chapter 5. -/
def s8 : State := after (.trackerResponse 0 0 [] []) s7

theorem test_S8_last_producer_write_brings_the_flip :
    (s8.win 4).state = .live ∧ (s8.win 4).generation = 6 ∧ (s8.win 4).parity = true
      ∧ s8.lineEntry 4 3 = { published := .a, pending := false, filling := false }
      ∧ s8.notices.records = [.commitDone 4 6 1] ∧ s8.lines.pulse = 2 := by decide

/-- W4 before S14 of chapter 5: a COMMIT settle that waits for a fill. -/
def s13 : Window :=
  { w4 with
    state := .settling, settleKind := some .commit, generation := 6, parity := true, reads0 := 1
    reads1 := 0, fills := 1, drainTimer := some 1000
    policy := { Policy.reset with
      divider := 2, drainLimit := 1000
      sources := { hold0 := true, hold1 := false, violation := false, fillFailed := false } } }

theorem test_S14_hold_cancels_the_commit :
    ((after (.holdLineEdge .hold0 true {}) (one 4 s13)).win 4).state = .live
      ∧ ((after (.holdLineEdge .hold0 true {}) (one 4 s13)).win 4).armed = true
      ∧ ((after (.holdLineEdge .hold0 true {}) (one 4 s13)).win 4).drainTimer = none
      ∧ (after (.holdLineEdge .hold0 true {}) (one 4 s13)).notices.records =
        [.holdActive 4 .hold0, .commitCancelled 4 6 .hold] := by decide

/-- W4 before S19 of chapter 5: RELEASING, armed, with a pending line. -/
def s18 : Window :=
  { s13 with
    state := .live, settleKind := none, armed := true, drainTimer := none, fills := 0, reads0 := 0
    holdStatus := .releasing, holdAck := true, pendingCount := 1
    policy := { s13.policy with commitNotices := true } }

/-- The rising edge of SYNC, with no other line sampled. -/
def syncRises : Instr := .boundary {}

theorem test_S19_boundary_releases_the_hold :
    ((after syncRises (one 4 s18)).win 4).holdStatus = .clear
      ∧ ((after syncRises (one 4 s18)).win 4).dividerCount = 1
      ∧ (after syncRises (one 4 s18)).notices.records = [.holdReleased 4] := by decide

/-- SYNC after S19 of chapter 5: it falls, which is no boundary. -/
def s19 : State := after (.boundary { level := false }) (after syncRises (one 4 s18))

theorem test_falling_SYNC_is_no_boundary : (s19.win 4).dividerCount = 1 := by decide

theorem test_S20_eligible_boundary_commits :
    ((after syncRises s19).win 4).generation = 7 ∧ ((after syncRises s19).win 4).parity = false
      ∧ (after syncRises s19).notices.records = [.holdReleased 4, .commitDone 4 7 1] := by decide

/-- W4 LIVE in BOUNDARY mode, not armed, PUBREQ enabled. -/
def published : State :=
  one 4 { w4 with reads1 := 0, policy := { Policy.reset with pubreqEnable := true } }

/-- SYNC and PUBREQ rise together, in the order given. -/
def together (o : Order) : State :=
  after (.boundary { others := [{ line := .pubreq, level := true }], order := o }) published

theorem test_PUBREQ_before_SYNC_publishes_at_the_boundary :
    ((together [.edge .pubreq 4]).win 4).generation = 6 := by decide +kernel

theorem test_PUBREQ_after_SYNC_waits_for_the_next_boundary :
    ((together []).win 4).generation = 5 ∧ ((together []).win 4).armed = true := by
  decide +kernel

/-! ### Steering and retirement (chapters 3 and 7) -/

/-- W2 of the worked example of chapter 3. -/
def w2 : Window :=
  { Window.reset with
    geometry := { apparentBase := 0x00400000, lineCount := 16, mapOffset := 512
                  bankA := 0x00410000, bankB := 0x00410400, fallback := some 0x00410800 }
    policy := { Policy.reset with redirect := true }
    state := .live, generation := 3, parity := true, pendingCount := 2 }

/-- The start of the worked example of chapter 3, but for the fill of line 4. -/
def chapter3 : State :=
  cast 1 2 .producer (cast 4 2 .consumer (marked
    [(513, { published := .b, pending := false, filling := false }),
     (514, { published := .a, pending := true, filling := false }),
     (515, { published := .b, pending := true, filling := false }),
     (516, { published := .a, pending := false, filling := true })] (one 2 w2)))

/-- The address that a request of chapter 3 is forwarded to, and its tagging. -/
def steered (r : Requester) (a : Addr) (acc : Access) (s : State) :
    List Addr × Option (Option Bool) :=
  let t := after (.requestAccepted { requester := r, tag := 0, address := a, access := acc }) s
  (t.issueQueue.map fun op => op.address, (t.entry 0).map fun e => e.parity)

theorem test_consumer_reads_the_published_bank :
    steered 4 0x00400048 (.read 2) chapter3 = ([0x00410448], some (some true))
      ∧ steered 4 0x00400080 (.read 8) chapter3 = ([0x00410080], some (some true)) := by decide

theorem test_producer_reads_the_working_bank_of_a_pending_line :
    steered 1 0x00400080 (.read 8) chapter3 = ([0x00410480], some (some true))
      ∧ steered 1 0x004000C0 (.read 1) chapter3 = ([0x004100C0], some (some true)) := by decide

theorem test_producer_writes_the_working_bank_of_a_pending_line :
    steered 1 0x004000D0 (.write (fullBeats 2)) chapter3 = ([0x004100D0], some none) := by decide

theorem test_hold_redirects_consumer_reads_alone :
    steered 4 0x00400048 (.read 2) (after (.setHold { args := [2, 1] }) chapter3) =
        ([0x00410848], some none)
      ∧ steered 1 0x00400040 (.read 1) (after (.setHold { args := [2, 1] }) chapter3) =
        ([0x00410440], some (some true)) := by decide

/-- W3 of the worked example of chapter 7 before T9: LIVE, lines 6 and 11 published B, nothing in
flight, slot 0 in use. -/
def t8 : State :=
  (marked [(2054, { published := .b, pending := false, filling := false }),
           (2059, { published := .b, pending := false, filling := false })] (one 3
    { Window.reset with
      geometry := { apparentBase := 0x00600000, lineCount := 16, mapOffset := 2048
                    bankA := 0x00610000, bankB := 0x00610400, fallback := none }
      state := .live, generation := 8, parity := true })).setSlot 0
    (some { phase := .waiting, kind := .fullLine, window := 2, line := 0, source := .a, target := .b
            held := none, buffer := none, attempt := 1, orphaned := false })

/-- T9 of chapter 7. -/
def t9 : State := after (.retire { args := [3] } []) t8

theorem test_T9_retire_begins_the_copies :
    (t9.win 3).state = .flattening ∧ (t9.win 3).cursor = some 6 ∧ (t9.win 3).fills = 1
      ∧ t9.issueQueue = [{ tag := 33, address := 0x00610580, access := .read 8 }] := by decide

/-- T11 of chapter 7. -/
def t11 : State := after (.flattenCopyDone 1 []) (after (.flattenCopyReadDone 1 zeroLine) t9)

theorem test_T11_copy_done_publishes_A_and_walks_on :
    (t11.lineEntry 3 6).published = .a ∧ (t11.win 3).cursor = some 11
      ∧ (t11.issueQueue.map fun op => op.address) = [0x00610580, 0x00610180, 0x006106C0] := by
  decide

theorem test_T8_copy_error_returns_the_window_to_live :
    ((after (.flattenCopyFailed 1 1 []) t9).win 3).state = .live
      ∧ (after (.flattenCopyFailed 1 1 []) t9).notices.records = [.flattenFailed 3 6]
      ∧ (after (.flattenCopyFailed 1 1 []) t9).slot 1 = none := by decide

/-! ### Frames (chapters 1 and 10) -/

/-- W0 LIVE and W1 in OFF with the geometry given, as in the worked example of chapter 1. -/
def chapter1 (g : Geometry) : State :=
  (one 0 { Window.reset with
    geometry := { apparentBase := 0x00100000, lineCount := 256, mapOffset := 0
                  bankA := 0x00200000, bankB := 0x00204000, fallback := none }
    state := .live }).modWin 1 fun x => { x with geometry := g }

/-- The result of a LOAD of W1. -/
def loadResult (g : Geometry) : ResultCode :=
  (after (.load { args := [1] }) (chapter1 g)).mgmt.lastResult

theorem test_LOAD_checks_in_their_order :
    loadResult { apparentBase := 0x00104000, lineCount := 72, mapOffset := 8160
                 bankA := 0x00208000, bankB := 0x00209000, fallback := none } = .refusedRange
      ∧ loadResult { apparentBase := 0x00104000, lineCount := 64, mapOffset := 256
                     bankA := 0x00203000, bankB := 0x00209000, fallback := none } = .refusedOverlap
      ∧ loadResult { apparentBase := 0x00104000, lineCount := 64, mapOffset := 240
                     bankA := 0x00208000, bankB := 0x00209000, fallback := none } = .refusedMap
      ∧ loadResult { apparentBase := 0x00104000, lineCount := 64, mapOffset := 256
                     bankA := 0x00208000, bankB := 0x00209000, fallback := none } = .done := by
  decide

theorem test_F2_settings_frame :
    (after (.writeDeviceSettings { args := [1, 0, 1, 100] } []) State.reset).settings =
      { hold0Polarity := .activeLow, hold1Polarity := .activeHigh, noticeEnable := true
        tickDivisor := 100 } := by decide

theorem test_F4_divider_zero_is_refused_and_F8_stray_byte_is_bad_length :
    (after (.writePolicy { args := [0, 0, 0, 3, 32, 0, 1, 0, 0, 1, 0] }) State.reset).mgmt.lastResult
        = .refusedRange
      ∧ (after (.load { args := [0, 0] }) State.reset).mgmt.lastResult = .badLength := by decide

theorem test_F5_policy_frame :
    ((after (.writePolicy { args := [0, 0, 1, 3, 32, 0, 1, 0, 0, 1, 0] }) State.reset).win 0).policy =
      { commitMode := .boundary, divider := 1, drainLimit := 800, holdPolicy := .latched
        sources := { hold0 := true, hold1 := false, violation := false, fillFailed := false }
        redirect := false, pubreqEnable := false, commitNotices := true
        commitOutput := false } := by decide

theorem test_command_bytes :
    commandOfByte 0x01 = some .readStatus ∧ commandOfByte 0x00 = none := by decide

/-! ### The H-port and the notice queue (chapters 2, 8 and 9) -/

theorem test_two_line_request_is_malformed_span :
    (after (.requestAccepted
      { requester := 0, tag := 1, address := 0x00103FF8, access := .read 2 })
      State.reset).notices.records = [.malformed 0 0x00103FF8 .span] := by decide

theorem test_sixteenth_record_fits_and_the_next_overflows :
    let q : NoticeQueue := { records := List.replicate 15 (.holdReleased 0), overflow := false }
    (q.offerAll [.holdReleased 1, .holdReleased 2]).records.length = 16
      ∧ (q.offerAll [.holdReleased 1, .holdReleased 2]).overflow = true := by decide

theorem test_short_read_leaves_the_cut_record :
    let q : NoticeQueue := { records := [.holdReleased 1, .holdReleased 2], overflow := true }
    (after (.readNotice { args := List.replicate 24 0 })
      (State.reset.modNotices fun _ => q)).notices =
      { records := [.holdReleased 2], overflow := true } := by decide

/-- An idle port, and then a READ NOTICE frame that has had one whole slot. -/
def oneSlot : State := after (.readNotice { args := List.replicate 16 0, till := .csLow }) State.reset

theorem test_record_that_joins_during_a_frame_goes_out_in_it :
    (after (.readNotice { args := List.replicate 16 0 })
      (oneSlot.modNotices fun q => q.offer (.holdReleased 3))).mgmt.sdo.bytes.drop 17 =
        noticeBytes (.holdReleased 3)
      ∧ (after (.readNotice { args := List.replicate 16 0 })
        (oneSlot.modNotices fun q => q.offer (.holdReleased 3))).notices.records = [] := by decide

theorem test_status_byte_is_that_of_the_fall_of_CS :
    (after (.readStatus { args := [0, 0, 0] })
      ((after (.readStatus { args := [], till := .csFell }) State.reset).modNotices fun q =>
        q.offer (.holdReleased 3))).mgmt.sdo.bytes = [0x00, 0x6B, 0x00, 0x01] := by decide

/-- CS fell with the queue empty, a record has joined since, and the frame ends after 7 SCK edges. -/
def shortFrame : State :=
  after (.load { args := [], extra := 7, till := .csRisesEarly })
    ((after (.load { args := [], till := .csFell })
      (State.reset.modMgmt fun m => { m with lastResult := .refusedMap })).modNotices
        fun q => q.offer (.holdReleased 3))

theorem test_short_frame_has_no_effect :
    shortFrame.mgmt.frameState = .idle ∧ shortFrame.mgmt.lastResult = .refusedMap
      ∧ shortFrame.mgmt.sdo = { bytes := [], tail := [false, false, false, false, false, true, true] } := by decide

theorem test_status_byte_after_a_short_frame_is_fresh :
    (after (.readStatus { args := [0, 0, 0] }) shortFrame).mgmt.sdo.bytes =
      [0x0E, 0x6B, 0x06, 0x01] := by decide

theorem test_header_of_a_link_item :
    requestHeader { requester := 9, tag := 3, address := 0x40, access := .write (fullBeats 2) } =
        { kind := 1, requester := 9, tag := 3, address := 0x40, beats := 2 }
      ∧ HRequestHeader.request { kind := 0, requester := 9, tag := 3, address := 0x40, beats := 8 } []
        = { requester := 9, tag := 3, address := 0x40, access := .read 8 }
      ∧ (e8.presentedResponse.map fun r => r.1) = some { requester := 4, tag := 0, status := 0 }
      ∧ (e1.presentedOperation.map fun o => o.1) =
        some { kind := 0, tag := 32, address := 0x00510080, beats := 8 } := by decide

theorem test_fiftieth_edge_is_a_tick :
    (step (State.reset.modLines fun l => { l with edgeCount := 49, pulse := 2 })) =
      .next (State.reset.modLines fun l => { l with edgeCount := 0, pulse := 1 }) := rfl

/-! ### States that meet the hypotheses of the statements -/

/-- A geometry whose segment ends with the last entry of the store. -/
def g0 : Geometry :=
  { apparentBase := 0x00100000, lineCount := 16, mapOffset := 8176, bankA := 0x00100400
    bankB := 0x00100800, fallback := some 0x00100C00 }

/-- A window record in the state given. -/
def x0 (st : WindowState) : Window := { Window.reset with geometry := g0, state := st }

/-- A COMMIT settle. -/
def xCommit : Window := { x0 .settling with settleKind := some .commit }

/-- A DISCARD settle. -/
def xDiscard : Window := { x0 .settling with settleKind := some .discard }

/-- Requester 1 with a role in W2, whose record is given. -/
def as1 (a : Role) (x : Window) : State := cast 1 2 a (one 2 x)

/-- A request of requester 1, with tag 7. -/
def req (a : Addr) (acc : Access) : HRequest :=
  { requester := 1, tag := 7, address := a, access := acc }

/-- A held write of requester 1 to the last beat of line 15. -/
def held : HeldWrite :=
  { requester := 1, tag := 7, address := 0x001003F8, beats := fullBeats 1 }

/-- A fill of the last line of W2. -/
def fill (p : SlotPhase) : SlotWork :=
  { phase := p, kind := .firstWrite, window := 2, line := 15, source := .a, target := .b
    held := some held, buffer := if p = .reading then none else some zeroLine, attempt := 1
    orphaned := false }

/-- A retirement copy of the last line of W2. -/
def copy (p : SlotPhase) : SlotWork :=
  { fill p with kind := .flattenCopy, source := .b, target := .a, held := none }

/-- The entry of the last line of W2. -/
def last (e : LineEntry) (s : State) : State := marked [(8191, e)] s

def filling : LineEntry := { published := .a, pending := false, filling := true }
def pending : LineEntry := { published := .a, pending := true, filling := false }
def inB : LineEntry := { published := .b, pending := false, filling := false }

/-- Slot 3 at work, slots 0 to 2 FREE. -/
def working (k : SlotWork) (s : State) : State := s.setSlot 3 (some k)

/-- Every slot at work for another window. -/
def noneFree (s : State) : State :=
  { s with slots := Vector.replicate 4 (some { fill .waiting with window := 5 }) }

/-- A read of W2 in the last entry of the table. -/
def reading (p : Option Bool) (s : State) : State :=
  s.setEntry 31 (some { requester := 1, tag := 6, address := 0x00700000, kind := .read, beats := 1
                        cls := .publishedRead, window := some 2, parity := p })

/-- A well-formed request meets the H-port of a state after reset. -/
theorem wellFormed_req (a : Addr) (acc : Access)
    (h : a.toNat % 8 = 0 ∧ 1 ≤ accessBeats acc ∧ accessBeats acc ≤ 8
      ∧ (a.toNat + 8 * accessBeats acc - 1) / 64 = a.toNat / 64
      ∧ a.toNat + 8 * accessBeats acc - 1 ≤ 0xFFFFFFFF) :
    WellFormedRequest HPort.reset (req a acc) := by
  have ho : HPort.reset.isOutstanding 1 7 = false := rfl
  intro c
  cases c <;> simp only [FormFault, req]
  · omega
  · omega
  · omega
  · rw [ho]; simp

/-- A request of requester 1 can be taken in a state after reset. -/
theorem ready (s : State) (hs : s.inReset = false) (hh : s.hport = HPort.reset) (a : Addr)
    (acc : Access)
    (h : a.toNat % 8 = 0 ∧ 1 ≤ accessBeats acc ∧ accessBeats acc ≤ 8
      ∧ (a.toNat + 8 * accessBeats acc - 1) / 64 = a.toNat / 64
      ∧ a.toNat + 8 * accessBeats acc - 1 ≤ 0xFFFFFFFF) : ReadyFor s (req a acc) := by
  refine ⟨hs, ?_, ?_, ?_⟩
  · rw [hh]; rfl
  · rw [hh]; decide
  · rw [hh]; exact wellFormed_req a acc h

/-- W2 alone is active, with geometry `g0`. -/
structure OnlyW2 (s : State) : Prop where
  others : ∀ v : WindowId, v ≠ 2 → (s.win v).state = .off
  active : (s.win 2).state ≠ .off
  geometry : (s.win 2).geometry = g0

theorem onlyW2_one (x : Window) (hg : x.geometry = g0) (hx : x.state ≠ .off) :
    OnlyW2 (one 2 x) where
  others v h := by rw [one, win_modWin_of_ne _ h]; revert v; decide
  active := hx
  geometry := hg

/-- An address outside the apparent range of `g0` lies in no apparent range. -/
theorem noApparent_of {s : State} (h : OnlyW2 s) (a : Addr)
    (ha : g0.covers g0.apparentBase a = false) : InNoApparent s a := by
  intro v hv
  by_cases hw : v = 2
  · subst hw; rw [h.geometry]; exact ha
  · exact absurd (h.others v hw) hv

theorem noRange_of {s : State} (h : OnlyW2 s) (a : Addr)
    (ha : g0.covers g0.apparentBase a = false)
    (hb : (g0.shadowBases.all fun b => !g0.covers b a) = true) : InNoRange s a := by
  refine ⟨noApparent_of h a ha, fun v hv => ?_⟩
  by_cases hw : v = 2
  · subst hw; rw [h.geometry]; simpa using hb
  · exact absurd (h.others v hw) hv

theorem shadow_of {s : State} (h : OnlyW2 s) (a : Addr)
    (ha : g0.covers g0.apparentBase a = false)
    (hb : (g0.shadowBases.any fun b => g0.covers b a) = true) : InShadowOf s a 2 := by
  refine ⟨noApparent_of h a ha, fun v => ⟨fun hv => ?_, ?_⟩⟩
  · exact Classical.byContradiction fun hw => hv.1 (h.others v hw)
  · rintro rfl
    refine ⟨h.active, ?_⟩
    rw [h.geometry]; simpa using hb

theorem lowest_entry (s : State) (h : s.table = State.reset.table) : LowestFreeEntry s 0 := by
  refine ⟨?_, fun j hj => absurd hj (by simp)⟩
  unfold State.entry; rw [h]; rfl

theorem lowest_slot (s : State) (h : s.slot 0 = none) : LowestFreeSlot s 0 :=
  ⟨h, fun j hj => absurd hj (by simp)⟩

/-! ### The machine and its invariants -/

theorem witness_IdleStepIsOneClockEdge :
    ({ State.reset with inReset := true }.pending = []
        ∧ { State.reset with inReset := true }.inReset = true)
      ∧ ((State.reset.modLines fun l => { l with edgeCount := 48 }).inReset = false
        ∧ (State.reset.modLines fun l => { l with edgeCount := 48 }).lines.edgeCount + 1
          < State.reset.settings.tickDivisor.toNat)
      ∧ State.reset.settings.tickDivisor.toNat
        ≤ (State.reset.modLines fun l => { l with edgeCount := 49 }).lines.edgeCount + 1 := by
  decide

theorem witness_ExecKeepsTheQueue :
    { State.reset with inReset := true }.inReset = true
      ∧ Instr.memorySideAccept ≠ .resetAsserted
      ∧ (∀ k, State.reset.slot 3 = some k → k.phase ≠ .reading)
      ∧ (∀ k, (working (fill .waiting) State.reset).slot 3 = some k →
        k.phase ≠ .reading ∧ k.phase ≠ .writing)
      ∧ ∀ k, (working (fill .writing) State.reset).slot 3 = some k → k.phase ≠ .retiring := by
  refine ⟨rfl, by decide, fun k h => ?_, fun k h => ?_, fun k h => ?_⟩
  · cases h
  · cases h; decide
  · cases h; decide

theorem witness_ResetSetsEveryBlock : { State.reset with inReset := true }.inReset = true := rfl

/-- A state at work: a fill of the last line of W2, a read in flight, an answer that waits. -/
def busy : State :=
  { ((working (fill .reading) (reading (some false) (last filling (one 2
      { x0 .live with reads0 := 1, requests := 1, fills := 1 })))).modHPort fun _ =>
      { HPort.reset with
        placesHeld := 3
        responses := [{ requester := 1, tag := 5, status := .okay, data := [], duplicate := false }] })
    with pending := [.responseAccepted] }

theorem busy_active (w : WindowId) (h : (busy.win w).state ≠ .off) : w = 2 := by
  revert h; revert w; decide

theorem witness_EveryStepKeepsTheMapSound : busy.MapSound ∧ ∃ t, step busy = .next t :=
  ⟨mapSound_of_cells (by decide) (by decide), _, rfl⟩

theorem witness_EveryStepKeepsTheAnswersSound : busy.AnswersSound ∧ ∃ t, step busy = .next t := by
  refine ⟨⟨by decide, by decide, by decide, by decide, fun n k h => ?_, fun n k h => ?_,
    fun n h => ?_⟩, _, rfl⟩
  · have hk : ∀ n, (busy.slot n).all fun k => decide (k.kind ≠ .flattenCopy) := by decide
    have := hk n
    rw [h] at this
    intro hc
    simp [hc] at this
  · have hk : ∀ n, (busy.slot n).all fun k => decide (k.phase ≠ .retiring) := by decide
    have := hk n
    rw [h] at this
    intro hc
    simp [hc] at this
  · have ht : busy.mgmt.taken = .nothing := rfl
    rw [ht] at h; cases h

theorem witness_EveryStepKeepsTheWindowsSound : busy.WindowsSound ∧ ∃ t, step busy = .next t := by
  refine ⟨fun w => ?_, _, rfl⟩
  constructor <;> revert w <;> decide

theorem busy_rangesSound : busy.RangesSound := by
  have hg : (busy.win 2).geometry = g0 := rfl
  constructor
  · intro w hw
    rw [busy_active w hw, hg]
    have ha : (0x00100000 : Addr).toNat = 0x00100000 := rfl
    have hb : (0x00100400 : Addr).toNat = 0x00100400 := rfl
    have hc : (0x00100800 : Addr).toNat = 0x00100800 := rfl
    have hf : (0x00100C00 : Addr).toNat = 0x00100C00 := rfl
    have hs : g0.size = 0x400 := rfl
    have hr : g0.ranges = [0x00100000, 0x00100400, 0x00100800, 0x00100C00] := rfl
    rw [hr]
    simp only [List.pairwise_cons, List.mem_cons, List.not_mem_nil, or_false, Geometry.Holds, hs]
    refine ⟨?_, ?_, ?_, ?_, .nil⟩
    · rintro b (rfl | rfl | rfl) a <;> omega
    · rintro b (rfl | rfl) a <;> omega
    · rintro b rfl a; omega
    · exact fun b hb => absurd hb (by simp)
  · exact fun v w hvw hv hw => absurd ((busy_active v hv).trans (busy_active w hw).symm) hvw
  · exact fun v w hvw hv hw => absurd ((busy_active v hv).trans (busy_active w hw).symm) hvw
  · intro w hw i hi
    rw [busy_active w hw, hg] at hi
    simp only [Geometry.Claims, g0] at hi
    have h₁ : (8176 : Half).toNat = 8176 := rfl
    have h₂ : (16 : Half).toNat = 16 := rfl
    omega

theorem witness_EveryStepKeepsTheRangesDisjoint : busy.RangesSound ∧ ∃ t, step busy = .next t :=
  ⟨busy_rangesSound, _, rfl⟩

/-- The only slot at work is slot 3. -/
theorem busy_slot (n : SlotId) (k : SlotWork) (h : busy.slot n = some k) :
    n = 3 ∧ k = fill .reading := by
  have h₃ : ∀ m : SlotId, m ≠ 3 → busy.slot m = none := by decide
  by_cases hn : n = 3
  · subst hn; exact ⟨rfl, (Option.some.inj h).symm⟩
  · rw [h₃ n hn] at h; cases h

theorem busy_countsSound : busy.CountsSound := by
  constructor
  · decide
  · decide
  · decide
  · decide
  · intro n k h
    obtain ⟨-, rfl⟩ := busy_slot n k h
    decide
  · intro n k h
    obtain ⟨-, rfl⟩ := busy_slot n k h
    decide
  · decide
  · decide

theorem witness_EveryStepKeepsTheCountsExact : busy.CountsSound ∧ ∃ t, step busy = .next t :=
  ⟨busy_countsSound, _, rfl⟩

theorem busy_linesSound : busy.LinesSound := by
  constructor
  · decide
  · decide
  · intro n k h
    obtain ⟨-, rfl⟩ := busy_slot n k h
    decide
  · intro n m j k hne hj hk
    exact absurd ((busy_slot n j hj).1.trans (busy_slot m k hk).1.symm) hne

theorem witness_EveryStepKeepsThePendingCountsExact :
    busy.MapSound ∧ busy.RangesSound ∧ busy.CountsSound ∧ busy.LinesSound
      ∧ ∃ t, step busy = .next t :=
  ⟨mapSound_of_cells (by decide) (by decide), busy_rangesSound, busy_countsSound, busy_linesSound, _,
    rfl⟩

/-- A request stands on the channel, with every response place held. -/
def full : State :=
  State.reset.modHPort fun h =>
    { h with placesHeld := 48, channel := [req 0x00100000 (.read 1)] }

theorem full_headExamined : full.HeadExamined := rfl

theorem witness_EveryStepExaminesTheHead : full.HeadExamined ∧ ∃ t, step full = .next t :=
  ⟨full_headExamined, _, rfl⟩

/-! ### Requests -/

theorem witness_MalformedRequestIsAnsweredError :
    (State.reset.inReset = false ∧ State.reset.hport.channel = []
        ∧ (State.reset.modHPort fun h => { h with placesHeld := 47 }).hport.placesHeld < 48)
      ∧ FormFault HPort.reset (req 0x00100004 (.read 1)) .align
      ∧ FormFault HPort.reset (req 0x00100000 (.read 0)) .length
      ∧ FormFault HPort.reset (req 0x00100000 (.read 9)) .length
      ∧ FormFault HPort.reset (req 0x00100038 (.read 2)) .span
      ∧ FormFault HPort.reset (req 0xFFFFFFF8 (.read 2)) .span
      ∧ FormFault (HPort.reset.setOutstanding 1 7 true) (req 0x00100038 (.read 1)) .tagReuse := by
  refine ⟨⟨rfl, rfl, by decide⟩, ?_, ?_, ?_, ?_, ?_, ?_⟩ <;> (unfold FormFault; decide)

theorem witness_PassThroughIsForwardedUnchanged :
    ReadyFor (one 2 (x0 .live)) (req 0x00101000 (.read 8))
      ∧ InNoRange (one 2 (x0 .live)) 0x00101000 ∧ LowestFreeEntry (one 2 (x0 .live)) 0 := by
  refine ⟨ready _ rfl rfl _ _ (by decide), ?_, lowest_entry _ rfl⟩
  exact noRange_of (onlyW2_one _ rfl (by decide)) _ rfl rfl

theorem witness_UntaggedRequestsAreForwarded :
    (ReadyFor (as1 .producer (x0 .loading)) (req 0x001003F8 (.write (fullBeats 1)))
        ∧ LowestFreeEntry (as1 .producer (x0 .loading)) 0
        ∧ InApparentOf (as1 .producer (x0 .loading)) 0x001003F8 2
        ∧ ((as1 .producer (x0 .loading)).win 2).state = .loading
        ∧ (as1 .producer (x0 .loading)).role 1 2 = .producer)
      ∧ (ReadyFor (as1 .consumer (x0 .loading)) (req 0x00100000 (.read 8))
        ∧ InApparentOf (as1 .consumer (x0 .loading)) 0x00100000 2
        ∧ (as1 .consumer (x0 .loading)).role 1 2 ≠ .none
        ∧ accessKind (req 0x00100000 (.read 8)).access = .read)
      ∧ (ReadyFor (as1 .maintenance (x0 .live)) (req 0x00100FF8 (.read 1))
        ∧ LowestFreeEntry (as1 .maintenance (x0 .live)) 0
        ∧ InShadowOf (as1 .maintenance (x0 .live)) 0x00100FF8 2
        ∧ (as1 .maintenance (x0 .live)).role 1 2 = .maintenance
        ∧ ((as1 .maintenance (x0 .live)).win 2).state ≠ .flattening) := by
  refine ⟨⟨ready _ rfl rfl _ _ (by decide), lowest_entry _ rfl, ?_, rfl, rfl⟩,
    ⟨ready _ rfl rfl _ _ (by decide), ?_, by decide, rfl⟩,
    ⟨ready _ rfl rfl _ _ (by decide), lowest_entry _ rfl, ?_, rfl, by decide⟩⟩
  · unfold InApparentOf; decide
  · unfold InApparentOf; decide
  · exact shadow_of (onlyW2_one _ rfl (by decide)) _ rfl rfl

/-- W2 LIVE with its hold ACTIVE and reads redirected. -/
def xHeld : Window :=
  { x0 .live with holdStatus := .active, policy := { Policy.reset with redirect := true } }

theorem witness_PublishedReadIsSteered :
    (ReadyFor (as1 .consumer xHeld) (req 0x00100000 (.read 8))
        ∧ LowestFreeEntry (as1 .consumer xHeld) 0 ∧ InApparentOf (as1 .consumer xHeld) 0x00100000 2
        ∧ ((as1 .consumer xHeld).win 2).Running
        ∧ accessKind (req 0x00100000 (.read 8)).access = .read
        ∧ (as1 .consumer xHeld).role 1 2 = .consumer
        ∧ ((as1 .consumer xHeld).win 2).geometry.fallback = some 0x00100C00
        ∧ ((as1 .consumer xHeld).win 2).policy.redirect = true
        ∧ ((as1 .consumer xHeld).win 2).holdStatus ≠ .clear)
      ∧ (ReadyFor (as1 .maintenance (x0 .live)) (req 0x001003F8 (.read 1))
        ∧ LowestFreeEntry (as1 .maintenance (x0 .live)) 0
        ∧ InApparentOf (as1 .maintenance (x0 .live)) 0x001003F8 2
        ∧ ((as1 .maintenance (x0 .live)).win 2).Running
        ∧ (as1 .maintenance (x0 .live)).role 1 2 = .maintenance
        ∧ ((as1 .maintenance (x0 .live)).win 2).forcedFallback = false
        ∧ ((as1 .maintenance (x0 .live)).win 2).holdStatus = .clear) := by
  refine ⟨⟨ready _ rfl rfl _ _ (by decide), lowest_entry _ rfl, ?_, .inl rfl, rfl, rfl, rfl, rfl,
    by decide⟩, ⟨ready _ rfl rfl _ _ (by decide), lowest_entry _ rfl, ?_, .inl rfl, rfl, rfl, rfl⟩⟩
  · unfold InApparentOf; decide
  · unfold InApparentOf; decide

theorem witness_ProducerReadIsSteered :
    (ReadyFor (last filling (as1 .producer (x0 .live))) (req 0x001003C0 (.read 8))
        ∧ InApparentOf (last filling (as1 .producer (x0 .live))) 0x001003C0 2
        ∧ ((last filling (as1 .producer (x0 .live))).win 2).Running
        ∧ (last filling (as1 .producer (x0 .live))).role 1 2 = .producer
        ∧ (last filling (as1 .producer (x0 .live))).lineEntry 2
          (((0x001003C0 : Addr) - g0.apparentBase).toNat / 64) = filling)
      ∧ (last pending (as1 .producer (x0 .live))).lineEntry 2
          (((0x001003C0 : Addr) - g0.apparentBase).toNat / 64) = pending
      ∧ LowestFreeEntry (last pending (as1 .producer (x0 .live))) 0 := by
  refine ⟨⟨ready _ rfl rfl _ _ (by decide), ?_, .inl rfl, rfl, by decide⟩, by decide,
    lowest_entry _ rfl⟩
  unfold InApparentOf; decide

theorem witness_ProducerWriteToAPendingLineIsForwarded :
    ReadyFor (last pending (as1 .producer (x0 .live))) (req 0x001003C0 (.write (fullBeats 8)))
      ∧ LowestFreeEntry (last pending (as1 .producer (x0 .live))) 0
      ∧ InApparentOf (last pending (as1 .producer (x0 .live))) 0x001003C0 2
      ∧ ((last pending (as1 .producer (x0 .live))).win 2).state = .live
      ∧ (last pending (as1 .producer (x0 .live))).role 1 2 = .producer
      ∧ (last pending (as1 .producer (x0 .live))).lineEntry 2
          (((0x001003C0 : Addr) - g0.apparentBase).toNat / 64) = pending := by
  refine ⟨ready _ rfl rfl _ _ (by decide), lowest_entry _ rfl, ?_, rfl, rfl, by decide⟩
  unfold InApparentOf; decide

theorem witness_FirstWriteTakesASlot :
    ReadyFor (as1 .producer (x0 .live)) (req 0x001003C0 (.write (fullBeats 8)))
      ∧ ReadyFor (as1 .producer (x0 .live)) (req 0x001003C0 (.write (fullBeats 7)))
      ∧ (as1 .producer (x0 .live)).MapSound ∧ LowestFreeSlot (as1 .producer (x0 .live)) 0
      ∧ InApparentOf (as1 .producer (x0 .live)) 0x001003C0 2
      ∧ ((as1 .producer (x0 .live)).win 2).state = .live
      ∧ (as1 .producer (x0 .live)).role 1 2 = .producer
      ∧ ((0x001003C0 : Addr) - g0.apparentBase).toNat / 64 = 15 ∧ g0.entryIndex 15 < 8192
      ∧ (as1 .producer (x0 .live)).lineEntry 2 15 = LineEntry.reset
      ∧ ((fullBeats 8).length = 8 ∧ ∀ b ∈ fullBeats 8, b.mask = 0xFF)
      ∧ ¬((fullBeats 7).length = 8 ∧ ∀ b ∈ fullBeats 7, b.mask = 0xFF)
      ∧ (x0 .live).previousReads = 0 ∧ { x0 .live with reads1 := 1 }.previousReads ≠ 0 := by
  refine ⟨ready _ rfl rfl _ _ (by decide), ready _ rfl rfl _ _ (by decide),
    mapSound_of_cells rfl (by decide), lowest_slot _ rfl, ?_, rfl, rfl, by decide, by decide,
    by decide, by decide, by decide, by decide, by decide⟩
  unfold InApparentOf; decide

theorem witness_RetryIsAnsweredLocally :
    (ReadyFor (as1 .producer xCommit) (req 0x00100000 (.write (fullBeats 1)))
        ∧ InApparentOf (as1 .producer xCommit) 0x00100000 2
        ∧ (as1 .producer xCommit).role 1 2 = .producer
        ∧ accessKind (Access.write (fullBeats 1)) = .write
        ∧ ((as1 .producer xCommit).win 2).state = .settling)
      ∧ ((last filling (as1 .producer (x0 .live))).lineEntry 2
          (((0x001003C0 : Addr) - g0.apparentBase).toNat / 64)).filling = true
      ∧ (((noneFree (as1 .producer (x0 .live))).lineEntry 2 0).pending = false
        ∧ ∀ n, (noneFree (as1 .producer (x0 .live))).slot n ≠ none)
      ∧ (ReadyFor (as1 .consumer (x0 .flattening)) (req 0x00100400 (.read 1))
        ∧ InShadowOf (as1 .consumer (x0 .flattening)) 0x00100400 2
        ∧ ((as1 .consumer (x0 .flattening)).win 2).state = .flattening
        ∧ (as1 .consumer (x0 .flattening)).role 1 2 ≠ .none) := by
  refine ⟨⟨ready _ rfl rfl _ _ (by decide), ?_, rfl, rfl, rfl⟩, by decide, by decide,
    ⟨ready _ rfl rfl _ _ (by decide), ?_, rfl, by decide⟩⟩
  · unfold InApparentOf; decide
  · exact shadow_of (onlyW2_one _ rfl (by decide)) _ rfl rfl

/-- W2 LIVE with VIOLATION among its hold sources. -/
def xViolation : Window :=
  { x0 .live with policy := { Policy.reset with
      sources := { hold0 := false, hold1 := false, violation := true, fillFailed := false } } }

theorem witness_ViolationIsAnsweredError :
    (ReadyFor (as1 .none (x0 .live)) (req 0x00100000 (.read 1))
        ∧ Violates (as1 .none (x0 .live)) (req 0x00100000 (.read 1)) 2 .noRole
        ∧ ((as1 .none (x0 .live)).win 2).policy.sources.violation = false)
      ∧ Violates (as1 .consumer (x0 .loading)) (req 0x00100000 (.write (fullBeats 1))) 2
          .consumerWrite
      ∧ Violates (as1 .producer (x0 .live)) (req 0x00100FF8 (.read 1)) 2 .shadowAccess
      ∧ (ReadyFor (as1 .consumer xViolation) (req 0x001003C0 (.write (fullBeats 8)))
        ∧ Violates (as1 .consumer xViolation) (req 0x001003C0 (.write (fullBeats 8))) 2
          .consumerWrite
        ∧ ((as1 .consumer xViolation).win 2).Running
        ∧ ((as1 .consumer xViolation).win 2).policy.sources.violation = true) := by
  refine ⟨⟨ready _ rfl rfl _ _ (by decide), ⟨?_, rfl⟩, rfl⟩, ⟨?_, rfl, by decide, .inl rfl⟩,
    ⟨?_, .inr ⟨by decide, .inr rfl⟩⟩,
    ⟨ready _ rfl rfl _ _ (by decide), ⟨?_, rfl, by decide, .inl rfl⟩, .inl rfl, rfl⟩⟩
  · unfold InApparentOf; decide
  · unfold InApparentOf; decide
  · exact shadow_of (onlyW2_one _ rfl (by decide)) _ rfl rfl
  · unfold InApparentOf; decide

/-- Every entry of the in-flight table taken. -/
def fullTable (s : State) : State := { s with table := Vector.replicate 32 (some oldReader) }

theorem witness_RequestWaitsOnTheChannel :
    { State.reset with inReset := true }.inReset = true ∧ 48 ≤ full.hport.placesHeld
      ∧ (full.HeadExamined ∧ full.hport.channel ≠ [])
      ∧ (∀ s i, (fullTable s).entry i ≠ none)
      ∧ ReadyFor (fullTable State.reset) (req 0 (.read 1))
      ∧ ForwardedRequest (fullTable State.reset) (req 0 (.read 1)) :=
  ⟨rfl, by decide, ⟨full_headExamined, by decide⟩, fun s i => by
      show (Vector.replicate 32 (some oldReader))[i.val] ≠ none; simp,
    ready _ rfl rfl _ _ (by decide), .inl (by unfold InNoRange InNoApparent; decide)⟩

theorem witness_RequestOfARangeNeedsAnEntry :
    (let s := fullTable (as1 .producer (x0 .loading));
      ReadyFor s (req 0x001003F8 (.write (fullBeats 1)))
        ∧ ForwardedRequest s (req 0x001003F8 (.write (fullBeats 1))))
      ∧ (let s := fullTable (as1 .maintenance (x0 .live));
        ReadyFor s (req 0x00100FF8 (.read 1)) ∧ ForwardedRequest s (req 0x00100FF8 (.read 1)))
      ∧ (let s := fullTable (as1 .consumer (x0 .live));
        ReadyFor s (req 0x00100000 (.read 8)) ∧ ForwardedRequest s (req 0x00100000 (.read 8)))
      ∧ (let s := fullTable (as1 .producer xCommit);
        ReadyFor s (req 0x00100000 (.read 8)) ∧ ForwardedRequest s (req 0x00100000 (.read 8)))
      ∧ (let s := fullTable (last pending (as1 .producer (x0 .live)));
        ReadyFor s (req 0x001003C0 (.write (fullBeats 8)))
          ∧ ForwardedRequest s (req 0x001003C0 (.write (fullBeats 8)))) := by
  refine ⟨⟨ready _ rfl rfl _ _ (by decide), .inr ⟨2, .inl ⟨?_, rfl, .inl rfl⟩⟩⟩,
    ⟨ready _ rfl rfl _ _ (by decide), .inr ⟨2, .inr (.inl ⟨?_, rfl, by decide⟩)⟩⟩,
    ⟨ready _ rfl rfl _ _ (by decide),
      .inr ⟨2, .inr (.inr (.inl ⟨?_, .inl rfl, rfl, .inl rfl⟩))⟩⟩,
    ⟨ready _ rfl rfl _ _ (by decide),
      .inr ⟨2, .inr (.inr (.inl ⟨?_, .inr rfl, rfl, .inr (.inr ⟨rfl, by decide⟩)⟩))⟩⟩,
    ⟨ready _ rfl rfl _ _ (by decide),
      .inr ⟨2, .inr (.inr (.inr ⟨?_, rfl, rfl, rfl, by decide, by decide⟩))⟩⟩⟩
  · unfold InApparentOf; decide
  · exact shadow_of (onlyW2_one _ rfl (by decide)) _ rfl rfl
  · unfold InApparentOf; decide
  · unfold InApparentOf; decide
  · unfold InApparentOf; decide

/-! ### Responses -/

theorem witness_ResponseAcceptedReleasesItsPlace :
    (State.reset.inReset = false ∧ State.reset.hport.responses = [])
      ∧ busy.inReset = false ∧ ∃ r, busy.hport.responses = [r] := ⟨⟨rfl, rfl⟩, rfl, _, rfl⟩

theorem witness_MemorySideTakesTheOldestOperation : e1.inReset = false ∧ e1.issueQueue ≠ [] := by
  decide

/-- No window keeps a slot request in a state whose windows say so. -/
theorem kept_none (s : State) (h : ∀ w, (s.win w).copyRequest = false) : NoKeptRequest s := h

/-- The state with one slot at work has no other. -/
theorem slot_of_working {s : State} {k j : SlotWork} {n : SlotId}
    (hs : ∀ m : SlotId, m ≠ 3 → (working k s).slot m = none) (h : (working k s).slot n = some j) :
    n = 3 ∧ j = k := by
  by_cases hn : n = 3
  · subst hn
    refine ⟨rfl, ?_⟩
    have : (working k s).slot 3 = some k := slot_setSlot_self _ _ _
    rw [this] at h
    exact (Option.some.inj h).symm
  · rw [hs n hn] at h; cases h

/-- A fill of W2, whose record is given, in WAITING behind `n` reads of the previous epoch. -/
def waitingFill (x : Window) (n : Nat) : State :=
  working (fill .waiting) (reading (some true) (one 2
    { x with reads1 := n, requests := n, fills := 1 }))

theorem witness_TrackerResponseIsPassedUp :
    (busy.inReset = false ∧ (∃ e, busy.entry 31 = some e ∧ e.window = some 2
        ∧ ((0 : BitVec 2) = 0 → e.kind = .read → [(0 : Word)].length = e.beats))
        ∧ NoKeptRequest busy
        ∧ ∀ n k, busy.slot n = some k → k.FillsFor 2 → k.phase ≠ .waiting)
      ∧ (∃ e, (State.reset.setEntry 0 (some { oldReader with window := none })).entry 0 = some e
        ∧ e.window = none)
      ∧ (NoKeptRequest (waitingFill xCommit 2) ∧ ∃ e, (waitingFill xCommit 2).entry 31 = some e
        ∧ e.window = some 2 ∧ (((waitingFill xCommit 2).win 2).lowered e).previousReads ≠ 0) := by
  refine ⟨⟨rfl, ⟨_, rfl, rfl, by decide⟩, kept_none _ (by decide), fun n k h _ => ?_⟩,
    ⟨_, rfl, rfl⟩, kept_none _ (by decide), _, rfl, rfl, by decide⟩
  obtain ⟨-, rfl⟩ := busy_slot n k h
  decide

/-! ### Fills -/

theorem witness_FillReadDoneMergesTheHeldWrite :
    busy.inReset = false ∧ busy.slot 3 = some (fill .reading) ∧ (fill .reading).FillsFor 2
      ∧ (fill .reading).phase = .reading ∧ (fill .reading).held = some held
      ∧ (held.address - (busy.win 2).geometry.apparentBase).toNat % 64 = 56 ∧ 56 % 8 = 0
      ∧ 56 + 8 * held.beats.length ≤ 64 ∧ (busy.win 2).previousReads = 0
      ∧ ((working (fill .reading) (one 2 { x0 .live with reads1 := 1 })).win 2).previousReads ≠ 0 :=
  ⟨rfl, rfl, ⟨rfl, rfl, .inl rfl⟩, rfl, rfl, by decide, by decide, by decide, by decide, by decide⟩

theorem witness_FillWriteStartsWithoutOldReaders :
    ((waitingFill (x0 .live) 1).inReset = false
        ∧ (waitingFill (x0 .live) 1).slot 3 = some (fill .waiting)
        ∧ (fill .waiting).FillsFor 2 ∧ (fill .waiting).phase = .waiting
        ∧ (fill .waiting).buffer = some zeroLine
        ∧ ((waitingFill (x0 .live) 1).win 2).previousReads ≠ 0)
      ∧ ((working (fill .waiting) (one 2 (x0 .live))).win 2).previousReads = 0
      ∧ (∀ st ∈ [WindowState.live, .settling, .flattening], NoKeptRequest (waitingFill (x0 st) 1)
        ∧ ∃ e, (waitingFill (x0 st) 1).entry 31 = some e ∧ e.window = some 2
          ∧ ((0 : BitVec 2) = 0 → e.kind = .read → [(0 : Word)].length = e.beats)
          ∧ (((waitingFill (x0 st) 1).win 2).lowered e).previousReads = 0) := by
  refine ⟨⟨rfl, rfl, ⟨rfl, rfl, .inl rfl⟩, rfl, rfl, by decide⟩, by decide, fun st _ => ?_⟩
  refine ⟨kept_none _ ?_, _, rfl, rfl, by decide, ?_⟩ <;> (cases st <;> decide)

/-- A fill of the last line of W2, whose record is given, in WRITING. -/
def writingFill (x : Window) : State :=
  working (fill .writing) (last filling (one 2 { x with fills := 1 }))

theorem witness_FillCompletesItsLine :
    ((writingFill xCommit).inReset = false ∧ (writingFill xCommit).MapSound
        ∧ NoKeptRequest (writingFill xCommit)
        ∧ (writingFill xCommit).slot 3 = some (fill .writing) ∧ (fill .writing).FillsFor 2
        ∧ (fill .writing).phase = .writing ∧ (fill .writing).held = some held
        ∧ ((writingFill xCommit).win 2).geometry.entryIndex (fill .writing).line < 8192
        ∧ ((writingFill xCommit).win 2).Running)
      ∧ ((writingFill (x0 .flattening)).win 2).state = .flattening :=
  ⟨⟨rfl, mapSound_of_cells (by decide) (by decide), kept_none _ (by decide), rfl,
    ⟨rfl, rfl, .inl rfl⟩, rfl, rfl, by decide, .inr rfl⟩, rfl⟩

/-- Slot 3 on its third attempt. -/
def third (k : SlotWork) : State := working { k with attempt := 3 } (one 2 (x0 .live))

theorem witness_FillOperationIsRetried :
    ((third (fill .reading)).inReset = false
        ∧ (third (fill .reading)).slot 3 = some { fill .reading with attempt := 3 }
        ∧ (fill .reading).orphaned = false ∧ { fill .reading with attempt := 3 }.attempt < 4)
      ∧ (fill .writing).phase = .writing ∧ (copy .writing).buffer = some zeroLine := by
  refine ⟨⟨rfl, rfl, rfl, by decide⟩, rfl, rfl⟩

/-- W2 LIVE with FILL_FAILED among its hold sources. -/
def xFillFailed : Window :=
  { x0 .live with policy := { Policy.reset with
      sources := { hold0 := false, hold1 := false, violation := false, fillFailed := true } } }

theorem witness_FillFailureFreesItsLine :
    ((writingFill (x0 .live)).MapSound ∧ NoKeptRequest (writingFill (x0 .live))
        ∧ (writingFill (x0 .live)).slot 3 = some (fill .writing) ∧ (fill .writing).FillsFor 2
        ∧ (fill .writing).held = some held
        ∧ ((writingFill (x0 .live)).win 2).geometry.entryIndex (fill .writing).line < 8192
        ∧ ((writingFill (x0 .live)).win 2).policy.sources.fillFailed = false)
      ∧ (FailsWith (fill .writing) 1 .writeError ∧ FailsWith (fill .reading) 3 .readError
        ∧ FailsWith { fill .writing with attempt := 4 } 2 .retryExhausted)
      ∧ ((writingFill xFillFailed).win 2).Running
      ∧ ((writingFill xFillFailed).win 2).policy.sources.fillFailed = true := by
  refine ⟨⟨mapSound_of_cells (by decide) (by decide), kept_none _ (by decide), rfl,
    ⟨rfl, rfl, .inl rfl⟩, rfl, by decide, rfl⟩, ⟨⟨rfl, .inl rfl⟩, ⟨rfl, .inr rfl⟩,
    ⟨.inr rfl, rfl, rfl⟩⟩, .inl rfl, rfl⟩

/-- Slot 3 RETIRING, and W4 with a kept slot request. -/
def retiring : State :=
  working { fill .retiring with held := none, orphaned := true } (one 4
    { x0 .flattening with copyRequest := true, cursor := some 0 })

theorem witness_RetiringSlotBecomesFree :
    (retiring.inReset = false
        ∧ retiring.slot 3 = some { fill .retiring with held := none, orphaned := true })
      ∧ (∀ v, (retiring.win v).copyRequest = true ↔ v = 4)
      ∧ NoKeptRequest
        (working { fill .retiring with held := none, orphaned := true } State.reset) :=
  ⟨⟨rfl, rfl⟩, by decide, kept_none _ (by decide)⟩

/-! ### Retirement -/

/-- W2 FLATTENING, its last line published B and being copied. -/
def copying (p : SlotPhase) : State :=
  working (copy p) (last inB (one 2 { x0 .flattening with cursor := some 15, fills := 1 }))

theorem witness_CopiesMoveTheLine :
    ((copying .reading).inReset = false ∧ (copying .reading).slot 3 = some (copy .reading)
        ∧ (copy .reading).CopiesFor 2 ∧ (copy .reading).phase = .reading)
      ∧ ((copying .writing).hport.channel = [] ∧ (copying .writing).MapSound
        ∧ NoKeptRequest (copying .writing) ∧ (copying .writing).slot 3 = some (copy .writing)
        ∧ (copy .writing).CopiesFor 2 ∧ (copy .writing).phase = .writing
        ∧ ((copying .writing).win 2).state = .flattening
        ∧ ((copying .writing).win 2).geometry.entryIndex (copy .writing).line < 8192) :=
  ⟨⟨rfl, rfl, ⟨rfl, rfl, rfl⟩, rfl⟩, rfl, mapSound_of_cells (by decide) (by decide),
    kept_none _ (by decide), rfl, ⟨rfl, rfl, rfl⟩, rfl, rfl, by decide⟩

theorem witness_CopyFailureReturnsTheWindowToLive :
    (copying .reading).inReset = false ∧ NoKeptRequest (copying .reading)
      ∧ (copying .reading).slot 3 = some (copy .reading) ∧ (copy .reading).CopiesFor 2
      ∧ FailsWith (copy .reading) 1 .readError ∧ ((copying .reading).win 2).state = .flattening
      ∧ (copying .reading).firstLevelSource 2 = none
      ∧ (working (copy .writing) (one 2 { x0 .flattening with manualHold := true })).firstLevelSource
          2 = some .manual :=
  ⟨rfl, kept_none _ (by decide), rfl, ⟨rfl, rfl, rfl⟩, ⟨rfl, .inl rfl⟩, rfl, by decide, by decide⟩

/-- W2 FLATTENING with a kept slot request. -/
def keeping : State := one 2 { x0 .flattening with copyRequest := true, cursor := some 15 }

theorem witness_FlattenDrainBeginsTheCopies :
    ((last inB (one 2 (x0 .flattening))).inReset = false
        ∧ (last inB (one 2 (x0 .flattening))).hport.channel = []
        ∧ (last inB (one 2 (x0 .flattening))).MapSound
        ∧ NoKeptRequest (last inB (one 2 (x0 .flattening)))
        ∧ ((last inB (one 2 (x0 .flattening))).win 2).state = .flattening
        ∧ ((last inB (one 2 (x0 .flattening))).win 2).requests = 0
        ∧ ((last inB (one 2 (x0 .flattening))).win 2).fills = 0)
      ∧ (FirstInB (last inB (one 2 (x0 .flattening))) 2 0 15
        ∧ NoneInB (one 2 (x0 .flattening)) 2 0)
      ∧ (keeping.inReset = false ∧ (keeping.win 2).copyRequest = true
        ∧ (keeping.win 2).cursor = some 15 ∧ LowestFreeSlot keeping 0)
      ∧ ∀ m, (noneFree keeping).slot m ≠ none := by
  refine ⟨⟨rfl, rfl, mapSound_of_cells (by decide) (by decide), kept_none _ (by decide), rfl, rfl,
    rfl⟩, ⟨⟨by decide, by decide, by decide, fun l _ h => ?_⟩, fun l _ _ => ?_⟩,
    ⟨rfl, rfl, rfl, lowest_slot _ rfl⟩, by decide⟩
  · revert h; revert l; decide
  · rfl

theorem free_of {s : State} (hs : s.inReset = false) (hm : s.mgmt = MgmtPort.reset) : s.PortFree :=
  ⟨hs, fun b h => by rw [hm] at h; cases h⟩

/-! ### A kept request of another window -/

/-- A flattening window that keeps a slot request for its line 0. -/
def keeper : Window := { x0 .flattening with copyRequest := true, cursor := some 0 }

/-- W4 FLATTENING keeps a slot request, and slots 0 to 2 are at work for W5. -/
def crowded (s : State) : State :=
  let k : Option SlotWork := some { fill .waiting with window := 5 }
  { s.modWin 4 fun _ => keeper with slots := #v[k, k, k, s.slots[3]] }

/-- The fields of a state that the statements about a kept request look at. -/
def KeepsBeside (s : State) (k : SlotWork) : Prop :=
  s.inReset = false ∧ s.MapSound ∧ s.slot 3 = some k ∧ ¬NoKeptRequest s
    ∧ (s.win 4).copyRequest = true ∧ (s.win 4).cursor = some 0
    ∧ LowestFreeSlot (s.setSlot 3 none) 3

theorem keepsBeside (s : State) (k : SlotWork) (hr : s.inReset = false) (hm : s.MapSound)
    (hs : s.slot 3 = some k) : KeepsBeside (crowded s) k := by
  have hw : (crowded s).win 4 = keeper := win_modWin_self s 4 fun _ => keeper
  refine ⟨hr, hm, hs, fun h => ?_, by rw [hw]; rfl, by rw [hw]; rfl, slot_setSlot_self _ _ _, fun m h => ?_⟩
  · have := h 4
    rw [hw] at this; cases this
  · have : m = 0 ∨ m = 1 ∨ m = 2 := by revert h; revert m; decide
    rcases this with rfl | rfl | rfl <;> (rw [slot_setSlot_of_ne _ (by decide)]; exact nofun)

theorem witness_FillCompletesItsLine_beside_a_kept_request :
    KeepsBeside (crowded (writingFill xCommit)) (fill .writing)
      ∧ ((crowded (writingFill xCommit)).win 2).Running :=
  ⟨keepsBeside _ _ rfl (mapSound_of_cells (by decide) (by decide)) rfl, .inr rfl⟩

theorem witness_FillFailureFreesItsLine_beside_a_kept_request :
    KeepsBeside (crowded (writingFill xFillFailed)) (fill .writing)
      ∧ ((crowded (writingFill xFillFailed)).win 2).Running :=
  ⟨keepsBeside _ _ rfl (mapSound_of_cells (by decide) (by decide)) rfl, .inl rfl⟩

theorem witness_copies_beside_a_kept_request :
    KeepsBeside (crowded (copying .writing)) (copy .writing)
      ∧ KeepsBeside (crowded (copying .reading)) (copy .reading)
      ∧ ((crowded (copying .reading)).win 2).state = .flattening
      ∧ ((crowded (copying .reading)).win 2).copyRequest = false :=
  ⟨keepsBeside _ _ rfl (mapSound_of_cells (by decide) (by decide)) rfl,
    keepsBeside _ _ rfl (mapSound_of_cells (by decide) (by decide)) rfl, rfl, rfl⟩

theorem witness_drains_beside_a_kept_request :
    KeepsBeside (crowded (waitingFill xCommit 1)) (fill .waiting)
      ∧ KeepsBeside (crowded busy) (fill .reading)
      ∧ ((crowded (one 2 (x0 .flattening))).win 2).copyRequest = false
      ∧ (crowded (last inB (one 2 (x0 .live)))).PortFree
      ∧ ((crowded (last inB (one 2 (x0 .live)))).win 2).state = .live
      ∧ (crowded busy).PortFree ∧ ((crowded busy).win 2).state ≠ .off :=
  ⟨keepsBeside _ _ rfl (mapSound_of_cells (by decide) (by decide)) rfl,
    keepsBeside _ _ rfl (mapSound_of_cells (by decide) (by decide)) rfl, rfl, free_of rfl rfl, rfl,
    free_of rfl rfl, by decide⟩

/-- A completed fill frees slot 3, and W4 takes it in the same event (R57, R62, R117). -/
theorem test_kept_request_takes_the_slot_of_a_completed_fill :
    (after (.fillCompletes 3 []) (crowded (writingFill (x0 .live)))).slot 3 =
        some { phase := .reading, kind := .flattenCopy, window := 4, line := 0, source := .b
               target := .a, held := none, buffer := none, attempt := 1, orphaned := false }
      ∧ ((after (.fillCompletes 3 []) (crowded (writingFill (x0 .live)))).win 4).copyRequest = false :=
  by decide

/-! ### Settles -/

theorem witness_FlipPublishesEveryPendingLine :
    ((last pending (one 2 xCommit)).inReset = false ∧ (last pending (one 2 xCommit)).MapSound
        ∧ ((last pending (one 2 xCommit)).win 2).Committing
        ∧ ((last pending (one 2 xCommit)).win 2).Drained ∧ ¬xCommit.Prompted)
      ∧ (let x := { xCommit with armed := true, reads0 := 1
                                 policy := { Policy.reset with commitMode := .prompt } }
        x.Committing ∧ x.Drained ∧ x.Prompted ∧ x.currentReads ≠ 0)
      ∧ (let x := { xCommit with armed := true
                                 policy := { Policy.reset with commitMode := .prompt } }
        x.Committing ∧ x.Drained ∧ x.Prompted ∧ x.currentReads = 0) := by
  refine ⟨⟨rfl, mapSound_of_cells (by decide) (by decide), ⟨rfl, rfl⟩, ⟨rfl, rfl, rfl⟩, ?_⟩,
    ⟨⟨rfl, rfl⟩, ⟨rfl, rfl, rfl⟩, ⟨rfl, rfl, rfl⟩, by decide⟩,
    ⟨rfl, rfl⟩, ⟨rfl, rfl, rfl⟩, ⟨rfl, rfl, rfl⟩, by decide⟩
  unfold Window.Prompted; decide

theorem witness_ClearDiscardsEveryPendingLine :
    ((last pending (one 2 xDiscard)).inReset = false ∧ (last pending (one 2 xDiscard)).MapSound
        ∧ ((last pending (one 2 xDiscard)).win 2).Discarding
        ∧ ((last pending (one 2 xDiscard)).win 2).Drained ∧ ¬xDiscard.Prompted)
      ∧ (let x := { xDiscard with armed := true, reads0 := 1
                                  policy := { Policy.reset with commitMode := .prompt } }
        x.Discarding ∧ x.Drained ∧ x.Prompted ∧ x.currentReads ≠ 0)
      ∧ (let x := { xDiscard with armed := true
                                  policy := { Policy.reset with commitMode := .prompt } }
        x.Discarding ∧ x.Drained ∧ x.Prompted ∧ x.currentReads = 0) := by
  refine ⟨⟨rfl, mapSound_of_cells (by decide) (by decide), ⟨rfl, rfl⟩, ⟨rfl, rfl, rfl⟩, ?_⟩,
    ⟨⟨rfl, rfl⟩, ⟨rfl, rfl, rfl⟩, ⟨rfl, rfl, rfl⟩, by decide⟩,
    ⟨rfl, rfl⟩, ⟨rfl, rfl, rfl⟩, ⟨rfl, rfl, rfl⟩, by decide⟩
  unfold Window.Prompted; decide

/-- W2 with its drain timer at 1. -/
def expiring (x : Window) : State := one 2 { x with drainTimer := some 1 }

theorem witness_DrainTimerExpiryCancelsTheSettle :
    ((expiring xCommit).inReset = false ∧ ((expiring xCommit).win 2).drainTimer = some 1
        ∧ ((expiring xCommit).win 2).Committing)
      ∧ (((expiring xDiscard).win 2).Discarding ∧ ¬((expiring xDiscard).win 2).Prompted)
      ∧ (let x := { xDiscard with armed := true, fills := 1
                                  policy := { Policy.reset with commitMode := .prompt } }
        ((expiring x).win 2).Discarding ∧ ((expiring x).win 2).Prompted
          ∧ ¬((expiring x).win 2).Drained) := by
  refine ⟨⟨rfl, rfl, ⟨rfl, rfl⟩⟩, ⟨⟨rfl, rfl⟩, ?_⟩, ⟨rfl, rfl⟩, ⟨rfl, rfl, rfl⟩, ?_⟩
  · unfold Window.Prompted; decide
  · unfold Window.Drained; decide

/-- W0 with a timer at 2; W1 in a COMMIT settle, W2 in a DISCARD settle and W3 in one that PROMPT mode
leaves armed, with timers at 1. -/
def ticking : State :=
  (((expiring xDiscard).modWin 1 fun _ => { xCommit with drainTimer := some 1 }).modWin 0 fun _ =>
    { xCommit with drainTimer := some 2 }).modWin 3 fun _ =>
      { xDiscard with armed := true, fills := 1, drainTimer := some 1
                      policy := { Policy.reset with commitMode := .prompt } }

theorem witness_TickLowersTimersAndPulse :
    (ticking.inReset = false ∧ ticking.hport.channel = []
        ∧ (∀ w n, (ticking.win w).Discarding → (ticking.win w).drainTimer = some n → n.toNat ≤ 1 →
          (ticking.win w).Prompted → ¬(ticking.win w).Drained))
      ∧ ((ticking.win 4).drainTimer = none
        ∧ ((ticking.win 0).drainTimer = some 2 ∧ 1 < (2 : Half).toNat)
        ∧ ((ticking.win 1).drainTimer = some 1 ∧ (ticking.win 1).Committing)
        ∧ ((ticking.win 2).drainTimer = some 1 ∧ (ticking.win 2).Discarding
          ∧ ¬(ticking.win 2).Prompted)
        ∧ ((ticking.win 3).drainTimer = some 1 ∧ (ticking.win 3).Discarding
          ∧ (ticking.win 3).Prompted))
      ∧ (State.reset.modLines fun l => { l with pulse := 1 }).lines.pulse = 1 := by
  have hp : ∀ w, (ticking.win w).Prompted → ¬(ticking.win w).Drained := by
    unfold Window.Prompted Window.Drained; decide
  refine ⟨⟨rfl, rfl, fun w _ _ _ _ => hp w⟩, ⟨rfl, ⟨rfl, by decide⟩, ⟨rfl, rfl, rfl⟩,
    ⟨rfl, ⟨rfl, rfl⟩, ?_⟩, rfl, ⟨rfl, rfl⟩, ⟨rfl, rfl, rfl⟩⟩, rfl⟩
  unfold Window.Prompted; decide

/-! ### Lines -/

/-- W2 LIVE, armed in BOUNDARY mode, with a pending line. -/
def armed : State := last pending (one 2 { x0 .live with armed := true, pendingCount := 1 })

theorem witness_BoundaryIsTakenAtEachWindow :
    (armed.inReset = false ∧ armed.hport.channel = [] ∧ armed.lines.levels.sync = false
        ∧ (armed.win 2).Running ∧ armed.MapSound
        ∧ (armed.win 2).commitsNow (armed.levelAsserted 2) = true ∧ (armed.win 2).Drained)
      ∧ (∀ w, ((one 2 (x0 .live)).win w).commitsNow ((one 2 (x0 .live)).levelAsserted w) = false)
      ∧ ¬((one 2 (x0 .loading)).win 2).Running
      ∧ (State.reset.modLines fun l =>
          { l with levels := { l.levels with sync := true } }).lines.levels.sync = true := by
  refine ⟨⟨rfl, rfl, rfl, .inl rfl, mapSound_of_cells (by decide) (by decide), by decide,
    rfl, rfl, rfl⟩, by decide, ?_, rfl⟩
  unfold Window.Running; decide

theorem witness_BoundaryRaisesItsNotices :
    (let s := one 2 xCommit;
      s.inReset = false ∧ s.hport.channel = [] ∧ s.lines.levels.sync = false
        ∧ (∀ v, (s.win v).Running ↔ v = 2) ∧ (s.win 2).state = .settling)
      ∧ (let s := one 2 { x0 .live with holdStatus := .releasing };
        (∀ v, (s.win v).Running ↔ v = 2) ∧ (s.win 2).state = .live ∧ (s.win 2).armed = false)
      ∧ ((∀ v, (armed.win v).Running ↔ v = 2) ∧ (armed.win 2).armed = true
        ∧ (armed.win 2).holdStatus = .clear ∧ (armed.win 2).policy.commitMode = .boundary
        ∧ (armed.win 2).policy.divider ≤ (armed.win 2).dividerCount + 1 ∧ (armed.win 2).Drained)
      ∧ (let s := one 2 { x0 .live with
            holdStatus := .active, armed := true, fills := 1
            policy := { Policy.reset with holdPolicy := .perBoundary, commitMode := .prompt } };
        (∀ v, (s.win v).Running ↔ v = 2) ∧ (s.win 2).state = .live
          ∧ (s.win 2).policy.holdPolicy = .perBoundary ∧ (s.win 2).holdStatus = .active
          ∧ s.levelAsserted 2 = false ∧ (s.win 2).eventSince = false ∧ (s.win 2).armed = true
          ∧ (s.win 2).policy.commitMode = .prompt ∧ ¬(s.win 2).Drained) := by
  unfold Window.Running Window.Drained
  decide

/-- A policy in PROMPT mode that PUBREQ arms. -/
def promptPolicy : Policy := { Policy.reset with commitMode := .prompt, pubreqEnable := true }

/-- W2 LIVE in PROMPT mode, with a pending line. -/
def promptly : State := last pending (one 2 { x0 .live with pendingCount := 1, policy := promptPolicy })

theorem witness_PubreqEdgeArmsTheWindows :
    (promptly.inReset = false ∧ promptly.hport.channel = [] ∧ promptly.lines.levels.pubreq = false
        ∧ promptly.MapSound ∧ (promptly.win 2).policy.pubreqEnable = true
        ∧ (promptly.win 2).state = .live ∧ (promptly.win 2).policy.commitMode = .prompt
        ∧ (promptly.win 2).holdStatus = .clear ∧ (promptly.win 2).Drained)
      ∧ (let x := { xCommit with policy := promptPolicy };
        x.policy.pubreqEnable = true ∧ x.Running ∧ x.state = .settling)
      ∧ (∀ w, (State.reset.win w).policy.pubreqEnable = true → (State.reset.win w).state = .live →
          (State.reset.win w).policy.commitMode = .boundary
            ∨ (State.reset.win w).holdStatus ≠ .clear)
      ∧ (State.reset.modLines fun l =>
          { l with levels := { l.levels with pubreq := true } }).lines.levels.pubreq = true
      ∧ (let x : LineSample := { line := .sync, level := true };
        let y : LineSample := { line := .hold1, level := true };
        x.line ≠ y.line ∧ levelAt promptly.lines.levels x.line = !x.level
          ∧ levelAt promptly.lines.levels y.line = !y.level) :=
  ⟨⟨rfl, rfl, rfl, mapSound_of_cells (by decide) (by decide), rfl, rfl, rfl, rfl, rfl, rfl, rfl⟩,
    ⟨rfl, .inr rfl, rfl⟩, by decide, rfl, by decide⟩

/-- W2 with HOLD0 among its hold sources. -/
def xHold0 (st : WindowState) : Window :=
  { x0 st with policy := { Policy.reset with
      sources := { hold0 := true, hold1 := false, violation := false, fillFailed := false } } }

theorem witness_HoldLineEdgeStrikesOrReleases :
    (let s := one 2 (xHold0 .live);
      s.inReset = false ∧ s.hport.channel = [] ∧ LevelsOf s.lines.levels .hold0 = !true
        ∧ (s.win 2).policy.sources.counts .hold0 = true ∧ (s.win 2).Running
        ∧ (true = true ↔ s.settings.polarity .hold0 = .activeHigh)
        ∧ s.notices.offerAll ((edgeOrder [] .hold0).flatMap fun w =>
            if (s.win w).policy.sources.counts .hold0 && (s.win w).state.isLiveOrSettling then
              strikeNotices (s.win w) w .hold0
            else []) = { records := [.holdActive 2 .hold0], overflow := false })
      ∧ (let s := (one 2 (xHold0 .live)).modLines fun l =>
          { l with levels := { l.levels with hold0 := true } };
        LevelsOf s.lines.levels .hold0 = !false
          ∧ ¬(false = true ↔ s.settings.polarity .hold0 = .activeHigh))
      ∧ ¬((one 2 (xHold0 .loading)).win 2).Running := by
  unfold Window.Running
  decide

/-! ### Frames -/

/-- A port out of reset and idle is free. -/
theorem free_reset : State.reset.PortFree := free_of rfl rfl

theorem free_one (w : WindowId) (x : Window) : (one w x).PortFree := free_of rfl rfl

theorem witness_ReadStatusReportsThePart :
    State.reset.PortFree ∧ ({ args := List.replicate 13 0 } : Frame).till = .csRises
      ∧ 12 < ({ args := List.replicate 13 0 } : Frame).args.length
      ∧ ∃ t, exec (.readStatus { args := [], till := .csFell }) State.reset = .next t
        ∧ ∃ u : State, u.inReset = false ∧ u.mgmt = t.mgmt ∧ u.notices.records ≠ [] :=
  ⟨free_reset, rfl, by decide, _, rfl,
    { (after (.readStatus { args := [], till := .csFell }) State.reset) with
      notices := { records := [.holdReleased 1], overflow := false } }, rfl, rfl, by decide⟩

theorem witness_ReadWindowReportsTheRecord :
    (one 2 (x0 .live)).PortFree ∧ (List.replicate 47 (0 : Byte)).length = 47 :=
  ⟨free_one _ _, by decide⟩

theorem witness_ReadRolesAndReadLineReportCells :
    (one 2 (x0 .live)).PortFree ∧ (List.replicate 8 (0 : Byte)).length = 8
      ∧ 15 < (16 : Byte).toNat
      ∧ ((15 : Half).toNat < ((one 2 (x0 .live)).win 2).geometry.lineCount.toNat
        ∧ ((one 2 (x0 .live)).win 2).geometry.mapOffset.toNat + (15 : Half).toNat ≤ 8191)
      ∧ 7 < (8 : Byte).toNat
      ∧ ((one 2 (x0 .live)).win 2).geometry.lineCount.toNat ≤ (16 : Half).toNat
      ∧ 8191 < ((one 2 { x0 .off with geometry := { g0 with lineCount := 32 } }).win
          2).geometry.mapOffset.toNat + (16 : Half).toNat :=
  ⟨free_one _ _, by decide, by decide, by decide, by decide, by decide, by decide⟩

theorem witness_ReadNoticeDrainsTheQueue :
    State.reset.PortFree
      ∧ ({ args := List.replicate 31 0 } : Frame).args.length = 16 * 1 + 15 ∧ 15 < 16
      ∧ [Notice.holdReleased 1] ≠ [] ∧ [Notice.holdReleased 1].length ≤ 1
      ∧ 1 < [Notice.holdReleased 1, .holdReleased 2].length
      ∧ ({ args := List.replicate 16 0, till := .csLow } : Frame).args.length = 16 * 1 + 0
      ∧ ({ args := List.replicate 17 0, till := .csLow } : Frame).args.length = 16 * 1 + 1
      ∧ 1 + ({ args := List.replicate 15 0 } : Frame).args.length = 16
      ∧ ∃ t, exec (.readNotice { args := List.replicate 16 0, till := .csLow }) State.reset = .next t
        ∧ ∃ u : State, u.inReset = false ∧ u.mgmt = t.mgmt ∧ u.notices.records ≠ [] :=
  ⟨free_reset, by decide, by decide, by decide, by decide, by decide, by decide, by decide,
    by decide, _, rfl, oneSlot.modNotices fun q => q.offer (.holdReleased 3), rfl, rfl, by decide⟩

theorem witness_GeometryAndRolesAreReplacedAsWritten :
    (State.reset.PortFree ∧ (State.reset.win 2).state = .off)
      ∧ ((one 2 (x0 .loading)).PortFree ∧ ((one 2 (x0 .loading)).win 2).state ≠ .off)
      ∧ (([16, 0, 0, 0, 0, 0, 0, 0, 0] : List Byte).length = 9
        ∧ 15 < (([16, 0, 0, 0, 0, 0, 0, 0, 0] : List Byte).getD 0 0).toNat)
      ∧ ∃ b ∈ ([0, 0, 0, 0, 0, 0, 0, 0, 4] : List Byte).tail, 3 < b.toNat :=
  ⟨⟨free_reset, rfl⟩, ⟨free_one _ _, by decide⟩, by decide, by decide⟩

theorem witness_WritePolicyReplacesThePolicy :
    (State.reset.PortFree ∧ 1 ≤ promptPolicy.divider ∧ promptPolicy.divider ≤ 16
        ∧ (State.reset.win 2).state = .off)
      ∧ (∀ x, (one 2 x).PortFree) ∧ ((one 2 xCommit).win 2).state = .settling
      ∧ (let x := { x0 .live with holdStatus := .active };
        x.state = .live ∧ x.holdStatus ≠ .clear
          ∧ { promptPolicy with holdPolicy := .perBoundary }.holdPolicy ≠ x.policy.holdPolicy)
      ∧ (let s := one 2 { x0 .live with manualHold := true, policy := promptPolicy };
        (s.win 2).state = .live ∧ (s.win 2).holdStatus = .clear
          ∧ s.firstLevelSource 2 = some .manual)
      ∧ (let s := one 2 { x0 .live with armed := true, policy := promptPolicy };
        (s.win 2).state = .live ∧ (s.win 2).holdStatus = .clear ∧ s.firstLevelSource 2 = none
          ∧ promptPolicy.commitMode = .prompt ∧ (s.win 2).armed = true ∧ s.MapSound) :=
  ⟨⟨free_reset, by decide, by decide, rfl⟩, fun x => free_one _ x, rfl, by decide, by decide,
    by decide, by decide, by decide, by decide, by decide, mapSound_of_cells rfl (by decide)⟩

theorem witness_WritePolicyOutOfRange :
    State.reset.PortFree ∧ (State.reset.win 2).state ≠ .settling
      ∧ (State.reset.win 2).state ≠ .flattening ∧ (State.reset.win 2).state ≠ .live
      ∧ ∀ l ∈ ([[2, 1, 0, 0, 0, 0, 0, 0, 0, 0], [0, 0, 0, 0, 0, 0, 0, 0, 0, 0],
          [0, 17, 0, 0, 0, 0, 0, 0, 0, 0], [0, 1, 0, 0, 2, 0, 0, 0, 0, 0],
          [0, 1, 0, 0, 0, 16, 0, 0, 0, 0], [0, 1, 0, 0, 0, 0, 0, 0, 0, 2]] : List (List Byte)),
        l.length = 10 ∧ (1 < (l.getD 0 0).toNat ∨ (l.getD 1 0).toNat = 0 ∨ 16 < (l.getD 1 0).toNat
          ∨ 1 < (l.getD 4 0).toNat ∨ 15 < (l.getD 5 0).toNat ∨ ∃ b ∈ l.drop 6, 1 < b.toNat) :=
  ⟨free_reset, by decide, by decide, by decide, by decide⟩

theorem witness_DeviceSettingsTakeEffectAtOnce :
    (State.reset.PortFree ∧ State.reset.hport.channel = []
        ∧ { Settings.reset with hold0Polarity := .activeLow }.tickDivisor ≠ 0)
      ∧ (let s := one 2 (xHold0 .live)
        s.PortFree ∧ (s.win 2).Running
          ∧ lineAsserted s.lines.levels s.settings (s.win 2) .hold0 = false
          ∧ lineAsserted s.lines.levels { s.settings with hold0Polarity := .activeLow } (s.win 2)
            .hold0 = true)
      ∧ (([0, 0, 0, 0] : List Byte).length = 4 ∧ ([0, 0, 0, 0] : List Byte).getD 3 0 = 0)
      ∧ 1 < (([2, 0, 0, 1] : List Byte).getD 0 0).toNat :=
  ⟨⟨free_reset, rfl, by decide⟩, ⟨free_one _ _, .inl rfl, by decide, by decide⟩, by decide,
    by decide⟩

theorem witness_LoadChecksAndInitialises :
    LoadGives (one 2 (x0 .live)) 2 .refusedState
      ∧ LoadGives (one 2 { x0 .off with requests := 1 }) 2 .refusedBusy
      ∧ LoadGives (one 2 { x0 .off with geometry := { g0 with lineCount := 0 } }) 2 .refusedRange
      ∧ LoadGives ((one 2 (x0 .off)).modWin 3 fun _ => x0 .live) 2 .refusedOverlap
      ∧ LoadGives (one 2 { x0 .off with geometry := { g0 with lineCount := 32, fallback := none
                                                              bankA := 0x00200000
                                                              bankB := 0x00201000 } }) 2 .refusedMap
      ∧ ((one 2 (x0 .off)).MapSound ∧ LoadGives (one 2 (x0 .off)) 2 .done) := by
  have free : ∀ x : Window, ∀ n, (one 2 x).slot n = none := fun x n => by
    revert n
    show ∀ n : SlotId, (Vector.replicate 4 (none : Option SlotWork))[n.val] = none
    decide
  have idle : ∀ x : Window, x.requests = 0 → ¬BusyFault (one 2 x) 2 := by
    rintro x hx (h | ⟨n, k, hk, -⟩)
    · exact h hx
    · rw [free x n] at hk; cases hk
  refine ⟨?_, ?_, ?_, ?_, ?_, mapSound_of_cells rfl (by decide), ?_⟩
  · show WindowState.live ≠ .off; decide
  · exact ⟨rfl, .inl (by decide)⟩
  · refine ⟨rfl, idle _ rfl, ?_⟩
    rw [← outOfRange_iff]; decide
  · refine ⟨rfl, ?_, ?_, ?_⟩
    · rw [← loadBusy_iff]; decide
    · rw [← not_not (a := Geometry.Loadable _), ← outOfRange_iff]; decide
    · rw [← loadOverlap_iff]; decide
  · refine ⟨rfl, idle _ rfl, ?_, ?_, ?_⟩
    · rw [← not_not (a := Geometry.Loadable _), ← outOfRange_iff]; decide
    · rw [← loadOverlap_iff]; decide
    · left
      show 8191 < (8176 : Half).toNat + (32 : Half).toNat - 1
      decide
  · refine ⟨rfl, idle _ rfl, ?_, ?_, ?_⟩
    · rw [← not_not (a := Geometry.Loadable _), ← outOfRange_iff]; decide
    · rw [← loadOverlap_iff]; decide
    · rw [← loadMapFault_iff]
      · decide
      · rw [← not_not (a := Geometry.Loadable _), ← outOfRange_iff]; decide

theorem witness_LoadFindsThePortFree :
    (∀ x, (one 2 x).PortFree) ∧ ((one 2 (x0 .off)).modWin 3 fun _ => x0 .live).PortFree :=
  ⟨fun x => free_one _ x, free_of rfl rfl⟩

theorem witness_ArmEntersLive :
    (∀ x, (one 2 x).PortFree) ∧ State.reset.PortFree ∧ (State.reset.win 2).state ≠ .loading
      ∧ ((one 2 (x0 .loading)).win 2).state = .loading
      ∧ (one 2 (x0 .loading)).firstLevelSource 2 = none
      ∧ (one 2 { x0 .loading with manualHold := true }).firstLevelSource 2 = some .manual :=
  ⟨fun x => free_one _ x, free_reset, by decide, rfl, by decide, by decide⟩

theorem witness_PublishAndUnpublishSetTheFlags :
    (State.reset.PortFree
        ∧ ∃ w : WindowId, (0x80 : Byte).getLsbD w.val = true ∧ ¬(State.reset.win w).Running)
      ∧ (promptly.PortFree ∧ promptly.MapSound
        ∧ (∀ w : WindowId, (0x04 : Byte).getLsbD w.val = true → (promptly.win w).Running)
        ∧ (0x04 : Byte).getLsbD (2 : WindowId).val = true ∧ (promptly.win 2).state = .live
        ∧ (promptly.win 2).policy.commitMode = .prompt ∧ (promptly.win 2).holdStatus = .clear
        ∧ (promptly.win 2).Drained)
      ∧ (let s := one 2 xCommit;
        s.PortFree ∧ (∀ w : WindowId, (0x04 : Byte).getLsbD w.val = true → (s.win w).Running)
          ∧ (s.win 2).state = .settling
          ∧ ∀ w : WindowId, (0x04 : Byte).getLsbD w.val = true → (s.win w).state = .live →
            (s.win w).policy.commitMode = .boundary ∨ (s.win w).holdStatus ≠ .clear) := by
  unfold Window.Running
  exact ⟨⟨free_reset, by decide⟩,
    ⟨free_of rfl rfl, mapSound_of_cells (by decide) (by decide), by decide, by decide, rfl, rfl, rfl,
      rfl, rfl, rfl⟩, free_one _ _, by decide, rfl, by decide⟩

theorem witness_DiscardSettlesTheWindow :
    (State.reset.PortFree ∧ (State.reset.win 2).state ≠ .live)
      ∧ ((one 2 { x0 .live with fills := 1 }).PortFree
        ∧ ((one 2 { x0 .live with fills := 1 }).win 2).state = .live
        ∧ ¬((one 2 { x0 .live with fills := 1 }).win 2).Drained)
      ∧ ((last pending (one 2 (x0 .live))).PortFree
        ∧ ((last pending (one 2 (x0 .live))).win 2).state = .live
        ∧ ((last pending (one 2 (x0 .live))).win 2).Drained
        ∧ (last pending (one 2 (x0 .live))).MapSound
        ∧ ¬((last pending (one 2 (x0 .live))).win 2).Prompted) := by
  refine ⟨⟨free_reset, by decide⟩, ⟨free_one _ _, rfl, ?_⟩, free_of rfl rfl, rfl, ⟨rfl, rfl, rfl⟩,
    mapSound_of_cells (by decide) (by decide), ?_⟩
  · unfold Window.Drained; decide
  · unfold Window.Prompted; decide

theorem witness_RetireBeginsFlattening :
    (State.reset.PortFree ∧ (State.reset.win 2).state ≠ .live)
      ∧ ((last inB (one 2 (x0 .live))).PortFree ∧ ((last inB (one 2 (x0 .live))).win 2).state = .live
        ∧ (last inB (one 2 (x0 .live))).MapSound ∧ NoKeptRequest (last inB (one 2 (x0 .live)))
        ∧ ((last inB (one 2 (x0 .live))).win 2).requests = 0
        ∧ ((last inB (one 2 (x0 .live))).win 2).fills = 0
        ∧ (last inB (one 2 (x0 .live))).hport.channel = [])
      ∧ ((one 2 { x0 .live with requests := 1 }).win 2).requests ≠ 0 :=
  ⟨⟨free_reset, by decide⟩, ⟨free_of rfl rfl, rfl, mapSound_of_cells (by decide) (by decide),
    kept_none _ (by decide), rfl, rfl,
    rfl⟩, by decide⟩

theorem witness_DropSwitchesTheWindowOff :
    (State.reset.PortFree ∧ (State.reset.win 2).state = .off)
      ∧ (busy.PortFree ∧ (busy.win 2).state ≠ .off ∧ busy.MapSound
        ∧ ∀ v, v ≠ 2 → (busy.win v).copyRequest = false) :=
  ⟨⟨free_reset, rfl⟩, free_of rfl rfl, by decide, mapSound_of_cells (by decide) (by decide),
    by decide⟩

theorem witness_RestartResetsThePart :
    busy.PortFree ∧ busy.MapSound
      ∧ (∀ w, (busy.win w).state = .off → (busy.win w).copyRequest = false)
      ∧ (busy.win 2).state ≠ .off ∧ (busy.win 2).geometry.Claims 8191
      ∧ ∀ w, (busy.win w).state ≠ .off → ¬(busy.win w).geometry.Claims 8175 := by
  refine ⟨free_of rfl rfl, mapSound_of_cells (by decide) (by decide), by decide, by decide, ?_, ?_⟩ <;>
    (unfold Geometry.Claims; decide)

theorem witness_SetHoldAndClearHoldActOnTheHold :
    (∀ x, (one 2 x).PortFree) ∧ ((one 2 (x0 .loading)).win 2).state = .loading
      ∧ (((one 2 xDiscard).win 2).Running ∧ ((one 2 xDiscard).win 2).manualHold = false)
      ∧ { x0 .live with manualHold := true }.manualHold = true
      ∧ (((one 2 { x0 .live with holdStatus := .active }).win 2).policy.holdPolicy = .latched
        ∧ ((one 2 { x0 .live with holdStatus := .active }).win 2).holdStatus = .active
        ∧ ((one 2 { x0 .live with holdStatus := .active }).win 2).holdAck = false) :=
  ⟨fun x => free_one _ x, rfl, ⟨.inr rfl, rfl⟩, rfl, rfl, rfl, rfl⟩

theorem witness_HoldCommandsAreChecked :
    ((∀ x, (one 2 x).PortFree) ∧ ((one 2 (x0 .live)).win 2).Running
        ∧ ((one 2 (x0 .live)).win 2).geometry.fallback ≠ none)
      ∧ ((1 : Byte).toNat ≤ 1
        ∧ ((one 2 { x0 .live with geometry := { g0 with fallback := none } }).win
          2).geometry.fallback = none)
      ∧ (State.reset.PortFree ∧ ¬(State.reset.win 2).Running ∧ (State.reset.win 2).state = .off)
      ∧ 1 < (2 : Byte).toNat
      ∧ { Policy.reset with holdPolicy := .perBoundary }.holdPolicy = .perBoundary := by
  refine ⟨⟨fun x => free_one _ x, .inl rfl, by decide⟩, by decide, ⟨free_reset, ?_, rfl⟩, by decide,
    rfl⟩
  unfold Window.Running; decide

/-- The port inside a frame of READ NOTICE, its command byte complete. -/
def inNotice : State := after (.readNotice { args := [], till := .csLow }) State.reset

theorem witness_BadFramesChangeThePortAlone :
    State.reset.PortFree ∧ ({ args := [0] } : Frame).till = .csRises
      ∧ (isReadCommand .load = false ∧ 8 * 1 + 1 % 8 ≠ 8 * argumentBytes .load)
      ∧ (isReadCommand .readLine = true ∧ 8 * 2 + 7 % 8 < 8 * argumentBytes .readLine)
      ∧ commandOfByte 0x33 = none
      ∧ 7 < (8 : Byte).toNat
      ∧ (8 * 1 + 0 % 8 = 8 * argumentBytes .load ∧ 7 < (([8] : List Byte).getD 0 0).toNat)
      ∧ (inNotice.inReset = false ∧ inNotice.mgmt.frameState = .inFrame (7 + 1)
        ∧ inNotice.mgmt.command ≠ some .readStatus
        ∧ ({ args := [], till := .csLow } : Frame).till ≠ .csRises)
      ∧ (({ args := [], extra := 7, till := .csRisesEarly } : Frame).till = .csRisesEarly
        ∧ (∀ n, State.reset.mgmt.frameState ≠ .inFrame (n + 1))
        ∧ (after (.load { args := [], till := .csFell }) State.reset).mgmt.frameState = .inFrame 0) :=
  ⟨free_reset, by decide, by decide, by decide, by decide, by decide, by decide, by decide,
    by decide, nofun, rfl⟩

end Sys2Proof.Tests.Slice0
end

/-! O9 (R12): the ranges and segments of the active windows stay disjoint.

Every command but LOAD leaves no window newly active, and no active window with another geometry
(`exec_retains`), so the disjointness of the active windows is inherited. LOAD adds one window to
the active ones, and its third and fourth checks say that this window is disjoint in itself and from
the others (`takeLoad_rangesSound`). -/

namespace Sys2Proof.Machine

/-! ### Records: what is retained -/

/-- The record `y` is active only where `x` was, and then with the geometry of `x`. -/
def Window.Retained (x y : Window) : Prop :=
  y.state ≠ .off → x.state ≠ .off ∧ y.geometry = x.geometry

namespace Window.Retained

variable {x y z : Window} {c : Prop} [Decidable c]

theorem refl (x : Window) : x.Retained x := fun h => ⟨h, rfl⟩

theorem trans (h : x.Retained y) (k : y.Retained z) : x.Retained z := fun hz =>
  have ⟨hy, hgz⟩ := k hz
  have ⟨hx, hgy⟩ := h hy
  ⟨hx, hgz.trans hgy⟩

theorem of_eq (hs : y.state = x.state) (hg : y.geometry = x.geometry) : x.Retained y :=
  fun hy => ⟨hs ▸ hy, hg⟩

theorem of_active (hx : x.state ≠ .off) (hg : y.geometry = x.geometry) : x.Retained y :=
  fun _ => ⟨hx, hg⟩

theorem of_off (hy : y.state = .off) : x.Retained y := fun h => absurd hy h

theorem ite (hy : c → x.Retained y) (hz : ¬c → x.Retained z) : x.Retained (if c then y else z) :=
  iteInduction (motive := x.Retained) hy hz

theorem ite_change {a b : WindowChange} (ha : c → x.Retained a.record)
    (hb : ¬c → x.Retained b.record) : x.Retained (if c then a else b).record :=
  iteInduction (motive := fun d : WindowChange => x.Retained d.record) ha hb

end Window.Retained

theorem Window.Running.active {x : Window} (h : x.Running) : x.state ≠ .off := by
  rcases h with h | h <;> simp [h]

theorem active_of_live {x : Window} (h : x.state = .live) : x.state ≠ .off :=
  Window.Running.active (.inl h)

theorem active_of_settling {x : Window} (h : x.state = .settling) : x.state ≠ .off :=
  Window.Running.active (.inr h)

theorem active_of_isLiveOrSettling {x : Window} (h : x.state.isLiveOrSettling = true) :
    x.state ≠ .off := ((isLiveOrSettling_iff x).mp h).active

theorem active_of_settlingCommit {x : Window} (h : x.settlingCommit = true) : x.state ≠ .off :=
  active_of_settling ((settlingCommit_iff x).mp h).1

theorem active_of_settlingDiscard {x : Window} (h : x.settlingDiscard = true) : x.state ≠ .off :=
  active_of_settling ((settlingDiscard_iff x).mp h).1

/-- The cancelled settle of R91 was one of an active window. -/
theorem retained_activated (x : Window) : x.Retained x.activated :=
  .ite (fun h => .of_active (active_of_settlingCommit h) rfl) fun _ => .of_eq rfl rfl

theorem retained_struck (x : Window) : x.Retained x.struck := by
  have acknowledged : x.Retained { x with holdAck := false } := .of_eq rfl rfl
  unfold Window.struck
  split
  · exact .ite (fun _ => acknowledged) fun _ => acknowledged.trans (retained_activated _)
  · exact .ite (fun _ => retained_activated x) fun _ => .refl x

theorem retained_letGo (x : Window) (left : Bool) : x.Retained (x.letGo left) :=
  .ite (fun _ => .of_eq rfl rfl) fun _ => .refl x

theorem retained_assertChange (w : WindowId) (x : Window) (c : HoldSource) :
    x.Retained (assertChange w x c).record :=
  .ite_change (fun _ => retained_struck x) fun _ => .refl x

theorem retained_releaseChange (x : Window) (left : Bool) :
    x.Retained (releaseChange x left).record :=
  .ite (fun _ => retained_letGo x left) fun _ => .refl x

/-- A settle begins and ends at an active window with its geometry unchanged (R82, R86). -/
theorem retained_afterCommit {x : Window} (h : x.state ≠ .off) : x.Retained x.afterCommit :=
  .ite (fun _ => .of_active h rfl) fun _ => .of_active h rfl

/-- The prompt rule acts at a LIVE window alone (R81). -/
theorem retained_promptChange (w : WindowId) (x : Window) :
    x.Retained (if x.promptReady then commitChange w x else quiet x).record :=
  .ite_change (fun h => retained_afterCommit (active_of_live ((promptReady_iff x).mp h).1))
    fun _ => .refl x

theorem retained_pubreqChange (w : WindowId) (x : Window) :
    x.Retained (pubreqChange w x).record :=
  have armed : x.Retained { x with armed := true } := .of_eq rfl rfl
  .ite_change (fun _ => armed.trans (retained_promptChange w _)) fun _ => .refl x

theorem retained_boundaryChange (w : WindowId) {x : Window} (asserted : Bool)
    (h : x.state ≠ .off) : x.Retained (boundaryChange w x asserted).record :=
  have counted : x.Retained (x.afterBoundary asserted) := .of_eq rfl rfl
  .ite (fun _ => counted.trans (retained_afterCommit h)) fun _ => counted

theorem retained_holdEdgeChange (lv : LineLevels) (cf : Settings) (h : HoldLine) (w : WindowId)
    (x : Window) :
    x.Retained (if x.policy.sources.counts h then
        if lineActive lv cf h then assertChange w x (holdLineSource h)
        else releaseChange x (assertedAt lv cf x)
      else quiet x).record :=
  .ite_change
    (fun _ => .ite_change (fun _ => retained_assertChange w x _)
      fun _ => retained_releaseChange x _)
    fun _ => .refl x

theorem retained_edgeChange (lv : LineLevels) (cf : Settings) (l : InputLine) (w : WindowId)
    (x : Window) : x.Retained (edgeChange lv cf l w x).record := by
  cases l with
  | sync =>
    exact .ite_change (fun _ => .ite_change
      (fun h => retained_boundaryChange w _ (active_of_isLiveOrSettling h)) fun _ => .refl x)
      fun _ => .refl x
  | pubreq => exact .ite_change (fun _ => retained_pubreqChange w x) fun _ => .refl x
  | hold0 => exact retained_holdEdgeChange lv cf .hold0 w x
  | hold1 => exact retained_holdEdgeChange lv cf .hold1 w x

theorem retained_countForward (x : Window) (cls : TrackerClass) :
    ∀ p, x.Retained (x.countForward cls p)
  | none | some true | some false => .of_eq rfl rfl

theorem retained_countResponse (x : Window) (e : InFlight) : x.Retained (x.countResponse e) := by
  unfold Window.countResponse
  match e.parity with
  | none | some true | some false => exact .of_eq rfl rfl

/-! ### States: what is retained -/

/-- No window is active in `t` that was not in `s`, and the active ones have the geometry that they
had. -/
def Retains (s t : State) : Prop := ∀ w, (s.win w).Retained (t.win w)

/-- The property depends on the window table alone. -/
def OnWindowsAlone (P : State → Prop) : Prop :=
  ∀ t u : State, u.windows = t.windows → P t → P u

theorem Retains.refl (s : State) : Retains s s := fun w => .refl (s.win w)

theorem retains_onWindowsAlone (s : State) : OnWindowsAlone (Retains s) := fun _ _ e h w => by
  rw [win_eq_of_windows e w]; exact h w

/-! ### The slots' operations that leave the windows alone -/

theorem startPhase_windows (t : State) (n : SlotId) (k : SlotWork) :
    (t.startPhase n k).windows = t.windows := only_startPhase t n k .windows (by simp)

theorem issueSlot_windows (t : State) (n : SlotId) : (t.issueSlot n).windows = t.windows := by
  unfold State.issueSlot
  split
  · rfl
  · split <;> rfl

theorem leaveWaiting_windows (t : State) (n : SlotId) : (t.leaveWaiting n).windows = t.windows := by
  unfold State.leaveWaiting
  split
  · rfl
  · split
    · exact startPhase_windows t n _
    · rfl

theorem answerHeld_windows (t : State) (h : Option HeldWrite) (st : Status) :
    (t.answerHeld h st).windows = t.windows := by cases h <;> rfl

theorem leaveWaitingOf_windows (t : State) (w : WindowId) (ns : List SlotId) :
    (t.leaveWaitingOf w ns).windows = t.windows := by
  refine forSlots_keeps (P := fun u => u.windows = t.windows) ns (fun n _ u hu => ?_) t rfl
  split
  · exact (leaveWaiting_windows u n).trans hu
  · exact hu

theorem orphanSlots_windows (t : State) (ws : List WindowId) :
    (t.orphanSlots ws).windows = t.windows :=
  (orphanSlots_spec ws allSlots (by decide) t).1 .windows (by simp)

namespace Retains

variable {s t u : State} {w : WindowId} {n : SlotId} {k : SlotWork}

theorem of_windows (h : Retains s t) (e : u.windows = t.windows) : Retains s u :=
  retains_onWindowsAlone s t u e h

theorem ite {c : Prop} [Decidable c] (ht : c → Retains s t) (hu : ¬c → Retains s u) :
    Retains s (if c then t else u) := iteInduction (motive := Retains s) ht hu

/-! ### Updates of the state -/

theorem of_windowBecomes {x : Window} (h : Retains s t) (hb : WindowBecomes t u w x)
    (hx : (t.win w).Retained x) : Retains s u := fun v => by
  by_cases hv : v = w
  · subst hv; rw [hb.1]; exact (h v).trans hx
  · rw [hb.2 v hv]; exact h v

theorem modWin {f : Window → Window} (h : Retains s t)
    (hf : (t.win w).Retained (f (t.win w))) : Retains s (t.modWin w f) :=
  h.of_windowBecomes (.modWin t w f) hf

theorem patched {x : Window} {l : List Notice} (h : Retains s t) (hx : (t.win w).Retained x) :
    Retains s (t.patched w x l) := h.of_windowBecomes (windowBecomes_patched t w x l) hx

theorem changed {c : WindowChange} (h : Retains s t) (hc : (t.win w).Retained c.record) :
    Retains s (t.changed w c) :=
  h.of_windowBecomes ⟨changed_win_self t w c, fun _ hv => changed_win_of_ne t hv c⟩ hc

theorem settled {x : Window} {f : LineEntry → LineEntry} {g : LineInterface → LineInterface}
    {l : List Notice} (h : Retains s t) (hx : (t.win w).Retained x) :
    Retains s (t.settled w f g x l) := h.of_windowBecomes (windowBecomes_settled t w f g x l) hx

theorem setRoles {m : Vector (Vector Role 8) 16} (h : Retains s t) : Retains s (t.setRoles m) :=
  h.of_windows rfl

theorem modLine {i : Nat} {f : LineEntry → LineEntry} (h : Retains s t) :
    Retains s (t.modLine w i f) := h.of_windows rfl

theorem mapSegment {f : LineEntry → LineEntry} (h : Retains s t) :
    Retains s (t.mapSegment w f) := h.of_windows rfl

theorem setSlot {x : Option SlotWork} (h : Retains s t) : Retains s (t.setSlot n x) :=
  h.of_windows rfl

theorem setEntry {i : EntryId} {e : Option InFlight} (h : Retains s t) :
    Retains s (t.setEntry i e) := h.of_windows rfl

theorem modHPort {f : HPort → HPort} (h : Retains s t) : Retains s (t.modHPort f) :=
  h.of_windows rfl

theorem respond {r : HResponse} (h : Retains s t) : Retains s (t.respond r) := h.of_windows rfl

theorem setIssueQueue {q : List MOp} (h : Retains s t) : Retains s (t.setIssueQueue q) :=
  h.of_windows rfl

theorem issue {op : MOp} (h : Retains s t) : Retains s (t.issue op) := h.of_windows rfl

theorem modNotices {f : NoticeQueue → NoticeQueue} (h : Retains s t) :
    Retains s (t.modNotices f) := h.of_windows rfl

theorem raise {x : Notice} (h : Retains s t) : Retains s (t.raise x) := h.of_windows rfl

theorem modMgmt {f : MgmtPort → MgmtPort} (h : Retains s t) : Retains s (t.modMgmt f) :=
  h.of_windows rfl

theorem setSettings {c : Settings} (h : Retains s t) : Retains s (t.setSettings c) :=
  h.of_windows rfl

theorem modLines {f : LineInterface → LineInterface} (h : Retains s t) :
    Retains s (t.modLines f) := h.of_windows rfl

/-! ### The hold logic -/

theorem becomeActive {c : HoldSource} (h : Retains s t) : Retains s (t.becomeActive w c) := by
  obtain ⟨x, hx, e⟩ := becomeActive_eq t w c
  rw [e, becomesActive_iff.mp hx]
  exact h.patched (retained_activated _)

theorem levelAsserts {c : HoldSource} (h : Retains s t) : Retains s (t.levelAsserts w c) := by
  rw [levelAsserts_changed]
  exact h.changed (retained_assertChange w _ _)

theorem levelReleases (h : Retains s t) : Retains s (t.levelReleases w) := by
  rw [levelReleases_changed]
  exact h.changed (retained_releaseChange _ _)

/-- An event strikes as a level source does, in one policy after the event is noted (R99, R103). -/
theorem eventOccurs {c : HoldSource} (h : Retains s t) (hr : (t.win w).Running) :
    Retains s (t.eventOccurs w c) := by
  obtain ⟨x, l, ⟨hl, hp⟩, e⟩ := eventOccurs_eq t w c hr
  have noted : (t.win w).Retained { t.win w with eventSince := true } := .of_eq rfl rfl
  rw [e]
  refine h.patched ?_
  cases hpol : (t.win w).policy.holdPolicy with
  | latched => rw [(levelStrikes_iff.mp (hl hpol)).1]; exact retained_struck _
  | perBoundary =>
    rw [(levelStrikes_iff.mp (hp hpol)).1]; exact noted.trans (retained_struck _)

theorem violationEvent (h : Retains s t) : Retains s (t.violationEvent w) :=
  .ite (fun hc => h.eventOccurs ((isLiveOrSettling_iff _).mp hc.1)) fun _ => h

theorem fillFailureEvent (h : Retains s t) : Retains s (t.fillFailureEvent w) :=
  .ite (fun hc => h.eventOccurs ((isLiveOrSettling_iff _).mp hc.1)) fun _ => h

theorem evaluateHold (h : Retains s t) : Retains s (t.evaluateHold w) := by
  cases e : t.firstLevelSource w with
  | none => rw [evaluateHold_of_none e]; exact h
  | some c => rw [evaluateHold_of_some e]; exact h.becomeActive

theorem polarityAt {old : Settings} (h : Retains s t) : Retains s (t.polarityAt old w) :=
  .ite (fun _ => h.levelAsserts) fun _ => .ite (fun _ => h.levelAsserts) fun _ =>
    .ite (fun _ => h.levelReleases) fun _ => h

theorem setManualHold {on : Bool} (h : Retains s t) : Retains s (t.setManualHold w on) :=
  .ite (fun _ => h) fun _ =>
    .ite (fun _ => levelAsserts (h.modWin (.of_eq rfl rfl)))
      fun _ => levelReleases (h.modWin (.of_eq rfl rfl))

theorem acknowledgeHold (h : Retains s t) : Retains s (t.acknowledgeHold w) :=
  .ite (fun _ => h.modWin (.of_eq rfl rfl)) fun _ => h

/-! ### Settles -/

theorem promptTest (h : Retains s t) : Retains s (t.promptTest w) := by
  rw [promptTest_eq]
  exact h.changed (retained_promptChange w _)

theorem flipAt (h : Retains s t) (hw : (t.win w).state ≠ .off) : Retains s (t.flipAt w) := by
  rw [State.flipAt, takeFlip_eq]
  exact promptTest (h.settled (.of_active hw rfl))

theorem clearAt (h : Retains s t) (hw : (t.win w).state ≠ .off) : Retains s (t.clearAt w) := by
  rw [State.clearAt, takeClear_eq]
  exact promptTest (h.settled (.of_active hw rfl))

theorem settleTest (h : Retains s t) : Retains s (t.settleTest w) :=
  .ite
    (fun _ => .ite (fun hc => h.flipAt (active_of_settlingCommit hc)) fun _ =>
      .ite (fun hd => h.clearAt (active_of_settlingDiscard hd)) fun _ => h)
    fun _ => h

theorem enterDiscard (h : Retains s t) (hw : (t.win w).state ≠ .off) :
    Retains s (t.enterDiscard w) := settleTest (h.modWin (.of_active hw rfl))

theorem expireSettle (h : Retains s t) : Retains s (t.expireSettle w) :=
  .ite (fun hc => raise (h.modWin (.of_active (active_of_settlingCommit hc) rfl))) fun _ =>
    .ite (fun hd => promptTest (raise (h.modWin (.of_active (active_of_settlingDiscard hd) rfl))))
      fun _ => h.modWin (.of_eq rfl rfl)

theorem tickAt (h : Retains s t) : Retains s (t.tickAt w) := by
  unfold State.tickAt
  split
  · exact h
  · exact .ite (fun _ => h.expireSettle) fun _ => h.modWin (.of_eq rfl rfl)

theorem edgeAt {l : InputLine} (h : Retains s t) : Retains s (t.edgeAt l w) := by
  rw [edgeAt_eq]
  exact h.changed (retained_edgeChange _ _ l w _)

/-! ### The fill engine -/

theorem startPhase (h : Retains s t) : Retains s (t.startPhase n k) :=
  h.of_windows (startPhase_windows t n k)

theorem issueSlot (h : Retains s t) : Retains s (t.issueSlot n) :=
  h.of_windows (issueSlot_windows t n)

theorem leaveWaiting (h : Retains s t) : Retains s (t.leaveWaiting n) :=
  h.of_windows (leaveWaiting_windows t n)

theorem answerHeld {x : Option HeldWrite} {st : Status} (h : Retains s t) :
    Retains s (t.answerHeld x st) := h.of_windows (answerHeld_windows t x st)

theorem allocate (h : Retains s t) : Retains s (t.allocate n k) := h.setSlot.modWin (.of_eq rfl rfl)

theorem release (h : Retains s t) : Retains s (t.release n w) := h.setSlot.modWin (.of_eq rfl rfl)

theorem takeFirstWrite {i : Nat} {x : HeldWrite} (h : Retains s t) :
    Retains s (t.takeFirstWrite n w i x) :=
  .ite (fun _ => h.modLine.allocate.leaveWaiting) fun _ => h.modLine.allocate.issueSlot

theorem completeLine {i : Nat} (h : Retains s t) : Retains s (t.completeLine w i) :=
  .ite (fun _ => h.modLine.modWin (.of_eq rfl rfl)) fun _ => h.modLine

theorem fillComplete (h : Retains s t) : Retains s (t.fillComplete n k) :=
  h.completeLine.answerHeld.release

theorem fillFail {st : Status} (h : Retains s t) : Retains s (t.fillFail n k st) := by
  unfold State.fillFail
  refine fillFailureEvent ?_
  split
  · exact h.modLine.answerHeld.release
  · exact h.modLine.answerHeld.release.raise

/-! ### The flatten logic -/

/-- A retirement ends in OFF (R118). -/
theorem flattenDone (h : Retains s t) : Retains s (t.flattenDone w) :=
  raise (h.mapSegment.modWin (.of_off rfl))

theorem walkFrom {i : Nat} (h : Retains s t) : Retains s (t.walkFrom w i) :=
  .ite (fun _ => h.flattenDone) fun _ => h.modWin (.of_eq rfl rfl)

theorem flattenTest (h : Retains s t) : Retains s (t.flattenTest w) :=
  .ite (fun _ => h.walkFrom) fun _ => h

theorem drainTests (h : Retains s t) : Retains s (t.drainTests w) := h.settleTest.flattenTest

theorem beginRetire (h : Retains s t) (hw : (t.win w).state ≠ .off) :
    Retains s (t.beginRetire w) := h.mapSegment.modWin (.of_active hw rfl)

theorem serveCopy (h : Retains s t) : Retains s (t.serveCopy w) := by
  refine .ite (fun _ => ?_) fun _ => h
  split
  · exact h
  · exact issueSlot (allocate (h.modWin (.of_eq rfl rfl)))

theorem copyDone (h : Retains s t) : Retains s (t.copyDone n k) :=
  .ite (fun _ => h.release.modLine.walkFrom) fun _ => h.release.modLine

theorem copyFailed (h : Retains s t) : Retains s (t.copyFailed n k) :=
  .ite
    (fun hf =>
      have hw : ((t.release n k.window).win k.window).state ≠ .off := by simp [State.release, hf]
      evaluateHold (raise (h.release.modWin (.of_active hw rfl))))
    fun _ => h.release

/-! ### The steering unit and the end of an event -/

theorem forward {r : HRequest} {i : EntryId} {cls : TrackerClass} {v : Option WindowId} {a : Addr}
    {p : Option Bool} (h : Retains s t) : Retains s (t.forward r i cls v a p) := by
  cases v with
  | none => exact h.setEntry.issue
  | some v => exact h.setEntry.issue.modWin (retained_countForward _ cls p)

theorem carryOut {r : HRequest} {d : Bool} {v : Verdict} (h : Retains s t) :
    Retains s (t.carryOut r d v) := by
  cases v with
  | malformed c => exact h.respond.raise
  | violation w c => exact h.respond.raise.violationEvent
  | retry => exact h.respond
  | forward cls w a p =>
    unfold State.carryOut
    dsimp only
    split
    · exact h
    · exact h.forward
  | firstWrite n w i => exact h.takeFirstWrite

theorem acceptHead (h : Retains s t) (e : t.acceptHead = some u) : Retains s u := by
  obtain ⟨r, rest, -, -, rfl⟩ := acceptHead_eq_some e
  exact h.modHPort.modHPort.carryOut

theorem pump (h : Retains s t) : Retains s t.pump :=
  pump_keeps (fun _ _ hu e => hu.acceptHead e) h

theorem turn {a : Agent} (h : Retains s t) : Retains s (t.turn a) := by
  cases a with
  | window w => exact h.serveCopy
  | steering =>
    show Retains s (t.acceptHead.getD t)
    cases e : t.acceptHead with
    | none => exact h
    | some u => exact h.acceptHead e
  | slot n => exact h
  | pulse => exact h
  | edge l w => exact h

theorem arbitrate {o : Order} (h : Retains s t) : Retains s (t.arbitrate o) :=
  (forWindows_keeps allWindows (fun _ _ _ hu => hu.serveCopy) _
    (List.foldlRecOn o State.turn h fun _ hu _ _ => hu.turn)).pump

/-! ### Link events, ticks and edges -/

theorem endEntry {i : EntryId} {e : InFlight} {st : Status} {data : List Word}
    (h : Retains s t) : Retains s (t.endEntry i e st data) := by
  unfold State.endEntry
  refine setEntry (respond ?_)
  cases e.window with
  | none => exact h
  | some w => exact h.modWin (retained_countResponse _ e)

theorem testCounts {v : Option WindowId} {o : Order} (h : Retains s t) :
    Retains s (t.testCounts v o) := by
  cases v with
  | none => exact h
  | some v => exact (h.of_windows (leaveWaitingOf_windows t v (slotsIn o))).drainTests

theorem tickAgent {a : Agent} (h : Retains s t) : Retains s (t.tickAgent a) := by
  cases a with
  | window w => exact h.tickAt.pump
  | pulse => exact h.modLines
  | slot n => exact h
  | steering => exact h
  | edge l w => exact h

theorem takeTick {o : Order} (h : Retains s t) : Retains s (t.takeTick o) :=
  List.foldlRecOn _ State.tickAgent h.modLines fun _ hu _ _ => hu.tickAgent

theorem takeEdges (old new : LineLevels) : ∀ (es done : List (InputLine × WindowId)) {t : State},
    Retains s t → Retains s (State.takeEdges old new done es t)
  | [], _, _, h => h
  | (l, w) :: es, done, _, h => takeEdges old new es ((l, w) :: done) h.modLines.edgeAt.pump

theorem takeSample {xs : List LineSample} {o : Order} (h : Retains s t) :
    Retains s (t.takeSample xs o) := modLines (takeEdges _ _ _ [] h)

/-! ### What management commands do -/

theorem storePolicy {p : Policy} (h : Retains s t) : Retains s (t.storePolicy w p) :=
  have stored : Retains s (t.modWin w fun x => { x with policy := p, dividerCount := 0 }) :=
    h.modWin (.of_eq rfl rfl)
  .ite (fun _ => promptTest (.ite (fun _ => stored.evaluateHold) fun _ => stored)) fun _ => stored

theorem storeSettings {c : Settings} (h : Retains s t) : Retains s (t.storeSettings c) :=
  .ite (fun _ => h.setSettings) fun _ => h.setSettings.modLines

theorem takeArm (h : Retains s t) (hw : (t.win w).state ≠ .off) : Retains s (t.takeArm w) :=
  evaluateHold (h.modWin (.of_active hw rfl))

theorem setArmed {mask : Byte} {on : Bool} (h : Retains s t) : Retains s (t.setArmed mask on) :=
  forWindows_keeps _ (fun _ _ _ hu => hu.modWin (.of_eq rfl rfl)) t h

/-- A dropped window is in OFF (R15). -/
theorem dropWindows {ws : List WindowId} (h : Retains s t) : Retains s (t.dropWindows ws) :=
  of_windows (forWindows_keeps ws (fun _ _ _ hu => hu.mapSegment.modWin (.of_off rfl)) t h)
    (orphanSlots_windows _ ws)

theorem takeRestart (h : Retains s t) : Retains s t.takeRestart :=
  h.dropWindows.setRoles.modNotices.storeSettings

end Retains

/-! ### Events and frames: what is kept -/

section Keeps

variable {P : State → Prop} {s : State}

/-- What an event keeps is kept also where RESET_N holds the event back. -/
theorem whenRunning_keeps {f : State → State} (hs : P s) (hf : P s → P (f s)) :
    P (s.whenRunning f) := by
  unfold State.whenRunning
  split
  · exact hs
  · exact hf hs

theorem onSlot_keeps {n : SlotId} {cond : SlotWork → Bool} {f : SlotWork → State → State}
    (hs : P s) (hf : ∀ k, P s → P (f k s)) : P (s.onSlot n cond f) := by
  refine whenRunning_keeps hs fun hs => ?_
  split
  · exact hs
  · split
    · exact hf _ hs
    · exact hs

/-- A frame keeps of the window table what the body at its end keeps. -/
theorem frame_keeps (hP : OnWindowsAlone P) {c : Option CommandName} {f : Frame}
    {atEnd : MgmtPort × NoticeQueue → State → ResultCode × State}
    (hend : ∀ p t, P t → P (atEnd p t).2) (hs : P s) : P (s.frame c f atEnd) := by
  unfold State.frame
  split
  · dsimp only
    split
    · exact hP (atEnd _ _).2 _ rfl (hend _ _ (hP s _ rfl hs))
    · exact hP s _ rfl hs
    · exact hP s _ rfl hs
  · exact hs

theorem writeFrame_keeps (hP : OnWindowsAlone P) {c : CommandName} {f : Frame}
    {body : Frame → State → ResultCode × State} (hb : ∀ g t, P t → P (body g t).2) (hs : P s) :
    P (s.whenRunning fun s => s.writeFrame c f body) := by
  refine whenRunning_keeps hs fun hs => frame_keeps hP (fun p t ht => ?_) hs
  split
  · exact hb _ t ht
  · exact ht

theorem windowFrame_keeps (hP : OnWindowsAlone P) {c : CommandName} {f : Frame}
    {body : Frame → WindowId → State → ResultCode × State}
    (hb : ∀ g w t, P t → P (body g w t).2) (hs : P s) :
    P (s.whenRunning fun s => s.writeFrame c f fun g => onWindow g (body g)) := by
  refine writeFrame_keeps hP (fun g t ht => ?_) hs
  unfold onWindow
  split
  · exact ht
  · exact hb g _ t ht

end Keeps

/-- A read frame changes no window record. -/
theorem retains_readFrame (s : State) (c : CommandName) (f : Frame) :
    Retains s (s.whenRunning fun s => s.readFrame c f) :=
  whenRunning_keeps (.refl s) (frame_keeps (retains_onWindowsAlone s) fun _ _ ht => ht)

/-! ### Management commands -/

namespace Retains

variable {s t : State} {w : WindowId} {f : Frame} {o : Order}

theorem ite_body {c : Prop} [Decidable c] {a b : ResultCode × State} (ha : c → Retains s a.2)
    (hb : ¬c → Retains s b.2) : Retains s (if c then a else b).2 :=
  iteInduction (motive := fun p : ResultCode × State => Retains s p.2) ha hb

/-- The geometry is written in OFF alone (R2). -/
theorem writeGeometryAt (h : Retains s t) : Retains s (writeGeometryAt f w t).2 :=
  .ite_body (fun hw => pump (h.modWin (.of_off hw))) fun _ => h

theorem writePolicyAt (h : Retains s t) : Retains s (writePolicyAt f w t).2 := by
  refine .ite_body (fun _ => h) fun _ => .ite_body (fun _ => h) fun _ => ?_
  split
  · exact h
  · exact h.storePolicy.pump

theorem writeRolesBody (h : Retains s t) : Retains s (writeRolesBody f t).2 := by
  unfold Machine.writeRolesBody
  split
  · exact h.setRoles.pump
  · exact h

theorem writeDeviceSettingsBody (h : Retains s t) :
    Retains s (writeDeviceSettingsBody f o t).2 := by
  unfold Machine.writeDeviceSettingsBody
  split
  · exact h
  · exact pump (forWindows_keeps _ (fun _ _ _ hu => hu.polarityAt) _ h.storeSettings)

theorem armAt (h : Retains s t) : Retains s (armAt w t).2 :=
  .ite_body (fun hw => (h.takeArm (by simp [hw])).pump) fun _ => h

theorem publishBody (h : Retains s t) : Retains s (publishBody f o t).2 :=
  .ite_body (fun _ => pump (forWindows_keeps _ (fun _ _ _ hu => hu.promptTest) _ h.setArmed))
    fun _ => h

theorem unpublishBody (h : Retains s t) : Retains s (unpublishBody f t).2 :=
  .ite_body (fun _ => h.setArmed.pump) fun _ => h

theorem discardAt (h : Retains s t) : Retains s (discardAt w t).2 :=
  .ite_body (fun hw => (h.enterDiscard (active_of_live hw)).pump) fun _ => h

theorem retireAt (h : Retains s t) : Retains s (retireAt o w t).2 :=
  .ite_body
    (fun hw => by dsimp only; exact (h.beginRetire (active_of_live hw)).flattenTest.arbitrate)
    fun _ => h

theorem dropAt (h : Retains s t) : Retains s (dropAt o w t).2 :=
  .ite_body (fun _ => by dsimp only; exact h.dropWindows.arbitrate) fun _ => h

theorem setHoldAt (h : Retains s t) : Retains s (setHoldAt f w t).2 := by
  unfold Machine.setHoldAt
  split
  · exact h
  · exact .ite_body (fun _ => h) fun _ => h.setManualHold.pump

theorem clearHoldAt (h : Retains s t) : Retains s (clearHoldAt w t).2 :=
  .ite_body (fun _ => h.acknowledgeHold.pump) fun _ => h

theorem forceFallbackAt (h : Retains s t) : Retains s (forceFallbackAt f w t).2 := by
  unfold Machine.forceFallbackAt
  split
  · exact h
  · exact .ite_body (fun _ => .ite_body (fun _ => pump (h.modWin (.of_eq rfl rfl))) fun _ => h)
      fun _ => h

/-- After RESET_N every window is in OFF (R18). -/
theorem assertReset (s : State) : Retains s s.assertReset := fun w =>
  .of_off (by simp [State.win, State.assertReset, State.reset, Window.reset])

theorem releaseReset {levels : LineLevels} {csLow : Bool} (h : Retains s t) :
    Retains s (t.releaseReset levels csLow) :=
  .ite
    (fun _ =>
      have released : Retains s { t with inReset := false } := h.of_windows rfl
      released.modLines.modMgmt.pump)
    fun _ => h

end Retains

/-! ### Commands -/

/-- Every command but LOAD leaves no window newly active, and no active one with another
geometry. -/
theorem exec_retains (c : Instr) (s : State) (hc : ∀ f, c ≠ .load f) :
    ∃ t, exec c s = .next t ∧ Retains s t := by
  have hs := Retains.refl s
  have hP := retains_onWindowsAlone s
  cases c with
  | requestAccepted req => exact ⟨_, rfl, hs.modHPort.pump⟩
  | responseAccepted =>
    exact ⟨_, rfl, whenRunning_keeps hs fun _ => .ite (fun _ => hs) fun _ => hs.modHPort.pump⟩
  | memorySideAccept => exact ⟨_, rfl, whenRunning_keeps hs fun _ => hs.setIssueQueue⟩
  | trackerResponse tag status data o =>
    refine ⟨_, rfl, whenRunning_keeps hs fun _ => ?_⟩
    split
    · exact hs
    · exact hs.endEntry.testCounts.arbitrate
  | strayResponseDiscarded tag status data => exact ⟨_, rfl, hs⟩
  | fillReadDone n data =>
    exact ⟨_, rfl, onSlot_keeps hs fun _ _ => hs.setSlot.leaveWaiting.pump⟩
  | fillWriteStart n =>
    exact ⟨_, rfl, whenRunning_keeps hs fun _ => hs.leaveWaiting.pump⟩
  | fillCompletes n o =>
    exact ⟨_, rfl, onSlot_keeps hs fun _ _ => hs.fillComplete.drainTests.arbitrate⟩
  | fillOperationRetry n =>
    exact ⟨_, rfl, onSlot_keeps hs fun _ _ => hs.startPhase.pump⟩
  | fillFails n status o =>
    exact ⟨_, rfl, onSlot_keeps hs fun _ _ => hs.fillFail.drainTests.arbitrate⟩
  | flattenCopyReadDone n data =>
    exact ⟨_, rfl, onSlot_keeps hs fun _ _ => hs.startPhase.pump⟩
  | flattenCopyDone n o => exact ⟨_, rfl, onSlot_keeps hs fun _ _ => hs.copyDone.arbitrate⟩
  | flattenCopyFailed n status o =>
    exact ⟨_, rfl, onSlot_keeps hs fun _ _ => hs.copyFailed.arbitrate⟩
  | retiringSlotFreed n status o =>
    exact ⟨_, rfl, onSlot_keeps hs fun _ _ => hs.setSlot.arbitrate⟩
  | flattenDrainComplete w o =>
    exact ⟨_, rfl, whenRunning_keeps hs fun _ => .ite (fun _ => hs.walkFrom.arbitrate) fun _ => hs⟩
  | flattenRequestServed w => exact ⟨_, rfl, whenRunning_keeps hs fun _ => hs.serveCopy.pump⟩
  | flip w =>
    exact ⟨_, rfl, whenRunning_keeps hs fun _ => .ite
      (fun h => (hs.flipAt (active_of_settlingCommit (Bool.and_eq_true_iff.mp h).1)).pump)
      fun _ => hs⟩
  | clear w =>
    exact ⟨_, rfl, whenRunning_keeps hs fun _ => .ite
      (fun h => (hs.clearAt (active_of_settlingDiscard (Bool.and_eq_true_iff.mp h).1)).pump)
      fun _ => hs⟩
  | drainTimerExpiry w =>
    exact ⟨_, rfl, whenRunning_keeps hs fun _ => .ite (fun _ => hs.expireSettle.pump) fun _ => hs⟩
  | tick o => exact ⟨_, rfl, whenRunning_keeps hs fun _ => hs.takeTick⟩
  | committedPulseEnd =>
    exact ⟨_, rfl, whenRunning_keeps hs fun _ => .ite (fun _ => hs.modLines) fun _ => hs⟩
  | boundary x => exact ⟨_, rfl, whenRunning_keeps hs fun _ => hs.takeSample⟩
  | pubreqEdge x => exact ⟨_, rfl, whenRunning_keeps hs fun _ => hs.takeSample⟩
  | holdLineEdge line level x => exact ⟨_, rfl, whenRunning_keeps hs fun _ => hs.takeSample⟩
  | resetAsserted => exact ⟨_, rfl, .assertReset s⟩
  | resetReleased levels csLow => exact ⟨_, rfl, hs.releaseReset⟩
  | readStatus f => exact ⟨_, rfl, retains_readFrame s _ f⟩
  | readWindow f => exact ⟨_, rfl, retains_readFrame s _ f⟩
  | readRoles f => exact ⟨_, rfl, retains_readFrame s _ f⟩
  | readLine f => exact ⟨_, rfl, retains_readFrame s _ f⟩
  | readNotice f => exact ⟨_, rfl, retains_readFrame s _ f⟩
  | writeGeometry f =>
    exact ⟨_, rfl, windowFrame_keeps hP (fun _ _ _ ht => ht.writeGeometryAt) hs⟩
  | writePolicy f => exact ⟨_, rfl, windowFrame_keeps hP (fun _ _ _ ht => ht.writePolicyAt) hs⟩
  | writeRoles f => exact ⟨_, rfl, writeFrame_keeps hP (fun _ _ ht => ht.writeRolesBody) hs⟩
  | writeDeviceSettings f o =>
    exact ⟨_, rfl, writeFrame_keeps hP (fun _ _ ht => ht.writeDeviceSettingsBody) hs⟩
  | load f => exact absurd rfl (hc f)
  | arm f => exact ⟨_, rfl, windowFrame_keeps hP (fun _ _ _ ht => ht.armAt) hs⟩
  | publish f o => exact ⟨_, rfl, writeFrame_keeps hP (fun _ _ ht => ht.publishBody) hs⟩
  | unpublish f => exact ⟨_, rfl, writeFrame_keeps hP (fun _ _ ht => ht.unpublishBody) hs⟩
  | discard f => exact ⟨_, rfl, windowFrame_keeps hP (fun _ _ _ ht => ht.discardAt) hs⟩
  | retire f o => exact ⟨_, rfl, windowFrame_keeps hP (fun _ _ _ ht => ht.retireAt) hs⟩
  | drop f o => exact ⟨_, rfl, windowFrame_keeps hP (fun _ _ _ ht => ht.dropAt) hs⟩
  | setHold f => exact ⟨_, rfl, windowFrame_keeps hP (fun _ _ _ ht => ht.setHoldAt) hs⟩
  | clearHold f => exact ⟨_, rfl, windowFrame_keeps hP (fun _ _ _ ht => ht.clearHoldAt) hs⟩
  | forceFallback f =>
    exact ⟨_, rfl, windowFrame_keeps hP (fun _ _ _ ht => ht.forceFallbackAt) hs⟩
  | restart f o =>
    refine ⟨_, rfl, writeFrame_keeps hP (fun _ _ ht => ?_) hs⟩
    dsimp only
    exact ht.takeRestart.arbitrate
  | badCommand b f =>
    exact ⟨_, rfl, whenRunning_keeps hs fun _ =>
      .ite (fun _ => frame_keeps hP (fun _ _ ht => ht) hs) fun _ => hs⟩

/-- A rising edge of REFCLK leaves no window newly active (R138). -/
theorem refclkEdge_retains (s : State) : Retains s s.refclkEdge :=
  whenRunning_keeps (.refl s) fun hs => .ite (fun _ => hs.takeTick) fun _ => hs.modLines

/-! ### Disjointness -/

/-- The ranges of one geometry never overlap, and its segment lies in the store (R10, R12). -/
def Geometry.Proper (g : Geometry) : Prop :=
  (g.ranges.Pairwise fun b c => ∀ a, ¬(g.Holds b a ∧ g.Holds c a)) ∧ ∀ i, g.Claims i → i < 8192

/-- No range of one geometry overlaps one of the other, nor do the segments (R12). -/
def Geometry.Apart (g h : Geometry) : Prop :=
  (∀ b ∈ g.ranges, ∀ c ∈ h.ranges, ∀ a, ¬(g.Holds b a ∧ h.Holds c a))
    ∧ ∀ i, ¬(g.Claims i ∧ h.Claims i)

theorem Geometry.Apart.symm {g h : Geometry} (k : g.Apart h) : h.Apart g :=
  ⟨fun b hb c hc a ha => k.1 c hc b hb a ha.symm, fun i hi => k.2 i hi.symm⟩

/-- R12, window by window and pair by pair. -/
theorem rangesSound_iff (s : State) : s.RangesSound ↔
    (∀ w, (s.win w).state ≠ .off → (s.win w).geometry.Proper)
      ∧ ∀ v w, v ≠ w → (s.win v).state ≠ .off → (s.win w).state ≠ .off →
        (s.win v).geometry.Apart (s.win w).geometry :=
  ⟨fun ⟨own, others, segments, store⟩ =>
    ⟨fun w hw => ⟨own w hw, store w hw⟩,
      fun v w hne hv hw => ⟨others v w hne hv hw, segments v w hne hv hw⟩⟩,
    fun ⟨proper, apart⟩ =>
      ⟨fun w hw => (proper w hw).1, fun v w hne hv hw => (apart v w hne hv hw).1,
        fun v w hne hv hw => (apart v w hne hv hw).2, fun w hw => (proper w hw).2⟩⟩

theorem Retains.rangesSound {s t : State} (h : Retains s t) (hs : s.RangesSound) :
    t.RangesSound := by
  obtain ⟨proper, apart⟩ := (rangesSound_iff s).mp hs
  refine (rangesSound_iff t).mpr ⟨fun w hw => ?_, fun v w hne hv hw => ?_⟩
  · obtain ⟨hw', hg⟩ := h w hw
    rw [hg]; exact proper w hw'
  · obtain ⟨hv', hgv⟩ := h v hv
    obtain ⟨hw', hgw⟩ := h w hw
    rw [hgv, hgw]; exact apart v w hne hv' hw'

theorem rangesSound_onWindowsAlone : OnWindowsAlone State.RangesSound := fun t _ e h =>
  ((Retains.refl t).of_windows e).rangesSound h

/-- One more window becomes active, whose geometry is disjoint in itself and from those of the
active windows. -/
theorem rangesSound_of_windowBecomes {s t : State} {w : WindowId} {x : Window} (hs : s.RangesSound)
    (hb : WindowBecomes s t w x) (hx : x.geometry.Proper)
    (ha : ∀ v, v ≠ w → (s.win v).state ≠ .off → x.geometry.Apart (s.win v).geometry) :
    t.RangesSound := by
  obtain ⟨proper, apart⟩ := (rangesSound_iff s).mp hs
  obtain ⟨rfl, ho⟩ := hb
  refine (rangesSound_iff t).mpr ⟨fun v hv => ?_, fun u v hne hu hv => ?_⟩
  · by_cases hvw : v = w
    · exact hvw ▸ hx
    · rw [ho v hvw] at hv ⊢
      exact proper v hv
  · by_cases huw : u = w
    · subst huw
      rw [ho v hne.symm] at hv ⊢
      exact ha v hne.symm hv
    · rw [ho u huw] at hu ⊢
      by_cases hvw : v = w
      · subst hvw
        exact (ha u huw hu).symm
      · rw [ho v hvw] at hv ⊢
        exact apart u v hne hu hv

/-! ### LOAD -/

/-- The third and the fourth check of LOAD pass only a geometry that is disjoint in itself and in
the store (R11). -/
theorem proper_of_no_fault {s : State} {w : WindowId} (ho : ¬OverlapFault s w)
    (hm : ¬MapFault s w) : (s.win w).geometry.Proper := by
  refine ⟨?_, fun i hi => ?_⟩
  · have hp := Classical.not_not.mp fun h => ho (.inl h)
    exact hp.imp fun h a ha => h ⟨a, ha⟩
  · have hst : ¬8191 < (s.win w).geometry.mapOffset.toNat
        + (s.win w).geometry.lineCount.toNat - 1 := fun h => hm (.inl h)
    obtain ⟨-, hi⟩ := hi
    omega

/-- The third and the fourth check of LOAD pass only a geometry apart from those of the other active
windows (R11). -/
theorem apart_of_no_fault {s : State} {w v : WindowId} (ho : ¬OverlapFault s w) (hm : ¬MapFault s w)
    (hne : v ≠ w) (hv : (s.win v).state ≠ .off) :
    (s.win w).geometry.Apart (s.win v).geometry :=
  ⟨fun b hb c hc a ha => ho (.inr ⟨v, hne, hv, b, hb, c, hc, a, ha⟩),
    fun i hi => hm (.inr ⟨v, hne, hv, i, hi⟩)⟩

theorem windowBecomes_takeLoad (s : State) (w : WindowId) :
    WindowBecomes s (s.takeLoad w) w (s.win w).loaded :=
  .modWin (s.mapSegment w fun _ => LineEntry.reset) w Window.loaded

/-- A LOAD that passes its checks adds its window to the disjoint ones (R11, R12). -/
theorem takeLoad_rangesSound {s : State} {w : WindowId} (hs : s.RangesSound)
    (ho : ¬OverlapFault s w) (hm : ¬MapFault s w) : (s.takeLoad w).RangesSound :=
  rangesSound_of_windowBecomes hs (windowBecomes_takeLoad s w) (proper_of_no_fault ho hm)
    fun _ hne hv => apart_of_no_fault ho hm hne hv

/-- A LOAD changes nothing, or passes its checks and takes effect (R9 to R13). -/
theorem loadAt_refused_or_taken (w : WindowId) (s : State) :
    (loadAt w s).2 = s
      ∨ ¬OverlapFault s w ∧ ¬MapFault s w ∧ (loadAt w s).2 = (s.takeLoad w).pump := by
  unfold loadAt
  split
  · exact .inl rfl
  split
  · exact .inl rfl
  split
  · exact .inl rfl
  next hr =>
  split
  · exact .inl rfl
  next ho =>
  split
  · exact .inl rfl
  next hm =>
  have hg : (s.win w).geometry.Loadable := by rwa [outOfRange_iff, Classical.not_not] at hr
  rw [loadOverlap_iff] at ho
  rw [loadMapFault_iff s w hg] at hm
  exact .inr ⟨ho, hm, rfl⟩

theorem loadAt_rangesSound (w : WindowId) (s : State) (hs : s.RangesSound) :
    (loadAt w s).2.RangesSound := by
  rcases loadAt_refused_or_taken w s with e | ⟨ho, hm, e⟩
  · rw [e]; exact hs
  · rw [e]; exact (Retains.refl _).pump.rangesSound (takeLoad_rangesSound hs ho hm)

/-- Every command keeps the active windows disjoint (R12). -/
theorem exec_rangesSound (c : Instr) {s : State} (hs : s.RangesSound) :
    ∃ t, exec c s = .next t ∧ t.RangesSound := by
  by_cases hc : ∃ f, c = .load f
  · obtain ⟨f, rfl⟩ := hc
    exact ⟨_, rfl, windowFrame_keeps rangesSound_onWindowsAlone (fun _ => loadAt_rangesSound) hs⟩
  · obtain ⟨t, e, ht⟩ := exec_retains c s fun f hf => hc ⟨f, hf⟩
    exact ⟨t, e, ht.rangesSound hs⟩

/-- Settles O9: LOAD is the one command that makes a window active, and its checks keep R12. -/
theorem everyStepKeepsTheRangesDisjoint : Obligations.EveryStepKeepsTheRangesDisjoint := by
  intro s t hs h
  unfold step at h
  split at h
  · obtain rfl := Host.Outcome.next.inj h
    exact (refclkEdge_retains s).rangesSound hs
  · next c rest _ =>
    obtain ⟨u, e, hu⟩ := exec_rangesSound c
      (rangesSound_onWindowsAlone s { s with pending := rest } rfl hs)
    obtain rfl := Host.Outcome.next.inj (e.symm.trans h)
    exact hu

end Sys2Proof.Machine

/-! ## Local answers

The requests that the part answers itself (R24): a malformed one with ERROR and a notice (R25, R26,
R141), and the RETRY answers of R30 and R48. -/

namespace Sys2Proof.Machine

variable {s : State} {r : HRequest} {w : WindowId}

/-! ### The notice queue and NOTICE -/

/-- Whether a notice joins or is discarded, the queue holds a record after it is offered (R136). -/
theorem offer_records_ne_nil (q : NoticeQueue) (n : Notice) : (q.offer n).records ≠ [] := by
  unfold NoticeQueue.offer
  split
  · simp
  · next hfull =>
    have hcap : Config.noticeCapacity = 16 := rfl
    exact List.ne_nil_of_length_pos (by dsimp only; omega)

/-- NOTICE with the part running and a record waiting: asserted where it is enabled (R141). -/
theorem noticeAsserted_of_records_ne_nil (hr : s.inReset = false) (hn : s.notices.records ≠ []) :
    s.noticeAsserted = s.settings.noticeEnable := by
  simp [State.noticeAsserted, State.noticePending, hr, hn]

/-! ### The verdict of a malformed request -/

/-- A form fault decides the verdict before any range is looked at (R25). -/
theorem outcome_of_fault {c : MalformedCode} (hf : FormFault s.hport r c) :
    s.outcome r = .malformed c := by
  simp only [State.outcome, State.classify, malformedCode_of_fault hf, State.outcomeOf]

/-! ### The verdict RETRY -/

/-- In FLATTENING every role of the window meets the same class in its apparent range (R30). -/
theorem apparentClass_flattening {role : Role} (hrole : role ≠ .none) (kind : Kind) :
    apparentClass w role kind .flattening = .flattenRetry w := by
  cases role with
  | none => exact absurd rfl hrole
  | consumer | producer | maintenance => cases kind <;> rfl

/-- In FLATTENING every role of the window meets the same class in its shadow ranges (R30, R31). -/
theorem shadowClass_flattening {role : Role} (hrole : role ≠ .none) :
    shadowClass w role .flattening = .flattenRetry w := by
  cases role with
  | none => exact absurd rfl hrole
  | consumer | producer | maintenance => rfl

/-- A request with a role of a FLATTENING window, in any of its ranges (R30). -/
theorem outcome_flattening (hw : WellFormedRequest s.hport r)
    (ha : InApparentOf s r.address w ∨ InShadowOf s r.address w)
    (hst : (s.win w).state = .flattening) (hrole : s.role r.requester w ≠ .none) :
    s.outcome r = .retry := by
  have hc : s.classify r = .flattenRetry w := by
    rcases ha with ha | ha
    · rw [classify_apparent hw ha, hst, apparentClass_flattening hrole]
    · rw [classify_shadow hw ha, hst, shadowClass_flattening hrole]
  rw [State.outcome, hc, State.outcomeOf]

/-- A producer write of a LIVE or SETTLING window has a class of its own (R27). -/
theorem classify_producerWrite (hw : WellFormedRequest s.hport r) (ha : InApparentOf s r.address w)
    (hrole : s.role r.requester w = .producer) (hk : accessKind r.access = .write)
    (hrun : (s.win w).Running) : s.classify r = .producerWrite w := by
  rw [classify_apparent hw ha, hrole, hk]
  rcases hrun with hst | hst <;> rw [hst] <;> rfl

/-- A producer write is turned back while its window settles, while its line is filling, and where it is
a first write with no slot FREE (R48). -/
theorem outcomeOf_producerWrite_retry
    (h : (s.win w).state = .settling ∨ (s.entryAt w r.address).filling = true
      ∨ (s.entryAt w r.address).pending = false ∧ s.freeSlot = none) :
    s.outcomeOf r (.producerWrite w) = .retry := by
  have he : s.lineEntry w ((s.win w).geometry.lineOf r.address) = s.entryAt w r.address := rfl
  simp only [State.outcomeOf, he]
  by_cases hs : (s.win w).state = .settling
  · rw [if_pos hs]
  by_cases hf : (s.entryAt w r.address).filling = true
  · rw [if_neg hs, if_pos hf]
  obtain ⟨hp, hslot⟩ := (h.resolve_left hs).resolve_left hf
  simp [hs, hf, hp, hslot]

/-! ### The answers -/

/-- Taking a place and answering locally touch the H-port alone (R24). -/
theorem only_takePlace_answerLocally (s : State) (r : HRequest) (st : Status) (d : Bool) :
    Only [.hport] s ((s.takePlace r).answerLocally r st d) :=
  (only_modHPort s _).trans (only_respond _ _)

/-- A request with the verdict RETRY is answered so, and nothing but the H-port changes (R48). -/
theorem answered_of_outcome_retry (hready : ReadyFor s r) (ho : s.outcome r = .retry) :
    ∃ t, exec (.requestAccepted r) s = .next t ∧ Only [.hport] s t ∧ AnsweredLocally s t r .retry := by
  obtain ⟨hr, hch, hp, -⟩ := hready
  refine ⟨s.accept r, exec_requestAccepted hr hch hp (by simp [ho, Verdict.needsEntry]), ?_⟩
  rw [State.accept, ho, State.carryOut]
  exact ⟨only_takePlace_answerLocally s r .retry _, answeredLocally_takePlace s r .retry⟩

/-- Settles O13: the verdict of a form fault needs no entry, so the request is accepted; its answer and
its notice touch the H-port and the notice queue alone. -/
theorem malformedRequestIsAnsweredError : Obligations.MalformedRequestIsAnsweredError := by
  intro s r c hr hch hp hf
  have ho : s.outcome r = .malformed c := outcome_of_fault hf
  refine ⟨s.accept r, exec_requestAccepted hr hch hp (by simp [ho, Verdict.needsEntry]), ?_⟩
  rw [State.accept, ho, State.carryOut]
  exact ⟨((only_takePlace_answerLocally s r .error _).mono (by simp)).trans
      ((only_raise _ _).mono (by simp)),
    answeredLocally_takePlace s r .error, rfl,
    noticeAsserted_of_records_ne_nil hr (offer_records_ne_nil _ _)⟩

/-- Settles O20: each case of R30 and R48 has the verdict RETRY. -/
theorem retryIsAnsweredLocally : Obligations.RetryIsAnsweredLocally := by
  intro s r w hready h
  have ⟨_, _, _, hw⟩ := hready
  apply answered_of_outcome_retry hready
  rcases h with ⟨ha, hrole, hk, hst⟩ | ⟨ha, hst, hrole⟩
  · have hrun : (s.win w).Running := hst.symm.imp And.left id
    rw [State.outcome, classify_producerWrite hw ha hrole hk hrun]
    apply outcomeOf_producerWrite_retry
    rcases hst with hst | ⟨-, hfill | ⟨hpend, hslots⟩⟩
    · exact .inl hst
    · exact .inr (.inl hfill)
    · exact .inr (.inr ⟨hpend, freeSlot_none hslots⟩)
  · exact outcome_flattening hw ha hst hrole

end Sys2Proof.Machine

/-! ## Steering by the line map

A producer's access to a LIVE or SETTLING window is steered by its line entry at acceptance (R45,
R46). The verdict `forward` is carried out in one way for every class, so what a forwarded request
changes is said once (`forwarded_of_outcome`); each obligation then gives its verdict. -/

namespace Sys2Proof.Machine

variable {s : State} {r : HRequest} {w : WindowId} {i : EntryId}

/-! ### A forwarded request -/

/-- Forwarding leaves the H-port to the acceptance that takes the place (R24). -/
theorem only_forward (s : State) (r : HRequest) (i : EntryId) (cls : TrackerClass)
    (v : Option WindowId) (a : Addr) (p : Option Bool) :
    Only [.windows, .table, .issueQueue] s (s.forward r i cls v a p) := by
  have hentry (e : Option InFlight) (op : MOp) :
      Only [.windows, .table, .issueQueue] s ((s.setEntry i e).issue op) :=
    ((only_setEntry s i e).mono (by simp)).trans ((only_issue _ op).mono (by simp))
  unfold State.forward
  cases v with
  | none => exact hentry _ _
  | some w => exact (hentry _ _).trans ((only_modWin _ w _).mono (by simp))

/-- One entry of the in-flight table after it is replaced. -/
theorem entryBecomes_setEntry (s : State) (i : EntryId) (e : Option InFlight) :
    EntryBecomes s (s.setEntry i e) i e :=
  ⟨entry_setEntry_self s i e, fun _ hj => entry_setEntry_of_ne s hj e⟩

/-- An accepted request that is forwarded, in the words of Safety (R19, R24, R126). -/
theorem forwarded_takePlace (s : State) (r : HRequest) (i : EntryId) (cls : TrackerClass)
    (v : Option WindowId) (a : Addr) (p : Option Bool) :
    Forwarded s ((s.takePlace r).forward r i cls v a p) r i cls v p a := by
  have hplace := holdsPlace_takePlace s r
  have hentry := entryBecomes_setEntry (s.takePlace r) i
  cases v with
  | none | some w => exact ⟨hplace, rfl, hentry _, _, rfl, rfl, rfl, rfl⟩

/-- Forwarding raises the counts of the request's window and of no other (R7). -/
theorem windowBecomes_forward (s : State) (r : HRequest) (i : EntryId) (cls : TrackerClass)
    (w : WindowId) (a : Addr) (p : Option Bool) :
    WindowBecomes s (s.forward r i cls (some w) a p) w ((s.win w).countForward cls p) :=
  WindowBecomes.modWin _ w _

/-- A request with the verdict `forward` of a window takes the lowest free entry, and the counts of
the window rise (R7, R19, R24, R126). -/
theorem forwarded_of_outcome {cls : TrackerClass} {a : Addr} {p : Option Bool}
    (hready : ReadyFor s r) (hi : LowestFreeEntry s i)
    (ho : s.outcome r = .forward cls (some w) a p) :
    ∃ t, exec (.requestAccepted r) s = .next t
      ∧ Only [.windows, .hport, .table, .issueQueue] s t
      ∧ Forwarded s t r i cls (some w) p a
      ∧ WindowBecomes s t w ((s.win w).countForward cls p) := by
  obtain ⟨hr, hch, hp, -⟩ := hready
  have hfree : s.freeEntry = some i := freeEntry_of_lowest hi
  have hacc : s.accept r = (s.takePlace r).forward r i cls (some w) a p := by
    have hfree' : (s.takePlace r).freeEntry = some i := hfree
    rw [State.accept, ho, State.carryOut, hfree']
  refine ⟨s.accept r, exec_requestAccepted hr hch hp (by simp [hfree]), ?_⟩
  rw [hacc]
  exact ⟨((only_modHPort s _).mono (by simp)).trans ((only_forward _ r i cls _ a p).mono (by simp)),
    forwarded_takePlace s r i cls (some w) a p, windowBecomes_forward _ r i cls w a p⟩

/-! ### The counts -/

/-- A tagged request other than a producer write counts as a request and at its parity (R7, R50). -/
theorem countForward_tagged (x : Window) {cls : TrackerClass} (hc : cls ≠ .producerWrite)
    (p : Bool) :
    x.countForward cls (some p) =
      { x with requests := x.requests + 1
               reads0 := if p then x.reads0 else x.reads0 + 1
               reads1 := if p then x.reads1 + 1 else x.reads1 } := by
  cases p <;> simp [Window.countForward, Window.modReadCount, hc]

/-- A producer write counts as a request and in the producer writes in flight (R7, R52). -/
theorem countForward_producerWrite (x : Window) :
    x.countForward .producerWrite none =
      { x with requests := x.requests + 1, producerWrites := x.producerWrites + 1 } := rfl

/-! ### The verdicts -/

/-- A producer read of a LIVE or SETTLING window has a class of its own (R27). -/
theorem classify_producerRead (hw : WellFormedRequest s.hport r) (ha : InApparentOf s r.address w)
    (hrole : s.role r.requester w = .producer) (hk : accessKind r.access = .read)
    (hrun : (s.win w).Running) : s.classify r = .producerRead w := by
  rw [classify_apparent hw ha, hrole, hk]
  rcases hrun with hst | hst <;> rw [hst] <;> rfl

/-- A producer read is turned back while its line is filling (R45). -/
theorem outcomeOf_producerRead_filling (hf : (s.entryAt w r.address).filling = true) :
    s.outcomeOf r (.producerRead w) = .retry :=
  if_pos hf

/-- A producer read of a line that is not filling goes to the working bank where the line is pending
and to the published bank otherwise, with the epoch parity as its tag (R45). -/
theorem outcomeOf_producerRead_steered (hf : (s.entryAt w r.address).filling = false) :
    s.outcomeOf r (.producerRead w) =
      .forward .producerRead (some w)
        ((s.win w).geometry.steered
          (if (s.entryAt w r.address).pending then (s.entryAt w r.address).working
            else (s.entryAt w r.address).published) r.address)
        (some (s.win w).parity) :=
  if_neg (Bool.eq_false_iff.mp hf)

/-- A producer write to a pending line of a LIVE window goes to the working bank (R46). -/
theorem outcomeOf_producerWrite_pending (hst : (s.win w).state = .live)
    (hf : (s.entryAt w r.address).filling = false) (hp : (s.entryAt w r.address).pending = true) :
    s.outcomeOf r (.producerWrite w) =
      .forward .producerWrite (some w)
        ((s.win w).geometry.steered (s.entryAt w r.address).working r.address) none := by
  have hset : (s.win w).state ≠ .settling := by rw [hst]; decide
  exact (if_neg hset).trans ((if_neg (Bool.eq_false_iff.mp hf)).trans (if_pos hp))

/-! ### The obligations -/

/-- Settles O17: the verdict of a producer read is RETRY or `forward` by the filling mark of its line,
and each verdict is carried out as it is for every class. -/
theorem producerReadIsSteered : Obligations.ProducerReadIsSteered := by
  rintro s r w _ hready ha hrun hk hrole rfl
  have ⟨_, _, _, hw⟩ := hready
  have hc : s.classify r = .producerRead w := classify_producerRead hw ha hrole hk hrun
  constructor
  · intro hfill
    apply answered_of_outcome_retry hready
    rw [State.outcome, hc, outcomeOf_producerRead_filling hfill]
  · intro hfill i hi
    rw [← countForward_tagged (s.win w) (cls := .producerRead) nofun]
    apply forwarded_of_outcome hready hi
    rw [State.outcome, hc, outcomeOf_producerRead_steered hfill]
    rfl

/-- Settles O18: the verdict of the write is `forward` to the working bank. Forwarding does not reach
the line map store, so the line entry stays. -/
theorem producerWriteToAPendingLineIsForwarded :
    Obligations.ProducerWriteToAPendingLineIsForwarded := by
  rintro s r i w _ hready hi ha hst hk hrole rfl hfill hpend
  have ⟨_, _, _, hw⟩ := hready
  rw [← countForward_producerWrite]
  apply forwarded_of_outcome hready hi
  rw [State.outcome, classify_producerWrite hw ha hrole hk (.inl hst),
    outcomeOf_producerWrite_pending hst hfill hpend]
  rfl

end Sys2Proof.Machine

/-! ## What an event may do at one window

The events of the hold logic and of the settles change one window record each (R72 to R112). What
they keep of a record is said here once, for records: `Window.Admits x c` says that the change `c` is
one that such an event makes at the record `x`. -/

namespace Sys2Proof.Machine

/-! ### Sound records between two steps of an event -/

/-- The record is sound but for the prompt rule, which has still to be applied (R81). -/
def Window.Promptable (x : Window) : Prop :=
  ({ x with armed := false } : Window).Sound ∧ (x.armed = true → x.Running)

theorem Window.Sound.promptable {x : Window} (h : x.Sound) : x.Promptable := by
  refine ⟨?_, h.armed⟩
  constructor <;> grind [cases Window.Sound]

/-- Where the prompt rule does not act, nothing is left to apply. -/
theorem Window.Promptable.sound {x : Window} (h : x.Promptable)
    (hp : ¬(x.state = .live ∧ x.Prompted)) : x.Sound := by
  obtain ⟨hs, ha⟩ := h
  constructor <;> grind [cases Window.Sound, Window.Running, Window.Prompted]

/-- A commit is entered in LIVE with the hold CLEAR, and disarms the window (R82). -/
theorem Window.Promptable.sound_afterCommit {x : Window} (h : x.Promptable) (hl : x.state = .live)
    (hc : x.holdStatus = .clear) : x.afterCommit.Sound := by
  obtain ⟨hs, -⟩ := h
  unfold Window.afterCommit
  split
  · constructor <;> grind [cases Window.Sound, Window.afterFlip]
  · constructor <;> grind [cases Window.Sound, Window.afterEntry]

/-! ### What every event at one window keeps -/

/-- The counts of outstanding work (R7). -/
def Window.counts (x : Window) : Nat × Nat × Nat × Nat × Nat :=
  (x.reads0, x.reads1, x.fills, x.producerWrites, x.requests)

/-- The record `y` has the geometry, the counts and the slot request of `x`, and its life-cycle state
but for a step between LIVE and SETTLING or ARM's step. -/
structure Window.Keeps (x y : Window) : Prop where
  geometry : y.geometry = x.geometry
  counts : y.counts = x.counts
  request : y.copyRequest = x.copyRequest
  life : y.state = x.state ∨ x.Running ∧ y.Running ∨ x.state = .loading ∧ y.state = .live

/-- An event at one window makes the change `c` at the record `x`: beside what every event keeps, the
pending count stays, or the segment of a LIVE or SETTLING window is flipped and the count is 0 (R86),
and a sound record stays sound. -/
structure Window.Admits (x : Window) (c : WindowChange) : Prop extends x.Keeps c.record where
  pending : c.flips = false → c.record.pendingCount = x.pendingCount
  flipped : c.flips = true → x.Running ∧ c.record.Running ∧ c.record.pendingCount = 0
  sound : x.Sound → c.record.Sound

/-- A step of an event that a prompt settle may still follow (R81). -/
structure Window.Shifts (x y : Window) : Prop extends x.Keeps y where
  pending : y.pendingCount = x.pendingCount
  promptable : x.Sound → y.Promptable

theorem Window.Keeps.refl (x : Window) : x.Keeps x := ⟨rfl, rfl, rfl, .inl rfl⟩

theorem Window.Keeps.of_running {x y : Window} (hg : y.geometry = x.geometry)
    (hc : y.counts = x.counts) (hr : y.copyRequest = x.copyRequest) (hx : x.Running)
    (hy : y.Running) : x.Keeps y := ⟨hg, hc, hr, .inr (.inl ⟨hx, hy⟩)⟩

theorem Window.Shifts.of_sound {x y : Window} (hk : x.Keeps y) (hp : y.pendingCount = x.pendingCount)
    (hs : x.Sound → y.Sound) : x.Shifts y := ⟨hk, hp, fun h => (hs h).promptable⟩

namespace Window.Admits

variable {x y : Window} {c d : WindowChange}

theorem ite {p : Prop} [Decidable p] (hc : p → x.Admits c) (hd : ¬p → x.Admits d) :
    x.Admits (if p then c else d) := iteInduction (motive := x.Admits) hc hd

/-- Neither the pulse nor the notices of a change matter. -/
theorem congr (h : x.Admits c) (hr : d.record = c.record) (hf : d.flips = c.flips) : x.Admits d := by
  obtain ⟨hk, hp, hfl, hs⟩ := h
  rw [← hr] at hk hp hfl hs
  rw [← hf] at hp hfl
  exact ⟨hk, hp, hfl, hs⟩

/-- A change of the record alone. -/
theorem quiet (hk : x.Keeps y) (hp : y.pendingCount = x.pendingCount) (hs : x.Sound → y.Sound) :
    x.Admits (quiet y) := ⟨hk, fun _ => hp, nofun, hs⟩

theorem refl (x : Window) : x.Admits (Machine.quiet x) := quiet (.refl x) rfl id

end Window.Admits

/-! ### Settles -/

theorem running_afterCommit (x : Window) : x.afterCommit.Running := by
  unfold Window.afterCommit
  split
  · exact .inl rfl
  · exact .inr rfl

/-- The entry to a commit after a step of the event (R82). -/
theorem Window.Shifts.admits_commit {x y : Window} (h : x.Shifts y) (hx : x.Running)
    (hl : y.state = .live) (hc : y.holdStatus = .clear) (w : WindowId) :
    x.Admits (commitChange w y) where
  geometry := by rw [← h.geometry]; simp only [commitChange, Window.afterCommit]; split <;> rfl
  counts := by rw [← h.counts]; simp only [commitChange, Window.afterCommit]; split <;> rfl
  request := by rw [← h.request]; simp only [commitChange, Window.afterCommit]; split <;> rfl
  life := .inr (.inl ⟨hx, running_afterCommit y⟩)
  pending hf := by
    rw [← h.pending]
    simp only [commitChange, Window.afterCommit] at hf ⊢
    simp only [hf]
    rfl
  flipped hf := by
    refine ⟨hx, running_afterCommit y, ?_⟩
    simp only [commitChange, Window.afterCommit] at hf ⊢
    simp only [hf]
    rfl
  sound hs := (h.promptable hs).sound_afterCommit hl hc

/-- The prompt rule after a step of the event (R81). -/
theorem Window.Shifts.admits_prompt {x y : Window} (h : x.Shifts y) (hx : x.Running ∨ y = x)
    (w : WindowId) : x.Admits (if y.promptReady then commitChange w y else quiet y) := by
  refine .ite (fun hp => ?_) fun hp => ?_
  · obtain ⟨hl, hpr⟩ := (promptReady_iff y).mp hp
    refine h.admits_commit (hx.elim id ?_) hl hpr.2.2 w
    rintro rfl
    exact .inl hl
  · exact .quiet h.toKeeps h.pending fun hs =>
      (h.promptable hs).sound fun hn => hp ((promptReady_iff y).mpr hn)

theorem Window.Shifts.refl (x : Window) : x.Shifts x := .of_sound (.refl x) rfl id

/-- The prompt rule at a window (R81). -/
theorem admits_promptChange (x : Window) (w : WindowId) :
    x.Admits (if x.promptReady then commitChange w x else quiet x) :=
  (Window.Shifts.refl x).admits_prompt (.inr rfl) w

/-- A window in LIVE or SETTLING is armed (R73, R75). -/
theorem shifts_armed {x : Window} (h : x.Running) : x.Shifts { x with armed := true } :=
  ⟨⟨rfl, rfl, rfl, .inl rfl⟩, rfl, fun hs => ⟨hs.promptable.1, fun _ => h⟩⟩

theorem admits_pubreqChange (x : Window) (w : WindowId) : x.Admits (pubreqChange w x) :=
  .ite (fun h => (shifts_armed ((isLiveOrSettling_iff x).mp h.2)).admits_prompt
    (.inl ((isLiveOrSettling_iff x).mp h.2)) w) fun _ => .refl x

/-- The return to LIVE at the expiry of a DISCARD settle (R92). -/
theorem shifts_backToLive {x : Window} (h : x.state = .settling) : x.Shifts x.backToLive := by
  refine ⟨.of_running rfl rfl rfl (.inr h) (.inl rfl), rfl, fun hs => ⟨?_, fun _ => .inl rfl⟩⟩
  constructor <;> grind [cases Window.Sound, Window.backToLive]

theorem shifts_afterBoundary {x : Window} (a : Bool) (h : x.Running) :
    x.Shifts (x.afterBoundary a) := by
  refine ⟨⟨rfl, rfl, rfl, .inl rfl⟩, rfl, fun hs => ⟨?_, fun _ => h⟩⟩
  constructor <;>
    grind [cases Window.Sound, Window.releasedNow, Window.afterBoundary, Window.Running]

/-- In PROMPT mode only a boundary that releases the hold leaves a settle to enter (R78, R81). -/
theorem commitsNow_of_prompted {x : Window} {a : Bool} (hs : x.Sound)
    (hl : (x.afterBoundary a).state = .live) (hp : (x.afterBoundary a).Prompted) :
    x.commitsNow a = true := by
  grind [cases Window.Sound, Window.afterBoundary, Window.Prompted, Window.commitsNow]

theorem admits_boundaryChange {x : Window} (w : WindowId) (a : Bool) (h : x.Running) :
    x.Admits (boundaryChange w x a) := by
  by_cases hc : x.commitsNow a = true
  · have hlc : (x.afterBoundary a).state = .live ∧ (x.afterBoundary a).holdStatus = .clear := by
      grind [Window.commitsNow, Window.afterBoundary]
    refine ((shifts_afterBoundary a h).admits_commit h hlc.1 hlc.2 w).congr ?_ ?_ <;>
      simp only [boundaryChange, hc] <;> rfl
  · refine (Window.Admits.quiet (x := x) (y := x.afterBoundary a) ⟨rfl, rfl, rfl, .inl rfl⟩ rfl
      fun hs => ?_).congr ?_ ?_
    · exact ((shifts_afterBoundary a h).promptable hs).sound
        fun hn => hc (commitsNow_of_prompted hs hn.1 hn.2)
    · simp only [boundaryChange, hc]; rfl
    · simp only [boundaryChange, hc]; rfl

/-! ### Holds -/

/-- A hold that becomes ACTIVE with its acknowledgement gone (R91, R99, R103). -/
theorem Window.Sound.activated {x : Window} (h : x.Sound) (hr : x.Running) (hn : x.holdAck = false)
    (he : x.policy.holdPolicy = .latched ∨ x.holdStatus = .clear) : x.activated.Sound := by
  constructor <;> grind [cases Window.Sound, Window.activated, Window.settlingCommit,
    Window.afterCancel, Window.Running]

theorem keeps_activated {x : Window} : x.Keeps x.activated := by
  unfold Window.activated
  split
  · next h => exact .of_running rfl rfl rfl (.inr ((settlingCommit_iff x).mp h).1) (.inl rfl)
  · exact ⟨rfl, rfl, rfl, .inl rfl⟩

theorem activated_pendingCount (x : Window) : x.activated.pendingCount = x.pendingCount := by
  unfold Window.activated; split <;> rfl

theorem keeps_struck (x : Window) : x.Keeps x.struck ∧ x.struck.pendingCount = x.pendingCount := by
  have acknowledged (y : Window) (h : ({ x with holdAck := false } : Window).Keeps y) : x.Keeps y :=
    ⟨h.geometry, h.counts, h.request, h.life⟩
  unfold Window.struck
  split
  · split
    · exact ⟨⟨rfl, rfl, rfl, .inl rfl⟩, rfl⟩
    · exact ⟨acknowledged _ keeps_activated, activated_pendingCount _⟩
  · split
    · exact ⟨keeps_activated, activated_pendingCount x⟩
    · exact ⟨.refl x, rfl⟩

/-- A source strikes a sound record in LIVE or SETTLING (R99, R103). -/
theorem Window.Sound.struck {x : Window} (h : x.Sound) (hr : x.Running) : x.struck.Sound := by
  constructor <;> grind [cases Window.Sound, Window.struck, Window.activated, Window.settlingCommit,
    Window.afterCancel, Window.Running]

/-- Under PER_BOUNDARY an event is noted as it strikes (R97, R103). -/
theorem Window.Sound.struck_noted {x : Window} (h : x.Sound) (hr : x.Running)
    (hp : x.policy.holdPolicy = .perBoundary) :
    ({ x with eventSince := true } : Window).struck.Sound := by
  have hst : ({ x with eventSince := true } : Window).struck =
      if x.holdStatus = .clear then ({ x with eventSince := true } : Window).activated
      else { x with eventSince := true } := by
    simp only [Window.struck, hp]
  have hna : x.holdStatus ≠ .clear → x.holdStatus = .active := fun hc => by
    cases e : x.holdStatus with
    | clear => exact absurd e hc
    | active => rfl
    | releasing => exact absurd ((h.releasing e).symm.trans hp) nofun
  rw [hst]
  clear hst
  split
  · constructor <;> grind [cases Window.Sound, Window.activated, Window.settlingCommit,
      Window.afterCancel, Window.Running]
  · constructor <;> grind [cases Window.Sound]

theorem admits_assertChange (w : WindowId) (x : Window) (c : HoldSource) :
    x.Admits (assertChange w x c) := by
  refine .ite (fun h => ?_) fun _ => .refl x
  have hr := (isLiveOrSettling_iff x).mp h
  exact (Window.Admits.quiet (keeps_struck x).1 (keeps_struck x).2 fun hs => hs.struck hr).congr rfl rfl

theorem Window.Sound.letGo {x : Window} (h : x.Sound) (hr : x.Running) (left : Bool) :
    (x.letGo left).Sound := by
  constructor <;> grind [cases Window.Sound, Window.letGo, Window.Running]

theorem admits_releaseChange (x : Window) (left : Bool) : x.Admits (releaseChange x left) := by
  have keeps : x.Keeps (x.letGo left) ∧ (x.letGo left).pendingCount = x.pendingCount := by
    unfold Window.letGo
    split
    · exact ⟨⟨rfl, rfl, rfl, .inl rfl⟩, rfl⟩
    · exact ⟨.refl x, rfl⟩
  unfold releaseChange
  split
  · next h => exact .quiet keeps.1 keeps.2 fun hs => hs.letGo ((isLiveOrSettling_iff x).mp h) left
  · exact .refl x

/-- An event strikes as a level source does, under PER_BOUNDARY after it is noted (R97). -/
theorem admits_eventStrikes {x y : Window} {w : WindowId} {c : HoldSource} {l : List Notice}
    (hr : x.Running) (h : EventStrikes x y w c l) : x.Admits { quiet y with notices := l } := by
  have noted (z : Window) (h : ({ x with eventSince := true } : Window).Keeps z) : x.Keeps z :=
    ⟨h.geometry, h.counts, h.request, h.life⟩
  refine Window.Admits.congr (c := quiet y) ?_ rfl rfl
  cases hp : x.policy.holdPolicy with
  | latched =>
    rw [(levelStrikes_iff.mp (h.1 hp)).1]
    exact .quiet (keeps_struck x).1 (keeps_struck x).2 fun hs => hs.struck hr
  | perBoundary =>
    rw [(levelStrikes_iff.mp (h.2 hp)).1]
    have hk := keeps_struck { x with eventSince := true }
    exact .quiet (noted _ hk.1) hk.2 fun hs => hs.struck_noted hr hp

theorem admits_holdEdgeChange (lv : LineLevels) (cf : Settings) (h : HoldLine) (w : WindowId)
    (x : Window) :
    x.Admits (if x.policy.sources.counts h then
        if lineActive lv cf h then assertChange w x (holdLineSource h)
        else releaseChange x (assertedAt lv cf x)
      else quiet x) :=
  .ite (fun _ => .ite (fun _ => admits_assertChange w x _) fun _ => admits_releaseChange x _)
    fun _ => .refl x

/-- Every edge of an input line, at one window (R139). -/
theorem admits_edgeChange (lv : LineLevels) (cf : Settings) (l : InputLine) (w : WindowId)
    (x : Window) : x.Admits (edgeChange lv cf l w x) := by
  cases l with
  | sync =>
    exact .ite (fun _ => .ite
      (fun h => admits_boundaryChange w _ ((isLiveOrSettling_iff x).mp h)) fun _ => .refl x)
      fun _ => .refl x
  | pubreq => exact .ite (fun _ => admits_pubreqChange x w) fun _ => .refl x
  | hold0 => exact admits_holdEdgeChange lv cf .hold0 w x
  | hold1 => exact admits_holdEdgeChange lv cf .hold1 w x

end Sys2Proof.Machine

/-! ## What a step is made of

Every command is a chain of a few kinds of change, and `Move` lists them, each with what the command
has checked before it makes it. `step_moves` reads every step as such a chain; an invariant of every
step is then proved for one change at a time. -/

namespace Sys2Proof.Machine

/-- The record that READ NOTICE is shifting out stands at the head of the queue (R151). -/
def Shown (m : MgmtPort) (q : NoticeQueue) : Prop :=
  ∀ n, m.taken = .slot (some n) → q.records.head? = some n

/-- The slot works on as before, in another phase of its operation (R60, R61, R64, R68). -/
structure SlotWork.Continues (k l : SlotWork) : Prop where
  kind : l.kind = k.kind
  window : l.window = k.window
  line : l.line = k.line
  held : l.held = k.held
  orphaned : k.orphaned = false ∧ l.orphaned = false
  phase : l.phase ≠ .retiring

/-- The changes that commands are made of. -/
inductive Move : State → State → Prop
  | channel (s l) : Move s (s.modHPort fun h => { h with channel := l })
  | answered {s} (r st d) (hp : s.hport.placesHeld < 48) :
      Move s ((s.takePlace r).answerLocally r st d)
  | forwarded {s} (r : HRequest) {i} (cls w a p) (hp : s.hport.placesHeld < 48)
      (hi : s.freeEntry = some i)
      (hw : ∀ v, w = some v → (s.win v).state ≠ .off ∧ (s.win v).state ≠ .flattening) :
      Move s ((s.takePlace r).forward r i cls w a p)
  | filled {s} (r : HRequest) {n} {k : SlotWork} (hp : s.hport.placesHeld < 48)
      (hn : s.freeSlot = some n) (hl : (s.win k.window).state = .live)
      (hi : k.line < (s.win k.window).geometry.lineCount.toNat)
      (he : (s.lineEntry k.window k.line).pending = false
        ∧ (s.lineEntry k.window k.line).filling = false)
      (hk : k.FillsFor k.window ∧ k.phase ≠ .retiring ∧ k.held.isSome) :
      Move s (((s.takePlace r).modLine k.window k.line fun e => { e with filling := true }).allocate
        n k)
  | accepted {s} (h : s.hport.responses ≠ []) : Move s (s.modHPort HPort.acceptResponse)
  | queued (s q) : Move s (s.setIssueQueue q)
  | ended {s i e} (h : s.entry i = some e) (st data) : Move s (s.endEntry i e st data)
  | reworked {s n k l} (h : s.slot n = some k) (hl : k.Continues l) : Move s (s.setSlot n (some l))
  | completed {s n k} (h : s.slot n = some k) (hk : k.isFill = true) : Move s (s.fillComplete n k)
  | failed {s n k} (h : s.slot n = some k) (hk : k.isFill = true) :
      Move s (((s.modLine k.window k.line fun e => { e with filling := false }).answerHeld k.held
        .error).release n k.window)
  | copyDone {s n k} (h : s.slot n = some k) (hk : k.isCopy = true) : Move s (s.copyDone n k)
  | copyFailed {s n k} (h : s.slot n = some k) (hk : k.isCopy = true) : Move s (s.copyFailed n k)
  | freed {s n k} (h : s.slot n = some k) (hk : k.phase = .retiring) : Move s (s.setSlot n none)
  | served {s w n} (h : (s.win w).copyRequest = true) (hn : s.freeSlot = some n) :
      Move s (s.serveCopyWith w n)
  | walked {s w} (h : (s.win w).flattenDrained = true) : Move s (s.walkFrom w 0)
  | changed {s w c} (h : (s.win w).Admits c) : Move s (s.changed w c)
  | flipped {s w} (h : (s.win w).Committing) : Move s (s.flipAt w)
  | cleared {s w} (h : (s.win w).Discarding) : Move s (s.clearAt w)
  | raised (s n) : Move s (s.raise n)
  | lines (s) {f} (h : ∀ l, (f l).pulse ≤ l.pulse) : Move s (s.modLines f)
  | port (s) {m q} (hq : q.records.length ≤ s.notices.records.length)
      (hs : Shown s.mgmt s.notices → Shown m q) : Move s ((s.modNotices fun _ => q).atPort m)
  | emptied {s} (h : s.mgmt.taken = .nothing) :
      Move s (s.modNotices fun _ => { records := [], overflow := false })
  | roles (s m) : Move s (s.setRoles m)
  | settings (s c) : Move s (s.setSettings c)
  | running (s b) : Move s { s with inReset := b }
  | geometry {s w} (h : (s.win w).state = .off) (g) : Move s (s.modWin w fun x => { x with geometry := g })
  | loaded {s w} (h : (s.win w).state = .off) (hb : ¬BusyFault s w)
      (hg : (s.win w).geometry.Loadable) (ho : ¬OverlapFault s w) (hm : ¬MapFault s w) :
      Move s (s.takeLoad w)
  | retired {s w} (h : (s.win w).state = .live) : Move s (s.beginRetire w)
  | dropped {s ws} (hn : ws.Nodup) (h : ∀ w ∈ ws, (s.win w).state ≠ .off) : Move s (s.dropWindows ws)
  | reset (s) : Move s s.assertReset

/-- A chain of changes. -/
def Moves : State → State → Prop := Relation.ReflTransGen Move

/-! ### The class and the outcome of a request, read backwards -/

/-- The window whose range a request is served in, where it is not answered by the part. -/
def AccessClass.served : AccessClass → Option WindowId
  | .loadingAccess w | .publishedRead w | .producerRead w | .producerWrite w | .rawMaintenance w =>
    some w
  | _ => none

theorem apparentClass_served {v w : WindowId} {role : Role} {kind : Kind} {st : WindowState}
    (h : (apparentClass w role kind st).served = some v) : v = w ∧ st ≠ .flattening := by
  cases role <;> cases kind <;> cases st <;> simp_all [apparentClass, AccessClass.served]

theorem shadowClass_served {v w : WindowId} {role : Role} {st : WindowState}
    (h : (shadowClass w role st).served = some v) : v = w ∧ st ≠ .flattening := by
  cases role <;> cases st <;> simp_all [shadowClass, AccessClass.served]

theorem apparentClass_producerWrite {v w : WindowId} {role : Role} {kind : Kind} {st : WindowState}
    (h : apparentClass w role kind st = .producerWrite v) :
    v = w ∧ st ≠ .flattening ∧ st ≠ .loading := by
  cases role <;> cases kind <;> cases st <;> simp_all [apparentClass]

theorem shadowClass_ne_producerWrite {v w : WindowId} {role : Role} {st : WindowState} :
    shadowClass w role st ≠ .producerWrite v := by
  cases role <;> cases st <;> simp [shadowClass]

/-- A served request lies in a range of an active window that does not flatten (R24 to R31). -/
theorem classify_served {s : State} {r : HRequest} {v : WindowId}
    (h : (s.classify r).served = some v) :
    (s.win v).state ≠ .off ∧ (s.win v).state ≠ .flattening := by
  unfold State.classify at h
  split at h
  · exact absurd h nofun
  split at h
  · next w hw =>
    obtain ⟨rfl, hf⟩ := apparentClass_served h
    exact ⟨((inApparent_iff _ _ _).mp (List.find?_some hw)).1, hf⟩
  split at h
  · next w hw =>
    obtain ⟨rfl, hf⟩ := shadowClass_served h
    exact ⟨((inShadow_iff _ _ _).mp (List.find?_some hw)).1, hf⟩
  · exact absurd h nofun

/-- A producer write of the steering table names an address in the apparent range of a window in LIVE
or SETTLING (R27). -/
theorem classify_producerWrite_window {s : State} {r : HRequest} {v : WindowId}
    (h : s.classify r = .producerWrite v) :
    (s.win v).Running
      ∧ (s.win v).geometry.covers (s.win v).geometry.apparentBase r.address = true := by
  unfold State.classify at h
  split at h
  · exact absurd h nofun
  split at h
  · next w hw =>
    obtain ⟨rfl, hf, hl⟩ := apparentClass_producerWrite h
    obtain ⟨ho, hc⟩ := (inApparent_iff _ _ _).mp (List.find?_some hw)
    refine ⟨?_, hc⟩
    unfold Window.Running
    cases hst : (s.win v).state <;> simp_all
  split at h
  · exact absurd h shadowClass_ne_producerWrite
  · exact absurd h nofun

/-- The line of an address in the apparent range is a line of the window (R41). -/
theorem lineOf_lt {g : Geometry} {a : Addr} (h : g.covers g.apparentBase a = true) :
    g.lineOf a < g.lineCount.toNat := by
  obtain ⟨hlo, hhi⟩ := Bool.and_eq_true_iff.mp h
  have hlo := of_decide_eq_true hlo
  have hhi := of_decide_eq_true hhi
  simp only [Geometry.size, Config.lineBytes] at hhi
  simp only [Geometry.lineOf, Geometry.apparentOffset, Config.lineBytes]
  have := a.isLt
  have := g.apparentBase.isLt
  have hs : (a - g.apparentBase).toNat = a.toNat - g.apparentBase.toNat := by
    rw [BitVec.toNat_sub]; omega
  rw [hs]
  omega

theorem outcomeOf_forward {s : State} {r : HRequest} {c : AccessClass} {cls : TrackerClass}
    {w : WindowId} {a : Addr} {p : Option Bool}
    (h : s.outcomeOf r c = .forward cls (some w) a p) : c.served = some w := by
  cases c <;> grind [State.outcomeOf, AccessClass.served]

/-- A first write is a producer write to a line of a LIVE window that is neither pending nor filling
(R47). -/
theorem outcomeOf_firstWrite {s : State} {r : HRequest} {c : AccessClass} {n : SlotId} {w : WindowId}
    {i : Nat} (h : s.outcomeOf r c = .firstWrite n w i) :
    c = .producerWrite w ∧ (s.win w).state ≠ .settling ∧ i = (s.win w).geometry.lineOf r.address
      ∧ ((s.lineEntry w i).pending = false ∧ (s.lineEntry w i).filling = false)
      ∧ s.freeSlot = some n := by
  cases c <;> grind [State.outcomeOf]

/-! ### The operations of an event -/

namespace Moves

variable {s t u : State} {w : WindowId} {n : SlotId} {k : SlotWork}

theorem refl (s : State) : Moves s s := Relation.ReflTransGen.refl

theorem tail (h : Moves s t) (m : Move t u) : Moves s u := Relation.ReflTransGen.tail h m

theorem trans (h : Moves s t) (k : Moves t u) : Moves s u := Relation.ReflTransGen.trans h k

theorem ite {c : Prop} [Decidable c] (ht : c → Moves s t) (hu : ¬c → Moves s u) :
    Moves s (if c then t else u) := iteInduction (motive := Moves s) ht hu

theorem of_changed {c : WindowChange} (h : Moves s t) (e : u = t.changed w c)
    (hc : (t.win w).Admits c) : Moves s u := e ▸ h.tail (.changed hc)

/-- A change of a record alone. -/
theorem modWin {f : Window → Window} (h : Moves s t) (hk : (t.win w).Keeps (f (t.win w)))
    (hp : (f (t.win w)).pendingCount = (t.win w).pendingCount)
    (hs : (t.win w).Sound → (f (t.win w)).Sound) : Moves s (t.modWin w f) :=
  h.of_changed ((modWin_eq_patched t w f).trans (patched_eq_changed t w _ _))
    ((Window.Admits.quiet hk hp hs).congr rfl rfl)

/-- A change of a record, after which the prompt rule is applied (R81). -/
theorem patched_promptTest {x : Window} {l : List Notice} (h : Moves s t)
    (hr : (t.win w).Running) (hx : (t.win w).Shifts x) : Moves s ((t.patched w x l).promptTest w) := by
  refine h.of_changed (c := { (if x.promptReady then commitChange w x else quiet x) with
    notices := l ++ (if x.promptReady then commitChange w x else quiet x).notices }) ?_
    ((hx.admits_prompt (.inl hr) w).congr rfl rfl)
  rw [promptTest_eq, patched_win_self]
  exact patched_changed t w l _ hx.geometry

/-! ### The hold logic -/

theorem levelAsserts {c : HoldSource} (h : Moves s t) : Moves s (t.levelAsserts w c) :=
  h.of_changed (levelAsserts_changed t w c) (admits_assertChange w _ c)

theorem levelReleases (h : Moves s t) : Moves s (t.levelReleases w) :=
  h.of_changed (levelReleases_changed t w) (admits_releaseChange _ _)

theorem eventOccurs {c : HoldSource} (h : Moves s t) (hr : (t.win w).Running) :
    Moves s (t.eventOccurs w c) := by
  obtain ⟨x, l, hx, e⟩ := eventOccurs_eq t w c hr
  exact h.of_changed (e.trans (patched_eq_changed t w x l)) (admits_eventStrikes hr hx)

theorem violationEvent (h : Moves s t) : Moves s (t.violationEvent w) :=
  .ite (fun hc => h.eventOccurs ((isLiveOrSettling_iff _).mp hc.1)) fun _ => h

theorem fillFailureEvent (h : Moves s t) : Moves s (t.fillFailureEvent w) :=
  .ite (fun hc => h.eventOccurs ((isLiveOrSettling_iff _).mp hc.1)) fun _ => h

theorem polarityAt {old : Settings} (h : Moves s t) : Moves s (t.polarityAt old w) :=
  .ite (fun _ => h.levelAsserts) fun _ => .ite (fun _ => h.levelAsserts) fun _ =>
    .ite (fun _ => h.levelReleases) fun _ => h

/-- The hold of a LIVE window is evaluated while it is CLEAR, and the prompt rule applied (R81, R106). -/
theorem evaluated {x : Window} (h : Moves s t) (hk : (t.win w).Keeps x)
    (hp : x.pendingCount = (t.win w).pendingCount) (hl : x.state = .live)
    (hs : (t.win w).Sound → ({ x with holdStatus := .active } : Window).Sound) (c : HoldSource) :
    Moves s ((t.patched w x []).becomeActive w c) := by
  have hc : ¬((t.patched w x []).win w).Committing := by
    rw [patched_win_self]
    exact fun hn => absurd (hl.symm.trans hn.1) nofun
  rw [becomeActive_of_not_committing c hc, patched_patched, patched_win_self]
  exact h.of_changed (patched_eq_changed _ _ _ _)
    ((Window.Admits.quiet (y := { x with holdStatus := .active })
      ⟨hk.geometry, hk.counts, hk.request, hk.life⟩ hp hs).congr rfl rfl)

/-- Manual hold is stored in LOADING, LIVE and SETTLING (R98). -/
theorem setManualHold {on : Bool} (h : Moves s t)
    (hw : (t.win w).state ≠ .off ∧ (t.win w).state ≠ .flattening) :
    Moves s (t.setManualHold w on) := by
  have stored : Moves s (t.modWin w fun x => { x with manualHold := on }) :=
    h.modWin ⟨rfl, rfl, rfl, .inl rfl⟩ rfl fun hs => by constructor <;> grind [cases Window.Sound]
  exact .ite (fun _ => h) fun _ => .ite (fun _ => stored.levelAsserts) fun _ => stored.levelReleases

theorem acknowledgeHold (h : Moves s t) (hr : (t.win w).Running)
    (hp : (t.win w).policy.holdPolicy = .latched) : Moves s (t.acknowledgeHold w) := by
  refine .ite (fun ha => h.modWin ⟨rfl, rfl, rfl, .inl rfl⟩ rfl fun hs => ?_) fun _ => h
  constructor <;> grind [cases Window.Sound, Window.Running]

/-! ### Settles -/

theorem promptTest (h : Moves s t) : Moves s (t.promptTest w) :=
  h.of_changed (promptTest_eq t w) (admits_promptChange _ w)

theorem settleTest (h : Moves s t) : Moves s (t.settleTest w) :=
  .ite
    (fun _ => .ite (fun hc => h.tail (.flipped ((settlingCommit_iff _).mp hc))) fun _ =>
      .ite (fun hd => h.tail (.cleared ((settlingDiscard_iff _).mp hd))) fun _ => h)
    fun _ => h

theorem enterDiscard (h : Moves s t) (hl : (t.win w).state = .live) :
    Moves s (t.enterDiscard w) := by
  refine settleTest (h.modWin (.of_running rfl rfl rfl (.inl hl) (.inr rfl)) rfl fun hs => ?_)
  constructor <;> grind [cases Window.Sound, Window.enterSettle]

/-- The expiry of the drain timer (R92). -/
theorem expireSettle (h : Moves s t) : Moves s (t.expireSettle w) := by
  refine .ite (fun hc => ?_) fun _ => .ite (fun hd => ?_) fun _ => ?_
  · have hx := (settlingCommit_iff _).mp hc
    refine (h.modWin (.of_running rfl rfl rfl (.inr hx.1) (.inl rfl)) rfl fun hs => ?_).tail
      (.raised _ _)
    constructor <;> grind [cases Window.Sound, Window.backToLive, Window.Committing]
  · have hx := ((settlingDiscard_iff _).mp hd).1
    exact h.patched_promptTest (l := [.discardCancelled w]) (.inr hx) (shifts_backToLive hx)
  · refine h.modWin ⟨rfl, rfl, rfl, .inl rfl⟩ rfl fun hs => ?_
    constructor <;> grind [cases Window.Sound]

theorem tickAt (h : Moves s t) : Moves s (t.tickAt w) := by
  unfold State.tickAt
  split
  · exact h
  next n hn =>
    refine .ite (fun _ => h.expireSettle) fun _ =>
      h.modWin ⟨rfl, rfl, rfl, .inl rfl⟩ rfl fun hs => ?_
    constructor <;> grind [cases Window.Sound]

theorem edgeAt {l : InputLine} (h : Moves s t) : Moves s (t.edgeAt l w) :=
  h.of_changed (edgeAt_eq t l w) (admits_edgeChange _ _ l w _)

/-! ### The fill engine -/

theorem issueSlot (h : Moves s t) : Moves s (t.issueSlot n) := by
  unfold State.issueSlot
  split
  · exact h
  · split
    · exact h
    · exact h.tail (.queued _ _)

theorem startPhase {l : SlotWork} (h : Moves s t) (hs : t.slot n = some k) (hl : k.Continues l) :
    Moves s (t.startPhase n l) := (h.tail (.reworked hs hl)).issueSlot

theorem leaveWaiting (h : Moves s t) : Moves s (t.leaveWaiting n) := by
  unfold State.leaveWaiting
  split
  · exact h
  next k hk =>
    refine .ite (fun hm => h.startPhase hk ⟨rfl, rfl, rfl, rfl, ?_, nofun⟩) fun _ => h
    simp_all [SlotWork.mayWrite, SlotWork.isFill]

theorem leaveWaitingOf {ns : List SlotId} (h : Moves s t) : Moves s (t.leaveWaitingOf w ns) := by
  refine forSlots_keeps (P := Moves s) ns (fun n _ u hu => ?_) t h
  split
  · exact hu.leaveWaiting
  · exact hu

theorem fillReadDone {data : Line} (h : Moves s t) (hs : t.slot n = some k)
    (hk : k.isFill = true) : Moves s (t.fillReadDone n k data) := by
  refine leaveWaiting (h.tail (.reworked hs ⟨rfl, rfl, rfl, rfl, ?_, nofun⟩))
  simp_all [SlotWork.isFill]

theorem fillFail {st : Status} (h : Moves s t) (hs : t.slot n = some k) (hk : k.isFill = true) :
    Moves s (t.fillFail n k st) := by
  unfold State.fillFail
  refine fillFailureEvent ?_
  split
  · exact h.tail (.failed hs hk)
  · exact (h.tail (.failed hs hk)).tail (.raised _ _)

/-! ### The flatten logic -/

theorem flattenTest (h : Moves s t) : Moves s (t.flattenTest w) :=
  .ite (fun hd => h.tail (.walked hd)) fun _ => h

theorem drainTests (h : Moves s t) : Moves s (t.drainTests w) := h.settleTest.flattenTest

theorem serveCopy (h : Moves s t) : Moves s (t.serveCopy w) := by
  refine .ite (fun hk => ?_) fun _ => h
  split
  · exact h
  · next hn => exact h.tail (.served hk hn)

/-! ### The steering unit and the end of an event -/

/-- A first write takes a place and a slot, and its operation begins (R47, R57). -/
theorem takeFirstWrite {r : HRequest} {i : Nat} (h : Moves s t) (hp : t.hport.placesHeld < 48)
    (ho : t.outcome r = .firstWrite n w i) (x : HeldWrite) :
    Moves s ((t.takePlace r).takeFirstWrite n w i x) := by
  obtain ⟨hc, hns, rfl, he, hn⟩ := outcomeOf_firstWrite ho
  obtain ⟨hrun, hcov⟩ := classify_producerWrite_window hc
  have hl : (t.win w).state = .live := hrun.resolve_right hns
  have taken {y : SlotWork} (hw : y.window = w) (hi : y.line = (t.win w).geometry.lineOf r.address)
      (hk : y.FillsFor w ∧ y.phase ≠ .retiring ∧ y.held.isSome) :
      Moves s (((t.takePlace r).modLine w ((t.win w).geometry.lineOf r.address)
        fun e => { e with filling := true }).allocate n y) := by
    subst hw
    rw [← hi] at he ⊢
    exact h.tail (.filled r hp hn hl (hi ▸ lineOf_lt hcov) he hk)
  unfold State.takeFirstWrite
  dsimp only
  split
  · exact leaveWaiting (taken rfl rfl ⟨⟨rfl, rfl, .inr rfl⟩, nofun, rfl⟩)
  · exact issueSlot (taken rfl rfl ⟨⟨rfl, rfl, .inl rfl⟩, nofun, rfl⟩)

theorem accept {r : HRequest} (h : Moves s t) (hc : t.canAccept r = true) :
    Moves s (t.accept r) := by
  have hp : t.hport.placesHeld < 48 := by
    simp only [State.canAccept, Bool.and_eq_true, decide_eq_true_eq] at hc
    exact hc.1.2
  unfold State.accept
  cases ho : t.outcome r with
  | malformed c => exact (h.tail (.answered r _ _ hp)).tail (.raised _ _)
  | violation w c => exact ((h.tail (.answered r _ _ hp)).tail (.raised _ _)).violationEvent
  | retry => exact h.tail (.answered r _ _ hp)
  | firstWrite n w i => exact h.takeFirstWrite hp ho _
  | forward cls w a p =>
    have hi : t.freeEntry.isSome := by
      simp only [State.canAccept, ho, Verdict.needsEntry, Bool.and_eq_true] at hc
      simpa using hc.2
    obtain ⟨i, hi⟩ := Option.isSome_iff_exists.mp hi
    have hi' : (t.takePlace r).freeEntry = some i := hi
    simp only [State.carryOut, hi']
    refine h.tail (.forwarded r cls w a p hp hi fun v hv => ?_)
    subst hv
    exact classify_served (outcomeOf_forward ho)

theorem acceptHead (h : Moves s t) (e : t.acceptHead = some u) : Moves s u := by
  obtain ⟨r, rest, -, hc, rfl⟩ := acceptHead_eq_some e
  exact (h.tail (.channel t rest)).accept hc

theorem pump (h : Moves s t) : Moves s t.pump := pump_keeps (fun _ _ hu e => hu.acceptHead e) h

theorem turn {a : Agent} (h : Moves s t) : Moves s (t.turn a) := by
  cases a with
  | window w => exact h.serveCopy
  | steering =>
    show Moves s (t.acceptHead.getD t)
    cases e : t.acceptHead with
    | none => exact h
    | some u => exact h.acceptHead e
  | slot n | pulse | edge l w => exact h

theorem arbitrate {o : Order} (h : Moves s t) : Moves s (t.arbitrate o) :=
  (forWindows_keeps allWindows (fun _ _ _ hu => hu.serveCopy) _
    (List.foldlRecOn o State.turn h fun _ hu _ _ => hu.turn)).pump

/-! ### Link events, ticks and edges -/

theorem testCounts {v : Option WindowId} {o : Order} (h : Moves s t) :
    Moves s (t.testCounts v o) := by
  cases v with
  | none => exact h
  | some v => exact h.leaveWaitingOf.drainTests

theorem tickPulse (h : Moves s t) : Moves s t.tickPulse := h.tail (.lines _ fun _ => Nat.sub_le _ _)

theorem setLevels {l : LineLevels} (h : Moves s t) : Moves s (t.setLevels l) :=
  h.tail (.lines t (f := fun x => { x with levels := l }) fun _ => le_rfl)

theorem tickAgent {a : Agent} (h : Moves s t) : Moves s (t.tickAgent a) := by
  cases a with
  | window w => exact h.tickAt.pump
  | pulse => exact h.tickPulse
  | slot n | steering | edge l w => exact h

theorem takeTick {o : Order} (h : Moves s t) : Moves s (t.takeTick o) :=
  List.foldlRecOn _ State.tickAgent
    (h.tail (.lines t (f := fun l => { l with edgeCount := 0 }) fun _ => le_rfl)) fun _ hu _ _ => hu.tickAgent

theorem takeEdges (old new : LineLevels) : ∀ (es done : List (InputLine × WindowId)) {t : State},
    Moves s t → Moves s (State.takeEdges old new done es t)
  | [], _, _, h => h
  | (l, w) :: es, done, _, h =>
    takeEdges old new es ((l, w) :: done) h.setLevels.edgeAt.pump

theorem takeSample {xs : List LineSample} {o : Order} (h : Moves s t) :
    Moves s (t.takeSample xs o) := (takeEdges _ _ _ [] h).setLevels

end Moves

end Sys2Proof.Machine

/-! ## Commands as chains of changes

The management commands act at the end of their frames. Since no body looks at the port (`Unread`),
a frame is read as the change of the port followed by what its body does. -/

namespace Sys2Proof.Machine

/-! ### The bytes of a frame -/

theorem takenAtArguments_slot {s : State} {c : Option CommandName} {args : List Byte} {t : Taken}
    {n : Option Notice} (h : s.takenAtArguments c args t = .slot n) : t = .slot n := by
  unfold State.takenAtArguments at h
  split at h
  · unfold windowTaken at h
    split at h
    · split at h <;> exact absurd h nofun
    · exact absurd h nofun
  · unfold State.rolesTaken at h
    split at h <;> exact absurd h nofun
  · unfold State.lineTaken at h
    split at h
    · exact absurd h nofun
    · split at h <;> exact absurd h nofun
  · exact h

/-- No byte makes the queue longer (R137). -/
theorem clockByte_length (s : State) (c : Option CommandName) (p : MgmtPort × NoticeQueue) (b : Byte) :
    (s.clockByte c p b).2.records.length ≤ p.2.records.length := by
  have removed : p.2.removeHead.records.length ≤ p.2.records.length := by
    unfold NoticeQueue.removeHead
    split <;> simp [*]
  simp only [State.clockByte]
  split
  · split
    · exact removed
    · exact le_rfl
  · exact le_rfl

/-- A byte takes the record at the head, or goes on with the one taken; the last of a slot lets it
go (R137, R151). -/
theorem clockByte_shown (s : State) (c : Option CommandName) (p : MgmtPort × NoticeQueue) (b : Byte)
    (h : Shown p.1 p.2) : Shown (s.clockByte c p b).1 (s.clockByte c p b).2 := by
  have offers : ∀ n, offered c p.1.byteIndex p.1.taken p.2 = .slot (some n) →
      p.2.records.head? = some n := by
    intro n hn
    unfold offered at hn
    split at hn
    · exact Taken.slot.inj hn
    · exact h n hn
  intro n hn
  simp only [State.clockByte] at hn ⊢
  split at hn
  · exact absurd hn nofun
  next he =>
    have ht : offered c p.1.byteIndex p.1.taken p.2 = .slot (some n) := by
      split at hn
      · exact takenAtArguments_slot hn
      · exact hn
    rw [ht]
    simp only [he, if_false]
    exact offers n ht

theorem csFalls_shown {m : MgmtPort} {q : NoticeQueue} (st : Byte) (h : Shown m q) :
    Shown (m.csFalls st) q := by
  unfold MgmtPort.csFalls
  split
  · exact h
  · exact fun n hn => absurd hn nofun

theorem clockCommand_shown {s : State} {c : Option CommandName} {m : MgmtPort} {q : NoticeQueue}
    (h : Shown m q) : Shown (s.clockCommand c m) q := by
  unfold State.clockCommand
  split
  · intro n hn
    simp only [State.takenAtCommand] at hn
    split at hn <;> exact absurd hn nofun
  · exact h

/-- The bytes of a part of a frame: the queue grows no longer, and the record taken stays at its head
(R137, R151). -/
theorem clocked_spec (s : State) (c : Option CommandName) (f : Frame) :
    (s.clocked c f).2.records.length ≤ s.notices.records.length
      ∧ (Shown s.mgmt s.notices → Shown (s.clocked c f).1 (s.clocked c f).2) := by
  have bytes (m : MgmtPort) : ∀ (l : List Byte) (p : MgmtPort × NoticeQueue),
      p.2.records.length ≤ s.notices.records.length ∧ (Shown m s.notices → Shown p.1 p.2) →
      (l.foldl (s.clockByte c) p).2.records.length ≤ s.notices.records.length
        ∧ (Shown m s.notices → Shown (l.foldl (s.clockByte c) p).1 (l.foldl (s.clockByte c) p).2) := by
    intro l
    induction l with
    | nil => exact fun p hp => hp
    | cons b l ih =>
      exact fun p hp => ih _ ⟨(clockByte_length s c p b).trans hp.1,
        fun h => clockByte_shown s c p b (hp.2 h)⟩
  unfold State.clocked
  dsimp only
  split
  · exact ⟨le_rfl, csFalls_shown _⟩
  · exact ⟨le_rfl, csFalls_shown _⟩
  · exact bytes s.mgmt f.args _ ⟨le_rfl, fun h => clockCommand_shown (csFalls_shown _ h)⟩

/-! ### Frames -/

theorem shown_of_nothing {m : MgmtPort} (q : NoticeQueue) (h : m.taken = .nothing) : Shown m q :=
  fun _ hn => absurd (h.symm.trans hn) nofun

/-- A frame is a change of the port and the notice queue, then what the body does at its end, with
nothing taken in the port (R144, R147, R151). -/
theorem frame_moves {s : State} {c : Option CommandName} {f : Frame}
    {atEnd : MgmtPort × NoticeQueue → State → ResultCode × State} (hu : ∀ p, Unread (atEnd p))
    (hb : ∀ p t, t.mgmt.taken = .nothing → Moves s t → Moves s (atEnd p t).2) :
    Moves s (s.frame c f atEnd) := by
  obtain ⟨hq, hsh⟩ := clocked_spec s c f
  have clocked (m : MgmtPort)
      (hm : Shown (s.clocked c f).1 (s.clocked c f).2 → Shown m (s.clocked c f).2) :
      Moves s ((s.modNotices fun _ => (s.clocked c f).2).atPort m) :=
    (Moves.refl s).tail (.port s hq fun h => hm (hsh h))
  refine .ite (fun _ => ?_) fun _ => .refl s
  dsimp only
  split
  · let t := s.modNotices fun _ => (s.clocked c f).2
    let r := atEnd (s.clocked c f) t
    let m := (s.clocked c f).1.ended (tailBits c f (s.clocked c f)) r.1
    have hr : r.2.atPort m = (atEnd (s.clocked c f) (t.atPort m)).2 := by
      rw [hu (s.clocked c f) t m]
    show Moves s (r.2.atPort m)
    rw [hr]
    exact hb _ _ rfl (clocked m fun _ => shown_of_nothing _ rfl)
  · refine clocked _ fun h => ?_
    unfold MgmtPort.endedEarly
    split
    · exact shown_of_nothing _ rfl
    · exact h
  · exact clocked _ id

theorem readFrame_moves (s : State) (c : CommandName) (f : Frame) :
    Moves s (s.whenRunning fun s => s.readFrame c f) :=
  .ite (fun _ => .refl s) fun _ => frame_moves (fun _ _ _ => rfl) fun _ _ _ h => h

theorem writeFrame_moves {s : State} {c : CommandName} {f : Frame}
    {body : Frame → State → ResultCode × State} (hu : ∀ g, Unread (body g))
    (hb : ∀ g t, t.mgmt.taken = .nothing → Moves s t → Moves s (body g t).2) :
    Moves s (s.whenRunning fun s => s.writeFrame c f body) := by
  refine .ite (fun _ => .refl s) fun _ => frame_moves (fun p => ?_) fun p t ht h => ?_
  · intro t m
    dsimp only
    split
    · exact hu _ t m
    · rfl
  · split
    · exact hb _ t ht h
    · exact h

theorem windowFrame_moves {s : State} {c : CommandName} {f : Frame}
    {body : Frame → WindowId → State → ResultCode × State} (hu : ∀ g w, Unread (body g w))
    (hb : ∀ g w t, Moves s t → Moves s (body g w t).2) :
    Moves s (s.whenRunning fun s => s.writeFrame c f fun g => onWindow g (body g)) := by
  refine writeFrame_moves (fun g => unread_onWindow (hu g)) fun g t _ h => ?_
  unfold onWindow
  split
  · exact h
  · exact hb g _ t h

/-! ### PUBLISH, window by window

PUBLISH arms all its windows before the prompt rule is applied to any (R73, R81). Arming one window
and the prompt rule of another do not meet, so it is the same to arm each window just before. -/

theorem modWin_comm (s : State) (v w : WindowId) (f : Window → Window) :
    (s.modWin v f).modWin w f = (s.modWin w f).modWin v f := by
  by_cases h : v = w
  · rw [h]
  · have hv : v.val ≠ w.val := fun e => h (Fin.ext e)
    simp only [State.modWin, Vector.getElem_set_ne _ _ hv, Vector.getElem_set_ne _ _ hv.symm]
    rw [Vector.set_comm _ _ hv]

theorem changed_modWin (s : State) {v w : WindowId} (h : v ≠ w) (f : Window → Window)
    (c : WindowChange) : (s.modWin v f).changed w c = (s.changed w c).modWin v f := by
  have hv : v.val ≠ w.val := fun e => h (Fin.ext e)
  have hg : ((s.modWin v f).win w).geometry = (s.win w).geometry := by rw [win_modWin_of_ne s h.symm]
  have hm : (s.modWin v f).flippedMap w c.flips = (s.flippedMap w c.flips).modWin v f := by
    unfold State.flippedMap
    split
    · simp only [State.mapSegment, hg]; rfl
    · rfl
  rw [State.changed, hm]
  simp only [State.changed, State.patched, State.modNotices, State.modLines, State.modWin,
    Vector.getElem_set_ne _ _ hv.symm]
  rw [Vector.set_comm _ _ hv]

theorem promptTest_modWin (s : State) {v w : WindowId} (h : v ≠ w) (f : Window → Window) :
    (s.modWin v f).promptTest w = (s.promptTest w).modWin v f := by
  rw [promptTest_eq, promptTest_eq, win_modWin_of_ne s h.symm, changed_modWin s h]

/-- The window is armed (R73). -/
def State.armed (s : State) (w : WindowId) : State := s.modWin w fun x => { x with armed := true }

theorem promptTest_forWindows_armed {w : WindowId} : ∀ {ws : List WindowId} (s : State), w ∉ ws →
    (s.forWindows ws fun v t => t.armed v).promptTest w =
      (s.promptTest w).forWindows ws fun v t => t.armed v
  | [], _, _ => rfl
  | v :: ws, s, h => by
    obtain ⟨hv, hws⟩ := not_or.mp (mt List.mem_cons.mpr h)
    rw [forWindows_cons, promptTest_forWindows_armed _ hws, forWindows_cons, State.armed,
      promptTest_modWin s (Ne.symm hv)]
    rfl

theorem forWindows_armed_promptTest : ∀ {ws : List WindowId}, ws.Nodup → ∀ s : State,
    ((s.forWindows ws fun v t => t.armed v).forWindows ws fun v t => t.promptTest v) =
      s.forWindows ws fun v t => (t.armed v).promptTest v
  | [], _, _ => rfl
  | w :: ws, h, s => by
    obtain ⟨hw, hn⟩ := List.nodup_cons.mp h
    rw [forWindows_cons, forWindows_cons, promptTest_forWindows_armed _ hw,
      forWindows_armed_promptTest hn, forWindows_cons]

/-- The windows of a mask, in the order of the command. -/
def maskWindows (mask : Byte) (o : Order) : List WindowId := (windowsIn o).filter fun w => maskNames mask w

theorem setArmed_eq (s : State) (mask : Byte) (o : Order) :
    s.setArmed mask true = s.forWindows (maskWindows mask o) fun w t => t.armed w := by
  have hp : (allWindows.filter fun w => maskNames mask w).Perm (maskWindows mask o) :=
    ((List.perm_ext_iff_of_nodup (by decide) (nodup_windowsIn o)).mpr fun w => by simp).filter _
  exact hp.foldl_eq' (fun v _ w _ t => modWin_comm t v w _) s

theorem running_of_maskPasses {s : State} {mask : Byte} (h : s.maskPasses mask = true) (w : WindowId)
    (hw : maskNames mask w = true) : (s.win w).Running := by
  have := List.all_eq_true.mp h w (mem_allWindows w)
  simpa [hw] using this

theorem running_promptTest {s : State} {v : WindowId} (w : WindowId) (h : (s.win v).Running) :
    ((s.promptTest w).win v).Running := by
  rw [promptTest_eq]
  by_cases hv : v = w
  · subst hv
    rw [changed_win_self]
    split
    · exact running_afterCommit _
    · exact h
  · rwa [changed_win_of_ne _ hv]

namespace Moves

variable {s t : State} {w : WindowId} {f : Frame} {o : Order}

/-- PUBLISH (R73, R81). -/
theorem publish {mask : Byte} (h : Moves s t) (hm : t.maskPasses mask = true) :
    Moves s ((t.setArmed mask true).forWindows (maskWindows mask o) fun w u => u.promptTest w) := by
  have hn : (maskWindows mask o).Nodup := (nodup_windowsIn o).filter _
  rw [setArmed_eq t mask o, forWindows_armed_promptTest hn]
  refine (forWindows_keeps (P := fun u => Moves s u ∧ ∀ v, maskNames mask v = true → (u.win v).Running)
    _ (fun w hw u hu => ?_) t ⟨h, running_of_maskPasses hm⟩).1
  have hr := hu.2 w (List.mem_filter.mp hw).2
  refine ⟨?_, fun v hv => running_promptTest w ?_⟩
  · rw [State.armed, modWin_eq_patched]
    exact hu.1.patched_promptTest hr (shifts_armed hr)
  · rw [State.armed, win_modWin]
    split
    · exact hr
    · exact hu.2 v hv

theorem disarm {mask : Byte} (h : Moves s t) : Moves s (t.setArmed mask false) :=
  forWindows_keeps _ (fun _ _ _ hu => hu.modWin ⟨rfl, rfl, rfl, .inl rfl⟩ rfl fun hs => by
    constructor <;> grind [cases Window.Sound]) t h

/-! ### What management commands do -/

/-- WRITE POLICY keeps the hold policy of a window under a hold (R4), evaluates a CLEAR hold in LIVE
and applies the prompt rule (R5, R81, R106). -/
theorem storePolicy {p : Policy} (h : Moves s t)
    (hw : (t.win w).state ≠ .settling ∧ (t.win w).state ≠ .flattening)
    (hp : (t.win w).state = .live → (t.win w).holdStatus ≠ .clear →
      p.holdPolicy = (t.win w).policy.holdPolicy) : Moves s (t.storePolicy w p) := by
  let y : Window := { t.win w with policy := p, dividerCount := 0 }
  have keeps : (t.win w).Keeps y := ⟨rfl, rfl, rfl, .inl rfl⟩
  have stored : t.modWin w (fun x => { x with policy := p, dividerCount := 0 }) = t.patched w y [] :=
    modWin_eq_patched t w _
  simp only [State.storePolicy, stored]
  refine .ite (fun hl => ?_) fun hl => ?_
  · have shifts : (t.win w).Shifts y := by
      refine ⟨keeps, rfl, fun hs => ⟨?_, fun _ => .inl hl⟩⟩
      constructor <;> grind [cases Window.Sound]
    by_cases hc : (t.win w).holdStatus = .clear
    · rw [if_pos hc]
      cases e : (t.patched w y []).firstLevelSource w with
      | none => rw [evaluateHold_of_none e]; exact h.patched_promptTest (.inl hl) shifts
      | some c =>
        rw [evaluateHold_of_some e]
        refine promptTest (h.evaluated keeps rfl hl (fun hs => ?_) c)
        constructor <;> grind [cases Window.Sound]
    · rw [if_neg hc]; exact h.patched_promptTest (.inl hl) shifts
  · refine h.of_changed (patched_eq_changed t w y []) ((Window.Admits.quiet keeps rfl fun hs => ?_).congr
      rfl rfl)
    constructor <;> grind [cases Window.Sound]

theorem takeArm (h : Moves s t) (hl : (t.win w).state = .loading) : Moves s (t.takeArm w) := by
  let y : Window := { t.win w with state := .live, dividerCount := 0 }
  have keeps : (t.win w).Keeps y := ⟨rfl, rfl, rfl, .inr (.inr ⟨hl, rfl⟩)⟩
  have armed : t.modWin w (fun x => { x with state := .live, dividerCount := 0 }) = t.patched w y [] :=
    modWin_eq_patched t w _
  rw [State.takeArm, armed]
  cases e : (t.patched w y []).firstLevelSource w with
  | none =>
    rw [evaluateHold_of_none e]
    refine h.of_changed (patched_eq_changed t w y []) ((Window.Admits.quiet keeps rfl fun hs => ?_).congr
      rfl rfl)
    constructor <;> grind [cases Window.Sound]
  | some c =>
    rw [evaluateHold_of_some e]
    refine h.evaluated keeps rfl rfl (fun hs => ?_) c
    constructor <;> grind [cases Window.Sound]

theorem storeSettings {c : Settings} (h : Moves s t) : Moves s (t.storeSettings c) :=
  .ite (fun _ => h.tail (.settings t c)) fun _ => (h.tail (.settings t c)).tail
    (.lines _ (f := fun l => { l with edgeCount := 0 }) fun _ => le_rfl)

theorem takeRestart (h : Moves s t) (hm : t.mgmt.taken = .nothing) : Moves s t.takeRestart := by
  have dropped : Moves s (t.dropWindows t.activeWindows) :=
    h.tail (.dropped (List.Nodup.filter _ (by decide))
      fun w hw => (isActive_iff _).mp (List.mem_filter.mp hw).2)
  have port : (t.dropWindows t.activeWindows).mgmt = t.mgmt :=
    Eq.trans ((orphanSlots_spec t.activeWindows allSlots (by decide)
      (t.forWindows t.activeWindows fun w u => u.dropRecord w)).1 .mgmt (by simp))
      (forWindows_keeps (P := fun u => u.mgmt = t.mgmt) (f := fun w u => u.dropRecord w) _
        (fun _ _ _ hu => hu) t rfl)
  exact ((dropped.tail (.roles _ _)).tail (.emptied (by simpa [port] using hm))).storeSettings

/-! ### Management commands -/

theorem ite_body {c : Prop} [Decidable c] {a b : ResultCode × State} (ha : c → Moves s a.2)
    (hb : ¬c → Moves s b.2) : Moves s (if c then a else b).2 :=
  iteInduction (motive := fun p : ResultCode × State => Moves s p.2) ha hb

theorem writeGeometryAt (h : Moves s t) : Moves s (writeGeometryAt f w t).2 :=
  .ite_body (fun hw => (h.tail (.geometry hw _)).pump) fun _ => h

/-- A policy that leaves the hold bytes as they are keeps the hold policy (R4). -/
theorem holdPolicy_of_same {x : Window} {p : Policy} (hp : policyOfFrame f = some p)
    (hd : ¬holdFieldsDiffer f x = true) : p.holdPolicy = x.policy.holdPolicy := by
  have hb : frameByte f 5 = holdPolicyCode x.policy.holdPolicy := by
    simp only [holdFieldsDiffer, Bool.or_eq_true, decide_eq_true_eq, not_or, not_not] at hd
    exact hd.1
  have hc : holdPolicyOfByte (frameByte f 5) = some x.policy.holdPolicy := by
    rw [hb]; cases x.policy.holdPolicy <;> rfl
  unfold policyOfFrame at hp
  simp only [hc, Option.bind_eq_bind, Option.bind_eq_some_iff, Option.pure_def, Option.some.injEq,
    exists_eq_left'] at hp
  grind

theorem writePolicyAt (h : Moves s t) : Moves s (writePolicyAt f w t).2 := by
  refine .ite_body (fun _ => h) fun hst => .ite_body (fun _ => h) fun hd => ?_
  split
  · exact h
  next p hp =>
    refine pump (h.storePolicy (not_or.mp hst) fun hl hc => holdPolicy_of_same hp fun he => ?_)
    exact hd ⟨hl, hc, he⟩

theorem writeRolesBody (h : Moves s t) : Moves s (writeRolesBody f t).2 := by
  unfold Machine.writeRolesBody
  split
  · exact (h.tail (.roles _ _)).pump
  · exact h

theorem writeDeviceSettingsBody (h : Moves s t) : Moves s (writeDeviceSettingsBody f o t).2 := by
  unfold Machine.writeDeviceSettingsBody
  split
  · exact h
  · exact pump (forWindows_keeps _ (fun _ _ _ hu => hu.polarityAt) _ h.storeSettings)

theorem loadAt (h : Moves s t) : Moves s (loadAt w t).2 := by
  refine .ite_body (fun _ => h) fun hst => .ite_body (fun _ => h) fun hb =>
    .ite_body (fun _ => h) fun hr => .ite_body (fun _ => h) fun ho => .ite_body (fun _ => h) fun hm => ?_
  have hg : (t.win w).geometry.Loadable := by rwa [outOfRange_iff, not_not] at hr
  rw [loadBusy_iff] at hb
  rw [loadOverlap_iff] at ho
  rw [loadMapFault_iff t w hg] at hm
  exact (h.tail (.loaded (not_not.mp hst) hb hg ho hm)).pump

theorem armAt (h : Moves s t) : Moves s (armAt w t).2 :=
  .ite_body (fun hl => (h.takeArm hl).pump) fun _ => h

theorem publishBody (h : Moves s t) : Moves s (publishBody f o t).2 :=
  .ite_body (fun hm => (h.publish hm).pump) fun _ => h

theorem unpublishBody (h : Moves s t) : Moves s (unpublishBody f t).2 :=
  .ite_body (fun _ => h.disarm.pump) fun _ => h

theorem discardAt (h : Moves s t) : Moves s (discardAt w t).2 :=
  .ite_body (fun hl => (h.enterDiscard hl).pump) fun _ => h

theorem retireAt (h : Moves s t) : Moves s (retireAt o w t).2 :=
  .ite_body (fun hl => by dsimp only; exact (h.tail (.retired hl)).flattenTest.arbitrate) fun _ => h

theorem dropAt (h : Moves s t) : Moves s (dropAt o w t).2 :=
  .ite_body
    (fun ha => by
      dsimp only
      refine (h.tail (.dropped (List.nodup_singleton w) fun v hv => ?_)).arbitrate
      rw [List.mem_singleton.mp hv]
      exact (isActive_iff _).mp ha)
    fun _ => h

theorem setHoldAt (h : Moves s t) : Moves s (setHoldAt f w t).2 := by
  unfold Machine.setHoldAt
  split
  · exact h
  · exact .ite_body (fun _ => h) fun hw => (h.setManualHold (not_or.mp hw)).pump

theorem clearHoldAt (h : Moves s t) : Moves s (clearHoldAt w t).2 :=
  .ite_body (fun hc => (h.acknowledgeHold ((isLiveOrSettling_iff _).mp hc.1) hc.2).pump) fun _ => h

theorem forceFallbackAt (h : Moves s t) : Moves s (forceFallbackAt f w t).2 := by
  unfold Machine.forceFallbackAt
  split
  · exact h
  · refine .ite_body (fun hr => .ite_body (fun _ => pump (h.modWin ⟨rfl, rfl, rfl, .inl rfl⟩ rfl
      fun hs => ?_)) fun _ => h) fun _ => h
    have hr := (isLiveOrSettling_iff _).mp hr
    constructor <;> grind [cases Window.Sound, Window.Running]

/-- The release of RESET_N (R139, R143, R144). -/
theorem releaseReset {levels : LineLevels} {csLow : Bool} (h : Moves s t) :
    Moves s (t.releaseReset levels csLow) :=
  .ite
    (fun _ => pump
      (((h.tail (.running t false)).tail (.lines _ (f := fun l => { l with levels := levels })
        fun _ => le_rfl)).tail (.port _ le_rfl id)))
    fun _ => h

/-- What an event does while the part runs; while RESET_N holds it back there is nothing to do. -/
theorem whenRunning {f : State → State} (h : Moves s (f s)) : Moves s (s.whenRunning f) :=
  .ite (fun _ => .refl s) fun _ => h

theorem onSlot {n : SlotId} {cond : SlotWork → Bool} {f : SlotWork → State → State}
    (h : ∀ k, s.slot n = some k → cond k = true → Moves s (f k s)) : Moves s (s.onSlot n cond f) := by
  refine .whenRunning ?_
  split
  · exact .refl s
  next k hk => exact .ite (fun hc => h k hk hc) fun _ => .refl s

end Moves

/-! ### Commands -/

/-- Every command is a chain of the changes of `Move`. -/
theorem exec_moves (c : Instr) (s : State) : ∃ t, exec c s = .next t ∧ Moves s t := by
  have hs := Moves.refl s
  cases c with
  | requestAccepted req => exact ⟨_, rfl, (hs.tail (.channel s _)).pump⟩
  | responseAccepted =>
    refine ⟨_, rfl, .whenRunning (.ite (fun _ => hs) fun he => (hs.tail (.accepted ?_)).pump)⟩
    simpa using he
  | memorySideAccept => exact ⟨_, rfl, .whenRunning (hs.tail (.queued s _))⟩
  | trackerResponse tag status data o =>
    refine ⟨_, rfl, .whenRunning ?_⟩
    split
    · exact hs
    next e he => exact (hs.tail (.ended he _ _)).testCounts.arbitrate
  | strayResponseDiscarded tag status data => exact ⟨_, rfl, hs⟩
  | fillReadDone n data =>
    refine ⟨_, rfl, .onSlot fun k hk hc => (hs.fillReadDone hk ?_).pump⟩
    exact (Bool.and_eq_true_iff.mp hc).1
  | fillWriteStart n => exact ⟨_, rfl, .whenRunning hs.leaveWaiting.pump⟩
  | fillCompletes n o =>
    exact ⟨_, rfl, .onSlot fun k hk hc =>
      (hs.tail (.completed hk (Bool.and_eq_true_iff.mp hc).1)).drainTests.arbitrate⟩
  | fillOperationRetry n =>
    refine ⟨_, rfl, .onSlot fun k hk hc =>
      (hs.startPhase (l := { k with attempt := k.attempt + 1 }) hk ⟨rfl, rfl, rfl, rfl, ?_, ?_⟩).pump⟩
    · grind
    · grind
  | fillFails n status o =>
    exact ⟨_, rfl, .onSlot fun k hk hc =>
      (hs.fillFail hk (Bool.and_eq_true_iff.mp hc).1).drainTests.arbitrate⟩
  | flattenCopyReadDone n data =>
    refine ⟨_, rfl, .onSlot fun k hk hc => (hs.startPhase
      (l := { k with phase := .writing, buffer := some data, attempt := 1 }) hk
      ⟨rfl, rfl, rfl, rfl, ?_, nofun⟩).pump⟩
    grind [SlotWork.isCopy]
  | flattenCopyDone n o =>
    exact ⟨_, rfl, .onSlot fun k hk hc =>
      (hs.tail (.copyDone hk (Bool.and_eq_true_iff.mp hc).1)).arbitrate⟩
  | flattenCopyFailed n status o =>
    exact ⟨_, rfl, .onSlot fun k hk hc =>
      (hs.tail (.copyFailed hk (Bool.and_eq_true_iff.mp hc).1)).arbitrate⟩
  | retiringSlotFreed n status o =>
    exact ⟨_, rfl, .onSlot fun k hk hc => (hs.tail (.freed hk (of_decide_eq_true hc))).arbitrate⟩
  | flattenDrainComplete w o =>
    exact ⟨_, rfl, .whenRunning (.ite (fun hd => (hs.tail (.walked hd)).arbitrate) fun _ => hs)⟩
  | flattenRequestServed w => exact ⟨_, rfl, .whenRunning hs.serveCopy.pump⟩
  | flip w =>
    exact ⟨_, rfl, .whenRunning (.ite (fun hc => (hs.tail (.flipped
      ((settlingCommit_iff _).mp (Bool.and_eq_true_iff.mp hc).1))).pump) fun _ => hs)⟩
  | clear w =>
    exact ⟨_, rfl, .whenRunning (.ite (fun hc => (hs.tail (.cleared
      ((settlingDiscard_iff _).mp (Bool.and_eq_true_iff.mp hc).1))).pump) fun _ => hs)⟩
  | drainTimerExpiry w =>
    exact ⟨_, rfl, .whenRunning (.ite (fun _ => hs.expireSettle.pump) fun _ => hs)⟩
  | tick o => exact ⟨_, rfl, .whenRunning hs.takeTick⟩
  | committedPulseEnd => exact ⟨_, rfl, .whenRunning (.ite (fun _ => hs.tickPulse) fun _ => hs)⟩
  | boundary x => exact ⟨_, rfl, .whenRunning hs.takeSample⟩
  | pubreqEdge x => exact ⟨_, rfl, .whenRunning hs.takeSample⟩
  | holdLineEdge line level x => exact ⟨_, rfl, .whenRunning hs.takeSample⟩
  | resetAsserted => exact ⟨_, rfl, hs.tail (.reset s)⟩
  | resetReleased levels csLow => exact ⟨_, rfl, hs.releaseReset⟩
  | readStatus f => exact ⟨_, rfl, readFrame_moves s _ f⟩
  | readWindow f => exact ⟨_, rfl, readFrame_moves s _ f⟩
  | readRoles f => exact ⟨_, rfl, readFrame_moves s _ f⟩
  | readLine f => exact ⟨_, rfl, readFrame_moves s _ f⟩
  | readNotice f => exact ⟨_, rfl, readFrame_moves s _ f⟩
  | writeGeometry f =>
    exact ⟨_, rfl, windowFrame_moves unread_writeGeometryAt fun _ _ _ h => h.writeGeometryAt⟩
  | writePolicy f =>
    exact ⟨_, rfl, windowFrame_moves unread_writePolicyAt fun _ _ _ h => h.writePolicyAt⟩
  | writeRoles f =>
    exact ⟨_, rfl, writeFrame_moves unread_writeRolesBody fun _ _ _ h => h.writeRolesBody⟩
  | writeDeviceSettings f o =>
    exact ⟨_, rfl, writeFrame_moves (fun g => unread_writeDeviceSettingsBody g o)
      fun _ _ _ h => h.writeDeviceSettingsBody⟩
  | load f => exact ⟨_, rfl, windowFrame_moves (fun _ => unread_loadAt) fun _ _ _ h => h.loadAt⟩
  | arm f => exact ⟨_, rfl, windowFrame_moves (fun _ => unread_armAt) fun _ _ _ h => h.armAt⟩
  | publish f o =>
    exact ⟨_, rfl, writeFrame_moves (fun g => unread_publishBody g o) fun _ _ _ h => h.publishBody⟩
  | unpublish f =>
    exact ⟨_, rfl, writeFrame_moves unread_unpublishBody fun _ _ _ h => h.unpublishBody⟩
  | discard f =>
    exact ⟨_, rfl, windowFrame_moves (fun _ => unread_discardAt) fun _ _ _ h => h.discardAt⟩
  | retire f o =>
    exact ⟨_, rfl, windowFrame_moves (fun _ => unread_retireAt o) fun _ _ _ h => h.retireAt⟩
  | drop f o =>
    exact ⟨_, rfl, windowFrame_moves (fun _ => unread_dropAt o) fun _ _ _ h => h.dropAt⟩
  | setHold f =>
    exact ⟨_, rfl, windowFrame_moves unread_setHoldAt fun _ _ _ h => h.setHoldAt⟩
  | clearHold f =>
    exact ⟨_, rfl, windowFrame_moves (fun _ => unread_clearHoldAt) fun _ _ _ h => h.clearHoldAt⟩
  | forceFallback f =>
    exact ⟨_, rfl, windowFrame_moves unread_forceFallbackAt fun _ _ _ h => h.forceFallbackAt⟩
  | restart f o =>
    refine ⟨_, rfl, writeFrame_moves (fun _ => unread_restart o) fun _ _ hm h => ?_⟩
    dsimp only
    exact (h.takeRestart hm).arbitrate
  | badCommand b f =>
    exact ⟨_, rfl, .whenRunning (.ite (fun _ => frame_moves (fun _ _ _ => rfl) fun _ _ _ h => h)
      fun _ => hs)⟩

/-- A rising edge of REFCLK is a tick, or is counted (R138). -/
theorem refclkEdge_moves (s : State) : Moves s s.refclkEdge :=
  .whenRunning (.ite (fun _ => (Moves.refl s).takeTick) fun _ => (Moves.refl s).tail
    (.lines s (f := fun l => { l with edgeCount := l.edgeCount + 1 }) fun _ => le_rfl))

/-- Every step is a chain of the changes of `Move`, once the command has left the queue. -/
theorem step_moves {s t : State} (h : step s = .next t) :
    ∃ p, Moves { s with pending := p } t := by
  unfold step at h
  split at h
  · obtain rfl := Host.Outcome.next.inj h
    exact ⟨s.pending, refclkEdge_moves s⟩
  · next c rest _ =>
    obtain ⟨u, e, hu⟩ := exec_moves c { s with pending := rest }
    obtain rfl := Host.Outcome.next.inj (e.symm.trans h)
    exact ⟨rest, hu⟩

/-- A property that the queue of commands does not bear on, and that every change of `Move` keeps, is
kept by every step. -/
theorem step_keeps {P : State → Prop} (hq : ∀ s p, P s → P { s with pending := p })
    (hm : ∀ {s t}, Move s t → P s → P t) {s t : State} (hs : P s) (h : step s = .next t) : P t := by
  obtain ⟨p, hp⟩ := step_moves h
  exact Relation.ReflTransGen.head_induction_on (motive := fun s _ => P s → P t) hp id
    (fun m _ ih hs => ih (hm m hs)) (hq s p hs)

end Sys2Proof.Machine

/-! O8: every change of `Move` keeps the window records sound. -/

namespace Sys2Proof.Machine

/-! ### Records -/

/-- Soundness does not look at the counts. -/
theorem Window.Sound.recount {x : Window} (h : x.Sound) (a b c d e f : Nat) :
    ({ x with reads0 := a, reads1 := b, fills := c, producerWrites := d, requests := e
              pendingCount := f } : Window).Sound :=
  ⟨h.kind, h.timer, h.cursor, h.request, h.armed, h.held, h.acknowledged, h.releasing, h.event,
    h.manual, h.forced, h.commit, h.prompt⟩

theorem Window.Sound.countForward {x : Window} (h : x.Sound) (cls : TrackerClass) :
    ∀ p, (x.countForward cls p).Sound
  | none | some true | some false => h.recount _ _ _ _ _ _

theorem Window.Sound.countResponse {x : Window} (h : x.Sound) (e : InFlight) :
    (x.countResponse e).Sound := by
  unfold Window.countResponse
  match e.parity with
  | none | some true | some false => exact h.recount _ _ _ _ _ _

/-- The flip and the clear return the window to LIVE, where the prompt rule is still to be applied
(R86, R88, R90). -/
theorem Window.Sound.afterFlip {x : Window} (h : x.Sound) (hx : x.state = .settling) :
    x.afterFlip.Promptable := by
  refine ⟨?_, fun _ => .inl rfl⟩
  constructor <;> grind [cases Window.Sound, Window.afterFlip]

theorem Window.Sound.afterClear {x : Window} (h : x.Sound) (hx : x.state = .settling) :
    x.afterClear.Promptable := by
  refine ⟨?_, fun _ => .inl rfl⟩
  constructor <;> grind [cases Window.Sound, Window.afterClear]

theorem Window.Promptable.sound_prompt {x : Window} (h : x.Promptable) (w : WindowId) :
    (if x.promptReady then commitChange w x else quiet x).record.Sound := by
  split
  next hp =>
    obtain ⟨hl, hpr⟩ := (promptReady_iff x).mp hp
    exact h.sound_afterCommit hl hpr.2.2
  next hp => exact h.sound fun hn => hp ((promptReady_iff x).mpr hn)

/-! ### States -/

namespace State.WindowsSound

variable {s t : State} {w : WindowId}

theorem of_windows (h : s.WindowsSound) (e : t.windows = s.windows) : t.WindowsSound := fun w => by
  rw [win_eq_of_windows e]; exact h w

theorem becomes {x : Window} (h : s.WindowsSound) (hb : WindowBecomes s t w x) (hx : x.Sound) :
    t.WindowsSound := fun v => by
  by_cases hv : v = w
  · subst hv; rw [hb.1]; exact hx
  · rw [hb.2 v hv]; exact h v

theorem modWin {f : Window → Window} (h : s.WindowsSound) (hf : (f (s.win w)).Sound) :
    (s.modWin w f).WindowsSound := h.becomes (.modWin s w f) hf

theorem changed {c : WindowChange} (h : s.WindowsSound) (hc : c.record.Sound) :
    (s.changed w c).WindowsSound :=
  h.becomes ⟨changed_win_self s w c, fun _ hv => changed_win_of_ne s hv c⟩ hc

theorem answerHeld {x : Option HeldWrite} {st : Status} (h : s.WindowsSound) :
    (s.answerHeld x st).WindowsSound := h.of_windows (answerHeld_windows s x st)

theorem release {n : SlotId} (h : s.WindowsSound) : (s.release n w).WindowsSound :=
  modWin (h.of_windows rfl) ((h w).recount _ _ _ _ _ _)

/-- A flip or a clear with the prompt rule after it (R86, R88, R90). -/
theorem settled_promptTest {f : LineEntry → LineEntry} {g : LineInterface → LineInterface}
    {x : Window} {l : List Notice} (h : s.WindowsSound) (hx : x.Promptable) :
    ((s.settled w f g x l).promptTest w).WindowsSound := by
  rw [promptTest_eq, settled_win_self]
  intro v
  by_cases hv : v = w
  · subst hv; rw [changed_win_self]; exact hx.sound_prompt v
  · rw [changed_win_of_ne _ hv, (windowBecomes_settled s w f g x l).2 v hv]; exact h v

/-- The walk ends the retirement, or stops with a request (R117, R118). -/
theorem walkFrom {i : Nat} (h : s.WindowsSound) (hw : (s.win w).state = .flattening) :
    (s.walkFrom w i).WindowsSound := by
  have hs := h w
  unfold State.walkFrom
  dsimp only
  split
  · refine of_windows (s := s.modWin w fun x => { x with
      state := .off, cursor := none, pendingCount := 0, fills := 0, requests := 0
      armed := false, copyRequest := false }) (h.modWin ?_) rfl
    constructor <;> grind [cases Window.Sound]
  · refine h.modWin ?_
    constructor <;> grind [cases Window.Sound]

theorem copyDone {n : SlotId} {k : SlotWork} (h : s.WindowsSound) :
    (s.copyDone n k).WindowsSound := by
  have freed : ((s.release n k.window).modLine k.window k.line
      fun e => { e with published := .a }).WindowsSound := h.release.of_windows rfl
  unfold State.copyDone
  dsimp only
  split
  next hf => exact freed.walkFrom (by simp [State.release, hf])
  next => exact freed

/-- A copy that fails returns its window to LIVE, where its hold is evaluated (R106, R120). -/
theorem copyFailed {n : SlotId} {k : SlotWork} (h : s.WindowsSound) :
    (s.copyFailed n k).WindowsSound := by
  unfold State.copyFailed
  dsimp only
  split
  next hf =>
    have hs := h.release (w := k.window) (n := n) k.window
    have hf : ((s.release n k.window).win k.window).state = .flattening := by
      simp [State.release, hf]
    rw [modWin_eq_patched, patched_raise, List.nil_append]
    have live : State.WindowsSound ((s.release n k.window).patched k.window
        { (s.release n k.window).win k.window with state := .live, cursor := none, copyRequest := false }
        [.flattenFailed k.window k.line]) := by
      refine (h.release (w := k.window) (n := n)).becomes (windowBecomes_patched _ _ _ _) ?_
      constructor <;> grind [cases Window.Sound]
    cases e : State.firstLevelSource _ k.window with
    | none => rw [evaluateHold_of_none e]; exact live
    | some c =>
      rw [evaluateHold_of_some e, becomeActive_of_not_committing c (by simp [Window.Committing])]
      refine live.becomes (windowBecomes_patched _ _ _ _) ?_
      rw [patched_win_self]
      constructor <;> grind [cases Window.Sound]
  next => exact h.release

theorem serveCopyWith {n : SlotId} (h : s.WindowsSound) : (s.serveCopyWith w n).WindowsSound := by
  rw [serveCopyWith_eq]
  refine of_windows (h.modWin (w := w) (f := fun x =>
    { x with copyRequest := false, fills := x.fills + 1 }) ?_) rfl
  have hs := h w
  constructor <;> grind [cases Window.Sound]

theorem completeLine {i : Nat} (h : s.WindowsSound) : (s.completeLine w i).WindowsSound := by
  unfold State.completeLine
  split
  · exact modWin (h.of_windows rfl) ((h w).recount _ _ _ _ _ _)
  · exact h.of_windows rfl

theorem beginRetire (h : s.WindowsSound) (hl : (s.win w).state = .live) :
    (s.beginRetire w).WindowsSound := by
  have hs := h w
  refine modWin (h.of_windows rfl) ?_
  constructor <;> grind [cases Window.Sound, Window.resetHold, mapSegment_win]

theorem takeLoad (h : s.WindowsSound) : (s.takeLoad w).WindowsSound := by
  have hs := h w
  refine modWin (h.of_windows rfl) ?_
  constructor <;> grind [cases Window.Sound, Window.resetHold, Window.loaded, mapSegment_win]

theorem dropWindows {ws : List WindowId} (h : s.WindowsSound) : (s.dropWindows ws).WindowsSound := by
  refine of_windows (forWindows_keeps ws (fun w _ t ht => ?_) s h) (orphanSlots_windows _ ws)
  have hs := ht w
  refine modWin (ht.of_windows rfl) ?_
  constructor <;> grind [cases Window.Sound, Window.resetHold, Window.dropped, mapSegment_win]

theorem reset_sound : Window.reset.Sound := by
  constructor <;> simp [Window.reset, Policy.reset]

theorem move (m : Move s t) (h : s.WindowsSound) : t.WindowsSound := by
  cases m with
  | channel l => exact h.of_windows rfl
  | answered r st d hp => exact h.of_windows rfl
  | forwarded r cls w a p hp hi hw =>
    cases w with
    | none => exact h.of_windows rfl
    | some w => exact modWin (h.of_windows rfl) (Window.Sound.countForward (h w) cls p)
  | @filled _ _ k hp hn hl hi he hk =>
    exact modWin (h.of_windows rfl) ((h k.window).recount _ _ _ _ _ _)
  | accepted hr => exact h.of_windows rfl
  | queued q => exact h.of_windows rfl
  | @ended _ e he st data =>
    unfold State.endEntry
    cases e.window with
    | none => exact h.of_windows rfl
    | some w =>
      exact of_windows (s := s.modWin w fun x => x.countResponse e)
        (h.modWin ((h w).countResponse e)) rfl
  | reworked hn hl => exact h.of_windows rfl
  | completed hn hk => exact h.completeLine.answerHeld.release
  | @failed _ k hn hk =>
    exact release (answerHeld (h.of_windows (t := s.modLine k.window k.line _) rfl))
  | copyDone hn hk => exact h.copyDone
  | copyFailed hn hk => exact h.copyFailed
  | freed hn hk => exact h.of_windows rfl
  | served hw hn => exact h.serveCopyWith
  | walked hw => exact h.walkFrom (by simp [Window.flattenDrained] at hw; exact hw.1.1.1)
  | @changed w c hc => exact h.changed (hc.sound (h w))
  | @flipped w hc => rw [State.flipAt, takeFlip_eq]; exact h.settled_promptTest ((h w).afterFlip hc.1)
  | @cleared w hd =>
    rw [State.clearAt, takeClear_eq]; exact h.settled_promptTest ((h w).afterClear hd.1)
  | raised n => exact h.of_windows rfl
  | lines hf => exact h.of_windows rfl
  | port hq hs => exact h.of_windows rfl
  | emptied hm => exact h.of_windows rfl
  | roles m => exact h.of_windows rfl
  | settings c => exact h.of_windows rfl
  | running b => exact h.of_windows rfl
  | @geometry w hw g =>
    have hs := h w
    exact h.modWin ⟨hs.kind, hs.timer, hs.cursor, hs.request, hs.armed, hs.held, hs.acknowledged,
      hs.releasing, hs.event, hs.manual, hs.forced, hs.commit, hs.prompt⟩
  | loaded hw hb hg ho hm => exact h.takeLoad
  | retired hl => exact h.beginRetire hl
  | dropped hn hw => exact h.dropWindows
  | reset =>
    intro w
    have hw : s.assertReset.win w = Window.reset := by
      simp [State.win, State.assertReset, State.reset]
    rw [hw]
    exact reset_sound

end State.WindowsSound

/-- Settles O8: the changes that commands are made of keep the records sound one by one. -/
theorem everyStepKeepsTheWindowsSound : Obligations.EveryStepKeepsTheWindowsSound := fun _ _ =>
  step_keeps (fun _ _ h => h.of_windows rfl) fun m h => h.move m

end Sys2Proof.Machine

/-! O6: every change of `Move` keeps the line map sound. -/

namespace Sys2Proof.Machine

/-- The entry is not both pending and filling (R38). -/
def LineEntry.Sound (e : LineEntry) : Prop := ¬(e.pending = true ∧ e.filling = true)

theorem LineEntry.Sound.of_not_pending {e : LineEntry} (h : e.pending = false) : e.Sound :=
  fun he => absurd (h.symm.trans he.1) nofun

theorem LineEntry.Sound.of_not_filling {e : LineEntry} (h : e.filling = false) : e.Sound :=
  fun he => absurd (h.symm.trans he.2) nofun

namespace State.MapSound

variable {s t : State} {w : WindowId} {n : SlotId} {k : SlotWork}

theorem of_lineMap (h : s.MapSound) (e : t.lineMap = s.lineMap) : t.MapSound := by
  unfold State.MapSound
  rw [e]
  exact h

theorem lineEntry (h : s.MapSound) (w : WindowId) (i : Nat) : (s.lineEntry w i).Sound := h.2 _

theorem modLine {i : Nat} {f : LineEntry → LineEntry} (h : s.MapSound)
    (hf : (f (s.lineEntry w i)).Sound) : (s.modLine w i f).MapSound := by
  refine ⟨LineMap.wf_write h.1 _ _, fun j => ?_⟩
  show ((s.lineMap.write _ _).entry j).Sound
  by_cases hi : (s.win w).geometry.entryIndex i < Config.lineEntries
  · rw [LineMap.entry_write h.1 hi]
    split
    · exact hf
    · exact h.2 j
  · rw [LineMap.write_past _ (not_lt.mp hi)]
    exact h.2 j

theorem mapSegment {f : LineEntry → LineEntry} (h : s.MapSound)
    (hr : f LineEntry.reset = LineEntry.reset) (hf : ∀ e, e.Sound → (f e).Sound) :
    (s.mapSegment w f).MapSound := by
  refine ⟨LineMap.wf_mapRange h.1 _ _ _, fun j => ?_⟩
  show ((s.lineMap.mapRange _ _ _).entry j).Sound
  rw [LineMap.entry_mapRange h.1 _ _ hr]
  split
  · exact hf _ (h.2 j)
  · exact h.2 j

theorem mapSegment_flipped (h : s.MapSound) : (s.mapSegment w LineEntry.flipped).MapSound :=
  h.mapSegment flipped_reset fun e _ => .of_not_pending (flipped_pending e)

theorem mapSegment_unpended (h : s.MapSound) : (s.mapSegment w LineEntry.unpended).MapSound :=
  h.mapSegment unpended_reset fun _ _ => .of_not_pending rfl

theorem mapSegment_reset (h : s.MapSound) : (s.mapSegment w fun _ => LineEntry.reset).MapSound :=
  h.mapSegment rfl fun _ _ => .of_not_pending rfl

theorem changed {c : WindowChange} (h : s.MapSound) : (s.changed w c).MapSound := by
  refine of_lineMap (s := s.flippedMap w c.flips) ?_ rfl
  unfold State.flippedMap
  split
  · exact h.mapSegment_flipped
  · exact h

theorem settled {f : LineEntry → LineEntry} {g : LineInterface → LineInterface} {x : Window}
    {l : List Notice} (h : (s.mapSegment w f).MapSound) : (s.settled w f g x l).MapSound :=
  h.of_lineMap rfl

theorem promptTest (h : s.MapSound) : (s.promptTest w).MapSound := by
  rw [promptTest_eq]; exact h.changed

theorem walkFrom {i : Nat} (h : s.MapSound) : (s.walkFrom w i).MapSound := by
  unfold State.walkFrom
  dsimp only
  split
  · exact h.mapSegment_reset.of_lineMap rfl
  · exact h.of_lineMap rfl

theorem answerHeld {x : Option HeldWrite} {st : Status} (h : s.MapSound) :
    (s.answerHeld x st).MapSound := by cases x <;> exact h.of_lineMap rfl

theorem completeLine {i : Nat} (h : s.MapSound) : (s.completeLine w i).MapSound := by
  unfold State.completeLine
  split
  · exact of_lineMap (s := s.modLine w i fun e => { e with pending := true, filling := false })
      (h.modLine (.of_not_filling rfl)) rfl
  · exact h.modLine (.of_not_filling rfl)

theorem becomeActive {c : HoldSource} (h : s.MapSound) : (s.becomeActive w c).MapSound := by
  obtain ⟨x, -, e⟩ := becomeActive_eq s w c
  exact e ▸ h.of_lineMap rfl

theorem evaluateHold (h : s.MapSound) : (s.evaluateHold w).MapSound := by
  unfold State.evaluateHold
  split
  · exact h.becomeActive
  · exact h

theorem copyDone (h : s.MapSound) : (s.copyDone n k).MapSound := by
  have published : ((s.release n k.window).modLine k.window k.line
      fun e => { e with published := .a }).MapSound :=
    modLine (h.of_lineMap rfl) (h.2 _)
  unfold State.copyDone
  dsimp only
  split
  · exact published.walkFrom
  · exact published

theorem copyFailed (h : s.MapSound) : (s.copyFailed n k).MapSound := by
  unfold State.copyFailed
  dsimp only
  split
  · exact evaluateHold (h.of_lineMap rfl)
  · exact h.of_lineMap rfl

theorem dropRecord (h : s.MapSound) : (s.dropRecord w).MapSound :=
  of_lineMap (s := s.mapSegment w fun _ => LineEntry.reset) h.mapSegment_reset rfl

theorem dropWindows {ws : List WindowId} (h : s.MapSound) : (s.dropWindows ws).MapSound :=
  of_lineMap (s := s.forWindows ws fun w u => u.dropRecord w)
    (forWindows_keeps (f := fun w u => u.dropRecord w) ws (fun _ _ _ ht => ht.dropRecord) s h)
    ((orphanSlots_spec ws allSlots (by decide) (s.forWindows ws fun w u => u.dropRecord w)).1
      .lineMap (by simp))

theorem move (m : Move s t) (h : s.MapSound) : t.MapSound := by
  cases m with
  | channel l => exact h.of_lineMap rfl
  | answered r st d hp => exact h.of_lineMap rfl
  | forwarded r cls w a p hp hi hw => cases w <;> exact h.of_lineMap rfl
  | @filled r _ k hp hn hl hi he hk =>
    have hm : ((s.takePlace r).modLine k.window k.line fun e => { e with filling := true }).MapSound :=
      modLine (h.of_lineMap rfl) (.of_not_pending he.1)
    exact hm.of_lineMap rfl
  | accepted hr => exact h.of_lineMap rfl
  | queued q => exact h.of_lineMap rfl
  | @ended _ e he st data =>
    unfold State.endEntry
    cases e.window <;> exact h.of_lineMap rfl
  | reworked hn hl => exact h.of_lineMap rfl
  | completed hn hk => exact of_lineMap h.completeLine.answerHeld rfl
  | failed hn hk => exact of_lineMap (answerHeld (h.modLine (.of_not_filling rfl))) rfl
  | copyDone hn hk => exact h.copyDone
  | copyFailed hn hk => exact h.copyFailed
  | freed hn hk => exact h.of_lineMap rfl
  | served hw hn => rw [serveCopyWith_eq]; exact h.of_lineMap rfl
  | walked hw => exact h.walkFrom
  | changed hc => exact h.changed
  | flipped hc => rw [State.flipAt, takeFlip_eq]; exact (settled h.mapSegment_flipped).promptTest
  | cleared hd => rw [State.clearAt, takeClear_eq]; exact (settled h.mapSegment_unpended).promptTest
  | raised n => exact h.of_lineMap rfl
  | lines hf => exact h.of_lineMap rfl
  | port hq hs => exact h.of_lineMap rfl
  | emptied hm => exact h.of_lineMap rfl
  | roles m => exact h.of_lineMap rfl
  | settings c => exact h.of_lineMap rfl
  | running b => exact h.of_lineMap rfl
  | geometry hw g => exact h.of_lineMap rfl
  | loaded hw hb hg ho hm => exact h.mapSegment_reset.of_lineMap rfl
  | retired hl => exact h.mapSegment_unpended.of_lineMap rfl
  | dropped hn hw => exact h.dropWindows
  | reset =>
    refine ⟨reset_lineMap_wf, fun i => LineEntry.Sound.of_not_pending (e := (LineMap.mk []).entry i) ?_⟩
    simp [LineEntry.reset]

end State.MapSound

/-- Settles O6: each change of `Move` sets at most one of the two marks of an entry. -/
theorem everyStepKeepsTheMapSound : Obligations.EveryStepKeepsTheMapSound := fun _ _ =>
  step_keeps (fun _ _ h => h) fun m h => h.move m

end Sys2Proof.Machine

/-! ## Counting slots and entries

How the counts of slots in use and of occupied entries follow a change of one slot or entry, and what
orphaning makes of them. -/

namespace Sys2Proof.Machine

variable {s t : State} {n : SlotId}

theorem slots_toList (s : State) : s.slots.toList = allSlots.map s.slot :=
  List.ext_getElem (by simp [allSlots]) fun i hi _ => by
    have hi : i < 4 := by simpa using hi
    interval_cases i <;> rfl

theorem slotsWith_eq_countP (s : State) (p : SlotWork → Bool) :
    s.slotsWith p = allSlots.countP fun n => (s.slot n).any p := by
  rw [State.slotsWith, slots_toList, List.countP_map]; rfl

theorem slotsWith_of_slots (e : t.slots = s.slots) (p : SlotWork → Bool) :
    t.slotsWith p = s.slotsWith p := by rw [State.slotsWith, e]; rfl

theorem entriesWith_of_table (e : t.table = s.table) (p : InFlight → Bool) :
    t.entriesWith p = s.entriesWith p := by rw [State.entriesWith, e]; rfl

/-- Replacing one element of a list, as a balance. -/
theorem countP_set_add {α : Type} (p : α → Bool) {l : List α} {i : Nat} (h : i < l.length) (a : α) :
    (l.set i a).countP p + (p l[i]).toNat = l.countP p + (p a).toNat := by
  rw [List.countP_set h]
  have : p l[i] = true → 0 < l.countP p := fun hp =>
    List.countP_pos_iff.mpr ⟨l[i], List.getElem_mem h, hp⟩
  cases hi : p l[i] <;> cases ha : p a <;> simp_all

theorem slotsWith_setSlot (s : State) (n : SlotId) (k : Option SlotWork) (p : SlotWork → Bool) :
    (s.setSlot n k).slotsWith p + ((s.slot n).any p).toNat = s.slotsWith p + (k.any p).toNat := by
  have h := countP_set_add (fun x : Option SlotWork => x.any p) (l := s.slots.toList) (i := n.val)
    (by simp) k
  simpa [State.slotsWith, State.setSlot, State.slot, Vector.toList_set] using h

theorem entriesWith_setEntry (s : State) (i : EntryId) (e : Option InFlight) (p : InFlight → Bool) :
    (s.setEntry i e).entriesWith p + ((s.entry i).any p).toNat
      = s.entriesWith p + (e.any p).toNat := by
  have h := countP_set_add (fun x : Option InFlight => x.any p) (l := s.table.toList) (i := i.val)
    (by simp) e
  simpa [State.entriesWith, State.setEntry, State.entry, Vector.toList_set] using h

theorem slot_of_freeSlot (h : s.freeSlot = some n) : s.slot n = none := by
  simpa using List.find?_some h

theorem entry_of_freeEntry {i : EntryId} (h : s.freeEntry = some i) : s.entry i = none := by
  simpa using List.find?_some h

/-- A slot in use counts. -/
theorem slotsWith_pos {k : SlotWork} {p : SlotWork → Bool} (h : s.slot n = some k)
    (hp : p k = true) : 0 < s.slotsWith p := by
  rw [slotsWith_eq_countP, List.countP_pos_iff]
  exact ⟨n, mem_allSlots n, by simp [h, hp]⟩

theorem entriesWith_pos {i : EntryId} {e : InFlight} {p : InFlight → Bool} (h : s.entry i = some e)
    (hp : p e = true) : 0 < s.entriesWith p :=
  List.countP_pos_iff.mpr ⟨s.table[i.val], by simp, by
    have : s.table[i.val] = some e := h
    simp [this, hp]⟩

/-! ### The slots after a drop -/

theorem slot_dropWindows (s : State) (ws : List WindowId) (n : SlotId) :
    (s.dropWindows ws).slot n = orphanedWork (fun w => decide (w ∈ ws)) (s.slot n) := by
  have slots : (s.forWindows ws fun w u => u.dropRecord w).slots = s.slots :=
    forWindows_keeps (P := fun u => u.slots = s.slots) (f := fun w u => u.dropRecord w) ws
      (fun _ _ _ hu => hu) s rfl
  have h := (orphanSlots_spec ws allSlots (by decide)
    (s.forWindows ws fun w u => u.dropRecord w)).2.1 n
  rw [if_pos (mem_allSlots n)] at h
  refine h.trans ?_
  rw [State.slot, slots]
  rfl

theorem hport_dropWindows (s : State) (ws : List WindowId) :
    (s.dropWindows ws).hport = { s.hport with
      responses := s.hport.responses ++
        allSlots.filterMap fun n => orphanAnswer (fun w => decide (w ∈ ws)) (s.slot n) } := by
  have same : (s.forWindows ws fun w u => u.dropRecord w).slots = s.slots
      ∧ (s.forWindows ws fun w u => u.dropRecord w).hport = s.hport :=
    forWindows_keeps (P := fun u => u.slots = s.slots ∧ u.hport = s.hport)
      (f := fun w u => u.dropRecord w) ws (fun _ _ _ hu => hu) s ⟨rfl, rfl⟩
  have h := (orphanSlots_spec ws allSlots (by decide)
    (s.forWindows ws fun w u => u.dropRecord w)).2.2
  simp only [State.slot, same.1, same.2] at h
  exact h

theorem only_dropWindows (s : State) (ws : List WindowId) :
    Only [.windows, .lineMap, .slots, .hport] s (s.dropWindows ws) :=
  Only.trans (t := s.forWindows ws fun w u => u.dropRecord w)
    (forWindows_keeps (P := fun u => Only [.windows, .lineMap, .slots, .hport] s u)
      (f := fun w u => u.dropRecord w) ws
      (fun w _ u hu => hu.trans (Only.trans ((only_mapSegment u w fun _ => LineEntry.reset).mono
        (by decide)) ((only_modWin _ w _).mono (by decide)))) s (Only.refl _ _))
    ((orphanSlots_spec ws allSlots (by decide) _).1.mono (by decide))

end Sys2Proof.Machine

/-! O7: every change of `Move` keeps the account of places, the notice queue with the record that READ
NOTICE shows, and the pulse, each by itself. -/

namespace Sys2Proof.Machine

variable {s t : State} {w : WindowId} {n : SlotId} {k : SlotWork}

/-! ### The account of places -/

/-- The slots that hold a write. -/
def State.writesHeld (s : State) : Nat := s.slotsWith fun k => k.held.isSome

/-- The entries in use. -/
def State.inFlight (s : State) : Nat := s.entriesWith fun _ => true

/-- Every held place belongs to one accepted request without an accepted response (R125). -/
structure State.PlacesSound (s : State) : Prop where
  places : s.hport.placesHeld ≤ 48
  account : s.hport.placesHeld = s.inFlight + s.writesHeld + s.hport.responses.length
  copies : ∀ n k, s.slot n = some k → k.kind = .flattenCopy → k.held = none
  retiring : ∀ n k, s.slot n = some k → k.phase = .retiring → k.held = none

theorem orphanedWork_held (p : WindowId → Bool) (x : Option SlotWork) :
    (x.any fun k => k.held.isSome).toNat
      = ((orphanedWork p x).any fun k => k.held.isSome).toNat + (orphanAnswer p x).toList.length := by
  cases x with
  | none => rfl
  | some k =>
    simp only [orphanedWork, orphanAnswer]
    by_cases hc : p k.window = true ∧ k.orphaned = false
    · simp only [if_pos hc]
      by_cases hp : k.phase = .waiting <;> cases hh : k.held <;> simp [hp, hh]
    · simp [if_neg hc]

/-- The writes held by slots are answered, or still held, after the slots are orphaned (R70). -/
theorem orphaned_held (p : WindowId → Bool) (f : SlotId → Option SlotWork) :
    ∀ ns : List SlotId, (ns.countP fun n => (f n).any fun k => k.held.isSome)
      = (ns.countP fun n => (orphanedWork p (f n)).any fun k => k.held.isSome)
        + (ns.filterMap fun n => orphanAnswer p (f n)).length
  | [] => rfl
  | n :: ns => by
    have ih := orphaned_held p f ns
    have one := orphanedWork_held p (f n)
    simp only [List.countP_cons, List.filterMap_cons]
    cases h : orphanAnswer p (f n) <;>
      cases ha : (f n).any (fun k => k.held.isSome) <;>
      cases hb : (orphanedWork p (f n)).any (fun k => k.held.isSome) <;>
      simp [h, ha, hb] at one ⊢ <;> omega

/-- The entry of a forwarded request (R126). -/
def forwardedEntry (r : HRequest) (cls : TrackerClass) (w : Option WindowId) (p : Option Bool) :
    InFlight :=
  { requester := r.requester, tag := r.tag, address := r.address, kind := accessKind r.access
    beats := accessBeats r.access, cls, window := w, parity := p }

namespace State.PlacesSound

theorem of_parts (h : s.PlacesSound) (hp : t.hport.placesHeld = s.hport.placesHeld)
    (hr : t.hport.responses = s.hport.responses) (ht : t.table = s.table) (hs : t.slots = s.slots) :
    t.PlacesSound where
  places := hp ▸ h.places
  account := by
    rw [hp, hr, State.inFlight, State.writesHeld, entriesWith_of_table ht, slotsWith_of_slots hs]
    exact h.account
  copies n k hk := h.copies n k (by rw [State.slot, hs] at hk; exact hk)
  retiring n k hk := h.retiring n k (by rw [State.slot, hs] at hk; exact hk)

theorem of_only {ps : List Part} (h : s.PlacesSound) (o : Only ps s t)
    (hp : .hport ∉ ps ∧ .table ∉ ps ∧ .slots ∉ ps) : t.PlacesSound := by
  have hh : t.hport = s.hport := o .hport hp.1
  exact h.of_parts (by rw [hh]) (by rw [hh]) (o .table hp.2.1) (o .slots hp.2.2)

/-- A slot takes new work, and the account of the places stands. -/
theorem of_setSlot {x : Option SlotWork} (h : s.PlacesSound) (hs : t.slots = (s.setSlot n x).slots)
    (ht : t.table = s.table) (hp : t.hport.placesHeld ≤ 48)
    (ha : t.hport.placesHeld + s.hport.responses.length + ((s.slot n).any fun k => k.held.isSome).toNat
      = s.hport.placesHeld + t.hport.responses.length + (x.any fun k => k.held.isSome).toNat)
    (hx : ∀ k, x = some k → (k.kind = .flattenCopy → k.held = none)
      ∧ (k.phase = .retiring → k.held = none)) : t.PlacesSound := by
  have slot (m : SlotId) : t.slot m = (s.setSlot n x).slot m := by rw [State.slot, hs]; rfl
  refine ⟨hp, ?_, fun m k hk => ?_, fun m k hk => ?_⟩
  · have count := slotsWith_setSlot s n x fun k => k.held.isSome
    have account := h.account
    simp only [State.inFlight, State.writesHeld, entriesWith_of_table ht, slotsWith_of_slots hs]
      at account ⊢
    omega
  · rw [slot, slot_setSlot] at hk
    split at hk
    · exact (hx k hk).1
    · exact h.copies m k hk
  · rw [slot, slot_setSlot] at hk
    split at hk
    · exact (hx k hk).2
    · exact h.retiring m k hk

/-- An entry is taken or freed, and the account of the places stands. -/
theorem of_setEntry {i : EntryId} {x : Option InFlight} (h : s.PlacesSound)
    (ht : t.table = (s.setEntry i x).table) (hs : t.slots = s.slots) (hp : t.hport.placesHeld ≤ 48)
    (ha : t.hport.placesHeld + s.hport.responses.length + (s.entry i).isSome.toNat
      = s.hport.placesHeld + t.hport.responses.length + x.isSome.toNat) : t.PlacesSound := by
  have slot (m : SlotId) : t.slot m = s.slot m := by rw [State.slot, hs]; rfl
  refine ⟨hp, ?_, fun m k hk => h.copies m k (slot m ▸ hk), fun m k hk => h.retiring m k (slot m ▸ hk)⟩
  have count := entriesWith_setEntry s i x fun _ => true
  have account := h.account
  simp only [State.inFlight, State.writesHeld, entriesWith_of_table ht, slotsWith_of_slots hs]
    at account ⊢
  cases he : s.entry i <;> cases x <;> simp [he] at count ha <;> omega

/-- A slot that holds no write becomes FREE. -/
theorem setSlot_none (h : s.PlacesSound) (hn : s.slot n = some k) (hk : k.held = none) :
    (s.setSlot n none).PlacesSound :=
  h.of_setSlot (n := n) (x := none) rfl rfl h.places (by simp [hn, hk]) nofun

/-- A slot's held write is answered, and the slot becomes FREE (R62, R65). -/
theorem answerHeld_setSlot {st : Status} (h : s.PlacesSound) (hn : s.slot n = some k)
    (hs : t.slots = (s.setSlot n none).slots) (ht : t.table = s.table)
    (hp : t.hport = (s.answerHeld k.held st).hport) : t.PlacesSound := by
  refine h.of_setSlot (n := n) (x := none) hs ht ?_ ?_ nofun
  · rw [hp]; cases k.held <;> exact h.places
  · rw [hp, hn]
    cases hk : k.held with
    | none => simp [hk, State.answerHeld]
    | some x => simp [hk, State.answerHeld, State.respond, State.modHPort]; omega

theorem walkFrom {i : Nat} (h : s.PlacesSound) : (s.walkFrom w i).PlacesSound := by
  unfold State.walkFrom
  dsimp only
  split <;> exact h.of_parts rfl rfl rfl rfl

theorem promptTest (h : s.PlacesSound) : (s.promptTest w).PlacesSound := by
  rw [promptTest_eq]
  exact h.of_only (only_changed _ _ _) (by decide)

theorem settled {f : LineEntry → LineEntry} {g : LineInterface → LineInterface} {x : Window}
    {l : List Notice} (h : s.PlacesSound) : (s.settled w f g x l).PlacesSound :=
  h.of_only (only_settled s w f g x l) (by decide)

theorem evaluateHold (h : s.PlacesSound) : (s.evaluateHold w).PlacesSound := by
  unfold State.evaluateHold
  split
  · next c _ =>
    obtain ⟨x, -, e⟩ := becomeActive_eq s w c
    exact e ▸ h.of_parts rfl rfl rfl rfl
  · exact h

theorem dropWindows {ws : List WindowId} (h : s.PlacesSound) : (s.dropWindows ws).PlacesSound := by
  have o := only_dropWindows s ws
  have hp := hport_dropWindows s ws
  have work (n : SlotId) (k : SlotWork) (hk : (s.dropWindows ws).slot n = some k) :
      s.slot n = some k ∨ k.held = none := by
    rw [slot_dropWindows] at hk
    cases hs : s.slot n with
    | none => simp [hs, orphanedWork] at hk
    | some j => grind [orphanedWork]
  refine ⟨by rw [hp]; exact h.places, ?_, fun n k hk hc => ?_, fun n k hk hc => ?_⟩
  · have account := h.account
    simp only [State.inFlight, State.writesHeld, slotsWith_eq_countP, slot_dropWindows,
      entriesWith_of_table (o .table (by decide)), hp, List.length_append] at account ⊢
    rw [orphaned_held (fun w => decide (w ∈ ws)) s.slot] at account
    omega
  · exact (work n k hk).elim (fun hs => h.copies n k hs hc) id
  · exact (work n k hk).elim (fun hs => h.retiring n k hs hc) id

theorem takePlace_answerLocally {r : HRequest} {st : Status} {d : Bool} (h : s.PlacesSound)
    (hp : s.hport.placesHeld < 48) : ((s.takePlace r).answerLocally r st d).PlacesSound := by
  refine ⟨hp, ?_, h.copies, h.retiring⟩
  have account := h.account
  show s.hport.placesHeld + 1 = s.inFlight + s.writesHeld + (s.hport.responses ++ [_]).length
  rw [List.length_append, List.length_singleton]
  omega

/-- The host side accepts a response, and its place is released (R125). -/
theorem acceptResponse (h : s.PlacesSound) (hr : s.hport.responses ≠ []) :
    (s.modHPort HPort.acceptResponse).PlacesSound := by
  have account := h.account
  cases he : s.hport.responses with
  | nil => exact absurd he hr
  | cons r rest =>
    have hp : (s.modHPort HPort.acceptResponse).hport.placesHeld = s.hport.placesHeld - 1
        ∧ (s.modHPort HPort.acceptResponse).hport.responses = rest := by
      simp only [State.modHPort, HPort.acceptResponse, he]
      exact ⟨trivial, trivial⟩
    rw [he, List.length_cons] at account
    refine ⟨?_, ?_, h.copies, h.retiring⟩
    · rw [hp.1]; exact le_trans (Nat.sub_le _ _) h.places
    · rw [hp.1, hp.2]
      show _ = s.inFlight + s.writesHeld + _
      omega

theorem move (m : Move s t) (h : s.PlacesSound) : t.PlacesSound := by
  cases m with
  | channel l => exact h.of_parts rfl rfl rfl rfl
  | answered r st d hp => exact h.takePlace_answerLocally hp
  | @forwarded r i cls w a p hp hi hw =>
    refine h.of_setEntry (i := i) (x := some (forwardedEntry r cls w p)) (by cases w <;> rfl) (by cases w <;> rfl)
      (by cases w <;> exact hp) ?_
    cases w <;> simp [entry_of_freeEntry hi, State.forward, State.takePlace, HPort.setOutstanding] <;>
      omega
  | @filled r n k hp hn hl hi he hk =>
    refine h.of_setSlot (n := n) (x := some k) rfl rfl hp ?_ fun j hj => ?_
    · show s.hport.placesHeld + 1 + _ + _ = _ + s.hport.responses.length + _
      simp [slot_of_freeSlot hn, hk.2.2]
      omega
    · obtain rfl := Option.some.inj hj
      refine ⟨fun hc => ?_, fun hp => absurd hp hk.2.1⟩
      exact hk.1.2.2.elim (fun e => absurd (hc.symm.trans e) nofun) fun e => absurd (hc.symm.trans e) nofun
  | accepted hr => exact h.acceptResponse hr
  | queued q => exact h.of_parts rfl rfl rfl rfl
  | @ended i e he st data =>
    refine h.of_setEntry (i := i) (x := none) (by unfold State.endEntry; cases e.window <;> rfl)
      (by unfold State.endEntry; cases e.window <;> rfl) ?_ ?_
    · unfold State.endEntry; cases e.window <;> exact h.places
    · unfold State.endEntry; cases e.window <;> simp [he] <;> omega
  | @reworked n k l hn hl =>
    refine h.of_setSlot (n := n) (x := some l) rfl rfl h.places ?_ fun j hj => ?_
    · simp [hn, hl.held, State.setSlot]
    · obtain rfl := Option.some.inj hj
      exact ⟨fun hc => hl.held ▸ h.copies n k hn (hl.kind ▸ hc), fun hp => absurd hp hl.phase⟩
  | @completed n k hn hk => 
    refine h.answerHeld_setSlot (st := .okay) hn ?_ ?_ ?_
    all_goals unfold State.fillComplete State.completeLine; cases k.held <;> (split <;> rfl)
  | @failed n k hn hk =>
    refine h.answerHeld_setSlot (st := .error) hn ?_ ?_ ?_
    all_goals cases k.held <;> rfl
  | @copyDone n k hn hk =>
    have held := h.copies n k hn (by simp_all [SlotWork.isCopy])
    have published : ((s.release n k.window).modLine k.window k.line
        fun e => { e with published := .a }).PlacesSound :=
      (h.setSlot_none hn held).of_parts rfl rfl rfl rfl
    unfold State.copyDone
    dsimp only
    split
    · exact published.walkFrom
    · exact published
  | @copyFailed n k hn hk =>
    have held := h.copies n k hn (by simp_all [SlotWork.isCopy])
    have released := h.setSlot_none hn held
    unfold State.copyFailed
    dsimp only
    split
    · exact evaluateHold (released.of_parts rfl rfl rfl rfl)
    · exact released.of_parts rfl rfl rfl rfl
  | @freed n k hn hk => exact h.setSlot_none hn (h.retiring n k hn hk)
  | @served w n hw hn =>
    rw [serveCopyWith_eq]
    refine h.of_setSlot (n := n) (x := some (copyWork w (((s.win w).cursor).getD 0))) rfl rfl h.places
      ?_ fun j hj => ?_
    · simp [slot_of_freeSlot hn, copyWork, State.issue, State.setIssueQueue, State.setSlot, State.modWin]
    · obtain rfl := Option.some.inj hj
      exact ⟨fun _ => rfl, fun _ => rfl⟩
  | walked hw => exact h.walkFrom
  | changed hc => exact h.of_only (only_changed _ _ _) (by decide)
  | flipped hc => rw [State.flipAt, takeFlip_eq]; exact h.settled.promptTest
  | cleared hd => rw [State.clearAt, takeClear_eq]; exact h.settled.promptTest
  | raised n => exact h.of_parts rfl rfl rfl rfl
  | lines hf => exact h.of_parts rfl rfl rfl rfl
  | port hq hs => exact h.of_parts rfl rfl rfl rfl
  | emptied hm => exact h.of_parts rfl rfl rfl rfl
  | roles m => exact h.of_parts rfl rfl rfl rfl
  | settings c => exact h.of_parts rfl rfl rfl rfl
  | running b => exact h.of_parts rfl rfl rfl rfl
  | geometry hw g => exact h.of_parts rfl rfl rfl rfl
  | loaded hw hb hg ho hm => exact h.of_parts rfl rfl rfl rfl
  | retired hl => exact h.of_parts rfl rfl rfl rfl
  | dropped hn hw => exact h.dropWindows
  | reset =>
    have free (n : SlotId) : s.assertReset.slot n = none := by fin_cases n <;> rfl
    refine ⟨Nat.zero_le _, ?_, fun n k hk => ?_, fun n k hk => ?_⟩
    · show 0 = State.reset.inFlight + State.reset.writesHeld + 0
      rfl
    · exact absurd ((free n).symm.trans hk) nofun
    · exact absurd ((free n).symm.trans hk) nofun

end State.PlacesSound

/-! ### The notice queue and the port -/

theorem NoticeQueue.length_offer {q : NoticeQueue} (n : Notice) (h : q.records.length ≤ 16) :
    (q.offer n).records.length ≤ 16 := by
  unfold NoticeQueue.offer Config.noticeCapacity
  split
  · simpa using by omega
  · exact h

theorem NoticeQueue.head_offer {q : NoticeQueue} (n : Notice) {r : Notice}
    (h : q.records.head? = some r) : (q.offer n).records.head? = some r := by
  unfold NoticeQueue.offer
  split
  · rw [List.head?_append, h]; rfl
  · exact h

/-- The queue is within its size, and the record READ NOTICE shifts out is its head (R135, R151). -/
def State.NoticesSound (s : State) : Prop :=
  s.notices.records.length ≤ 16 ∧ Shown s.mgmt s.notices

namespace State.NoticesSound

theorem of_parts (h : s.NoticesSound) (hm : t.mgmt = s.mgmt) (hn : t.notices = s.notices) :
    t.NoticesSound := by
  rw [State.NoticesSound, hm, hn]; exact h

theorem offerAll : ∀ (l : List Notice) {s : State}, s.NoticesSound → t.mgmt = s.mgmt →
    t.notices = s.notices.offerAll l → t.NoticesSound
  | [], _, h, hm, hn => h.of_parts hm hn
  | n :: l, s, h, hm, hn => offerAll l (s := s.raise n)
      ⟨NoticeQueue.length_offer n h.1, fun r hr => NoticeQueue.head_offer n (h.2 r hr)⟩ hm hn

theorem changed {c : WindowChange} (h : s.NoticesSound) : (s.changed w c).NoticesSound :=
  h.offerAll c.notices (only_changed s w c .mgmt (by decide)) (changed_notices s w c)

theorem promptTest (h : s.NoticesSound) : (s.promptTest w).NoticesSound := by
  rw [promptTest_eq]; exact h.changed

theorem settled {f : LineEntry → LineEntry} {g : LineInterface → LineInterface} {x : Window}
    {l : List Notice} (h : s.NoticesSound) : (s.settled w f g x l).NoticesSound :=
  h.offerAll l rfl (settled_notices s w f g x l)

theorem raise {r : Notice} (h : s.NoticesSound) : (s.raise r).NoticesSound :=
  h.offerAll [r] rfl rfl

theorem evaluateHold (h : s.NoticesSound) : (s.evaluateHold w).NoticesSound := by
  unfold State.evaluateHold
  split
  · next c _ =>
    obtain ⟨x, -, e⟩ := becomeActive_eq s w c
    exact e ▸ h.offerAll _ rfl (patched_notices s w x _)
  · exact h

theorem walkFrom {i : Nat} (h : s.NoticesSound) : (s.walkFrom w i).NoticesSound := by
  unfold State.walkFrom
  dsimp only
  split
  · exact raise (h.of_parts rfl rfl)
  · exact h.of_parts rfl rfl

theorem move (m : Move s t) (h : s.NoticesSound) : t.NoticesSound := by
  cases m with
  | forwarded r cls w a p hp hi hw => cases w <;> exact h.of_parts rfl rfl
  | @ended i e he st data => unfold State.endEntry; cases e.window <;> exact h.of_parts rfl rfl
  | @completed n k hn hk =>
    unfold State.fillComplete State.completeLine
    cases k.held <;> split <;> exact h.of_parts rfl rfl
  | @failed n k hn hk => cases k.held <;> exact h.of_parts rfl rfl
  | @copyDone n k hn hk =>
    have published : ((s.release n k.window).modLine k.window k.line
      fun e => { e with published := .a }).NoticesSound := h.of_parts rfl rfl
    unfold State.copyDone
    dsimp only
    split
    · exact published.walkFrom
    · exact published
  | copyFailed hn hk =>
    unfold State.copyFailed
    dsimp only
    split
    · refine evaluateHold (raise ?_)
      exact h.of_parts rfl rfl
    · exact h.of_parts rfl rfl
  | served hw hn => rw [serveCopyWith_eq]; exact h.of_parts rfl rfl
  | walked hw => exact h.walkFrom
  | changed hc => exact h.changed
  | flipped hc => rw [State.flipAt, takeFlip_eq]; exact h.settled.promptTest
  | cleared hd => rw [State.clearAt, takeClear_eq]; exact h.settled.promptTest
  | raised n => exact h.raise
  | port hq hs => exact ⟨le_trans hq h.1, hs h.2⟩
  | emptied hm => exact ⟨Nat.zero_le _, fun n hn => absurd (hm.symm.trans hn) nofun⟩
  | dropped hn hw =>
    exact h.of_parts (only_dropWindows s _ .mgmt (by decide)) (only_dropWindows s _ .notices (by decide))
  | reset => exact ⟨Nat.zero_le _, nofun⟩
  | channel | answered | filled | accepted | queued | reworked | freed | lines | roles | settings
  | running | geometry | loaded | retired => exact h.of_parts rfl rfl

end State.NoticesSound

/-! ### The pulse -/

/-- A pulse lasts at most two ticks (R142). -/
def State.PulseSound (s : State) : Prop := s.lines.pulse ≤ 2

namespace State.PulseSound

theorem of_lines (h : s.PulseSound) (e : t.lines = s.lines) : t.PulseSound := by
  rw [State.PulseSound, e]; exact h

theorem of_pulsed {on : Bool} (h : s.PulseSound) (e : t.lines = pulsed on s.lines) : t.PulseSound := by
  rw [State.PulseSound, e, pulsed]
  split
  · exact le_rfl
  · exact h

theorem promptTest (h : s.PulseSound) : (s.promptTest w).PulseSound := by
  rw [promptTest_eq]; exact h.of_pulsed (changed_lines _ _ _)

theorem flipped {f : LineEntry → LineEntry} {x y : Window} {l : List Notice} (h : s.PulseSound) :
    (s.settled w f (flipLines x) y l).PulseSound := by
  rw [State.PulseSound, settled_lines, flipLines]
  split
  · exact le_rfl
  · exact h

theorem walkFrom {i : Nat} (h : s.PulseSound) : (s.walkFrom w i).PulseSound := by
  unfold State.walkFrom
  dsimp only
  split <;> exact h.of_lines rfl

theorem evaluateHold (h : s.PulseSound) : (s.evaluateHold w).PulseSound := by
  unfold State.evaluateHold
  split
  · next c _ =>
    obtain ⟨x, -, e⟩ := becomeActive_eq s w c
    exact e ▸ h.of_lines rfl
  · exact h

theorem move (m : Move s t) (h : s.PulseSound) : t.PulseSound := by
  cases m with
  | forwarded r cls w a p hp hi hw => cases w <;> exact h.of_lines rfl
  | @ended i e he st data => unfold State.endEntry; cases e.window <;> exact h.of_lines rfl
  | @completed n k hn hk =>
    unfold State.fillComplete State.completeLine
    cases k.held <;> split <;> exact h.of_lines rfl
  | @failed n k hn hk => cases k.held <;> exact h.of_lines rfl
  | @copyDone n k hn hk =>
    have published : ((s.release n k.window).modLine k.window k.line
      fun e => { e with published := .a }).PulseSound := h.of_lines rfl
    unfold State.copyDone
    dsimp only
    split
    · exact published.walkFrom
    · exact published
  | copyFailed hn hk =>
    unfold State.copyFailed
    dsimp only
    split
    · refine evaluateHold ?_
      exact h.of_lines rfl
    · exact h.of_lines rfl
  | served hw hn => rw [serveCopyWith_eq]; exact h.of_lines rfl
  | walked hw => exact h.walkFrom
  | changed hc => exact h.of_pulsed (changed_lines _ _ _)
  | flipped hc => rw [State.flipAt, takeFlip_eq]; exact h.flipped.promptTest
  | cleared hd => rw [State.clearAt, takeClear_eq]; exact promptTest (h.of_lines rfl)
  | lines hf => exact le_trans (hf _) h
  | dropped hn hw => exact h.of_lines (only_dropWindows s _ .lines (by decide))
  | reset => exact Nat.zero_le _
  | channel | answered | filled | accepted | queued | reworked | freed | raised | port | emptied | roles
  | settings | running | geometry | loaded | retired => exact h.of_lines rfl

end State.PulseSound

/-! ### Together -/

theorem answersSound_iff (s : State) :
    s.AnswersSound ↔ s.PlacesSound ∧ s.NoticesSound ∧ s.PulseSound :=
  ⟨fun h => ⟨⟨h.places, h.account, h.copiesHoldNothing, h.retiringHoldsNothing⟩,
      ⟨h.notices, h.shown⟩, h.pulse⟩,
    fun ⟨hp, hn, hl⟩ => ⟨hp.places, hn.1, hl, hp.account, hp.copies, hp.retiring, hn.2⟩⟩

/-- Settles O7: each change of `Move` keeps the account of the places, the notice queue and the pulse. -/
theorem everyStepKeepsTheAnswersSound : Obligations.EveryStepKeepsTheAnswersSound := fun _ _ =>
  step_keeps (fun _ _ h => ⟨h.places, h.notices, h.pulse, h.account, h.copiesHoldNothing,
      h.retiringHoldsNothing, h.shown⟩)
    fun m h => by
      obtain ⟨hp, hn, hl⟩ := (answersSound_iff _).mp h
      exact (answersSound_iff _).mpr ⟨hp.move m, hn.move m, hl.move m⟩

end Sys2Proof.Machine

/-! O10: every change of `Move` keeps the counts of outstanding work exact. -/

namespace Sys2Proof.Machine

variable {s t u : State} {v w : WindowId} {n m : SlotId} {k : SlotWork}

/-! ### What the counts of a window count -/

/-- The slots of window `w` that are not orphaned. -/
def SlotWork.worksFor (w : WindowId) (k : SlotWork) : Bool := decide (k.window = w) && !k.orphaned

/-- The entry is one of window `w`. -/
def InFlight.ofWindow (w : WindowId) (e : InFlight) : Bool := decide (e.window = some w)

/-- The entry is a read of window `w` with the epoch parity `p`. -/
def InFlight.readOf (w : WindowId) (p : Bool) (e : InFlight) : Bool :=
  decide (e.window = some w) && decide (e.parity = some p)

/-- The entry is a producer write of window `w`. -/
def InFlight.writeOf (w : WindowId) (e : InFlight) : Bool :=
  decide (e.window = some w) && decide (e.cls = .producerWrite)

/-- The counts of the record are those of the slots and entries that carry the number `w` (R7). -/
structure State.Counts (s : State) (w : WindowId) (x : Window) : Prop where
  fills : x.fills = s.slotsWith (SlotWork.worksFor w)
  requests : x.requests = s.entriesWith (InFlight.ofWindow w)
  reads : ∀ p, x.readCount p = s.entriesWith (InFlight.readOf w p)
  producerWrites : x.producerWrites = s.entriesWith (InFlight.writeOf w)

theorem State.CountsSound.counts (h : s.CountsSound) (w : WindowId) : s.Counts w (s.win w) :=
  ⟨h.fills w, h.requests w, h.reads w, h.producerWrites w⟩

theorem State.CountsSound.of_counts (hc : ∀ w, s.Counts w (s.win w))
    (hr : ∀ n k, s.slot n = some k → (k.phase = .retiring ↔ k.orphaned = true))
    (hcp : ∀ n k, s.slot n = some k → k.kind = .flattenCopy → k.orphaned = false →
      (s.win k.window).state = .flattening ∧ (s.win k.window).requests = 0
        ∧ (s.win k.window).fills = 1 ∧ (s.win k.window).copyRequest = false)
    (hk : ∀ w, (s.win w).copyRequest = true →
      (s.win w).state = .flattening ∧ (s.win w).requests = 0 ∧ (s.win w).fills = 0)
    (hi : ∀ w, (s.win w).state = .off ∨ (s.win w).state = .loading → (s.win w).fills = 0) :
    s.CountsSound :=
  ⟨fun w => (hc w).fills, fun w => (hc w).requests, fun w => (hc w).reads,
    fun w => (hc w).producerWrites, hr, hcp, hk, hi⟩

namespace State.Counts

variable {x y : Window}

theorem of_parts (h : s.Counts w x) (hs : t.slots = s.slots) (ht : t.table = s.table) :
    t.Counts w x where
  fills := h.fills.trans (slotsWith_of_slots hs _).symm
  requests := h.requests.trans (entriesWith_of_table ht _).symm
  reads p := (h.reads p).trans (entriesWith_of_table ht _).symm
  producerWrites := h.producerWrites.trans (entriesWith_of_table ht _).symm

theorem of_counts (h : s.Counts w x) (hc : y.counts = x.counts) : s.Counts w y := by
  simp only [Window.counts, Prod.mk.injEq] at hc
  obtain ⟨h0, h1, hf, hp, hr⟩ := hc
  refine ⟨hf.trans h.fills, hr.trans h.requests, fun p => ?_, hp.trans h.producerWrites⟩
  rw [← h.reads p, Window.readCount, Window.readCount, h0, h1]

/-- A slot takes other work. -/
theorem setSlot {a : Option SlotWork} {f : Nat} (h : s.Counts w x)
    (hs : t.slots = (s.setSlot n a).slots) (ht : t.table = s.table)
    (hf : f + ((s.slot n).any (SlotWork.worksFor w)).toNat
      = x.fills + (a.any (SlotWork.worksFor w)).toNat) : t.Counts w { x with fills := f } := by
  refine ⟨?_, h.requests.trans (entriesWith_of_table ht _).symm,
    fun p => (h.reads p).trans (entriesWith_of_table ht _).symm,
    h.producerWrites.trans (entriesWith_of_table ht _).symm⟩
  have count := slotsWith_setSlot s n a (SlotWork.worksFor w)
  have old := h.fills
  rw [slotsWith_of_slots hs]
  show f = _
  omega

/-- An entry is taken or freed. -/
theorem setEntry {i : EntryId} {e : Option InFlight} (h : s.Counts w x)
    (ht : t.table = (s.setEntry i e).table) (hs : t.slots = s.slots) (hf : y.fills = x.fills)
    (hr : y.requests + ((s.entry i).any (InFlight.ofWindow w)).toNat
      = x.requests + (e.any (InFlight.ofWindow w)).toNat)
    (hp : ∀ p, y.readCount p + ((s.entry i).any (InFlight.readOf w p)).toNat
      = x.readCount p + (e.any (InFlight.readOf w p)).toNat)
    (hw : y.producerWrites + ((s.entry i).any (InFlight.writeOf w)).toNat
      = x.producerWrites + (e.any (InFlight.writeOf w)).toNat) : t.Counts w y := by
  refine ⟨hf.trans (h.fills.trans (slotsWith_of_slots hs _).symm), ?_, fun p => ?_, ?_⟩
  · have count := entriesWith_setEntry s i e (InFlight.ofWindow w)
    have old := h.requests
    rw [entriesWith_of_table ht]
    omega
  · have count := entriesWith_setEntry s i e (InFlight.readOf w p)
    have old := h.reads p
    have new := hp p
    rw [entriesWith_of_table ht]
    omega
  · have count := entriesWith_setEntry s i e (InFlight.writeOf w)
    have old := h.producerWrites
    rw [entriesWith_of_table ht]
    omega

end State.Counts

/-- The flip and the clear keep the counts (R86, R88). -/
theorem keeps_afterFlip {x : Window} (h : x.Running) : x.Keeps x.afterFlip :=
  .of_running rfl rfl rfl h (.inl rfl)

theorem keeps_afterClear {x : Window} (h : x.Running) : x.Keeps x.afterClear :=
  .of_running rfl rfl rfl h (.inl rfl)

/-- A slot in use for window `w` makes its fills positive. -/
theorem fills_pos (h : s.CountsSound) (hn : s.slot n = some k) (ho : k.orphaned = false) :
    0 < (s.win k.window).fills := by
  rw [h.fills]
  exact slotsWith_pos hn (by simp [ho])

/-- A window whose fills are 0 has no copy running. -/
theorem not_copy_of_fills (h : s.CountsSound) (hf : (s.win w).fills = 0) (hn : s.slot n = some k)
    (ho : k.orphaned = false) : k.window ≠ w := by
  rintro rfl
  exact absurd hf (fills_pos h hn ho).ne'

theorem WindowBecomes.win {x : Window} (h : WindowBecomes s t w x) (v : WindowId) :
    t.win v = if v = w then x else s.win v := by
  split
  · next e => exact e ▸ h.1
  · next e => exact h.2 v e

/-- The entry, where there is one, is of window `w` or of none. -/
def OfWindowOnly (w : WindowId) (o : Option InFlight) : Prop :=
  ∀ y, o = some y → ∀ v, y.window = some v → v = w

theorem OfWindowOnly.any_eq_false {o : Option InFlight} (h : OfWindowOnly w o) (hv : v ≠ w)
    {p : InFlight → Bool} (hp : ∀ y, p y = true → y.window = some v) : o.any p = false := by
  cases o with
  | none => rfl
  | some y => exact Bool.eq_false_iff.mpr fun hy => hv (h y rfl v (hp y hy))

/-- The windows of a drop take the record that it leaves, and the others keep theirs (R15). -/
theorem win_dropRecords : ∀ (ws : List WindowId) (s : State),
    (s.forWindows ws fun w u => u.dropRecord w).win v
      = if v ∈ ws then (s.win v).dropped else s.win v
  | [], _ => rfl
  | w :: ws, s => by
    have one : (s.dropRecord w).win v = if v = w then (s.win v).dropped else s.win v := by
      split
      · next e => subst e; exact win_modWin_self _ _ _
      · next e => exact win_modWin_of_ne _ e _
    rw [forWindows_cons, win_dropRecords ws, one]
    have twice (x : Window) : x.dropped.dropped = x.dropped := rfl
    by_cases hv : v = w <;> by_cases hw : v ∈ ws <;> simp_all

theorem win_dropWindows (s : State) (ws : List WindowId) (v : WindowId) :
    (s.dropWindows ws).win v = if v ∈ ws then (s.win v).dropped else s.win v :=
  (win_eq_of_windows (orphanSlots_windows _ ws) v).trans (win_dropRecords ws s)

namespace State.CountsSound

theorem of_parts (h : s.CountsSound) (hw : t.windows = s.windows) (hs : t.slots = s.slots)
    (ht : t.table = s.table) : t.CountsSound := by
  have win (w : WindowId) : t.win w = s.win w := win_eq_of_windows hw w
  have slot (n : SlotId) : t.slot n = s.slot n := by rw [State.slot, hs]; rfl
  refine of_counts (fun w => win w ▸ (h.counts w).of_parts hs ht) (fun n k hn => ?_)
    (fun n k hn => ?_) (fun w => ?_) fun w => ?_
  · exact h.retiring n k (slot n ▸ hn)
  · rw [win]; exact h.copies n k (slot n ▸ hn)
  · rw [win]; exact h.kept w
  · rw [win]; exact h.inactive w

/-- One window takes a record with the same counts. -/
theorem becomes {x : Window} (h : s.CountsSound) (hs : t.slots = s.slots) (ht : t.table = s.table)
    (hb : WindowBecomes s t w x) (hc : x.counts = (s.win w).counts)
    (hcp : (s.win w).state = .flattening → (s.win w).fills ≠ 0 →
      x.state = .flattening ∧ x.copyRequest = (s.win w).copyRequest)
    (hk : x.copyRequest = true → x.state = .flattening ∧ x.requests = 0 ∧ x.fills = 0)
    (hi : x.state = .off ∨ x.state = .loading → x.fills = 0) : t.CountsSound := by
  have slot (n : SlotId) : t.slot n = s.slot n := by rw [State.slot, hs]; rfl
  have hc' := hc
  simp only [Window.counts, Prod.mk.injEq] at hc'
  obtain ⟨-, -, hf, -, hr⟩ := hc'
  refine of_counts (fun v => ?_) (fun n k hn => h.retiring n k (slot n ▸ hn)) (fun n k hn hkc ho => ?_)
    (fun v => ?_) fun v => ?_
  · rw [hb.win v]
    split
    · next e => exact e ▸ ((h.counts w).of_counts hc).of_parts hs ht
    · exact (h.counts v).of_parts hs ht
  · have copy := h.copies n k (slot n ▸ hn) hkc ho
    rw [hb.win k.window]
    split
    · next e =>
      rw [e] at copy
      obtain ⟨hst, hreq, hfl, hcr⟩ := copy
      obtain ⟨hst', hcr'⟩ := hcp hst (by omega)
      exact ⟨hst', hr.trans hreq, hf.trans hfl, hcr'.trans hcr⟩
    · exact copy
  · rw [hb.win v]
    split
    · exact hk
    · exact h.kept v
  · rw [hb.win v]
    split
    · exact hi
    · exact h.inactive v

/-- A slot in use, or FREE, takes other work or becomes FREE, and its window's fills follow. -/
theorem of_setSlot {a : Option SlotWork} {x : Window} (h : s.CountsSound)
    (hs : t.slots = (s.setSlot n a).slots) (ht : t.table = s.table) (hb : WindowBecomes s t w x)
    (hx : t.Counts w x)
    (ho : ∀ v, v ≠ w → ((s.slot n).any (SlotWork.worksFor v)).toNat
      = (a.any (SlotWork.worksFor v)).toNat)
    (ha : ∀ k, a = some k → (k.phase = .retiring ↔ k.orphaned = true)
      ∧ (k.kind = .flattenCopy → k.orphaned = false → k.window = w))
    (hcp : ∀ m k, t.slot m = some k → k.window = w → k.kind = .flattenCopy → k.orphaned = false →
      x.state = .flattening ∧ x.requests = 0 ∧ x.fills = 1 ∧ x.copyRequest = false)
    (hk : x.copyRequest = true → x.state = .flattening ∧ x.requests = 0 ∧ x.fills = 0)
    (hi : x.state = .off ∨ x.state = .loading → x.fills = 0) : t.CountsSound := by
  have slot (m : SlotId) : t.slot m = if m = n then a else s.slot m := by
    rw [← slot_setSlot]; rw [State.slot, hs]; rfl
  refine of_counts (fun v => ?_) (fun m k hm => ?_) (fun m k hm hkc hko => ?_) (fun v => ?_) fun v => ?_
  · rw [hb.win v]
    split
    · next e => exact e ▸ hx
    · next e => exact (h.counts v).setSlot (f := (s.win v).fills) hs ht (by rw [ho v e])
  · rw [slot] at hm
    split at hm
    · exact (ha k hm).1
    · exact h.retiring m k hm
  · rw [hb.win k.window]
    split
    · next e => exact hcp m k hm e hkc hko
    · next e =>
      rw [slot] at hm
      split at hm
      · exact absurd ((ha k hm).2 hkc hko) e
      · exact h.copies m k hm hkc hko
  · rw [hb.win v]
    split
    · exact hk
    · exact h.kept v
  · rw [hb.win v]
    split
    · exact hi
    · exact h.inactive v

/-- An entry of window `w`, or of none, is taken or freed. -/
theorem of_setEntry {i : EntryId} {e : Option InFlight} {x : Window} (h : s.CountsSound)
    (ht : t.table = (s.setEntry i e).table) (hs : t.slots = s.slots) (hb : WindowBecomes s t w x)
    (hx : t.Counts w x) (hy : OfWindowOnly w (s.entry i)) (he : OfWindowOnly w e)
    (hst : x.state = (s.win w).state) (hcr : x.copyRequest = (s.win w).copyRequest)
    (hf : x.fills = (s.win w).fills)
    (hr : (s.win w).state = .flattening → (s.win w).requests = 0 → x.requests = 0) :
    t.CountsSound := by
  have slot (m : SlotId) : t.slot m = s.slot m := by rw [State.slot, hs]; rfl
  refine of_counts (fun v => ?_) (fun m k hm => h.retiring m k (slot m ▸ hm)) (fun m k hm hkc hko => ?_)
    (fun v => ?_) fun v => ?_
  · rw [hb.win v]
    split
    · next hv => exact hv ▸ hx
    · next hv =>
      have same (p : InFlight → Bool) (c : Nat) (hp : ∀ y, p y = true → y.window = some v) :
          c + ((s.entry i).any p).toNat = c + (e.any p).toNat := by
        rw [hy.any_eq_false hv hp, he.any_eq_false hv hp]
      refine (h.counts v).setEntry ht hs rfl ?_ (fun p => ?_) ?_
      · exact same (InFlight.ofWindow v) _ fun _ hp => of_decide_eq_true hp
      · exact same (InFlight.readOf v p) _ fun _ hp =>
          of_decide_eq_true (Bool.and_eq_true_iff.mp hp).1
      · exact same (InFlight.writeOf v) _ fun _ hp =>
          of_decide_eq_true (Bool.and_eq_true_iff.mp hp).1
  · have copy := h.copies m k (slot m ▸ hm) hkc hko
    rw [hb.win k.window]
    split
    · next e =>
      rw [e] at copy
      exact ⟨hst.trans copy.1, hr copy.1 copy.2.1, hf.trans copy.2.2.1, hcr.trans copy.2.2.2⟩
    · exact copy
  · rw [hb.win v]
    split
    · intro hc
      obtain ⟨k1, k2, k3⟩ := h.kept w (hcr ▸ hc)
      exact ⟨hst.trans k1, hr k1 k2, hf.trans k3⟩
    · exact h.kept v
  · rw [hb.win v]
    split
    · rw [hst, hf]; exact h.inactive w
    · exact h.inactive v

/-- An event at one window keeps the counts (R7). -/
theorem keeps {x : Window} (h : s.CountsSound) (hs : t.slots = s.slots) (ht : t.table = s.table)
    (hb : WindowBecomes s t w x) (hk : (s.win w).Keeps x) : t.CountsSound := by
  have hc := hk.counts
  simp only [Window.counts, Prod.mk.injEq] at hc
  obtain ⟨-, -, hf, -, hr⟩ := hc
  have still (hst : (s.win w).state = .flattening) : x.state = .flattening := by
    rcases hk.life with e | ⟨hrun, -⟩ | ⟨hl, -⟩
    · exact e.trans hst
    · exact absurd hrun (by simp [Window.Running, hst])
    · exact absurd (hst.symm.trans hl) nofun
  refine h.becomes hs ht hb hk.counts (fun hst _ => ⟨still hst, hk.request⟩) (fun hcr => ?_) fun hi => ?_
  · obtain ⟨hst, h0, h1⟩ := h.kept w (hk.request ▸ hcr)
    exact ⟨still hst, hr.trans h0, hf.trans h1⟩
  · refine hf.trans (h.inactive w ?_)
    rcases hk.life with e | ⟨-, hrun⟩ | ⟨-, hl⟩
    · exact e ▸ hi
    · exact absurd hrun (by rcases hi with hi | hi <;> simp [Window.Running, hi])
    · exact absurd hi (by simp [hl])

theorem changed {c : WindowChange} (h : s.CountsSound) (hc : (s.win w).Admits c) :
    (s.changed w c).CountsSound :=
  h.keeps (only_changed s w c .slots (by decide)) (only_changed s w c .table (by decide))
    ⟨changed_win_self s w c, fun _ hv => changed_win_of_ne s hv c⟩ hc.toKeeps

theorem promptTest (h : s.CountsSound) : (s.promptTest w).CountsSound := by
  rw [promptTest_eq]; exact h.changed (admits_promptChange _ w)

theorem settled {f : LineEntry → LineEntry} {g : LineInterface → LineInterface} {x : Window}
    {l : List Notice} (h : s.CountsSound) (hk : (s.win w).Keeps x) :
    (s.settled w f g x l).CountsSound :=
  h.keeps rfl rfl (windowBecomes_settled s w f g x l) hk

/-- The flatten logic walks a window with nothing in flight (R116, R117). -/
theorem walkFrom {i : Nat} (h : s.CountsSound) (hst : (s.win w).state = .flattening)
    (hr : (s.win w).requests = 0) (hf : (s.win w).fills = 0) : (s.walkFrom w i).CountsSound := by
  unfold State.walkFrom
  dsimp only
  split
  · refine h.becomes rfl rfl (.modWin s w fun x => { x with
        state := .off, cursor := none, pendingCount := 0, fills := 0, requests := 0, armed := false
        copyRequest := false }) ?_ (fun _ hne => absurd hf hne) nofun fun _ => rfl
    exact Prod.ext rfl (Prod.ext rfl (Prod.ext hf.symm (Prod.ext rfl hr.symm)))
  · exact h.becomes rfl rfl (.modWin s w _) rfl (fun _ hne => absurd hf hne)
      (fun _ => ⟨hst, hr, hf⟩) fun hi => hf

/-- A slot that is not orphaned becomes FREE, and the fills of its window fall (R62, R68, R69). -/
theorem release (h : s.CountsSound) (hn : s.slot n = some k) (ho : k.orphaned = false) :
    (s.release n k.window).CountsSound := by
  have pos := fills_pos h hn ho
  have busy {m j} (hm : (s.setSlot n none).slot m = some j) (hj : j.window = k.window)
      (hjo : j.orphaned = false) : 2 ≤ (s.win k.window).fills := by
    have count := slotsWith_setSlot s n none (SlotWork.worksFor k.window)
    have other : 0 < (s.setSlot n none).slotsWith (SlotWork.worksFor k.window) :=
      slotsWith_pos hm (by simp [SlotWork.worksFor, hj, hjo])
    rw [← (h.counts k.window).fills, hn] at count
    simp [SlotWork.worksFor, ho] at count other
    omega
  refine h.of_setSlot (n := n) (a := none) rfl rfl
    (.modWin s k.window fun x => { x with fills := x.fills - 1 }) ?_ (fun v hv => ?_) nofun
    (fun m j hm hj hjc hjo => ?_) (fun hk => ?_) fun hi => ?_
  · refine (h.counts k.window).setSlot rfl rfl ?_
    simp [hn, SlotWork.worksFor, ho]
    omega
  · simp [hn, SlotWork.worksFor, Ne.symm hv]
  · have one := (h.copies m j (by
      have hm : (s.setSlot n none).slot m = some j := hm
      rw [slot_setSlot] at hm
      split at hm
      · exact absurd hm nofun
      · exact hm) hjc hjo).2.2.1
    rw [hj] at one
    exact absurd (busy hm hj hjo) (by omega)
  · exact absurd (h.kept k.window hk).2.2 (by omega)
  · exact absurd (h.inactive k.window hi) (by omega)

theorem evaluateHold (h : s.CountsSound) : (s.evaluateHold w).CountsSound := by
  unfold State.evaluateHold
  split
  · next c _ =>
    obtain ⟨x, hx, e⟩ := becomeActive_eq s w c
    rw [becomesActive_iff] at hx
    exact e ▸ h.keeps rfl rfl (windowBecomes_patched s w x _) (hx ▸ keeps_activated)
  · exact h

/-- A window whose copy ends is left with nothing in flight (R68, R69). -/
theorem release_walk (h : s.CountsSound) (hn : s.slot n = some k) (hk : k.isCopy = true) :
    (s.win k.window).state = .flattening ∧ ((s.release n k.window).win k.window).requests = 0
      ∧ ((s.release n k.window).win k.window).fills = 0
      ∧ ((s.release n k.window).win k.window).state = .flattening := by
  have hc : k.kind = .flattenCopy ∧ k.orphaned = false := by simp_all [SlotWork.isCopy]
  obtain ⟨hst, hr, hf, -⟩ := h.copies n k hn hc.1 hc.2
  have win : (s.release n k.window).win k.window = { s.win k.window with
      fills := (s.win k.window).fills - 1 } := win_modWin_self (s.setSlot n none) _ _
  rw [win]
  exact ⟨hst, hr, by simp [hf], hst⟩

theorem completeLine {i : Nat} (h : s.CountsSound) : (s.completeLine w i).CountsSound := by
  unfold State.completeLine
  split
  · exact h.keeps rfl rfl (.modWin s w fun x => { x with pendingCount := x.pendingCount + 1 })
      ⟨rfl, rfl, rfl, .inl rfl⟩
  · exact h.of_parts rfl rfl rfl

theorem fillComplete (h : s.CountsSound) (hn : s.slot n = some k) (hk : k.isFill = true) :
    (s.fillComplete n k).CountsSound := by
  have answered : ((s.completeLine k.window k.line).answerHeld k.held .okay).CountsSound := by
    cases k.held <;> exact h.completeLine.of_parts rfl rfl rfl
  refine answered.release ?_ (by simp_all [SlotWork.isFill])
  unfold State.completeLine
  cases k.held <;> split <;> exact hn

theorem copyDone (h : s.CountsSound) (hn : s.slot n = some k) (hk : k.isCopy = true) :
    (s.copyDone n k).CountsSound := by
  obtain ⟨hst, hr, hf, hst'⟩ := h.release_walk hn hk
  have released := h.release hn (by simp_all [SlotWork.isCopy])
  have published : ((s.release n k.window).modLine k.window k.line
      fun e => { e with published := .a }).CountsSound := released.of_parts rfl rfl rfl
  unfold State.copyDone
  dsimp only
  rw [if_pos hst]
  exact published.walkFrom hst' hr hf

theorem backToLive (h : s.CountsSound) (hf : (s.win w).fills = 0) :
    (s.modWin w fun x => { x with state := .live, cursor := none, copyRequest := false }).CountsSound :=
  h.becomes rfl rfl (.modWin s w _) rfl (fun _ hne => absurd hf hne) nofun fun _ => hf

theorem raise {x : Notice} (h : s.CountsSound) : (s.raise x).CountsSound := h.of_parts rfl rfl rfl

theorem copyFailed (h : s.CountsSound) (hn : s.slot n = some k) (hk : k.isCopy = true) :
    (s.copyFailed n k).CountsSound := by
  obtain ⟨hst, -, hf, -⟩ := h.release_walk hn hk
  have released := h.release hn (by simp_all [SlotWork.isCopy])
  unfold State.copyFailed
  dsimp only
  rw [if_pos hst]
  exact (released.backToLive hf).raise.evaluateHold

theorem forwarded {r : HRequest} {i : EntryId} {cls : TrackerClass} {v : Option WindowId} {a : Addr}
    {p : Option Bool} (h : s.CountsSound) (hi : s.freeEntry = some i)
    (hv : ∀ w, v = some w → (s.win w).state ≠ .off ∧ (s.win w).state ≠ .flattening) :
    (s.forward r i cls v a p).CountsSound := by
  have free := entry_of_freeEntry hi
  cases v with
  | none =>
    refine h.of_setEntry (w := 0) (x := s.win 0) (i := i) (e := some (forwardedEntry r cls none p))
      rfl rfl ⟨rfl, fun _ _ => rfl⟩ ?_ (by simp [OfWindowOnly, free])
      (by simp [OfWindowOnly, forwardedEntry]) rfl rfl rfl fun _ hr => hr
    refine (h.counts 0).setEntry (i := i) (e := some (forwardedEntry r cls none p)) rfl rfl rfl ?_
      (fun q => ?_) ?_ <;>
    simp [free, forwardedEntry, InFlight.ofWindow, InFlight.readOf, InFlight.writeOf]
  | some w =>
    obtain ⟨-, hfl⟩ := hv w rfl
    have record : ((s.win w).countForward cls p).state = (s.win w).state
        ∧ ((s.win w).countForward cls p).copyRequest = (s.win w).copyRequest
        ∧ ((s.win w).countForward cls p).fills = (s.win w).fills
        ∧ ((s.win w).countForward cls p).requests = (s.win w).requests + 1
        ∧ ((s.win w).countForward cls p).producerWrites
          = (s.win w).producerWrites + (decide (cls = .producerWrite)).toNat
        ∧ ∀ q, ((s.win w).countForward cls p).readCount q
          = (s.win w).readCount q + (decide (p = some q)).toNat := by
      unfold Window.countForward
      by_cases hc : cls = .producerWrite <;> rcases p with _ | _ | _ <;>
        simp [hc, Window.modReadCount, Window.readCount]
    obtain ⟨hst, hcr, hf, hr, hw, hq⟩ := record
    refine h.of_setEntry (i := i) (e := some (forwardedEntry r cls (some w) p)) rfl rfl
      (.modWin s w fun x => x.countForward cls p) ?_ (by simp [OfWindowOnly, free])
      (by simp [OfWindowOnly, forwardedEntry]) hst hcr hf fun hs _ => absurd hs hfl
    refine (h.counts w).setEntry (i := i) (e := some (forwardedEntry r cls (some w) p)) rfl rfl hf ?_
      (fun q => ?_) ?_ <;>
    simp [free, forwardedEntry, InFlight.ofWindow, InFlight.readOf, InFlight.writeOf, hr, hw, hq]

theorem ended {i : EntryId} {e : InFlight} {st : Status} {data : List Word} (h : s.CountsSound)
    (he : s.entry i = some e) : (s.endEntry i e st data).CountsSound := by
  unfold State.endEntry
  cases hv : e.window with
  | none =>
    refine h.of_setEntry (w := 0) (x := s.win 0) (i := i) (e := none)
      rfl rfl ⟨rfl, fun _ _ => rfl⟩ ?_ (by simp [OfWindowOnly, he, hv]) nofun rfl rfl rfl fun _ hr => hr
    refine (h.counts 0).setEntry (i := i) (e := none) rfl rfl rfl ?_ (fun q => ?_) ?_ <;>
    simp [he, hv, InFlight.ofWindow, InFlight.readOf, InFlight.writeOf]
  | some w =>
    have hr : 0 < (s.win w).requests := by
      rw [(h.counts w).requests]
      exact entriesWith_pos he (by simp [InFlight.ofWindow, hv])
    have hp (hc : e.cls = .producerWrite) : 0 < (s.win w).producerWrites := by
      rw [(h.counts w).producerWrites]
      exact entriesWith_pos he (by simp [InFlight.writeOf, hv, hc])
    have hq (q : Bool) (hc : e.parity = some q) : 0 < (s.win w).readCount q := by
      rw [(h.counts w).reads q]
      exact entriesWith_pos he (by simp [InFlight.readOf, hv, hc])
    have record : ((s.win w).countResponse e).state = (s.win w).state
        ∧ ((s.win w).countResponse e).copyRequest = (s.win w).copyRequest
        ∧ ((s.win w).countResponse e).fills = (s.win w).fills
        ∧ ((s.win w).countResponse e).requests + 1 = (s.win w).requests
        ∧ ((s.win w).countResponse e).producerWrites + (decide (e.cls = .producerWrite)).toNat
          = (s.win w).producerWrites
        ∧ ∀ q, ((s.win w).countResponse e).readCount q + (decide (e.parity = some q)).toNat
          = (s.win w).readCount q := by
      unfold Window.countResponse
      by_cases hc : e.cls = .producerWrite <;> rcases he' : e.parity with _ | _ | _ <;>
        simp [hc, he', Window.modReadCount, Window.readCount] at hp hq ⊢ <;> omega
    obtain ⟨hst, hcr, hf, hr', hw', hq'⟩ := record
    refine h.of_setEntry (i := i) (e := none) rfl rfl
      (.modWin s w fun x => x.countResponse e) ?_ (by simp [OfWindowOnly, he, hv]) nofun hst hcr hf
      fun _ h0 => by omega
    refine (h.counts w).setEntry (i := i) (e := none) rfl rfl hf ?_
      (fun q => ?_) ?_ <;>
    simp [he, hv, InFlight.ofWindow, InFlight.readOf, InFlight.writeOf, hr', hw', hq']

theorem filled {r : HRequest} (h : s.CountsSound) (hn : s.freeSlot = some n)
    (hl : (s.win k.window).state = .live) (hk : k.FillsFor k.window ∧ k.phase ≠ .retiring) :
    (((s.takePlace r).modLine k.window k.line fun e => { e with filling := true }).allocate
        n k).CountsSound := by
  have free := slot_of_freeSlot hn
  obtain ⟨⟨-, ho, hkind⟩, hp⟩ := hk
  refine h.of_setSlot (n := n) (a := some k) rfl rfl
    (.modWin s k.window fun x => { x with fills := x.fills + 1 }) ?_ (fun v hv => ?_)
    (fun j hj => ?_) (fun m j hm hj hjc hjo => ?_) (fun hcr => ?_) ?_
  · refine (h.counts k.window).setSlot rfl rfl ?_
    simp [free, SlotWork.worksFor, ho]
  · simp [free, SlotWork.worksFor, Ne.symm hv]
  · obtain rfl := Option.some.inj hj
    exact ⟨by simp [hp, ho], fun _ _ => rfl⟩
  · have hm : (s.setSlot n (some k)).slot m = some j := hm
    rw [slot_setSlot] at hm
    split at hm
    · obtain rfl := Option.some.inj hm
      rcases hkind with e | e <;> exact absurd (hjc.symm.trans e) nofun
    · have copy := (h.copies m j hm hjc hjo).1
      rw [hj, hl] at copy
      exact absurd copy nofun
  · exact absurd (hl.symm.trans (h.kept k.window hcr).1) nofun
  · exact fun hi => absurd hi (by simp [hl])

theorem reworked {l : SlotWork} (h : s.CountsSound) (hn : s.slot n = some k) (hl : k.Continues l) :
    (s.setSlot n (some l)).CountsSound := by
  have same (v : WindowId) : SlotWork.worksFor v l = SlotWork.worksFor v k := by
    simp [SlotWork.worksFor, hl.window, hl.orphaned]
  refine h.of_setSlot (w := k.window) (x := s.win k.window) (n := n) (a := some l) rfl rfl
    ⟨rfl, fun _ _ => rfl⟩ ?_ (fun v hv => ?_) (fun j hj => ?_) (fun m j hm hj hjc hjo => ?_)
    (h.kept _) (h.inactive _)
  · exact (h.counts k.window).setSlot (f := (s.win k.window).fills) rfl rfl (by simp [hn, same])
  · simp [hn, same]
  · obtain rfl := Option.some.inj hj
    exact ⟨by simp [hl.phase, hl.orphaned], fun _ _ => hl.window⟩
  · rw [slot_setSlot] at hm
    split at hm
    · obtain rfl := Option.some.inj hm
      exact h.copies n k hn (hl.kind ▸ hjc) hl.orphaned.1
    · exact hj ▸ h.copies m j hm hjc hjo

theorem freed (h : s.CountsSound) (hn : s.slot n = some k) (hk : k.phase = .retiring) :
    (s.setSlot n none).CountsSound := by
  have ho := (h.retiring n k hn).mp hk
  refine h.of_setSlot (w := k.window) (x := s.win k.window) (n := n) (a := none) rfl rfl
    ⟨rfl, fun _ _ => rfl⟩ ?_ (fun v hv => ?_) nofun (fun m j hm hj hjc hjo => ?_)
    (h.kept _) (h.inactive _)
  · exact (h.counts k.window).setSlot (f := (s.win k.window).fills) rfl rfl
      (by simp [hn, SlotWork.worksFor, ho])
  · simp [hn, SlotWork.worksFor, ho]
  · rw [slot_setSlot] at hm
    split at hm
    · exact absurd hm nofun
    · exact hj ▸ h.copies m j hm hjc hjo

theorem served (h : s.CountsSound) (hw : (s.win w).copyRequest = true) (hn : s.freeSlot = some n) :
    (s.serveCopyWith w n).CountsSound := by
  have free := slot_of_freeSlot hn
  obtain ⟨hst, hr, hf⟩ := h.kept w hw
  rw [serveCopyWith_eq]
  refine h.of_setSlot (n := n) (a := some (copyWork w (((s.win w).cursor).getD 0))) rfl rfl
    (.modWin s w fun x => { x with copyRequest := false, fills := x.fills + 1 }) ?_ (fun v hv => ?_)
    (fun j hj => ?_) (fun m j hm hj hjc hjo => ?_) nofun ?_
  · refine State.Counts.of_counts (x := { s.win w with fills := (s.win w).fills + 1 })
      ((h.counts w).setSlot (n := n) (a := some (copyWork w (((s.win w).cursor).getD 0))) rfl rfl ?_) rfl
    simp [free, SlotWork.worksFor, copyWork]
  · simp [free, SlotWork.worksFor, copyWork, Ne.symm hv]
  · obtain rfl := Option.some.inj hj
    exact ⟨by simp [copyWork], fun _ _ => rfl⟩
  · exact ⟨hst, hr, by simp [hf], rfl⟩
  · exact fun hi => absurd hi (by simp [hst])

/-- A window with no request outstanding has no entry, and so no read outstanding (R7). -/
theorem reads_of_requests (h : s.CountsSound) (hr : (s.win w).requests = 0) (p : Bool) :
    (s.win w).readCount p = 0 := by
  rw [h.reads w p]
  refine Nat.eq_zero_of_le_zero (le_trans (List.countP_mono_left fun e _ he => ?_)
    (le_of_eq ((h.requests w).symm.trans hr)))
  cases e <;> simp_all

theorem loaded (h : s.CountsSound) (hw : (s.win w).state = .off) (hb : ¬BusyFault s w) :
    (s.takeLoad w).CountsSound := by
  have hr : (s.win w).requests = 0 := by
    by_contra hr
    exact hb (.inl hr)
  have hf := h.inactive w (.inl hw)
  refine h.becomes (x := (s.win w).loaded) rfl rfl
    ⟨win_modWin_self _ _ _, fun v hv => win_modWin_of_ne _ hv _⟩ ?_ (fun hst _ => ?_) nofun fun _ => hf
  · have h0 : (s.win w).reads0 = 0 := h.reads_of_requests hr false
    have h1 : (s.win w).reads1 = 0 := h.reads_of_requests hr true
    show (0, 0, _) = _
    rw [Window.counts, h0, h1]
    rfl
  · exact absurd (hw.symm.trans hst) nofun

theorem retired (h : s.CountsSound) (hl : (s.win w).state = .live) :
    (s.beginRetire w).CountsSound := by
  refine h.becomes (x := { (s.win w).resetHold with
      state := .flattening, pendingCount := 0, armed := false, cursor := some 0
      drainTimer := none }) rfl rfl ⟨win_modWin_self _ _ _, fun v hv => win_modWin_of_ne _ hv _⟩ rfl
    (fun hst _ => absurd (hl.symm.trans hst) nofun) (fun hcr => ?_) nofun
  exact absurd (hl.symm.trans (h.kept w hcr).1) nofun

theorem dropped {ws : List WindowId} (h : s.CountsSound) : (s.dropWindows ws).CountsSound := by
  have table := only_dropWindows s ws .table (by decide)
  have work {m j} (hj : (s.dropWindows ws).slot m = some j) :
      (s.slot m = some j ∧ (j.orphaned = false → j.window ∉ ws))
        ∨ j.phase = .retiring ∧ j.orphaned = true := by
    rw [slot_dropWindows] at hj
    cases hs : s.slot m with
    | none => simp [hs, orphanedWork] at hj
    | some k => grind [orphanedWork]
  have fills (v : WindowId) : (s.dropWindows ws).slotsWith (SlotWork.worksFor v)
      = if v ∈ ws then 0 else s.slotsWith (SlotWork.worksFor v) := by
    rw [slotsWith_eq_countP, slotsWith_eq_countP]
    split
    · next hv =>
      refine List.countP_eq_zero.mpr fun n _ hn => ?_
      rw [slot_dropWindows] at hn
      cases hs : s.slot n <;> grind [orphanedWork, SlotWork.worksFor]
    · next hv =>
      refine List.countP_congr fun n _ => ?_
      rw [slot_dropWindows]
      cases hs : s.slot n <;> grind [orphanedWork, SlotWork.worksFor]
  refine of_counts (fun v => ?_) (fun m k hm => ?_) (fun m k hm hkc hko => ?_) (fun v => ?_) fun v => ?_
  · have old := h.counts v
    refine ⟨?_, ?_, fun p => ?_, ?_⟩
    · rw [fills, win_dropWindows]; split
      · rfl
      · exact old.fills
    · rw [entriesWith_of_table table, ← old.requests, win_dropWindows]; split <;> rfl
    · rw [entriesWith_of_table table, ← old.reads, win_dropWindows]; split <;> rfl
    · rw [entriesWith_of_table table, ← old.producerWrites, win_dropWindows]; split <;> rfl
  · rcases work hm with ⟨hm, -⟩ | ⟨hp, ho⟩
    · exact h.retiring m k hm
    · simp [hp, ho]
  · rcases work hm with ⟨hm, hw⟩ | ⟨-, ho⟩
    · rw [win_dropWindows, if_neg (hw hko)]
      exact h.copies m k hm hkc hko
    · exact absurd (hko.symm.trans ho) nofun
  · rw [win_dropWindows]
    split
    · exact nofun
    · exact h.kept v
  · rw [win_dropWindows]
    split
    · exact fun _ => rfl
    · exact h.inactive v

end State.CountsSound

theorem reset_countsSound : State.reset.CountsSound := by
  have win (w : WindowId) : State.reset.win w = Window.reset := by fin_cases w <;> rfl
  have slot (n : SlotId) : State.reset.slot n = none := by fin_cases n <;> rfl
  have slots (p : SlotWork → Bool) : State.reset.slotsWith p = 0 := rfl
  have entries (p : InFlight → Bool) : State.reset.entriesWith p = 0 := rfl
  refine .of_counts (fun w => ?_) (fun n k hn => ?_) (fun n k hn => ?_) (fun w hw => ?_) fun w _ => ?_
  · rw [win]
    exact ⟨(slots _).symm, (entries _).symm, fun p => by rw [entries]; cases p <;> rfl, (entries _).symm⟩
  · exact absurd ((slot n).symm.trans hn) nofun
  · exact absurd ((slot n).symm.trans hn) nofun
  · rw [win] at hw; exact absurd hw nofun
  · rw [win]; rfl

namespace State.CountsSound

theorem move (m : Move s t) (h : s.CountsSound) : t.CountsSound := by
  cases m with
  | forwarded r cls w a p hp hi hw => exact (h.of_parts (t := s.takePlace r) rfl rfl rfl).forwarded hi hw
  | filled r hp hn hl hi he hk => exact h.filled hn hl ⟨hk.1, hk.2.1⟩
  | ended he st data => exact h.ended he
  | reworked hn hl => exact h.reworked hn hl
  | completed hn hk => exact h.fillComplete hn hk
  | @failed n k hn hk =>
    have answered : ((s.modLine k.window k.line fun e => { e with filling := false }).answerHeld k.held
        .error).CountsSound := by
      cases k.held <;> exact h.of_parts rfl rfl rfl
    refine answered.release ?_ (by simp_all [SlotWork.isFill])
    cases k.held <;> exact hn
  | copyDone hn hk => exact h.copyDone hn hk
  | copyFailed hn hk => exact h.copyFailed hn hk
  | freed hn hk => exact h.freed hn hk
  | served hw hn => exact h.served hw hn
  | walked hd =>
    simp only [Window.flattenDrained, Bool.and_eq_true, decide_eq_true_eq] at hd
    obtain ⟨⟨⟨hst, hr⟩, hf⟩, -⟩ := hd
    exact h.walkFrom hst hr hf
  | changed hc => exact h.changed hc
  | flipped hc =>
    rw [State.flipAt, takeFlip_eq]
    exact (h.settled (keeps_afterFlip (.inr hc.1))).promptTest
  | cleared hd =>
    rw [State.clearAt, takeClear_eq]
    exact (h.settled (keeps_afterClear (.inr hd.1))).promptTest
  | @geometry w hw g =>
    exact h.becomes rfl rfl (.modWin s w _) rfl (fun hst _ => absurd (hw.symm.trans hst) nofun)
      (h.kept w) (h.inactive w)
  | loaded hw hb hg ho hm => exact h.loaded hw hb
  | retired hl => exact h.retired hl
  | dropped hn hw => exact h.dropped
  | reset => exact reset_countsSound.of_parts rfl rfl rfl
  | channel | answered | accepted | queued | raised | lines | port | emptied | roles
  | settings | running => exact h.of_parts rfl rfl rfl

end State.CountsSound

/-- Settles O10: each change of `Move` keeps the counts exact. -/
theorem everyStepKeepsTheCountsExact : Obligations.EveryStepKeepsTheCountsExact := fun _ _ =>
  step_keeps (fun _ _ h => h.of_parts rfl rfl rfl) fun m h => h.move m

end Sys2Proof.Machine

/-! O11: every change of `Move` keeps the marks of the line map, the pending counts and the lines of the
fills. A change touches the record and the segment of one window; the segments of the other active
windows are apart (R12), so their marks stand. -/

namespace Sys2Proof.Machine

variable {s t u : State} {v w : WindowId} {n m : SlotId} {k : SlotWork} {i : Nat}

/-! ### The invariant, window by window and slot by slot -/

/-- The pending count of window `w` counts its pending lines, and only a LIVE or SETTLING window has
any (R37, R39). -/
structure State.MarksSound (s : State) (w : WindowId) : Prop where
  count : (s.win w).Running → (s.win w).pendingCount = s.pendingLines w
  zero : ¬(s.win w).Running → (s.win w).pendingCount = 0
  clean : ¬(s.win w).Running → (s.win w).state ≠ .off →
    ∀ i, i < (s.win w).geometry.lineCount.toNat → (s.lineEntry w i).pending = false

/-- The window and the line of a slot's fill, where it works on one. -/
def SlotWork.fillLine (k : SlotWork) : Option (WindowId × Nat) :=
  if k.isFill then some (k.window, k.line) else none

def State.fillLine (s : State) (n : SlotId) : Option (WindowId × Nat) :=
  (s.slot n).bind SlotWork.fillLine

/-- Line `i` of window `w` can have a fill that works on it. -/
structure State.FillAt (s : State) (w : WindowId) (i : Nat) : Prop where
  active : (s.win w).state ≠ .off
  armed : (s.win w).state ≠ .loading
  inside : i < (s.win w).geometry.lineCount.toNat
  filling : (s.lineEntry w i).filling = true

theorem isFill_iff (k : SlotWork) : k.isFill = true ↔ k.kind ≠ .flattenCopy ∧ k.orphaned = false := by
  simp [SlotWork.isFill, and_comm]

theorem fillLine_of_isFill (hn : s.slot n = some k) (hk : k.isFill = true) :
    s.fillLine n = some (k.window, k.line) := by
  simp [State.fillLine, SlotWork.fillLine, hn, hk]

theorem exists_of_fillLine (h : s.fillLine n = some (w, i)) :
    ∃ k, s.slot n = some k ∧ k.isFill = true ∧ k.window = w ∧ k.line = i := by
  cases hn : s.slot n with
  | none => simp [State.fillLine, hn] at h
  | some k =>
    simp only [State.fillLine, hn, Option.bind_some, SlotWork.fillLine] at h
    split at h
    · next hk =>
      obtain ⟨rfl, rfl⟩ := Prod.mk.inj (Option.some.inj h)
      exact ⟨k, rfl, hk, rfl, rfl⟩
    · exact absurd h nofun

theorem linesSound_iff (s : State) : s.LinesSound ↔ (∀ w, s.MarksSound w)
    ∧ (∀ n w i, s.fillLine n = some (w, i) → s.FillAt w i)
    ∧ ∀ n m p, s.fillLine n = some p → s.fillLine m = some p → n = m := by
  constructor
  · intro h
    refine ⟨fun w => ⟨h.count w, fun hr => ?_, fun hr => ?_⟩, fun n w i hn => ?_, fun n m p hn hm => ?_⟩
    · exact (h.none w (fun e => hr (.inl e)) fun e => hr (.inr e)).1
    · exact (h.none w (fun e => hr (.inl e)) fun e => hr (.inr e)).2
    · obtain ⟨k, hk, hf, rfl, rfl⟩ := exists_of_fillLine hn
      obtain ⟨hc, ho⟩ := (isFill_iff k).mp hf
      obtain ⟨h0, h1, h2, h3⟩ := h.fills n k hk hc ho
      exact ⟨h0, h1, h2, h3⟩
    · obtain ⟨j, hj, hjf, hjw, hjl⟩ := exists_of_fillLine hn
      obtain ⟨k, hk, hkf, hkw, hkl⟩ := exists_of_fillLine hm
      obtain ⟨hjc, hjo⟩ := (isFill_iff j).mp hjf
      obtain ⟨hkc, hko⟩ := (isFill_iff k).mp hkf
      by_contra hne
      exact h.apart n m j k hne hj hk hjc hjo hkc hko ⟨hjw.trans hkw.symm, hjl.trans hkl.symm⟩
  · rintro ⟨hm, hf, ha⟩
    refine ⟨fun w => (hm w).count, fun w hl hs => ?_, fun n k hn hc ho => ?_,
      fun n m j k hne hj hk hjc hjo hkc hko => ?_⟩
    · have hr : ¬(s.win w).Running := fun h => h.elim hl hs
      exact ⟨(hm w).zero hr, (hm w).clean hr⟩
    · have h := hf n _ _ (fillLine_of_isFill hn ((isFill_iff k).mpr ⟨hc, ho⟩))
      exact ⟨h.active, h.armed, h.inside, h.filling⟩
    · rintro ⟨hw, hl⟩
      refine hne (ha n m (j.window, j.line) (fillLine_of_isFill hj ((isFill_iff j).mpr ⟨hjc, hjo⟩)) ?_)
      rw [hw, hl]
      exact fillLine_of_isFill hk ((isFill_iff k).mpr ⟨hkc, hko⟩)

/-! ### Counting pending lines -/

theorem pendingLines_congr (hg : (t.win w).geometry = (s.win w).geometry)
    (he : ∀ i, i < (s.win w).geometry.lineCount.toNat →
      (t.lineEntry w i).pending = (s.lineEntry w i).pending) : t.pendingLines w = s.pendingLines w := by
  unfold State.pendingLines
  rw [hg]
  exact List.countP_congr fun i hi => by rw [he i (List.mem_range.mp hi)]

theorem pendingLines_zero (he : ∀ i, i < (s.win w).geometry.lineCount.toNat →
    (s.lineEntry w i).pending = false) : s.pendingLines w = 0 :=
  List.countP_eq_zero.mpr fun i hi => by simp [he i (List.mem_range.mp hi)]

/-- One more number of a range has the property. -/
theorem countP_range_succ_of_flip {p q : Nat → Bool} {i : Nat} : ∀ {n : Nat}, i < n → p i = false → q i = true →
    (∀ j, j ≠ i → q j = p j) → (List.range n).countP q = (List.range n).countP p + 1
  | n + 1, hi, hp, hq, h => by
    rw [List.range_succ, List.countP_append, List.countP_append]
    by_cases e : i = n
    · subst e
      have same : (List.range i).countP q = (List.range i).countP p :=
        List.countP_congr fun j hj => by rw [h j (List.mem_range.mp hj).ne]
      simp [same, hp, hq]
    · rw [countP_range_succ_of_flip (by omega) hp hq h]
      simp only [List.countP_singleton, h n (Ne.symm e)]
      omega

/-! ### Changes at one window -/

/-- The segments of the other active windows are apart from that of window `w` (R12). -/
def State.SegmentApart (s : State) (w : WindowId) : Prop :=
  ∀ v, v ≠ w → (s.win v).state ≠ .off →
    ∀ j, ¬((s.win v).geometry.Claims j ∧ (s.win w).geometry.Claims j)

theorem State.RangesSound.segmentApart (h : s.RangesSound) (hw : (s.win w).state ≠ .off) :
    s.SegmentApart w := fun v hv ha => h.segments v w hv ha hw

theorem claims_entryIndex {g : Geometry} (h : i < g.lineCount.toNat) : g.Claims (g.entryIndex i) := by
  unfold Geometry.Claims Geometry.entryIndex; omega

theorem lineEntry_of_lineBecomes {e : LineEntry} (hl : LineBecomes s t w i e)
    (hg : (t.win w).geometry = (s.win w).geometry) (j : Nat) :
    t.lineEntry w j = if j = i then e else s.lineEntry w j := by
  rw [State.lineEntry, hg]
  split
  · next e => rw [e]; exact hl.1
  · next hne => exact hl.2 _ fun he => hne (by unfold Geometry.entryIndex at he; omega)

/-- Only the record of window `w` changes, and no entry of another active window's segment. -/
structure Beyond (s t : State) (w : WindowId) : Prop where
  win : ∀ v, v ≠ w → t.win v = s.win v
  entry : ∀ v, v ≠ w → (s.win v).state ≠ .off → ∀ i, i < (s.win v).geometry.lineCount.toNat →
    t.lineEntry v i = s.lineEntry v i

theorem Beyond.of_claims (hw : ∀ v, v ≠ w → t.win v = s.win v) (hd : s.SegmentApart w)
    (he : ∀ j, ¬(s.win w).geometry.Claims j → t.lineMap.entry j = s.lineMap.entry j) :
    Beyond s t w := ⟨hw, fun v hv ha i hi => by
  rw [State.lineEntry, hw v hv]
  exact he _ fun hc => hd v hv ha _ ⟨claims_entryIndex hi, hc⟩⟩

theorem Beyond.of_segment {f : LineEntry → LineEntry} (hw : ∀ v, v ≠ w → t.win v = s.win v)
    (hd : s.SegmentApart w) (hs : SegmentBecomes s t w f) : Beyond s t w :=
  .of_claims hw hd fun j hj => hs.2 j fun _ hi e => hj (e ▸ claims_entryIndex hi)

theorem Beyond.of_line {e : LineEntry} (hw : ∀ v, v ≠ w → t.win v = s.win v)
    (hd : s.SegmentApart w) (hi : i < (s.win w).geometry.lineCount.toNat)
    (hl : LineBecomes s t w i e) : Beyond s t w :=
  .of_claims hw hd fun j hj => hl.2 j fun e => hj (e ▸ claims_entryIndex hi)

theorem Beyond.of_lineMap (hw : ∀ v, v ≠ w → t.win v = s.win v) (hl : t.lineMap = s.lineMap) :
    Beyond s t w := ⟨hw, fun v hv _ i _ => by rw [State.lineEntry, hw v hv, hl]; rfl⟩

theorem SegmentBecomes.lineEntry {f : LineEntry → LineEntry} (hs : SegmentBecomes s t w f)
    (hg : (t.win w).geometry = (s.win w).geometry) (hi : i < (s.win w).geometry.lineCount.toNat) :
    t.lineEntry w i = f (s.lineEntry w i) := by
  rw [State.lineEntry, hg]; exact hs.1 i hi

/-- No slot has another fill than before. -/
def FillsShrink (s t : State) : Prop := ∀ n p, t.fillLine n = some p → s.fillLine n = some p

theorem FillsShrink.of_setSlot {a : Option SlotWork} (h : t.slots = (s.setSlot n a).slots)
    (ha : ∀ p, a.bind SlotWork.fillLine = some p → s.fillLine n = some p) : FillsShrink s t := by
  intro m p hm
  rw [State.fillLine, State.slot, h] at hm
  change ((s.setSlot n a).slot m).bind SlotWork.fillLine = some p at hm
  rw [slot_setSlot] at hm
  split at hm
  · next e => exact e ▸ ha p hm
  · exact hm

/-- A slot that becomes FREE works on no line. -/
theorem fillLine_of_release (h : t.slots = (s.release n w).slots) : t.fillLine n = none := by
  rw [State.fillLine, State.slot, h]
  change ((s.setSlot n none).slot n).bind SlotWork.fillLine = none
  rw [slot_setSlot_self]
  rfl

theorem FillsShrink.of_release (h : t.slots = (s.release n w).slots) : FillsShrink s t :=
  .of_setSlot (n := n) (a := none) h nofun

theorem FillsShrink.of_slots (h : t.slots = s.slots) : FillsShrink s t := fun n p hn => by
  rw [State.fillLine, State.slot, h] at hn; exact hn

/-- No line of the window is pending. -/
theorem State.MarksSound.of_clean (h0 : (t.win w).pendingCount = 0)
    (hp : ∀ i, i < (t.win w).geometry.lineCount.toNat → (t.lineEntry w i).pending = false) :
    t.MarksSound w :=
  ⟨fun _ => h0.trans (pendingLines_zero hp).symm, fun _ => h0, fun _ _ => hp⟩

theorem State.MarksSound.of_off (h0 : (t.win w).pendingCount = 0) (ha : (t.win w).state = .off) :
    t.MarksSound w :=
  ⟨fun hr => absurd ha hr.active, fun _ => h0, fun _ hn => absurd ha hn⟩

/-- A step of a window's life that leaves its marks: between LIVE and SETTLING, or ARM's (R6). -/
def Window.LivesOn (x y : Window) : Prop :=
  y.state = x.state ∨ x.Running ∧ y.Running ∨ x.state = .loading ∧ y.state = .live

/-- An event that leaves the marks of the window and its pending count (R6, R7). -/
theorem State.MarksSound.keeps (h : s.MarksSound w) (hg : (t.win w).geometry = (s.win w).geometry)
    (hk : (s.win w).LivesOn (t.win w)) (hp : (t.win w).pendingCount = (s.win w).pendingCount)
    (he : ∀ i, (t.lineEntry w i).pending = (s.lineEntry w i).pending) : t.MarksSound w := by
  have lines : t.pendingLines w = s.pendingLines w := pendingLines_congr hg fun i _ => he i
  rcases hk with hst | ⟨hx, hy⟩ | ⟨hx, hy⟩
  · refine ⟨fun hr => ?_, fun hr => ?_, fun hr ha i hi => ?_⟩ <;> rw [Window.Running, hst] at hr
    · rw [hp, lines]; exact h.count hr
    · rw [hp]; exact h.zero hr
    · rw [he]; exact h.clean hr (hst ▸ ha) i (hg ▸ hi)
  · exact ⟨fun _ => by rw [hp, lines]; exact h.count hx, fun hr => absurd hy hr, fun hr => absurd hy hr⟩
  · have still : ¬(s.win w).Running := by simp [Window.Running, hx]
    refine .of_clean (hp.trans (h.zero still)) fun i hi => ?_
    rw [he]
    exact h.clean still (by simp [hx]) i (hg ▸ hi)

theorem State.FillAt.keeps (h : s.FillAt w i) (hg : (t.win w).geometry = (s.win w).geometry)
    (hk : (s.win w).LivesOn (t.win w))
    (he : (t.lineEntry w i).filling = (s.lineEntry w i).filling) : t.FillAt w i := by
  refine ⟨?_, ?_, hg ▸ h.inside, he.trans h.filling⟩ <;>
  rcases hk with hst | ⟨-, hy⟩ | ⟨hx, -⟩
  · exact hst ▸ h.active
  · exact hy.active
  · exact absurd hx h.armed
  · exact hst ▸ h.armed
  · rcases hy with hy | hy <;> simp [hy]
  · exact absurd hx h.armed

/-- The end of a retirement switches its window off (R118). -/
theorem windowBecomes_flattenDone (s : State) (w : WindowId) :
    WindowBecomes s (s.flattenDone w) w { s.win w with
      state := .off, cursor := none, pendingCount := 0, fills := 0, requests := 0, armed := false
      copyRequest := false } :=
  .modWin s w fun x => { x with
    state := .off, cursor := none, pendingCount := 0, fills := 0, requests := 0, armed := false
    copyRequest := false }

theorem reset_linesSound : State.reset.LinesSound := by
  have win (w : WindowId) : State.reset.win w = Window.reset := by fin_cases w <;> rfl
  have free (n : SlotId) : State.reset.fillLine n = none := by fin_cases n <;> rfl
  exact (linesSound_iff _).mpr ⟨fun w => .of_off (by rw [win]; rfl) (by rw [win]; rfl),
    fun n w i hn => absurd ((free n).symm.trans hn) nofun,
    fun n m p hn => absurd ((free n).symm.trans hn) nofun⟩

namespace State.LinesSound

theorem fillAt (h : s.LinesSound) (hn : s.fillLine n = some (w, i)) : s.FillAt w i :=
  ((linesSound_iff s).mp h).2.1 n w i hn

theorem marks (h : s.LinesSound) (w : WindowId) : s.MarksSound w := ((linesSound_iff s).mp h).1 w

theorem of_fills (hm : ∀ w, t.MarksSound w) (h : s.LinesSound) (hs : FillsShrink s t)
    (hf : ∀ n w i, t.fillLine n = some (w, i) → t.FillAt w i) : t.LinesSound :=
  (linesSound_iff t).mpr ⟨hm, hf, fun n m p hn hm =>
    ((linesSound_iff s).mp h).2.2 n m p (hs n p hn) (hs m p hm)⟩

/-- A change at one window. -/
theorem at_window (h : s.LinesSound) (hb : Beyond s t w)
    (hs : FillsShrink s t) (hm : t.MarksSound w)
    (hf : ∀ n i, t.fillLine n = some (w, i) → t.FillAt w i) : t.LinesSound := by
  refine of_fills (fun v => ?_) h hs fun n v i hn => ?_
  · by_cases hv : v = w
    · exact hv ▸ hm
    · have old := h.marks v
      have win := hb.win v hv
      refine ⟨fun hr => ?_, fun hr => ?_, fun hr ha i hi => ?_⟩
      · rw [win] at hr ⊢
        have same : t.pendingLines v = s.pendingLines v :=
          pendingLines_congr (by rw [win]) fun i hi => by rw [hb.entry v hv hr.active i hi]
        exact (old.count hr).trans same.symm
      · rw [win] at hr ⊢
        exact old.zero hr
      · rw [win] at hr ha hi
        rw [hb.entry v hv ha i hi]
        exact old.clean hr ha i hi
  · by_cases hv : v = w
    · subst hv; exact hf n i hn
    · have old := h.fillAt (hs n _ hn)
      have win := hb.win v hv
      refine ⟨?_, ?_, ?_, ?_⟩
      · rw [win]; exact old.active
      · rw [win]; exact old.armed
      · rw [win]; exact old.inside
      · rw [hb.entry v hv old.active i old.inside]; exact old.filling

/-- A change that leaves every mark, and of each record the fields that the marks go with. -/
theorem of_marks (h : s.LinesSound)
    (hw : ∀ v, (t.win v).state = (s.win v).state ∧ (t.win v).geometry = (s.win v).geometry
      ∧ (t.win v).pendingCount = (s.win v).pendingCount)
    (he : ∀ j, (t.lineMap.entry j).pending = (s.lineMap.entry j).pending
      ∧ (t.lineMap.entry j).filling = (s.lineMap.entry j).filling)
    (hs : FillsShrink s t) : t.LinesSound := by
  have entry (v : WindowId) (i : Nat) : (t.lineEntry v i).pending = (s.lineEntry v i).pending
      ∧ (t.lineEntry v i).filling = (s.lineEntry v i).filling := by
    rw [State.lineEntry, (hw v).2.1]; exact he _
  refine of_fills (fun v => ?_) h hs fun n v i hn => ?_
  · obtain ⟨hst, hg, hp⟩ := hw v
    have old := h.marks v
    refine ⟨fun hr => ?_, fun hr => ?_, fun hr ha i hi => ?_⟩ <;>
      rw [Window.Running, hst] at *
    · rw [hp, pendingLines_congr hg fun i _ => (entry v i).1]
      exact old.count hr
    · exact hp.trans (old.zero hr)
    · rw [(entry v i).1]
      exact old.clean hr ha i (hg ▸ hi)
  · obtain ⟨hst, hg, -⟩ := hw v
    have old := h.fillAt (hs n _ hn)
    exact ⟨hst ▸ old.active, hst ▸ old.armed, hg ▸ old.inside, (entry v i).2.trans old.filling⟩

theorem of_parts (h : s.LinesSound) (hw : t.windows = s.windows) (hl : t.lineMap = s.lineMap)
    (hs : t.slots = s.slots) : t.LinesSound :=
  h.of_marks (fun v => by rw [win_eq_of_windows hw]; exact ⟨rfl, rfl, rfl⟩)
    (fun j => by rw [hl]; exact ⟨rfl, rfl⟩) (.of_slots hs)

/-- An event at a window that leaves the marks and the pending count (R6, R7). -/
theorem keeps {x : Window} (h : s.LinesSound) (hb : WindowBecomes s t w x) (hl : t.lineMap = s.lineMap)
    (hs : FillsShrink s t) (hk : (s.win w).Keeps x) (hp : x.pendingCount = (s.win w).pendingCount) :
    t.LinesSound := by
  obtain ⟨rfl, hw⟩ := hb
  have entry (i : Nat) : t.lineEntry w i = s.lineEntry w i := by
    rw [State.lineEntry, hl, hk.geometry]; rfl
  exact h.at_window (.of_lineMap hw hl) hs ((h.marks w).keeps hk.geometry hk.life hp fun i => by rw [entry])
    fun n i hn => (h.fillAt (hs n _ hn)).keeps hk.geometry hk.life (by rw [entry])

/-- The pending marks of an active window's segment go, and its pending count is 0 (R86, R88, R113). -/
theorem segment_cleaned {f : LineEntry → LineEntry} (h : s.LinesSound) (hr : s.RangesSound)
    (ha : (s.win w).state ≠ .off) (hb : ∀ v, v ≠ w → t.win v = s.win v)
    (hg : (t.win w).geometry = (s.win w).geometry) (hs : FillsShrink s t)
    (hm : SegmentBecomes s t w f) (hp : ∀ e, (f e).pending = false)
    (hf : ∀ e, (f e).filling = e.filling) (h0 : (t.win w).pendingCount = 0)
    (hst : (t.win w).state ≠ .off ∧ (t.win w).state ≠ .loading) : t.LinesSound := by
  refine h.at_window (.of_segment hb (hr.segmentApart ha) hm) hs (.of_clean h0 fun i hi => ?_)
    fun n i hn => ?_
  · rw [hm.lineEntry hg (hg ▸ hi)]; exact hp _
  · have old := h.fillAt (hs n _ hn)
    refine ⟨hst.1, hst.2, hg ▸ old.inside, ?_⟩
    rw [hm.lineEntry hg old.inside, hf]
    exact old.filling

/-- A record changes in fields that no mark goes with. -/
theorem recorded {x : Window} (h : s.LinesSound) (hb : WindowBecomes s t w x)
    (hl : t.lineMap = s.lineMap) (hs : FillsShrink s t) (hst : x.state = (s.win w).state)
    (hg : x.geometry = (s.win w).geometry) (hp : x.pendingCount = (s.win w).pendingCount) :
    t.LinesSound := by
  refine h.of_marks (fun v => ?_) (fun j => by rw [hl]; exact ⟨rfl, rfl⟩) hs
  rw [hb.win v]
  split
  · next e => subst e; exact ⟨hst, hg, hp⟩
  · exact ⟨rfl, rfl, rfl⟩

/-- The event at window `w` flips the segment, or leaves the marks and the pending count (R86). -/
theorem changed {c : WindowChange} (h : s.LinesSound) (hm : s.MapSound) (hr : s.RangesSound)
    (hc : (s.win w).Admits c) : (s.changed w c).LinesSound := by
  have hb : WindowBecomes s (s.changed w c) w c.record :=
    ⟨changed_win_self s w c, fun _ hv => changed_win_of_ne s hv c⟩
  have shrink : FillsShrink s (s.changed w c) := .of_slots (only_changed s w c .slots (by decide))
  cases hf : c.flips with
  | false =>
    refine h.keeps hb ?_ shrink hc.toKeeps (hc.pending hf)
    rw [changed_lineMap, State.flippedMap, hf]; rfl
  | true =>
    obtain ⟨hx, hy, h0⟩ := hc.flipped hf
    have segment : SegmentBecomes s (s.changed w c) w LineEntry.flipped :=
      (segmentBecomes_mapSegment hm.1 w flipped_reset).of_lineMap (by
        rw [changed_lineMap, State.flippedMap, hf]; rfl)
    refine h.segment_cleaned hr hx.active hb.2 (hb.1 ▸ hc.geometry) shrink segment flipped_pending
      flipped_filling (hb.1 ▸ h0) (hb.1 ▸ ⟨hy.active, ?_⟩)
    rcases hy with hy | hy <;> simp [hy]

theorem settled {f : LineEntry → LineEntry} {g : LineInterface → LineInterface} {x : Window}
    {l : List Notice} (h : s.LinesSound) (hm : s.MapSound) (hr : s.RangesSound)
    (hrun : (s.win w).Running) (hx : x.state = .live) (hg : x.geometry = (s.win w).geometry)
    (h0 : x.pendingCount = 0) (hf : f LineEntry.reset = LineEntry.reset)
    (hp : ∀ e, (f e).pending = false) (hk : ∀ e, (f e).filling = e.filling) :
    (s.settled w f g x l).LinesSound := by
  have hb := windowBecomes_settled s w f g x l
  exact h.segment_cleaned hr hrun.active hb.2 (by rw [hb.1]; exact hg)
    (.of_slots rfl) (segmentBecomes_settled hm.1 w hf g x l) hp hk (by rw [hb.1]; exact h0) (by rw [hb.1, hx]; exact ⟨nofun, nofun⟩)

theorem promptTest (h : s.LinesSound) (hm : s.MapSound) (hr : s.RangesSound) :
    (s.promptTest w).LinesSound := by
  rw [promptTest_eq]; exact h.changed hm hr (admits_promptChange _ w)

theorem flipAt (h : s.LinesSound) (hm : s.MapSound) (hr : s.RangesSound) (hc : (s.win w).Committing) :
    (s.flipAt w).LinesSound := by
  have ha : (s.win w).state ≠ .off := active_of_settling hc.1
  have ranges : (s.takeFlip w).RangesSound := by
    rw [takeFlip_eq]
    exact ((Retains.refl s).settled (x := (s.win w).afterFlip) (.of_active ha rfl)).rangesSound hr
  have map : (s.takeFlip w).MapSound := by
    rw [takeFlip_eq]
    exact hm.mapSegment_flipped.settled
  have lines : (s.takeFlip w).LinesSound := by
    rw [takeFlip_eq]
    exact h.settled hm hr (.inr hc.1) rfl rfl rfl flipped_reset flipped_pending flipped_filling
  exact lines.promptTest map ranges

theorem clearAt (h : s.LinesSound) (hm : s.MapSound) (hr : s.RangesSound) (hd : (s.win w).Discarding) :
    (s.clearAt w).LinesSound := by
  have ha : (s.win w).state ≠ .off := active_of_settling hd.1
  have ranges : (s.takeClear w).RangesSound := by
    rw [takeClear_eq]
    exact ((Retains.refl s).settled (x := (s.win w).afterClear) (.of_active ha rfl)).rangesSound hr
  have map : (s.takeClear w).MapSound := by
    rw [takeClear_eq]
    exact hm.mapSegment_unpended.settled
  have lines : (s.takeClear w).LinesSound := by
    rw [takeClear_eq]
    exact h.settled hm hr (.inr hd.1) rfl rfl rfl unpended_reset (fun _ => rfl) fun _ => rfl
  exact lines.promptTest map ranges

theorem evaluateHold (h : s.LinesSound) : (s.evaluateHold w).LinesSound := by
  unfold State.evaluateHold
  split
  · next c _ =>
    obtain ⟨x, hx, e⟩ := becomeActive_eq s w c
    rw [becomesActive_iff] at hx
    exact e ▸ h.keeps (windowBecomes_patched s w x _) rfl (.of_slots rfl) (hx ▸ keeps_activated)
      (hx ▸ activated_pendingCount _)
  · exact h

/-- The flatten logic walks a window that no fill works for (R117, R118). -/
theorem walkFrom (h : s.LinesSound) (hm : s.MapSound) (hr : s.RangesSound) (hc : s.CountsSound)
    (hst : (s.win w).state = .flattening) (hf : (s.win w).fills = 0) : (s.walkFrom w i).LinesSound := by
  have ha : (s.win w).state ≠ .off := by simp [hst]
  unfold State.walkFrom
  dsimp only
  split
  · obtain ⟨hself, hother⟩ := windowBecomes_flattenDone s w
    refine h.at_window (.of_segment hother (hr.segmentApart ha)
      ((segmentBecomes_mapSegment hm.1 w (f := fun _ => LineEntry.reset) rfl).of_lineMap rfl))
      (.of_slots rfl) (.of_off (by rw [hself]) (by rw [hself])) fun n i hn => ?_
    have hn : s.fillLine n = some (w, i) := hn
    obtain ⟨k, hk, hfill, hw, -⟩ := exists_of_fillLine hn
    exact absurd hw (not_copy_of_fills hc hf hk ((isFill_iff k).mp hfill).2)
  · exact h.recorded (.modWin s w _) rfl (.of_slots rfl) rfl rfl rfl

/-- A fill ends: its line's entry changes, its held write is answered, and its slot is FREE (R62, R65). -/
theorem fill_ends {e : LineEntry} {x : Option HeldWrite} {st : Status} (h : s.LinesSound)
    (hr : s.RangesSound) (hn : s.fillLine n = some (w, i)) (hw : ∀ v, v ≠ w → u.win v = s.win v)
    (hst : (u.win w).state = (s.win w).state) (hg : (u.win w).geometry = (s.win w).geometry)
    (hl : LineBecomes s u w i e) (hs : u.slots = s.slots) (hm : u.MarksSound w)
    (ht : t = (u.answerHeld x st).release n w) : t.LinesSound := by
  have old := h.fillAt hn
  obtain ⟨hself, hother⟩ : WindowBecomes u t w { u.win w with fills := (u.win w).fills - 1 } := by
    subst ht
    cases x <;> exact .modWin u w fun x => { x with fills := x.fills - 1 }
  have map : t.lineMap = u.lineMap := by subst ht; cases x <;> rfl
  have slots : t.slots = (s.release n w).slots := by
    subst ht
    cases x <;> · show u.slots.set _ _ = s.slots.set _ _; rw [hs]
  have geometry : (t.win w).geometry = (s.win w).geometry := by rw [hself]; exact hg
  have state : (t.win w).state = (s.win w).state := by rw [hself]; exact hst
  have line := hl.of_lineMap map
  have shrink : FillsShrink s t := .of_release slots
  refine h.at_window (.of_line (fun v hv => (hother v hv).trans (hw v hv)) (hr.segmentApart old.active)
    old.inside line) shrink ?_ fun m j hmj => ?_
  · refine hm.keeps (by rw [hself]) (.inl (by rw [hself])) (by rw [hself]) fun j => ?_
    rw [State.lineEntry, hself, map]
    rfl
  · have hne : j ≠ i := by
      rintro rfl
      obtain rfl := ((linesSound_iff s).mp h).2.2 n m (w, j) hn (shrink m _ hmj)
      exact absurd ((fillLine_of_release slots).symm.trans hmj) nofun
    refine (h.fillAt (shrink m _ hmj)).keeps geometry (.inl state) ?_
    rw [lineEntry_of_lineBecomes line geometry, if_neg hne]

theorem failed (h : s.LinesSound) (hm : s.MapSound) (hr : s.RangesSound) (hn : s.slot n = some k)
    (hk : k.isFill = true) :
    (((s.modLine k.window k.line fun e => { e with filling := false }).answerHeld k.held
        .error).release n k.window).LinesSound := by
  have hf := fillLine_of_isFill hn hk
  have old := h.fillAt hf
  have hl := lineBecomes_modLine hm.1 (hr.store _ old.active _ (claims_entryIndex old.inside))
    fun e => { e with filling := false }
  refine h.fill_ends (u := s.modLine k.window k.line fun e => { e with filling := false }) hr hf
    (fun _ _ => rfl) rfl rfl hl rfl ?_ rfl
  refine (h.marks k.window).keeps rfl (.inl rfl) rfl fun j => ?_
  rw [lineEntry_of_lineBecomes hl rfl]
  split
  · next e => rw [e]
  · rfl

/-- The pending marks of a window after one line of it has become pending, or none (R62). -/
theorem marks_completed {e : LineEntry} (h : s.LinesSound) (hm : s.MapSound)
    (hi : s.FillAt w i) (hl : LineBecomes s t w i e) (hg : (t.win w).geometry = (s.win w).geometry)
    (hst : (t.win w).state = (s.win w).state)
    (hc : (s.win w).Running → e.pending = true ∧ (t.win w).pendingCount = (s.win w).pendingCount + 1)
    (hn : ¬(s.win w).Running → e.pending = false ∧ (t.win w).pendingCount = (s.win w).pendingCount) :
    t.MarksSound w := by
  have old := h.marks w
  have entry := lineEntry_of_lineBecomes hl hg
  refine ⟨fun hr => ?_, fun hr => ?_, fun hr ha j hj => ?_⟩ <;> rw [Window.Running, hst] at hr
  · obtain ⟨hp, hcount⟩ := hc hr
    have was : (s.lineEntry w i).pending = false :=
      Bool.eq_false_iff.mpr fun hp => hm.2 _ ⟨hp, hi.filling⟩
    have lines : t.pendingLines w = s.pendingLines w + 1 := by
      unfold State.pendingLines
      rw [hg]
      refine countP_range_succ_of_flip hi.inside was ?_ fun j hj => ?_
      · rw [entry, if_pos rfl]; exact hp
      · rw [entry, if_neg hj]
    rw [hcount, lines, old.count hr]
  · exact (hn hr).2.trans (old.zero hr)
  · rw [entry]
    split
    · exact (hn hr).1
    · exact old.clean hr (hst ▸ ha) j (hg ▸ hj)

theorem fillComplete (h : s.LinesSound) (hm : s.MapSound) (hr : s.RangesSound)
    (hn : s.slot n = some k) (hk : k.isFill = true) : (s.fillComplete n k).LinesSound := by
  have hf := fillLine_of_isFill hn hk
  have old := h.fillAt hf
  have hi := hr.store _ old.active _ (claims_entryIndex old.inside)
  unfold State.fillComplete State.completeLine
  split
  · next hrun =>
    have hl := (lineBecomes_modLine hm.1 hi fun e => { e with pending := true, filling := false })
    obtain ⟨hself, hother⟩ := WindowBecomes.modWin
      (s.modLine k.window k.line fun e => { e with pending := true, filling := false }) k.window
      fun x => { x with pendingCount := x.pendingCount + 1 }
    refine h.fill_ends hr hf hother (by rw [hself]; rfl) (by rw [hself]; rfl) (hl.of_lineMap rfl) rfl
      ?_ rfl
    exact h.marks_completed hm old (hl.of_lineMap rfl) (by rw [hself]; rfl) (by rw [hself]; rfl)
      (fun _ => ⟨rfl, by rw [hself]; rfl⟩) fun hn => absurd ((isLiveOrSettling_iff _).mp hrun) hn
  · next hrun =>
    have hl := (lineBecomes_modLine hm.1 hi fun e => { e with pending := false, filling := false })
    refine h.fill_ends (u := s.modLine k.window k.line
      fun e => { e with pending := false, filling := false }) hr hf (fun _ _ => rfl) rfl rfl hl rfl ?_ rfl
    exact h.marks_completed hm old hl rfl rfl
      (fun hn => absurd ((isLiveOrSettling_iff _).mpr hn) hrun) fun _ => ⟨rfl, rfl⟩

/-- A FREE slot takes a fill of a filling line that no other slot works on. -/
theorem fill_begins (h : s.LinesSound) (hk : s.FillAt k.window k.line)
    (ho : ∀ m, s.fillLine m ≠ some (k.window, k.line)) (hf : k.isFill = true) :
    (s.setSlot n (some k)).LinesSound := by
  obtain ⟨hm, hfills, hapart⟩ := (linesSound_iff s).mp h
  have fill (m : SlotId) : (s.setSlot n (some k)).fillLine m
      = if m = n then some (k.window, k.line) else s.fillLine m := by
    rw [State.fillLine, slot_setSlot]
    split
    · simp [SlotWork.fillLine, hf]
    · rfl
  have fillAt {w i} (hw : s.FillAt w i) : (s.setSlot n (some k)).FillAt w i :=
    ⟨hw.active, hw.armed, hw.inside, hw.filling⟩
  refine (linesSound_iff _).mpr ⟨fun v => ⟨(hm v).count, (hm v).zero, (hm v).clean⟩,
    fun m w i hmi => ?_, fun m l p hmp hlp => ?_⟩
  · rw [fill] at hmi
    split at hmi
    · obtain ⟨rfl, rfl⟩ := Prod.mk.inj (Option.some.inj hmi)
      exact fillAt hk
    · exact fillAt (hfills m w i hmi)
  · rw [fill] at hmp hlp
    split at hmp <;> split at hlp
    · next em el => exact em.trans el.symm
    · exact absurd (hlp.trans hmp.symm) (ho l)
    · exact absurd (hmp.trans hlp.symm) (ho m)
    · exact hapart m l p hmp hlp

/-- A first write takes a slot, and its line begins to fill (R47, R57). -/
theorem filled {r : HRequest} (h : s.LinesSound) (hm : s.MapSound) (hr : s.RangesSound)
    (hl : (s.win k.window).state = .live)
    (hi : k.line < (s.win k.window).geometry.lineCount.toNat)
    (he : (s.lineEntry k.window k.line).filling = false) (hf : k.isFill = true) :
    (((s.takePlace r).modLine k.window k.line fun e => { e with filling := true }).allocate
        n k).LinesSound := by
  have ha : (s.win k.window).state ≠ .off := by simp [hl]
  have line := lineBecomes_modLine hm.1 (hr.store _ ha _ (claims_entryIndex hi))
    fun e => { e with filling := true }
  have entry := lineEntry_of_lineBecomes line rfl
  have marked : (s.modLine k.window k.line fun e => { e with filling := true }).LinesSound := by
    refine h.at_window (.of_line (fun _ _ => rfl) (hr.segmentApart ha) hi line) (.of_slots rfl) ?_
      fun m j hmj => ?_
    · refine (h.marks k.window).keeps rfl (.inl rfl) rfl fun j => ?_
      rw [entry]
      split
      · next e => rw [e]
      · rfl
    · refine ⟨(h.fillAt hmj).active, (h.fillAt hmj).armed, (h.fillAt hmj).inside, ?_⟩
      rw [entry]
      split
      · rfl
      · exact (h.fillAt hmj).filling
  have begun := marked.fill_begins (n := n) ⟨ha, fun e => absurd (hl.symm.trans e) nofun, hi, by rw [entry, if_pos rfl]⟩
    (fun m hmj => absurd (h.fillAt hmj).filling (by simp [he])) hf
  exact begun.recorded (.modWin _ k.window fun x => { x with fills := x.fills + 1 }) rfl
    (.of_slots rfl) rfl rfl rfl

theorem reworked {l : SlotWork} (h : s.LinesSound) (hn : s.slot n = some k) (hl : k.Continues l) :
    (s.setSlot n (some l)).LinesSound := by
  refine h.of_marks (fun _ => ⟨rfl, rfl, rfl⟩) (fun _ => ⟨rfl, rfl⟩) (.of_setSlot rfl fun p hp => ?_)
  rw [State.fillLine, hn, ← hp]
  obtain ⟨hk, hw, hline, -, ⟨ho, ho'⟩, -⟩ := hl
  simp [SlotWork.fillLine, SlotWork.isFill, hk, hw, hline, ho, ho']

/-- A slot whose window no fill works for becomes FREE. -/
theorem release (h : s.LinesSound) : (s.release n w).LinesSound :=
  h.recorded (.modWin s w fun x => { x with fills := x.fills - 1 }) rfl (.of_release rfl) rfl rfl rfl

/-- An entry's published bank alone changes (R68). -/
theorem published (h : s.LinesSound) (hm : s.MapSound) :
    (s.modLine w i fun e => { e with published := .a }).LinesSound := by
  refine h.of_marks (fun _ => ⟨rfl, rfl, rfl⟩) (fun j => ?_) (.of_slots rfl)
  show ((s.lineMap.write _ _).entry j).pending = _ ∧ ((s.lineMap.write _ _).entry j).filling = _
  by_cases hi : (s.win w).geometry.entryIndex i < Config.lineEntries
  · rw [LineMap.entry_write hm.1 hi]
    split
    · next e => subst e; exact ⟨rfl, rfl⟩
    · exact ⟨rfl, rfl⟩
  · rw [LineMap.write_past _ (not_lt.mp hi)]
    exact ⟨rfl, rfl⟩

theorem copyDone (h : s.LinesSound) (hm : s.MapSound) (hr : s.RangesSound) (hc : s.CountsSound)
    (hn : s.slot n = some k) (hk : k.isCopy = true) : (s.copyDone n k).LinesSound := by
  obtain ⟨hst, -, hf, hst'⟩ := hc.release_walk hn hk
  have counts : (s.release n k.window).CountsSound := hc.release hn (by simp_all [SlotWork.isCopy])
  have map : ((s.release n k.window).modLine k.window k.line
      fun e => { e with published := .a }).MapSound := MapSound.modLine (hm.of_lineMap rfl) (hm.2 _)
  have ranges : ((s.release n k.window).modLine k.window k.line
      fun e => { e with published := .a }).RangesSound := (Retains.refl s).release.modLine.rangesSound hr
  unfold State.copyDone
  dsimp only
  rw [if_pos hst]
  exact (h.release.published (hm.of_lineMap rfl)).walkFrom map ranges (counts.of_parts rfl rfl rfl) hst' hf

theorem copyFailed (h : s.LinesSound) (hc : s.CountsSound) (hn : s.slot n = some k)
    (hk : k.isCopy = true) : (s.copyFailed n k).LinesSound := by
  obtain ⟨hst, -, -, hst'⟩ := hc.release_walk hn hk
  have still : ¬((s.release n k.window).win k.window).Running := by simp [Window.Running, hst']
  have old := h.release (n := n) (w := k.window)
  have live : ((s.release n k.window).modWin k.window
      fun x => { x with state := .live, cursor := .none, copyRequest := false }).LinesSound := by
    obtain ⟨hself, hother⟩ := WindowBecomes.modWin (s.release n k.window) k.window
      fun x => { x with state := .live, cursor := .none, copyRequest := false }
    refine old.at_window (.of_lineMap hother rfl) (.of_slots rfl) (.of_clean ?_ fun i hi => ?_)
      fun m i hm => ?_
    · rw [hself]; exact (old.marks _).zero still
    · rw [State.lineEntry, hself]
      rw [hself] at hi
      exact (old.marks _).clean still (by simp [hst']) i hi
    · have at' := old.fillAt hm
      refine ⟨by rw [hself]; exact nofun, by rw [hself]; exact nofun, by rw [hself]; exact at'.inside, ?_⟩
      rw [State.lineEntry, hself]
      exact at'.filling
  have raised : (((s.release n k.window).modWin k.window
      fun x => { x with state := .live, cursor := .none, copyRequest := false }).raise
        (.flattenFailed k.window k.line)).LinesSound := live.of_parts rfl rfl rfl
  unfold State.copyFailed
  dsimp only
  rw [if_pos hst]
  exact raised.evaluateHold

theorem loaded (h : s.LinesSound) (hm : s.MapSound) (hw : (s.win w).state = .off)
    (hf : ¬MapFault s w) : (s.takeLoad w).LinesSound := by
  obtain ⟨hself, hother⟩ := windowBecomes_takeLoad s w
  have segment : SegmentBecomes s (s.takeLoad w) w fun _ => LineEntry.reset :=
    (segmentBecomes_mapSegment hm.1 w rfl).of_lineMap rfl
  refine h.at_window (.of_segment hother (fun v hv ha j hj => hf (.inr ⟨v, hv, ha, j, hj.2, hj.1⟩))
    segment) (.of_slots rfl) (.of_clean (by rw [hself]; rfl) fun i hi => ?_) fun n i hn => ?_
  · rw [hself] at hi
    rw [segment.lineEntry (by rw [hself]; rfl) hi]
    rfl
  · have hn : s.fillLine n = some (w, i) := hn
    exact absurd hw (h.fillAt hn).active

theorem dropped {ws : List WindowId} (h : s.LinesSound) (hm : s.MapSound) (hr : s.RangesSound)
    (hn : ws.Nodup) (hw : ∀ w ∈ ws, (s.win w).state ≠ .off) : (s.dropWindows ws).LinesSound := by
  have map : (s.dropWindows ws).lineMap = (s.forWindows ws fun w u => u.dropRecord w).lineMap :=
    (orphanSlots_spec ws allSlots (by decide) (s.forWindows ws fun w u => u.dropRecord w)).1 .lineMap
      (by decide)
  have keep {v i} (hv : v ∉ ws) (ha : (s.win v).state ≠ .off)
      (hi : i < (s.win v).geometry.lineCount.toNat) :
      (s.dropWindows ws).lineEntry v i = s.lineEntry v i := by
    rw [State.lineEntry, win_dropWindows, if_neg hv, map]
    exact (dropRecords_spec ws hn s hm.1).2.2.2 _ fun w hws hcl =>
      hr.segments v w (fun e => hv (e ▸ hws)) ha (hw w hws) _ ⟨claims_entryIndex hi, hcl⟩
  have fill {n w i} (hf : (s.dropWindows ws).fillLine n = some (w, i)) :
      s.fillLine n = some (w, i) ∧ w ∉ ws := by
    obtain ⟨k, hk, hfill, rfl, rfl⟩ := exists_of_fillLine hf
    rw [slot_dropWindows] at hk
    have ho := ((isFill_iff k).mp hfill).2
    cases hs : s.slot n with
    | none => simp [hs, orphanedWork] at hk
    | some j =>
      have : j = k ∧ k.window ∉ ws := by grind [orphanedWork]
      obtain ⟨rfl, hj⟩ := this
      exact ⟨fillLine_of_isFill hs hfill, hj⟩
  refine of_fills (fun v => ?_) h (fun n p hp => (fill hp).1) fun n w i hf => ?_
  · by_cases hv : v ∈ ws
    · exact .of_off (by rw [win_dropWindows, if_pos hv]; rfl) (by rw [win_dropWindows, if_pos hv]; rfl)
    · have win : (s.dropWindows ws).win v = s.win v := by rw [win_dropWindows, if_neg hv]
      have old := h.marks v
      refine ⟨fun hrun => ?_, fun hrun => ?_, fun hrun ha i hi => ?_⟩ <;> rw [win] at hrun
      · rw [win, old.count hrun]
        exact (pendingLines_congr (by rw [win]) fun i hi => by rw [keep hv hrun.active hi]).symm
      · rw [win]; exact old.zero hrun
      · rw [win] at ha hi
        rw [keep hv ha hi]
        exact old.clean hrun ha i hi
  · obtain ⟨hf, hv⟩ := fill hf
    have old := h.fillAt hf
    have win : (s.dropWindows ws).win w = s.win w := by rw [win_dropWindows, if_neg hv]
    exact ⟨win ▸ old.active, win ▸ old.armed, win ▸ old.inside,
      (congrArg _ (keep hv old.active old.inside)).trans old.filling⟩

theorem move (m : Move s t) (hm : s.MapSound) (hr : s.RangesSound) (hc : s.CountsSound)
    (h : s.LinesSound) : t.LinesSound := by
  cases m with
  | @forwarded r i cls w a p hp hi hw =>
    cases w with
    | none => exact h.of_parts rfl rfl rfl
    | some w =>
      refine h.recorded (.modWin s w fun x => x.countForward cls p) rfl (.of_slots rfl) ?_ ?_ ?_ <;>
        rcases p with _ | _ | _ <;> rfl
  | filled r hp hn hl hi he hk =>
    exact h.filled hm hr hl hi he.2 (isFill_of_fillsFor hk.1)
  | @ended i e he st data =>
    unfold State.endEntry
    cases hv : e.window with
    | none => exact h.of_parts rfl rfl rfl
    | some w =>
      refine h.recorded (.modWin s w fun x => x.countResponse e) rfl (.of_slots rfl) ?_ ?_ ?_ <;>
        unfold Window.countResponse <;> rcases e.parity with _ | _ | _ <;> rfl
  | reworked hn hl => exact h.reworked hn hl
  | completed hn hk => exact h.fillComplete hm hr hn hk
  | failed hn hk => exact h.failed hm hr hn hk
  | copyDone hn hk => exact h.copyDone hm hr hc hn hk
  | copyFailed hn hk => exact h.copyFailed hc hn hk
  | @freed n k hn hk =>
    exact h.of_marks (fun _ => ⟨rfl, rfl, rfl⟩) (fun _ => ⟨rfl, rfl⟩) (.of_setSlot rfl nofun)
  | @served w n hw hn =>
    rw [serveCopyWith_eq]
    exact h.recorded (.modWin s w fun x => { x with copyRequest := false, fills := x.fills + 1 }) rfl
      (.of_setSlot (n := n) (a := some (copyWork w (((s.win w).cursor).getD 0))) rfl nofun) rfl rfl rfl
  | walked hd =>
    simp only [Window.flattenDrained, Bool.and_eq_true, decide_eq_true_eq] at hd
    exact h.walkFrom hm hr hc hd.1.1.1 hd.1.2
  | changed ha => exact h.changed hm hr ha
  | flipped ha => exact h.flipAt hm hr ha
  | cleared hd => exact h.clearAt hm hr hd
  | @geometry w hw g =>
    obtain ⟨hself, hother⟩ := WindowBecomes.modWin s w fun x => { x with geometry := g }
    refine h.at_window (.of_lineMap hother rfl) (.of_slots rfl)
      (.of_off (by rw [hself]; exact (h.marks w).zero (by simp [Window.Running, hw]))
        (by rw [hself]; exact hw)) fun n i hn => ?_
    have hn : s.fillLine n = some (w, i) := hn
    exact absurd hw (h.fillAt hn).active
  | loaded hw hb hg ho hf => exact h.loaded hm hw hf
  | @retired w hl =>
    obtain ⟨hself, hother⟩ := WindowBecomes.modWin (s.mapSegment w LineEntry.unpended) w fun x =>
      { x.resetHold with state := .flattening, pendingCount := 0, armed := false, cursor := some 0
                         drainTimer := .none }
    exact h.segment_cleaned hr (active_of_live hl) hother (by rw [State.beginRetire, hself]; rfl)
      (.of_slots rfl) ((segmentBecomes_mapSegment hm.1 w unpended_reset).of_lineMap rfl) (fun _ => rfl)
      (fun _ => rfl) (by rw [State.beginRetire, hself])
      (by rw [State.beginRetire, hself]; exact ⟨nofun, nofun⟩)
  | dropped hn hw => exact h.dropped hm hr hn hw
  | reset => exact reset_linesSound.of_parts rfl rfl rfl
  | channel | answered | accepted | queued | raised | lines | port | emptied | roles
  | settings | running => exact h.of_parts rfl rfl rfl

end State.LinesSound

/-! ### The ranges, and all together -/

theorem Window.Admits.retained {x : Window} {c : WindowChange} (h : x.Admits c) :
    x.Retained c.record := fun ha => by
  refine ⟨?_, h.geometry⟩
  rcases h.life with e | ⟨hx, -⟩ | ⟨hx, -⟩
  · exact e ▸ ha
  · exact hx.active
  · simp [hx]

/-- Every change but LOAD's leaves no window newly active, and no active one with another geometry. -/
theorem Move.rangesSound (m : Move s t) (h : s.RangesSound) : t.RangesSound := by
  have r := Retains.refl s
  cases m with
  | loaded hw hb hg ho hm => exact takeLoad_rangesSound h ho hm
  | forwarded => exact r.modHPort.forward.rangesSound h
  | ended => exact r.endEntry.rangesSound h
  | completed => exact r.fillComplete.rangesSound h
  | failed => exact r.modLine.answerHeld.release.rangesSound h
  | copyDone => exact r.copyDone.rangesSound h
  | copyFailed => exact r.copyFailed.rangesSound h
  | filled => exact r.modHPort.modLine.allocate.rangesSound h
  | served => exact (Retains.issueSlot (Retains.allocate (r.modWin (.of_eq rfl rfl)))).rangesSound h
  | walked => exact r.walkFrom.rangesSound h
  | changed hc => exact (r.changed hc.retained).rangesSound h
  | flipped hc => exact (r.flipAt (active_of_settling hc.1)).rangesSound h
  | cleared hd => exact (r.clearAt (active_of_settling hd.1)).rangesSound h
  | geometry hw g => exact (r.modWin (.of_off hw)).rangesSound h
  | retired hl => exact (r.beginRetire (active_of_live hl)).rangesSound h
  | dropped => exact r.dropWindows.rangesSound h
  | reset => exact (Retains.assertReset s).rangesSound h
  | channel | answered | accepted | queued | raised | lines | port | emptied | roles | reworked | freed
  | settings | running => exact rangesSound_onWindowsAlone s _ rfl h

/-- What O11 needs of the other invariants, with what it keeps. -/
structure State.MapAgrees (s : State) : Prop where
  map : s.MapSound
  ranges : s.RangesSound
  counts : s.CountsSound
  lines : s.LinesSound

/-- Settles O11: each change of `Move` keeps the marks and the fills' lines with the invariants that they
rest on. -/
theorem everyStepKeepsThePendingCountsExact : Obligations.EveryStepKeepsThePendingCountsExact :=
  fun _ _ hm hr hc hl h =>
    (step_keeps (P := State.MapAgrees)
      (fun s _ h => ⟨h.map, rangesSound_onWindowsAlone s _ rfl h.ranges, h.counts.of_parts rfl rfl rfl,
        h.lines.of_parts rfl rfl rfl⟩)
      (fun m ⟨hm, hr, hc, hl⟩ => ⟨hm.move m, m.rangesSound hr, hc.move m, hl.move m hm hr hc⟩)
      ⟨hm, hr, hc, hl⟩ h).lines

end Sys2Proof.Machine

/-! O12 (R124): an event that changes anything the head request is judged by ends with the H-port's
examination of its head; the others leave the judgement as it was. -/

namespace Sys2Proof.Machine

variable {s t : State} {w : WindowId} {f : Frame} {o : Order}

/-- What the head request is judged by (R24, R124). -/
theorem canAccept_congr (hw : t.windows = s.windows) (hr : t.roles = s.roles)
    (hl : t.lineMap = s.lineMap) (hs : t.slots = s.slots) (ht : t.table = s.table)
    (hh : t.hport = s.hport) (hi : t.inReset = s.inReset) (r : HRequest) :
    t.canAccept r = s.canAccept r := by
  obtain ⟨⟩ := s
  obtain ⟨⟩ := t
  subst hw hr hl hs ht hh hi
  rfl

theorem acceptHead_eq_none_iff (s : State) : s.acceptHead = none ↔
    ∀ r rest, s.hport.channel = r :: rest → s.canAccept r = false := by
  cases h : s.hport.channel with
  | nil => exact ⟨fun _ _ _ e => absurd e nofun, fun _ => acceptHead_of_nil h⟩
  | cons r rest =>
    refine ⟨fun hn r' rest' e => ?_, fun hc => acceptHead_of_not_canAccept h (hc r rest rfl)⟩
    obtain ⟨rfl, rfl⟩ := List.cons.inj e
    refine Bool.eq_false_iff.mpr fun hc => ?_
    rw [acceptHead_of_canAccept h hc] at hn
    exact absurd hn nofun

namespace State.HeadExamined

theorem of_parts (h : s.HeadExamined) (hw : t.windows = s.windows) (hr : t.roles = s.roles)
    (hl : t.lineMap = s.lineMap) (hs : t.slots = s.slots) (ht : t.table = s.table)
    (hh : t.hport = s.hport) (hi : t.inReset = s.inReset) : t.HeadExamined :=
  (acceptHead_eq_none_iff t).mpr fun r rest e => by
    rw [canAccept_congr hw hr hl hs ht hh hi]
    exact (acceptHead_eq_none_iff s).mp h r rest (hh ▸ e)

theorem pump (s : State) : s.pump.HeadExamined := acceptHead_pump s

theorem arbitrate (s : State) (o : Order) : (s.arbitrate o).HeadExamined := pump _

theorem modLines {g : LineInterface → LineInterface} (h : s.HeadExamined) :
    (s.modLines g).HeadExamined := h.of_parts rfl rfl rfl rfl rfl rfl rfl

theorem ite {c : Prop} [Decidable c] (hs : c → s.HeadExamined) (ht : ¬c → t.HeadExamined) :
    (if c then s else t).HeadExamined := iteInduction (motive := State.HeadExamined) hs ht

/-! ### Ticks and edges -/

theorem takeTick (h : s.HeadExamined) : (s.takeTick o).HeadExamined := by
  refine List.foldlRecOn _ State.tickAgent h.modLines fun u hu a _ => ?_
  cases a with
  | window w => exact pump _
  | pulse => exact hu.modLines
  | slot n | steering | edge l w => exact hu

theorem takeEdges (old new : LineLevels) : ∀ (es done : List (InputLine × WindowId)) {s : State},
    s.HeadExamined → (State.takeEdges old new done es s).HeadExamined
  | [], _, _, h => h
  | (_, _) :: es, _, _, _ => takeEdges old new es _ (pump _)

theorem takeSample {xs : List LineSample} (h : s.HeadExamined) : (s.takeSample xs o).HeadExamined :=
  (takeEdges _ _ _ [] h).modLines

theorem refclkEdge (h : s.HeadExamined) : s.refclkEdge.HeadExamined :=
  whenRunning_keeps (P := State.HeadExamined) h fun h => .ite (fun _ => h.takeTick) fun _ => h.modLines

/-! ### Frames -/

theorem frame {c : Option CommandName} {atEnd : MgmtPort × NoticeQueue → State → ResultCode × State}
    (h : s.HeadExamined) (hend : ∀ p t, t.HeadExamined → (atEnd p t).2.HeadExamined) :
    (s.frame c f atEnd).HeadExamined := by
  have port (u : State) (m : MgmtPort) (hu : u.HeadExamined) :
      (u.modMgmt fun _ => m).HeadExamined := hu.of_parts rfl rfl rfl rfl rfl rfl rfl
  have clocked (q : NoticeQueue) : (s.modNotices fun _ => q).HeadExamined :=
    h.of_parts rfl rfl rfl rfl rfl rfl rfl
  unfold State.frame
  split
  · dsimp only
    split
    · exact port _ _ (hend _ _ (clocked _))
    · exact port _ _ (clocked _)
    · exact port _ _ (clocked _)
  · exact h

theorem writeFrame {c : CommandName} {body : Frame → State → ResultCode × State} (h : s.HeadExamined)
    (hb : ∀ g t, t.HeadExamined → (body g t).2.HeadExamined) :
    (s.whenRunning fun s => s.writeFrame c f body).HeadExamined := by
  refine whenRunning_keeps (P := State.HeadExamined) h fun h => h.frame fun p t ht => ?_
  split
  · exact hb _ t ht
  · exact ht

theorem windowFrame {c : CommandName} {body : Frame → WindowId → State → ResultCode × State}
    (h : s.HeadExamined) (hb : ∀ g w t, t.HeadExamined → (body g w t).2.HeadExamined) :
    (s.whenRunning fun s => s.writeFrame c f fun g => onWindow g (body g)).HeadExamined := by
  refine h.writeFrame fun g t ht => ?_
  unfold onWindow
  split
  · exact ht
  · exact hb g _ t ht

theorem readFrame {c : CommandName} (h : s.HeadExamined) :
    (s.whenRunning fun s => s.readFrame c f).HeadExamined :=
  whenRunning_keeps (P := State.HeadExamined) h fun h => h.frame fun _ _ ht => ht

/-! ### Bodies -/

theorem ite_body {c : Prop} [Decidable c] {a b : ResultCode × State} (ha : c → a.2.HeadExamined)
    (hb : ¬c → b.2.HeadExamined) : (if c then a else b).2.HeadExamined :=
  iteInduction (motive := fun p : ResultCode × State => p.2.HeadExamined) ha hb

theorem writePolicyAt (h : s.HeadExamined) : (writePolicyAt f w s).2.HeadExamined := by
  refine ite_body (fun _ => h) fun _ => ite_body (fun _ => h) fun _ => ?_
  split
  · exact h
  · exact pump _

theorem writeRolesBody (h : s.HeadExamined) : (writeRolesBody f s).2.HeadExamined := by
  unfold Machine.writeRolesBody
  split
  · exact pump _
  · exact h

theorem writeDeviceSettingsBody (h : s.HeadExamined) :
    (writeDeviceSettingsBody f o s).2.HeadExamined := by
  unfold Machine.writeDeviceSettingsBody
  split
  · exact h
  · exact pump _

theorem loadAt (h : s.HeadExamined) : (loadAt w s).2.HeadExamined :=
  ite_body (fun _ => h) fun _ => ite_body (fun _ => h) fun _ => ite_body (fun _ => h) fun _ =>
    ite_body (fun _ => h) fun _ => ite_body (fun _ => h) fun _ => pump _

theorem setHoldAt (h : s.HeadExamined) : (setHoldAt f w s).2.HeadExamined := by
  unfold Machine.setHoldAt
  split
  · exact h
  · exact ite_body (fun _ => h) fun _ => pump _

theorem forceFallbackAt (h : s.HeadExamined) : (forceFallbackAt f w s).2.HeadExamined := by
  unfold Machine.forceFallbackAt
  split
  · exact h
  · exact ite_body (fun _ => ite_body (fun _ => pump _) fun _ => h) fun _ => h

theorem arbitrated (s : State) (o : Order) (r : ResultCode) : (r, s.arbitrate o).2.HeadExamined := by
  dsimp only
  exact arbitrate s o

/-! ### Commands -/

/-- Every command keeps the head examined (R124). -/
theorem exec (c : Instr) (h : s.HeadExamined) : ∃ t, exec c s = .next t ∧ t.HeadExamined := by
  have running {g : State → State} (hg : (g s).HeadExamined) : (s.whenRunning g).HeadExamined :=
    whenRunning_keeps (P := State.HeadExamined) h fun _ => hg
  have onSlot {n cond} {g : SlotWork → State → State} (hg : ∀ k, (g k s).HeadExamined) :
      (s.onSlot n cond g).HeadExamined := onSlot_keeps (P := State.HeadExamined) h fun k _ => hg k
  cases c with
  | requestAccepted req => exact ⟨_, rfl, pump _⟩
  | responseAccepted => exact ⟨_, rfl, running (.ite (fun _ => h) fun _ => pump _)⟩
  | memorySideAccept => exact ⟨_, rfl, running (h.of_parts rfl rfl rfl rfl rfl rfl rfl)⟩
  | trackerResponse tag status data o =>
    refine ⟨_, rfl, running ?_⟩
    split
    · exact h
    · exact arbitrate _ _
  | strayResponseDiscarded => exact ⟨_, rfl, h⟩
  | fillReadDone | fillOperationRetry | flattenCopyReadDone => exact ⟨_, rfl, onSlot fun _ => pump _⟩
  | fillCompletes | fillFails | flattenCopyDone | flattenCopyFailed | retiringSlotFreed =>
    exact ⟨_, rfl, onSlot fun _ => arbitrate _ _⟩
  | fillWriteStart | flattenRequestServed => exact ⟨_, rfl, running (pump _)⟩
  | flattenDrainComplete => exact ⟨_, rfl, running (.ite (fun _ => arbitrate _ _) fun _ => h)⟩
  | flip | clear | drainTimerExpiry =>
    exact ⟨_, rfl, running (.ite (fun _ => pump _) fun _ => h)⟩
  | tick o => exact ⟨_, rfl, running h.takeTick⟩
  | committedPulseEnd => exact ⟨_, rfl, running (.ite (fun _ => h.modLines) fun _ => h)⟩
  | boundary | pubreqEdge | holdLineEdge => exact ⟨_, rfl, running h.takeSample⟩
  | resetAsserted => exact ⟨_, rfl, acceptHead_of_reset rfl⟩
  | resetReleased => exact ⟨_, rfl, .ite (fun _ => pump _) fun _ => h⟩
  | readStatus | readWindow | readRoles | readLine | readNotice => exact ⟨_, rfl, h.readFrame⟩
  | writeGeometry =>
    exact ⟨_, rfl, h.windowFrame fun _ _ _ ht => ite_body (fun _ => pump _) fun _ => ht⟩
  | writePolicy => exact ⟨_, rfl, h.windowFrame fun _ _ _ ht => ht.writePolicyAt⟩
  | writeRoles => exact ⟨_, rfl, h.writeFrame fun _ _ ht => ht.writeRolesBody⟩
  | writeDeviceSettings => exact ⟨_, rfl, h.writeFrame fun _ _ ht => ht.writeDeviceSettingsBody⟩
  | load => exact ⟨_, rfl, h.windowFrame fun _ _ _ ht => ht.loadAt⟩
  | arm | discard | clearHold =>
    exact ⟨_, rfl, h.windowFrame fun _ _ _ ht => ite_body (fun _ => pump _) fun _ => ht⟩
  | publish | unpublish =>
    exact ⟨_, rfl, h.writeFrame fun _ _ ht => ite_body (fun _ => pump _) fun _ => ht⟩
  | retire | drop =>
    exact ⟨_, rfl, h.windowFrame fun _ _ _ ht => ite_body (fun _ => arbitrated _ _ _) fun _ => ht⟩
  | setHold => exact ⟨_, rfl, h.windowFrame fun _ _ _ ht => ht.setHoldAt⟩
  | forceFallback => exact ⟨_, rfl, h.windowFrame fun _ _ _ ht => ht.forceFallbackAt⟩
  | restart => exact ⟨_, rfl, h.writeFrame fun _ _ _ => arbitrated _ _ _⟩
  | badCommand => exact ⟨_, rfl, running (.ite (fun _ => h.frame fun _ _ ht => ht) fun _ => h)⟩

end State.HeadExamined

/-- Settles O12. -/
theorem everyStepExaminesTheHead : Obligations.EveryStepExaminesTheHead := by
  intro s t hs h
  unfold step at h
  split at h
  · obtain rfl := Host.Outcome.next.inj h
    exact hs.refclkEdge
  · next c rest _ =>
    have hs : ({ s with pending := rest } : State).HeadExamined :=
      hs.of_parts rfl rfl rfl rfl rfl rfl rfl
    obtain ⟨u, e, hu⟩ := hs.exec c
    obtain rfl := Host.Outcome.next.inj (e.symm.trans h)
    exact hu

end Sys2Proof.Machine

/-! ## Requests

The verdicts that the statements on steering left: the forwarded classes of R28, R31, R33 and R43, the
first write (R47), violations (R34, R35), and the requests that wait (R124). -/

namespace Sys2Proof.Machine

variable {s t : State} {r : HRequest} {w : WindowId} {i : EntryId} {n : SlotId}

/-! ### Forwarded requests -/

/-- An untagged request other than a producer write counts as a request alone (R7). -/
theorem countForward_untagged (x : Window) {cls : TrackerClass} (hc : cls ≠ .producerWrite) :
    x.countForward cls none = { x with requests := x.requests + 1 } := by
  simp [Window.countForward, hc]

theorem apparentClass_loading {role : Role} {kind : Kind}
    (h : role = .producer ∨ role ≠ .none ∧ kind = .read) :
    apparentClass w role kind .loading = .loadingAccess w := by
  rcases h with rfl | ⟨hr, rfl⟩
  · cases kind <;> rfl
  · cases role with
    | none => exact absurd rfl hr
    | consumer | producer | maintenance => rfl

theorem shadowClass_maintenance {st : WindowState} (h : st ≠ .flattening) :
    shadowClass w .maintenance st = .rawMaintenance w := by
  cases st with
  | flattening => exact absurd rfl h
  | off | loading | live | settling => rfl

theorem apparentClass_publishedRead {role : Role} {x : Window} (hx : x.Running)
    (h : role = .consumer ∨ role = .maintenance) :
    apparentClass w role .read x.state = .publishedRead w := by
  rcases h with rfl | rfl <;> rcases hx with hx | hx <;> rw [hx] <;> rfl

/-- The verdict on a permitted access of a LOADING window (R28). -/
theorem outcome_loading (hw : WellFormedRequest s.hport r) (ha : InApparentOf s r.address w)
    (hst : (s.win w).state = .loading)
    (hr : s.role r.requester w = .producer
      ∨ s.role r.requester w ≠ .none ∧ accessKind r.access = .read) :
    s.outcome r = .forward .loadingAccess (some w) ((s.win w).geometry.steered .a r.address) none := by
  rw [State.outcome, classify_apparent hw ha, hst, apparentClass_loading hr, State.outcomeOf]

/-- The verdict on a maintenance access to a shadow range (R31). -/
theorem outcome_rawMaintenance (hw : WellFormedRequest s.hport r) (ha : InShadowOf s r.address w)
    (hr : s.role r.requester w = .maintenance) (hst : (s.win w).state ≠ .flattening) :
    s.outcome r = .forward .rawMaintenance (some w) r.address none := by
  rw [State.outcome, classify_shadow hw ha, hr, shadowClass_maintenance hst, State.outcomeOf]

/-- The verdict on a request outside every range (R33). -/
theorem outcome_passThrough (hw : WellFormedRequest s.hport r) (ha : InNoRange s r.address) :
    s.outcome r = .forward .passThrough none r.address none := by
  rw [State.outcome, classify_outside hw ha, State.outcomeOf]

theorem outcome_publishedRead (hw : WellFormedRequest s.hport r) (ha : InApparentOf s r.address w)
    (hx : (s.win w).Running) (hk : accessKind r.access = .read)
    (hr : s.role r.requester w = .consumer ∨ s.role r.requester w = .maintenance) :
    s.outcome r = s.outcomeOf r (.publishedRead w) := by
  rw [State.outcome, classify_apparent hw ha, hk, apparentClass_publishedRead hx hr]

/-- Settles O14: the verdict is `forward`, with no window to count at. -/
theorem passThroughIsForwardedUnchanged : Obligations.PassThroughIsForwardedUnchanged := by
  rintro s r i ⟨hr, hch, hp, hw⟩ ha hi
  have ho := outcome_passThrough hw ha
  have hfree : s.freeEntry = some i := freeEntry_of_lowest hi
  have hacc : s.accept r = (s.takePlace r).forward r i .passThrough none r.address none := by
    have hfree' : (s.takePlace r).freeEntry = some i := hfree
    rw [State.accept, ho, State.carryOut, hfree']
  refine ⟨s.accept r, exec_requestAccepted hr hch hp (by simp [hfree]), ?_, ?_⟩ <;> rw [hacc]
  · exact ((only_modHPort s _).mono (by simp)).trans (Only.trans
      ((only_setEntry _ i _).mono (by simp)) ((only_issue _ _).mono (by simp)))
  · exact forwarded_takePlace s r i .passThrough none r.address none

/-- Settles O15: the two verdicts. -/
theorem untaggedRequestsAreForwarded : Obligations.UntaggedRequestsAreForwarded := by
  intro s r i w hready hi
  have ⟨_, _, _, hw⟩ := hready
  refine ⟨fun ha hst hr => ?_, fun ha hr hst => ?_⟩
  · rw [← countForward_untagged (s.win w) (cls := .loadingAccess) nofun]
    exact forwarded_of_outcome hready hi (outcome_loading hw ha hst hr)
  · rw [← countForward_untagged (s.win w) (cls := .rawMaintenance) nofun]
    exact forwarded_of_outcome hready hi (outcome_rawMaintenance hw ha hr hst)

/-- Where reads are redirected they go to the fallback image (R43, R109). -/
theorem redirection_of_redirected {x : Window} {base : Addr} (hf : x.geometry.fallback = some base)
    (h : x.forcedFallback = true ∨ x.policy.redirect = true ∧ x.holdStatus ≠ .clear) :
    x.redirection = some base := by
  rw [Window.redirection, if_pos, hf]
  rcases h with h | ⟨h1, h2⟩ <;> simp_all

theorem redirection_eq_none {x : Window}
    (h : x.geometry.fallback = none
      ∨ x.forcedFallback = false ∧ (x.policy.redirect = false ∨ x.holdStatus = .clear)) :
    x.redirection = none := by
  unfold Window.redirection
  split
  · next hc =>
    rcases h with h | ⟨h1, h2 | h2⟩
    · exact h
    · simp [h1, h2] at hc
    · simp [h1, h2] at hc
  · rfl

/-- Settles O16: the verdict goes by the redirection of the window. -/
theorem publishedReadIsSteered : Obligations.PublishedReadIsSteered := by
  intro s r i w hready hi ha hx hk hr
  have ⟨_, _, _, hw⟩ := hready
  have ho := outcome_publishedRead hw ha hx hk hr
  refine ⟨fun base hf hred => ?_, fun hred => ?_⟩
  · rw [← countForward_untagged (s.win w) (cls := .publishedRead) nofun]
    apply forwarded_of_outcome hready hi
    rw [ho, State.outcomeOf, redirection_of_redirected hf hred]
    rfl
  · rw [← countForward_tagged (s.win w) (cls := .publishedRead) nofun]
    apply forwarded_of_outcome hready hi
    rw [ho, State.outcomeOf, redirection_eq_none hred]
    rfl

/-! ### Requests that wait -/

/-- The verdict on a request of a forwarded class is `forward`, and needs an entry (R24). -/
theorem needsEntry_of_forwardedRequest (hw : WellFormedRequest s.hport r) (h : ForwardedRequest s r) :
    (s.outcome r).needsEntry = true := by
  rcases h with ha | ⟨w, ⟨ha, hst, hr⟩ | ⟨ha, hr, hst⟩ | ⟨ha, hx, hk, hr⟩ | ⟨ha, hl, hk, hr, hf, hp⟩⟩
  · rw [outcome_passThrough hw ha]; rfl
  · rw [outcome_loading hw ha hst hr]; rfl
  · rw [outcome_rawMaintenance hw ha hr hst]; rfl
  · have published (hr : s.role r.requester w = .consumer ∨ s.role r.requester w = .maintenance) :
        (s.outcome r).needsEntry = true := by
      rw [outcome_publishedRead hw ha hx hk hr, State.outcomeOf]
      split <;> rfl
    rcases hr with hr | hr | ⟨hr, hf⟩
    · exact published (.inl hr)
    · exact published (.inr hr)
    · rw [State.outcome, classify_producerRead hw ha hr hk hx, outcomeOf_producerRead_steered hf]; rfl
  · rw [State.outcome, classify_producerWrite hw ha hr hk (.inl hl),
      outcomeOf_producerWrite_pending hl hf hp]; rfl

/-- A presented request joins the channel before it is judged (R124). -/
def State.presenting (s : State) (r : HRequest) : State :=
  s.modHPort fun h => { h with channel := h.channel ++ [r] }

theorem canAccept_presenting (s : State) (r q : HRequest) :
    (s.presenting r).canAccept q = s.canAccept q := rfl

/-- What keeps a request from being accepted, whatever it is (R24, R124). -/
theorem canAccept_eq_false (h : s.inReset = true ∨ 48 ≤ s.hport.placesHeld
    ∨ (s.outcome r).needsEntry = true ∧ ∀ i, s.entry i ≠ none) : s.canAccept r = false := by
  unfold State.canAccept Config.responsePlaces
  rcases h with h | h | ⟨hn, he⟩
  · simp [h]
  · simp [not_lt.mpr h]
  · simp [hn, freeEntry_none he]

/-- Settles O22: each case keeps the head of the channel from being accepted. -/
theorem requestWaitsOnTheChannel : Obligations.RequestWaitsOnTheChannel := by
  intro s r h
  have blocked : (s.presenting r).acceptHead = none := by
    refine (acceptHead_eq_none_iff _).mpr fun q rest hq => ?_
    rw [canAccept_presenting]
    rcases h with h | h | ⟨hex, hne⟩ | ⟨⟨-, hch, -, hw⟩, hf, he⟩
    · exact canAccept_eq_false (.inl h)
    · exact canAccept_eq_false (.inr (.inl h))
    · obtain ⟨q', rest', hs⟩ := List.exists_cons_of_ne_nil hne
      have hq : s.hport.channel ++ [r] = q :: rest := hq
      rw [hs, List.cons_append] at hq
      obtain ⟨rfl, -⟩ := List.cons.inj hq
      exact (acceptHead_eq_none_iff s).mp hex q' rest' hs
    · have hq : s.hport.channel ++ [r] = q :: rest := hq
      rw [hch] at hq
      obtain ⟨rfl, -⟩ := List.cons.inj hq
      exact canAccept_eq_false (.inr (.inr ⟨needsEntry_of_forwardedRequest hw hf, he⟩))
  exact ⟨s.presenting r, congrArg Host.Outcome.next (pump_of_blocked blocked), only_modHPort s _, rfl⟩

/-! ### Violations -/

theorem apparentClass_consumerWrite {role : Role} {st : WindowState} (hst : st ≠ .flattening)
    (hr : role = .consumer ∨ role = .maintenance) :
    apparentClass w role .write st = .violation w .consumerWrite := by
  cases st with
  | flattening => exact absurd rfl hst
  | off | loading | live | settling => rcases hr with rfl | rfl <;> rfl

theorem shadowClass_violation {role : Role} {st : WindowState}
    (h : role = .none ∨ st ≠ .flattening ∧ (role = .consumer ∨ role = .producer)) :
    shadowClass w role st = .violation w .shadowAccess := by
  rcases h with rfl | ⟨hst, hr⟩
  · rfl
  · cases st with
    | flattening => exact absurd rfl hst
    | off | loading | live | settling => rcases hr with rfl | rfl <;> rfl

theorem outcome_violation {c : ViolationCode} (hw : WellFormedRequest s.hport r)
    (h : Violates s r w c) : s.outcome r = .violation w c := by
  have hc : s.classify r = .violation w c := by
    cases c with
    | noRole =>
      obtain ⟨ha, hr⟩ := h
      rw [classify_apparent hw ha, hr]
      rfl
    | consumerWrite =>
      obtain ⟨ha, hk, hst, hr⟩ := h
      rw [classify_apparent hw ha, hk, apparentClass_consumerWrite hst hr]
    | shadowAccess =>
      obtain ⟨ha, hr⟩ := h
      rw [classify_shadow hw ha, shadowClass_violation hr]
  rw [State.outcome, hc, State.outcomeOf]

/-- The answer and the notice of a violation (R34). -/
def State.violated (s : State) (r : HRequest) (w : WindowId) (c : ViolationCode) : State :=
  ((s.takePlace r).answerLocally r .error (s.hport.isOutstanding r.requester r.tag)).raise
    (.violation w r.requester r.address c)

theorem exec_violation {c : ViolationCode} (hready : ReadyFor s r) (h : Violates s r w c) :
    exec (.requestAccepted r) s = .next ((s.violated r w c).violationEvent w) := by
  obtain ⟨hr, hch, hp, hw⟩ := hready
  have ho := outcome_violation hw h
  rw [exec_requestAccepted hr hch hp (by simp [ho, Verdict.needsEntry]), State.accept, ho]
  rfl

theorem only_violated (s : State) (r : HRequest) (w : WindowId) (c : ViolationCode) :
    Only [.hport, .notices] s (s.violated r w c) :=
  ((only_takePlace_answerLocally s r .error _).mono (by simp)).trans ((only_raise _ _).mono (by simp))

/-- Settles O21: after the answer and the notice the violation acts as an event, or not at all. -/
theorem violationIsAnsweredError : Obligations.ViolationIsAnsweredError := by
  refine ⟨fun s r w c hready hv h => ?_, fun s r w c hready hv hx hsrc => ?_⟩
  · refine ⟨s.violated r w c, (exec_violation hready hv).trans (congrArg _ (if_neg ?_)),
      only_violated s r w c, answeredLocally_takePlace s r .error, rfl⟩
    rintro ⟨hrun, hsrc⟩
    rcases h with h | h
    · exact h ((isLiveOrSettling_iff _).mp hrun)
    · exact absurd (h.symm.trans hsrc) nofun
  · obtain ⟨x, l, hx', e⟩ := eventOccurs_eq (s.violated r w c) w .violation hx
    refine ⟨_, x, l, (exec_violation hready hv).trans (congrArg _ ((if_pos
      ⟨(isLiveOrSettling_iff _).mpr hx, hsrc⟩).trans e)), ?_, ?_, ?_, hx', patched_notices _ w x l⟩
    · exact ((only_violated s r w c).mono (by simp)).trans ((only_patched _ w x l).mono (by simp))
    · exact answeredLocally_takePlace s r .error
    · exact ⟨patched_win_self _ w x l, fun v hv => patched_win_of_ne _ hv x l⟩

/-! ### First writes -/

/-- A producer write to a line that is neither pending nor filling, with a slot FREE (R47). -/
theorem outcome_firstWrite (hw : WellFormedRequest s.hport r) (ha : InApparentOf s r.address w)
    (hst : (s.win w).state = .live) (hk : accessKind r.access = .write)
    (hr : s.role r.requester w = .producer) (hn : LowestFreeSlot s n)
    (hf : (s.entryAt w r.address).filling = false) (hp : (s.entryAt w r.address).pending = false) :
    s.outcome r = .firstWrite n w ((s.win w).geometry.lineOf r.address) := by
  have he : s.lineEntry w ((s.win w).geometry.lineOf r.address) = s.entryAt w r.address := rfl
  rw [State.outcome, classify_producerWrite hw ha hr hk (.inl hst)]
  simp [State.outcomeOf, he, hst, hf, hp, freeSlot_of_lowest hn]

/-- A first write has taken its place, its line and its slot, whose work is `k` (R47, R57). -/
def State.taken (s : State) (r : HRequest) (n : SlotId) (k : SlotWork) : State :=
  ((s.takePlace r).modLine k.window k.line fun e => { e with filling := true }).allocate n k

/-- What a first write has taken before its operation begins. -/
structure Takes (s t : State) (r : HRequest) (n : SlotId) (w : WindowId) (i : Nat) : Prop where
  only : Only [.windows, .lineMap, .slots, .hport, .issueQueue] s t
  place : HoldsPlace s t r
  responses : t.hport.responses = s.hport.responses
  line : LineBecomes s t w i { s.lineEntry w i with filling := true }
  window : WindowBecomes s t w { s.win w with fills := (s.win w).fills + 1 }

theorem takes_taken {k : SlotWork} {l : Nat} (hm : s.MapSound)
    (hi : (s.win w).geometry.entryIndex l < 8192) (hw : k.window = w) (hl : k.line = l) :
    Takes s (s.taken r n k) r n w l ∧ SlotBecomes s (s.taken r n k) n (some k) := by
  subst hw hl
  refine ⟨⟨?_, holdsPlace_takePlace s r, rfl,
    (lineBecomes_modLine hm.1 hi fun e => { e with filling := true }).of_lineMap rfl,
    .modWin s k.window fun x => { x with fills := x.fills + 1 }⟩, .setSlot s n (some k)⟩
  have marked : Only [.windows, .lineMap, .slots, .hport, .issueQueue] s
      ((s.takePlace r).modLine k.window k.line fun e => { e with filling := true }) :=
    ((only_modHPort s _).mono (by simp)).trans ((only_modLine _ k.window k.line _).mono (by simp))
  have slot : Only [.windows, .lineMap, .slots, .hport, .issueQueue] s
      (((s.takePlace r).modLine k.window k.line fun e => { e with filling := true }).setSlot n
        (some k)) := marked.trans ((only_setSlot _ n (some k)).mono (by simp))
  have last : Only [.windows, .lineMap, .slots, .hport, .issueQueue] _ (s.taken r n k) :=
    (only_modWin (((s.takePlace r).modLine k.window k.line fun e => { e with filling := true }).setSlot
      n (some k)) k.window fun x => { x with fills := x.fills + 1 }).mono (by simp)
  exact slot.trans last

/-- The operation of a slot's phase changes its work and the issue queue alone. -/
theorem Takes.of_only {u : State} {l : Nat} (h : Takes s t r n w l)
    (ho : Only [.slots, .issueQueue] t u) : Takes s u r n w l := by
  have hport : u.hport = t.hport := ho .hport (by decide)
  have windows : u.windows = t.windows := ho .windows (by decide)
  refine ⟨h.only.trans (ho.mono (by simp)), ?_, hport ▸ h.responses,
    h.line.of_lineMap (ho .lineMap (by decide)), h.window.of_windows windows⟩
  unfold HoldsPlace
  rw [hport]
  exact h.place

theorem issueSlot_reading {k : SlotWork} (hn : s.slot n = some k) (hp : k.phase = .reading) :
    s.issueSlot n = s.issue
      { tag := slotTag n, address := (s.win k.window).geometry.lineAddress k.source k.line
        access := .read 8 } := by
  simp [State.issueSlot, hn, SlotWork.operation, hp]

theorem SlotBecomes.trans {u : State} {j k : Option SlotWork} (h : SlotBecomes s t n j)
    (h' : SlotBecomes t u n k) : SlotBecomes s u n k :=
  ⟨h'.1, fun m hm => (h'.2 m hm).trans (h.2 m hm)⟩

/-- The work that a first write gives its slot: of a partial write in READING, of a write of the whole
line in WAITING with its buffer (R58, R63). -/
def State.firstWork (s : State) (w : WindowId) (i : Nat) (x : HeldWrite) : SlotWork :=
  { phase := if isFullLine x.beats then .waiting else .reading
    kind := if isFullLine x.beats then .fullLine else .firstWrite
    window := w, line := i, source := (s.lineEntry w i).published, target := (s.lineEntry w i).working
    held := some x, buffer := if isFullLine x.beats then some (lineOfBeats x.beats) else none
    attempt := 1, orphaned := false }

/-- A partial first write issues the read of the published line (R58). -/
theorem takeFirstWrite_partial {x : HeldWrite} {l : Nat} (hm : s.MapSound)
    (hi : (s.win w).geometry.entryIndex l < 8192) (hx : isFullLine x.beats = false) :
    ∃ t, (s.takePlace r).takeFirstWrite n w l x = t ∧ Takes s t r n w l
      ∧ SlotBecomes s t n (some (s.firstWork w l x))
      ∧ t.issueQueue = s.issueQueue ++ [{ tag := slotTag n
                                          address := (s.win w).geometry.lineAddress
                                            (s.lineEntry w l).published l
                                          access := .read 8 }] := by
  obtain ⟨ht, hs⟩ := takes_taken (n := n) (r := r) (k := s.firstWork w l x) hm hi rfl rfl
  have e : (s.takePlace r).takeFirstWrite n w l x = (s.taken r n (s.firstWork w l x)).issueSlot n := by
    simp only [State.takeFirstWrite, hx, Bool.false_eq_true, if_false, State.firstWork]
    rfl
  rw [issueSlot_reading hs.1 (by simp [State.firstWork, hx])] at e
  refine ⟨_, e, ht.of_only ((only_issue _ _).mono (by simp)), hs.of_slots rfl, ?_⟩
  show _ ++ [_] = _
  have geometry : ((s.taken r n (s.firstWork w l x)).win w).geometry = (s.win w).geometry := by
    rw [ht.window.1]
  simp only [State.firstWork] at geometry ⊢
  rw [geometry]
  rfl

/-- A first write of the whole line waits while a read of the previous epoch is left, and writes at once
otherwise (R60, R61, R63). -/
theorem takeFirstWrite_full {x : HeldWrite} {l : Nat} (hm : s.MapSound)
    (hi : (s.win w).geometry.entryIndex l < 8192) (hx : isFullLine x.beats = true) :
    ∃ t, (s.takePlace r).takeFirstWrite n w l x = t ∧ Takes s t r n w l
      ∧ ((s.win w).previousReads ≠ 0 → SlotBecomes s t n (some (s.firstWork w l x))
        ∧ t.issueQueue = s.issueQueue)
      ∧ ((s.win w).previousReads = 0 →
        SlotBecomes s t n (some { s.firstWork w l x with phase := .writing, attempt := 1 })
        ∧ t.issueQueue = s.issueQueue ++ [{ tag := slotTag n
                                            address := (s.win w).geometry.lineAddress
                                              (s.lineEntry w l).working l
                                            access := .write (beatsOfLine (lineOfBeats x.beats)) }]) := by
  obtain ⟨ht, hs⟩ := takes_taken (n := n) (r := r) (k := s.firstWork w l x) hm hi rfl rfl
  have e : (s.takePlace r).takeFirstWrite n w l x = (s.taken r n (s.firstWork w l x)).leaveWaiting n := by
    simp only [State.takeFirstWrite, hx, if_true, State.firstWork]
    rfl
  have hfill : (s.firstWork w l x).FillsFor w := ⟨rfl, rfl, .inr (by simp [State.firstWork, hx])⟩
  have hwait : (s.firstWork w l x).phase = .waiting := by simp [State.firstWork, hx]
  have may : (s.firstWork w l x).mayWrite ((s.taken r n (s.firstWork w l x)).win w)
      = decide ((s.win w).previousReads = 0) := by
    rw [mayWrite_of_fill hfill hwait, ht.window.1]; rfl
  by_cases hprev : (s.win w).previousReads = 0
  · have hbuf : ({ s.firstWork w l x with phase := .writing, attempt := 1 } : SlotWork).buffer
        = some (lineOfBeats x.beats) := by simp [State.firstWork, hx]
    rw [leaveWaiting_of_mayWrite hs.1 (may.trans (by simp [hprev]))] at e
    refine ⟨_, e, ht.of_only (only_startPhase _ _ _), fun hn => absurd hprev hn,
      fun _ => ⟨hs.trans (slotBecomes_startPhase _ _ _), ?_⟩⟩
    rw [startPhase_writing _ _ rfl hbuf]
    show _ ++ [_] = _
    have geometry : ((s.taken r n (s.firstWork w l x)).win w).geometry = (s.win w).geometry := by
      rw [ht.window.1]
    simp only [State.firstWork] at geometry ⊢
    rw [geometry]
    rfl
  · rw [leaveWaiting_of_not hs.1 (may.trans (by simp [hprev]))] at e
    exact ⟨_, e, ht.of_only (Only.refl _ _), fun _ => ⟨hs, rfl⟩, fun hn => absurd hn hprev⟩

/-- Settles O19: what every first write takes is said by `Takes`; then a partial write issues its read,
and a full one writes or waits. -/
theorem firstWriteTakesASlot : Obligations.FirstWriteTakesASlot := by
  rintro s r d w n i _ ⟨hr, hch, hp, hw⟩ hm hn ha hst hacc hrole rfl hi rfl hf hpend
  have ho : s.outcome r = .firstWrite n w ((s.win w).geometry.lineOf r.address) :=
    outcome_firstWrite hw ha hst (by rw [hacc]; rfl) hrole hn hf hpend
  set x : HeldWrite := { requester := r.requester, tag := r.tag, address := r.address, beats := d }
  have hexec : exec (.requestAccepted r) s
      = .next ((s.takePlace r).takeFirstWrite n w ((s.win w).geometry.lineOf r.address) x) := by
    rw [exec_requestAccepted hr hch hp (r := r) (by simp [ho, Verdict.needsEntry]), State.accept, ho,
      State.carryOut, hacc]
    rfl
  cases hx : isFullLine x.beats with
  | false =>
    obtain ⟨t, e, ht, hs, hq⟩ := takeFirstWrite_partial (r := r) (n := n) hm hi hx
    refine ⟨t, _, hexec.trans (congrArg _ e), ht.only, ht.place, ht.responses, ht.line, ht.window, hs,
      rfl, rfl, rfl, rfl, rfl, rfl, rfl, fun _ => ⟨?_, ?_, ?_, _, rfl, rfl, rfl, hq⟩, fun hd => ?_⟩
    · simp [State.firstWork, hx]
    · simp [State.firstWork, hx]
    · simp [State.firstWork, hx]
    · exact absurd (hx.symm.trans ((isFullLine_iff d).mpr hd)) nofun
  | true =>
    have hd := (isFullLine_iff d).mp hx
    obtain ⟨hline, hbeats⟩ := line_of_full_beats hd.1 hd.2
    obtain ⟨t, e, ht, hwait, hwrite⟩ := takeFirstWrite_full (r := r) (n := n) hm hi hx
    by_cases hprev : (s.win w).previousReads = 0
    · obtain ⟨hs, hq⟩ := hwrite hprev
      refine ⟨t, _, hexec.trans (congrArg _ e), ht.only, ht.place, ht.responses, ht.line, ht.window, hs,
        rfl, rfl, rfl, rfl, rfl, rfl, rfl, fun hn => absurd hd hn, fun _ => ⟨?_, ⟨_, ?_, hline⟩,
          fun hn => absurd hprev hn, fun _ => ⟨rfl, _, rfl, congrArg _ hbeats, rfl, hq⟩⟩⟩
      · simp [State.firstWork, hx]
      · simp [State.firstWork, hx, x]
    · obtain ⟨hs, hq⟩ := hwait hprev
      refine ⟨t, _, hexec.trans (congrArg _ e), ht.only, ht.place, ht.responses, ht.line, ht.window, hs,
        rfl, rfl, rfl, rfl, rfl, rfl, rfl, fun hn => absurd hd hn, fun _ => ⟨?_, ⟨_, ?_, hline⟩,
          fun _ => ⟨?_, hq⟩, fun hn => absurd hn hprev⟩⟩
      · simp [State.firstWork, hx]
      · simp [State.firstWork, hx, x]
      · simp [State.firstWork, hx]

end Sys2Proof.Machine

/-! ## Responses and operations taken

The host side's acceptance of a response, the memory side's acceptance of an operation, and the response
to a tracker entry with the fills that it releases (R19, R125, R127, R129, R60). -/

namespace Sys2Proof.Machine

variable {s t : State} {w : WindowId} {i : EntryId} {e : InFlight}

/-! ### The response accepted -/

/-- The oldest response leaves the queue with its place, and its pair the outstanding set where no
earlier request holds it (R19, R26, R125). -/
theorem acceptResponse_of_cons {h : HPort} {r : HResponse} {rest : List HResponse}
    (hr : h.responses = r :: rest) :
    h.acceptResponse =
      { (if r.duplicate then h else h.setOutstanding r.requester r.tag false) with
        responses := rest, placesHeld := h.placesHeld - 1 } := by
  simp only [HPort.acceptResponse, hr]

theorem acceptResponse_channel {h : HPort} {r : HResponse} {rest : List HResponse}
    (hr : h.responses = r :: rest) : h.acceptResponse.channel = h.channel := by
  rw [acceptResponse_of_cons hr]
  cases r.duplicate <;> rfl

theorem acceptResponse_isOutstanding {h : HPort} {r : HResponse} {rest : List HResponse}
    (hr : h.responses = r :: rest) (q : Requester) (g : Tag) :
    h.acceptResponse.isOutstanding q g =
      (h.isOutstanding q g && (r.duplicate || !(decide (q = r.requester) && decide (g = r.tag)))) := by
  have same : h.acceptResponse.isOutstanding q g =
      (if r.duplicate then h else h.setOutstanding r.requester r.tag false).isOutstanding q g := by
    rw [acceptResponse_of_cons hr]; rfl
  rw [same]
  cases r.duplicate with
  | true => simp
  | false =>
    rw [if_neg (by simp), isOutstanding_setOutstanding]
    by_cases hq : q = r.requester <;> by_cases hg : g = r.tag <;> simp [hq, hg]

theorem statusCode_eq (st : Status) :
    statusCode st = (match st with | .okay => 0 | .error => 1 | .retry => 2) := by cases st <;> rfl

/-- The header presented names the response's requester, tag and status (R154). -/
theorem presentedResponse_of_cons {r : HResponse} {rest : List HResponse} (hs : s.inReset = false)
    (hr : s.hport.responses = r :: rest) :
    s.presentedResponse = some (r.header, r.data) ∧ r.header.requester.toNat = r.requester.val
      ∧ r.header.tag.toNat = r.tag.val := by
  refine ⟨by simp [State.presentedResponse, hs, hr], ?_, ?_⟩
  · exact Nat.mod_eq_of_lt r.requester.isLt
  · exact Nat.mod_eq_of_lt r.tag.isLt

/-- Settles O23: the queue's head decides what is presented and what leaves. -/
theorem responseAcceptedReleasesItsPlace : Obligations.ResponseAcceptedReleasesItsPlace := by
  intro s hs
  refine ⟨fun hr => ?_, fun r rest hr => ?_⟩
  · refine ⟨?_, by simp [State.presentedResponse, hr]⟩
    show Host.Outcome.next (s.whenRunning _) = _
    simp [hs, hr]
  · obtain ⟨presented, requester, tag⟩ := presentedResponse_of_cons hs hr
    have port := acceptResponse_of_cons hr
    refine ⟨⟨r.header, presented, requester, tag, statusCode_eq r.status⟩,
      s.modHPort HPort.acceptResponse, ?_, only_modHPort s _, acceptResponse_channel hr,
      congrArg HPort.responses port, congrArg HPort.placesHeld port, acceptResponse_isOutstanding hr⟩
    show Host.Outcome.next (s.whenRunning _) = _
    simp [hs, hr]

/-! ### The operation accepted -/

theorem kindCode_eq (k : Kind) : kindCode k = (match k with | .read => 0 | .write => 1) := by
  cases k <;> rfl

/-- Settles O24: the issue queue's head is what the M-port presents, and it alone leaves. -/
theorem memorySideTakesTheOldestOperation : Obligations.MemorySideTakesTheOldestOperation := by
  refine ⟨fun s hs => ?_, fun _ _ _ _ => rfl, rfl, rfl, rfl, rfl⟩
  refine ⟨s.setIssueQueue s.issueQueue.tail, ?_, fun p hp => ?_, ?_⟩
  · show Host.Outcome.next (s.whenRunning _) = _
    rw [whenRunning_of_running hs]
  · cases p <;> simp [Part.Same] at hp ⊢
  · cases hq : s.issueQueue with
    | nil => exact .inl ⟨rfl, rfl, by simp [State.presentedOperation, hq]⟩
    | cons op rest =>
      refine .inr ⟨op, rfl, op.header, by simp [State.presentedOperation, hs, hq], kindCode_eq _, ?_,
        rfl, fun hb => Nat.mod_eq_of_lt hb⟩
      exact Nat.mod_eq_of_lt (Nat.lt_trans op.tag.isLt (by decide))

/-! ### The response to a tracker entry -/

theorem countResponse_eq (x : Window) (e : InFlight) : x.countResponse e = x.lowered e := by
  unfold Window.countResponse Window.lowered
  cases e.parity with
  | none => simp
  | some p => cases p <;> simp [Window.modReadCount]

theorem passedData_eq {status : BitVec 2} {data : List Word}
    (h : status = 0 → e.kind = .read → data.length = e.beats) :
    e.passedData (statusOfCode status) data = if status = 0 ∧ e.kind = .read then data else [] := by
  have okay : statusOfCode status = .okay ↔ status = 0 := by
    unfold statusOfCode
    split <;> [simp_all; split <;> simp_all]
  unfold InFlight.passedData
  simp only [okay]
  split
  · next hc => rw [← h hc.1 hc.2, List.take_length]
  · rfl

/-- A tracker entry has ended: its counts are lowered, its response has joined the queue, and the entry
is free (R129 steps 1 to 3). -/
structure Ended (s t : State) (i : EntryId) (e : InFlight) (status : BitVec 2) (data : List Word) :
    Prop where
  only : Only [.windows, .table, .hport] s t
  entry : EntryBecomes s t i none
  hport : t.hport = { s.hport with
    responses := s.hport.responses ++
      [{ requester := e.requester, tag := e.tag
         status := if status = 0 then .okay else if status = 2 then .retry else .error
         data := if status = 0 ∧ e.kind = .read then data else []
         duplicate := false }] }
  untracked : e.window = none → t.windows = s.windows
  window : ∀ w, e.window = some w → WindowBecomes s t w ((s.win w).lowered e)

theorem EntryBecomes.setEntry (s : State) (i : EntryId) (e : Option InFlight) :
    EntryBecomes s (s.setEntry i e) i e := ⟨by simp, fun _ hj => entry_setEntry_of_ne s hj e⟩

theorem EntryBecomes.of_table {u : State} {e : Option InFlight} (h : EntryBecomes t u i e)
    (hs : t.table = s.table) : EntryBecomes s u i e :=
  ⟨h.1, fun j hj => (h.2 j hj).trans (by unfold State.entry; rw [hs])⟩

theorem ended_endEntry (s : State) (i : EntryId) {status : BitVec 2} {data : List Word}
    (h : status = 0 → e.kind = .read → data.length = e.beats) :
    Ended s (s.endEntry i e (statusOfCode status) data) i e status data := by
  have passed := passedData_eq (e := e) h
  unfold State.endEntry
  cases hw : e.window with
  | none =>
    refine ⟨?_, (EntryBecomes.setEntry _ i none).of_table rfl, ?_, fun _ => rfl, by simp [hw]⟩
    · exact ((only_respond s _).mono (by simp)).trans ((only_setEntry _ i none).mono (by simp))
    · show HPort.mk _ _ _ _ = _
      rw [passed]; rfl
  | some v =>
    refine ⟨?_, (EntryBecomes.setEntry _ i none).of_table rfl, ?_, by simp [hw], fun w hv => ?_⟩
    · have lowered : Only [.windows, .table, .hport] s (s.modWin v fun x => x.countResponse e) :=
        (only_modWin s v _).mono (by simp)
      have answered := (only_respond (s.modWin v fun x => x.countResponse e)
        { requester := e.requester, tag := e.tag, status := statusOfCode status
          data := e.passedData (statusOfCode status) data, duplicate := false }).mono
        (qs := [.windows, .table, .hport]) (by simp)
      exact (lowered.trans answered).trans ((only_setEntry _ i none).mono (by simp))
    · show HPort.mk _ _ _ _ = _
      rw [passed]; rfl
    · obtain rfl : v = w := Option.some.inj (hw.symm.trans hv)
      rw [← countResponse_eq]
      exact (WindowBecomes.modWin s v fun x => x.countResponse e).of_windows rfl

theorem exec_trackerResponse {status : BitVec 2} {data : List Word} {o : Order}
    (hs : s.inReset = false) (he : s.entry i = some e) :
    exec (.trackerResponse i status data o) s =
      .next (((s.endEntry i e (statusOfCode status) data).testCounts e.window o).arbitrate o) := by
  show Host.Outcome.next (s.whenRunning _) = _
  simp [hs, he]

/-- A response leaves the kept slot requests as they are. -/
theorem Ended.kept {status : BitVec 2} {data : List Word} (h : Ended s t i e status data)
    (hk : NoKeptRequest s) : NoKeptRequest t := hk.of_eq fun v => by
  cases hw : e.window with
  | none => rw [win_eq_of_windows (h.untracked hw)]
  | some w =>
    obtain ⟨self, others⟩ := h.window w hw
    by_cases hv : v = w
    · rw [hv, self]; rfl
    · rw [others v hv]

/-- While a read of the previous epoch is left no slot leaves WAITING (R60). -/
theorem leaveWaitingOf_of_reads (h : (s.win w).previousReads ≠ 0) (ns : List SlotId) :
    s.leaveWaitingOf w ns = s := forSlots_id (fun n => by
  cases hn : s.slot n with
  | none => rfl
  | some k =>
    simp only [Option.any_some, decide_eq_true_eq]
    split
    · next hk =>
      subst hk
      exact leaveWaiting_of_not hn (by simp [SlotWork.mayWrite, h])
    · rfl) ns

/-- Settles O25: with no fill to release the drain tests follow R129's first three steps at once. -/
theorem trackerResponseIsPassedUp : Obligations.TrackerResponseIsPassedUp := by
  intro s tag status data o e hs he hdata hwait
  have ended := ended_endEntry s tag (e := e) hdata
  have answer : ∀ o, exec (.trackerResponse tag status data o) s = _ := fun o => exec_trackerResponse hs he
  generalize s.endEntry tag e (statusOfCode status) data = u at ended answer
  have running : u.inReset = false := Eq.trans (ended.only .inReset (by decide)) hs
  have slots : ∀ n, u.slot n = s.slot n := fun n => by
    unfold State.slot; rw [show u.slots = s.slots from ended.only .slots (by decide)]
  have stay : ∀ w, e.window = some w → ∀ ns, u.leaveWaitingOf w ns = u := fun w hw ns => by
    by_cases hp : (u.win w).previousReads = 0
    · rw [(ended.window w hw).1] at hp
      exact leaveWaitingOf_none (fun n k hn => hwait w hw hp n k (slots n ▸ hn)) ns
    · exact leaveWaitingOf_of_reads hp ns
  refine ⟨u, ended.only, ended.entry, ended.hport, fun hw => ⟨ended.untracked hw, fun hk => ?_, ?_⟩,
    fun w hw => ⟨ended.window w hw, fun hk => ?_, fun hm => ?_⟩⟩
  · rw [answer o, hw, State.testCounts, arbitrate_of_none (ended.kept hk)]
  · exact ⟨_, keptThenHead_arbitrate u, by rw [answer [], hw, State.testCounts]⟩
  · rw [answer o, hw, State.testCounts, stay w hw]
    exact drainFollows_tests running (ended.kept hk)
  · rw [answer [], hw, State.testCounts, stay w hw]
    have map : u.lineMap = s.lineMap := ended.only .lineMap (by decide)
    exact drainThenKept_tests running (map ▸ hm.1) w

/-! ### Fills released -/

/-- A fill in WAITING with no read of the previous epoch left takes its new phase (R60, R61). -/
theorem exec_fillWriteStart {n : SlotId} (hs : s.inReset = false) :
    exec (.fillWriteStart n) s = .next (s.leaveWaiting n).pump := by
  show Host.Outcome.next (s.whenRunning _) = _
  rw [whenRunning_of_running hs]

/-- A slot's write: it enters WRITING with its first attempt and issues its buffer (R61, R68). -/
theorem startPhase_write {n : SlotId} {k : SlotWork} {l : Line} (hp : k.phase = .writing)
    (hl : k.buffer = some l) (hw : k.window = w) :
    ∃ op : MOp, op.tag.val = 32 + n.val
      ∧ op.address = (s.win w).geometry.bankBase k.target + BitVec.ofNat 32 (64 * k.line)
      ∧ op.access = .write (l.toList.map fun x => { data := x, mask := 0xFF })
      ∧ (s.startPhase n k).issueQueue = s.issueQueue ++ [op] := by
  subst hw
  exact ⟨_, rfl, rfl, rfl, by rw [startPhase_writing s n hp hl]; rfl⟩

/-- FILL_WRITE_START at a fill in WAITING (R60, R61). -/
theorem fillWriteStart_waiting {n : SlotId} {k : SlotWork} {l : Line} (hs : s.inReset = false)
    (hn : s.slot n = some k) (hk : k.FillsFor w) (hp : k.phase = .waiting) (hl : k.buffer = some l) :
    ((s.win w).previousReads ≠ 0 → exec (.fillWriteStart n) s = .next s.pump)
    ∧ ((s.win w).previousReads = 0 →
      ∃ t, exec (.fillWriteStart n) s = .next t.pump ∧ Only [.slots, .issueQueue] s t
        ∧ SlotBecomes s t n (some { k with phase := .writing, attempt := 1 })
        ∧ ∃ op : MOp, op.tag.val = 32 + n.val
            ∧ op.address = (s.win w).geometry.bankBase k.target + BitVec.ofNat 32 (64 * k.line)
            ∧ op.access = .write (l.toList.map fun x => { data := x, mask := 0xFF })
            ∧ t.issueQueue = s.issueQueue ++ [op]) := by
  have may := mayWrite_of_fill (x := s.win k.window) hk hp
  rw [hk.1] at may
  rw [exec_fillWriteStart hs]
  refine ⟨fun hr => ?_, fun hr => ?_⟩
  · rw [leaveWaiting_of_not hn (by rw [hk.1, may]; simp [hr])]
  · refine ⟨_, by rw [leaveWaiting_of_mayWrite hn (by rw [hk.1, may]; simp [hr])],
      only_startPhase s n _, slotBecomes_startPhase s n _, ?_⟩
    exact startPhase_write (k := { k with phase := .writing, attempt := 1 }) rfl hl hk.1

/-- Settles O27: what a response releases is said once for the slots in any order. -/
theorem fillWriteStartsWithoutOldReaders : Obligations.FillWriteStartsWithoutOldReaders := by
  refine ⟨fun s n k l w hs hn hk hp hl => fillWriteStart_waiting hs hn hk hp hl,
    fun s tag status data o e w hs he hw hdata hreads => ?_⟩
  have ended := ended_endEntry s tag (e := e) hdata
  have answer := exec_trackerResponse (status := status) (data := data) (o := o) hs he
  rw [hw, State.testCounts] at answer
  generalize s.endEntry tag e (statusOfCode status) data = u at ended answer
  have window := ended.window w hw
  obtain ⟨only, -, queue, released⟩ := leaveWaitingOf_spec w (slotsIn o) (nodup_slotsIn o) u
    (by rw [window.1]; exact hreads)
  generalize u.leaveWaitingOf w (slotsIn o) = v at only queue released answer
  have windows : v.windows = u.windows := only .windows (by decide)
  have table : v.table = u.table := only .table (by decide)
  have hport : v.hport = u.hport := only .hport (by decide)
  have slots : ∀ n, u.slot n = s.slot n := fun n => by
    unfold State.slot; rw [show u.slots = s.slots from ended.only .slots (by decide)]
  have issueQueue : u.issueQueue = s.issueQueue := ended.only .issueQueue (by decide)
  have writes : waitingWrite u w = waitingWrite s w := funext fun n => by
    unfold waitingWrite
    rw [slots n, window.1]
    rfl
  have all : Only [.windows, .slots, .table, .hport, .issueQueue] s v :=
    (ended.only.mono (by simp)).trans (only.mono (by simp))
  have running : v.inReset = false := Eq.trans (all .inReset (by decide)) hs
  refine ⟨v, all, ⟨?_, ?_⟩, window.of_windows windows, hport.trans ended.hport,
    fun n k hn hk hp => ?_, fun n hn => ?_, ?_, nodup_slotsIn o, mem_slotsIn o, fun hk => ?_,
    fun hm ho => ?_⟩
  · unfold State.entry; rw [table]; exact ended.entry.1
  · intro j hj
    unfold State.entry; rw [table]; exact ended.entry.2 j hj
  · exact (released n (mem_slotsIn o n)).1 k ((slots n).trans hn) hk hp
  · exact ((released n (mem_slotsIn o n)).2 fun k h => hn k ((slots n).symm.trans h)).trans (slots n)
  · rw [queue, writes, issueQueue]
  · rw [answer]
    exact drainFollows_tests running
      ((ended.kept hk).of_eq fun z => by rw [win_eq_of_windows windows])
  · subst ho
    have map : v.lineMap = s.lineMap := all .lineMap (by decide)
    rw [answer]
    exact drainThenKept_tests running (map ▸ hm.1) w

end Sys2Proof.Machine

/-! ## Fills

The slot's work at the responses to its operations: the merge, the retries, the completion, the failure,
and the orphaned slot that becomes FREE (R56 to R71). -/

namespace Sys2Proof.Machine

variable {s t u : State} {n : SlotId} {k : SlotWork} {w : WindowId}

/-! ### The operation of a slot -/

/-- A fill whose read is answered takes the merged line and goes on to its write where it may (R59 to
R61). -/
theorem fillReadDone_eq (s : State) {h : HeldWrite} (data : Line) (hh : k.held = some h) :
    s.fillReadDone n k data =
      (s.setSlot n (some { k with
        phase := .waiting
        buffer := some (mergeBeats data
          ((h.address - (s.win k.window).geometry.apparentBase).toNat % 64) h.beats) })).leaveWaiting n := by
  simp only [State.fillReadDone, hh]
  rfl

theorem exec_fillReadDone {data : Line} (hs : s.inReset = false) (hn : s.slot n = some k)
    (hk : k.FillsFor w) (hp : k.phase = .reading) :
    exec (.fillReadDone n data) s = .next (s.fillReadDone n k data).pump :=
  congrArg Host.Outcome.next
    (onSlot_of_cond hs hn (by rw [isFill_of_fillsFor hk, hp]; rfl))

/-- A fill with its line merged stays in WAITING, or issues its write (R60, R61). -/
theorem leaveWaiting_setSlot {l : Line} (hk : k.FillsFor w) :
    ∃ t, (s.setSlot n (some { k with phase := .waiting, buffer := some l })).leaveWaiting n = t
      ∧ Only [.slots, .issueQueue] s t
      ∧ ((s.win w).previousReads ≠ 0 → t.issueQueue = s.issueQueue
          ∧ SlotBecomes s t n (some { k with phase := .waiting, buffer := some l }))
      ∧ ((s.win w).previousReads = 0 →
          SlotBecomes s t n (some { k with phase := .writing, buffer := some l, attempt := 1 })
          ∧ ∃ op : MOp, op.tag.val = 32 + n.val
              ∧ op.address = (s.win w).geometry.bankBase k.target + BitVec.ofNat 32 (64 * k.line)
              ∧ op.access = .write (l.toList.map fun x => { data := x, mask := 0xFF })
              ∧ t.issueQueue = s.issueQueue ++ [op]) := by
  have here : (s.setSlot n (some { k with phase := .waiting, buffer := some l })).slot n
      = some { k with phase := .waiting, buffer := some l } := slot_setSlot_self s n _
  have fills : SlotWork.FillsFor { k with phase := .waiting, buffer := some l } w := hk
  have may := mayWrite_of_fill (x := s.win k.window) fills rfl
  have win : s.win k.window = s.win w := by rw [hk.1]
  refine ⟨_, rfl, ?_, fun hr => ?_, fun hr => ?_⟩
  · by_cases hr : (s.win w).previousReads = 0
    · rw [leaveWaiting_of_mayWrite here (may.trans (by simp [win, hr]))]
      exact ((only_setSlot s n _).mono (by simp)).trans (only_startPhase _ n _)
    · rw [leaveWaiting_of_not here (may.trans (by simp [win, hr]))]
      exact (only_setSlot s n _).mono (by simp)
  · rw [leaveWaiting_of_not here (may.trans (by simp [win, hr]))]
    exact ⟨rfl, .setSlot s n _⟩
  · rw [leaveWaiting_of_mayWrite here (may.trans (by simp [win, hr]))]
    exact ⟨(SlotBecomes.setSlot s n _).trans (slotBecomes_startPhase _ n _),
      startPhase_write (s := s.setSlot n _) (k := { k with phase := .writing, buffer := some l, attempt := 1 })
        rfl rfl hk.1⟩

/-- Settles O26: the merged line is read off byte by byte. -/
theorem fillReadDoneMergesTheHeldWrite : Obligations.FillReadDoneMergesTheHeldWrite := by
  intro s n k h data w o hs hn hk hp hh ho h8 hlen
  obtain rfl := hk.1
  obtain ⟨t, leave, only, waits, writes⟩ :=
    leaveWaiting_setSlot (s := s) (n := n) (l := mergeBeats data o h.beats) hk
  refine ⟨t, mergeBeats data o h.beats, ?_, only, fun j beat hj b hb => ?_, fun i hi ho => ?_, waits, writes⟩
  · rw [exec_fillReadDone hs hn hk hp, fillReadDone_eq s data hh, ho, leave]
  · have : j < h.beats.length := (List.getElem?_eq_some_iff.mp hj).1
    exact lineByte_mergeBeats data o h.beats hj hb (by omega)
  · exact lineByte_mergeBeats_outside data o h.beats hi ho

/-- A RETRY below the fourth attempt gives the slot its next attempt (R64, R69). -/
theorem exec_fillOperationRetry (hs : s.inReset = false) (hn : s.slot n = some k)
    (ho : k.orphaned = false) (ha : k.attempt < 4) (hp : k.phase = .reading ∨ k.phase = .writing) :
    exec (.fillOperationRetry n) s = .next (s.startPhase n { k with attempt := k.attempt + 1 }).pump := by
  refine congrArg Host.Outcome.next (onSlot_of_cond hs hn ?_)
  have : decide (k.attempt < Config.maxAttempts) = true := decide_eq_true ha
  rcases hp with hp | hp <;> rw [ho, hp, this] <;> rfl

/-- Settles O29: the phase decides which operation is issued again. -/
theorem fillOperationIsRetried : Obligations.FillOperationIsRetried := by
  intro s n k hs hn ho ha
  refine ⟨fun hp => ?_, fun hp l hl => ?_⟩
  · refine ⟨_, exec_fillOperationRetry hs hn ho ha (.inl hp), only_startPhase s n _,
      slotBecomes_startPhase s n _, ?_⟩
    rw [startPhase_reading s n (k := { k with attempt := k.attempt + 1 }) hp]
    exact ⟨_, rfl, rfl, rfl, rfl⟩
  · obtain ⟨op, tag, address, access, queue⟩ := startPhase_write (s := s) (n := n)
      (k := { k with attempt := k.attempt + 1 }) hp hl rfl
    exact ⟨_, exec_fillOperationRetry hs hn ho ha (.inr hp), only_startPhase s n _,
      slotBecomes_startPhase s n _, op, tag, access, address, queue⟩

/-! ### The end of a fill -/

/-- The answer to a held write, as it joins the response queue (R62, R65). -/
def HPort.answered (p : HPort) (h : HeldWrite) (st : Status) : HPort :=
  { p with responses := p.responses ++
      [{ requester := h.requester, tag := h.tag, status := st, data := [], duplicate := false }] }

/-- A fill has ended: its slot is FREE, its held write answered, its window's record and its line are
those given (R62, R65). -/
structure FillEnds (s t : State) (n : SlotId) (h : HeldWrite) (st : Status) (w : WindowId) (i : Nat)
    (x : Window) (e : LineEntry) : Prop where
  only : Only [.windows, .lineMap, .slots, .hport] s t
  slot : SlotBecomes s t n none
  hport : t.hport = s.hport.answered h st
  line : LineBecomes s t w i e
  window : WindowBecomes s t w { x with fills := x.fills - 1 }

/-- The answer and the release after the change to the line. -/
theorem fillEnds_release {x : Window} {i : Nat} {e : LineEntry} (h : HeldWrite) (st : Status)
    (ho : Only [.windows, .lineMap] s u) (hl : LineBecomes s u w i e) (hw : WindowBecomes s u w x) :
    FillEnds s ((u.answerHeld (some h) st).release n w) n h st w i x e := by
  have slots : u.slots = s.slots := ho .slots (by decide)
  have hport : u.hport = s.hport := ho .hport (by decide)
  have answered : Only [.windows, .lineMap, .slots, .hport] s (u.answerHeld (some h) st) :=
    (ho.mono (by simp)).trans ((only_respond u _).mono (by simp))
  have freed : Only [.windows, .lineMap, .slots, .hport] s
      ((u.answerHeld (some h) st).setSlot n none) :=
    answered.trans ((only_setSlot _ n none).mono (by simp))
  have windows := WindowBecomes.modWin ((u.answerHeld (some h) st).setSlot n none) w
    fun x => { x with fills := x.fills - 1 }
  refine ⟨freed.trans ((only_modWin _ w _).mono (by simp)), ?_, ?_, hl.of_lineMap rfl, ?_⟩
  · have becomes := SlotBecomes.setSlot u n none
    refine ⟨becomes.1, fun m hm => (becomes.2 m hm).trans ?_⟩
    unfold State.slot; rw [slots]
  · show HPort.answered u.hport h st = _
    rw [hport]
  · refine ⟨windows.1.trans ?_, fun v hv => (windows.2 v hv).trans (hw.2 v hv)⟩
    show { u.win w with fills := (u.win w).fills - 1 } = _
    rw [hw.1]

theorem FillEnds.kept {h : HeldWrite} {st : Status} {i : Nat} {x : Window} {e : LineEntry}
    (hf : FillEnds s t n h st w i x e) (hx : x.copyRequest = (s.win w).copyRequest)
    (hk : NoKeptRequest s) : NoKeptRequest t := hk.of_eq fun v => by
  by_cases hv : v = w
  · rw [hv, hf.window.1]; exact hx
  · rw [hf.window.2 v hv]

theorem FillEnds.inReset {h : HeldWrite} {st : Status} {i : Nat} {x : Window} {e : LineEntry}
    (hf : FillEnds s t n h st w i x e) : t.inReset = s.inReset := hf.only .inReset (by decide)

/-- A fill completes in a window that runs (R62). -/
theorem fillComplete_running {h : HeldWrite} (hm : s.MapSound)
    (hi : (s.win w).geometry.entryIndex k.line < 8192) (hk : k.window = w) (hh : k.held = some h)
    (hr : (s.win w).Running) :
    FillEnds s (s.fillComplete n k) n h .okay w k.line
      { s.win w with pendingCount := (s.win w).pendingCount + 1 }
      { s.lineEntry w k.line with pending := true, filling := false } := by
  subst hk
  have line := lineBecomes_modLine hm.1 hi fun e => { e with pending := true, filling := false }
  have only : Only [.windows, .lineMap] s (s.modLine k.window k.line fun e =>
      { e with pending := true, filling := false }) := (only_modLine s _ _ _).mono (by simp)
  have e : s.completeLine k.window k.line = (s.modLine k.window k.line fun e =>
      { e with pending := true, filling := false }).modWin k.window fun x =>
        { x with pendingCount := x.pendingCount + 1 } :=
    if_pos ((isLiveOrSettling_iff _).mpr hr)
  rw [State.fillComplete, hh]
  refine fillEnds_release h .okay ?_ ?_ ?_
  · rw [e]; exact only.trans ((only_modWin _ _ _).mono (by simp))
  · rw [e]; exact line.of_lineMap rfl
  · rw [e]
    exact WindowBecomes.modWin (s.modLine k.window k.line _) k.window fun x =>
      { x with pendingCount := x.pendingCount + 1 }

/-- A fill completes in a window that is flattening (R62). -/
theorem fillComplete_flattening {h : HeldWrite} (hm : s.MapSound)
    (hi : (s.win w).geometry.entryIndex k.line < 8192) (hk : k.window = w) (hh : k.held = some h)
    (hr : (s.win w).state = .flattening) :
    FillEnds s (s.fillComplete n k) n h .okay w k.line (s.win w)
      { s.lineEntry w k.line with pending := false, filling := false } := by
  subst hk
  have e : s.completeLine k.window k.line = s.modLine k.window k.line fun e =>
      { e with pending := false, filling := false } :=
    if_neg (by rw [hr]; decide)
  rw [State.fillComplete, hh, e]
  exact fillEnds_release h .okay ((only_modLine s _ _ _).mono (by simp))
    (lineBecomes_modLine hm.1 hi fun e => { e with pending := false, filling := false })
    ⟨rfl, fun _ _ => rfl⟩

theorem exec_fillCompletes {o : Order} (hs : s.inReset = false) (hn : s.slot n = some k)
    (hk : k.FillsFor w) (hp : k.phase = .writing) :
    exec (.fillCompletes n o) s = .next (((s.fillComplete n k).drainTests w).arbitrate o) := by
  rw [← hk.1]
  exact congrArg Host.Outcome.next (onSlot_of_cond hs hn (by rw [isFill_of_fillsFor hk, hp]; rfl))

theorem mapSound_fillComplete (h : s.MapSound) : (s.fillComplete n k).MapSound :=
  h.completeLine.answerHeld.of_lineMap rfl

/-- Settles O28: the two states in which a fill can complete. -/
theorem fillCompletesItsLine : Obligations.FillCompletesItsLine := by
  intro s n k h o w hs hm hn hk hp hh hi hst
  have answer : ∀ o, exec (.fillCompletes n o) s = _ := fun o => exec_fillCompletes hs hn hk hp
  have map := (mapSound_fillComplete (n := n) (k := k) hm).1
  rcases hst with hr | hf
  · have ends := fillComplete_running (n := n) hm hi hk.1 hh hr
    refine ⟨s.fillComplete n k, ends.only, ends.slot, ends.hport, fun _ => ⟨ends.line, ends.window⟩,
      fun hf => ?_, fun hq => answer o ▸ drainFollows_tests (ends.inReset.trans hs) (ends.kept rfl hq),
      answer [] ▸ drainThenKept_tests (ends.inReset.trans hs) map w⟩
    rcases hr with hr | hr <;> exact absurd (hr.symm.trans hf) (by decide)
  · have ends := fillComplete_flattening (n := n) hm hi hk.1 hh hf
    refine ⟨s.fillComplete n k, ends.only, ends.slot, ends.hport, fun hr => ?_,
      fun _ => ⟨ends.line, ends.window⟩,
      fun hq => answer o ▸ drainFollows_tests (ends.inReset.trans hs) (ends.kept rfl hq),
      answer [] ▸ drainThenKept_tests (ends.inReset.trans hs) map w⟩
    rcases hr with hr | hr <;> exact absurd (hr.symm.trans hf) (by decide)

/-! ### The failure of a fill -/

theorem failsOn_of_failsWith {status : BitVec 2} {c : FillCode} (h : FailsWith k status c) :
    k.failsOn (statusOfCode status) = true := by
  cases c with
  | readError => obtain ⟨hp, rfl | rfl⟩ := h <;> simp [SlotWork.failsOn, hp, statusOfCode]
  | writeError => obtain ⟨hp, rfl | rfl⟩ := h <;> simp [SlotWork.failsOn, hp, statusOfCode]
  | retryExhausted =>
    obtain ⟨hp, rfl, ha⟩ := h
    rcases hp with hp | hp <;> simp [SlotWork.failsOn, hp, statusOfCode, ha, Config.maxAttempts]

theorem failureCode_of_failsWith {status : BitVec 2} {c : FillCode} (h : FailsWith k status c) :
    failureCode k.phase (statusOfCode status) = c := by
  cases c with
  | readError => obtain ⟨hp, rfl | rfl⟩ := h <;> simp [failureCode, hp, statusOfCode]
  | writeError => obtain ⟨hp, rfl | rfl⟩ := h <;> simp [failureCode, hp, statusOfCode]
  | retryExhausted => obtain ⟨hp, rfl, ha⟩ := h; simp [failureCode, statusOfCode]

theorem exec_fillFails {status : BitVec 2} {c : FillCode} {o : Order} (hs : s.inReset = false)
    (hn : s.slot n = some k) (hk : k.FillsFor w) (hc : FailsWith k status c) :
    exec (.fillFails n status o) s =
      .next (((s.fillFail n k (statusOfCode status)).drainTests w).arbitrate o) := by
  rw [← hk.1]
  exact congrArg Host.Outcome.next
    (onSlot_of_cond hs hn (by rw [isFill_of_fillsFor hk, failsOn_of_failsWith hc]; rfl))

/-- The state in which a fill has failed, with its notice, before its window's hold is struck (R65). -/
def State.failed (s : State) (n : SlotId) (k : SlotWork) (h : HeldWrite) (c : FillCode) : State :=
  (((s.modLine k.window k.line fun e => { e with filling := false }).answerHeld (some h)
    .error).release n k.window).raise (.fillFailed k.window h.requester h.address c)

theorem fillFail_eq {h : HeldWrite} {status : BitVec 2} {c : FillCode} (hh : k.held = some h)
    (hc : FailsWith k status c) :
    s.fillFail n k (statusOfCode status) = (s.failed n k h c).fillFailureEvent k.window := by
  simp only [State.fillFail, hh, failureCode_of_failsWith hc]
  rfl

/-- What a failed fill has changed before its window's hold is struck (R65). -/
structure Failed (s t : State) (n : SlotId) (h : HeldWrite) (w : WindowId) (i : Nat) (c : FillCode) :
    Prop where
  only : Only [.windows, .lineMap, .slots, .hport, .notices] s t
  slot : SlotBecomes s t n none
  hport : t.hport = s.hport.answered h .error
  line : LineBecomes s t w i { s.lineEntry w i with filling := false }
  window : WindowBecomes s t w { s.win w with fills := (s.win w).fills - 1 }
  notices : t.notices = s.notices.offer (.fillFailed w h.requester h.address c)
  map : t.lineMap.wf = true

theorem failed_failed {h : HeldWrite} {c : FillCode} (hm : s.MapSound)
    (hi : (s.win k.window).geometry.entryIndex k.line < 8192) :
    Failed s (s.failed n k h c) n h k.window k.line c := by
  have ends := fillEnds_release (n := n) h .error ((only_modLine s _ _ _).mono (by simp))
    (lineBecomes_modLine hm.1 hi fun e => { e with filling := false }) ⟨rfl, fun _ _ => rfl⟩
  have notices : ((((s.modLine k.window k.line fun e => { e with filling := false }).answerHeld (some h)
    .error).release n k.window)).notices = s.notices := ends.only .notices (by decide)
  refine ⟨(ends.only.mono (by simp)).trans ((only_raise _ _).mono (by simp)), ends.slot.of_slots rfl,
    ends.hport, ends.line.of_lineMap rfl, ends.window.of_windows rfl, ?_, LineMap.wf_write hm.1 _ _⟩
  show NoticeQueue.offer _ _ = _
  rw [notices]

theorem fillFailureEvent_of_not {w : WindowId}
    (h : ¬(s.win w).Running ∨ (s.win w).policy.sources.fillFailed = false) :
    s.fillFailureEvent w = s := by
  refine if_neg fun hc => ?_
  rw [isLiveOrSettling_iff] at hc
  rcases h with h | h
  · exact h hc.1
  · rw [h] at hc; exact absurd hc.2 (by decide)

/-- Where FILL_FAILED is a hold source it strikes the window's hold (R66, R97). -/
theorem fillFailureEvent_eq {w : WindowId} (hr : (s.win w).Running)
    (h : (s.win w).policy.sources.fillFailed = true) :
    ∃ x l, EventStrikes (s.win w) x w .fillFailed l ∧ s.fillFailureEvent w = s.patched w x l
      ∧ x.copyRequest = (s.win w).copyRequest := by
  obtain ⟨x, l, strikes, e⟩ := eventOccurs_eq s w .fillFailed hr
  refine ⟨x, l, strikes, (if_pos ⟨(isLiveOrSettling_iff _).mpr hr, h⟩ : _ = s.eventOccurs w _).trans e, ?_⟩
  have kept := ((steady_eq (steady_eventOccurs s w .fillFailed)).2.2.2.2.2.2 w).2.2.2.2
  rw [e, patched_win_self] at kept
  exact kept

theorem Failed.kept {h : HeldWrite} {i : Nat} {c : FillCode} (hf : Failed s t n h w i c)
    (hk : NoKeptRequest s) : NoKeptRequest t := hk.of_eq fun v => by
  by_cases hv : v = w
  · rw [hv, hf.window.1]
  · rw [hf.window.2 v hv]

theorem WindowBecomes.kept {x : Window} (h : WindowBecomes s t w x)
    (hx : x.copyRequest = (s.win w).copyRequest) (hk : NoKeptRequest s) : NoKeptRequest t :=
  hk.of_eq fun v => by
    by_cases hv : v = w
    · rw [hv, h.1, hx]
    · rw [h.2 v hv]

/-- Settles O30: the failure first, then the hold that it may strike. -/
theorem fillFailureFreesItsLine : Obligations.FillFailureFreesItsLine := by
  intro s n k h status o w c hs hm hn hk hc hh hi
  have answer : ∀ o, exec (.fillFails n status o) s = _ := fun o => exec_fillFails hs hn hk hc
  obtain rfl := hk.1
  have failed := failed_failed (n := n) (h := h) (c := c) hm hi
  simp only [fillFail_eq hh hc] at answer
  generalize s.failed n k h c = t at answer failed
  have running : t.inReset = false := Eq.trans (failed.only .inReset (by decide)) hs
  by_cases hx : (s.win k.window).Running ∧ (s.win k.window).policy.sources.fillFailed = true
  · obtain ⟨hr, hsrc⟩ := hx
    obtain ⟨x, l, strikes, e, kept⟩ := fillFailureEvent_eq (s := t) (w := k.window)
      (by rw [failed.window.1]; exact hr) (by rw [failed.window.1]; exact hsrc)
    have window := windowBecomes_patched t k.window x l
    rw [failed.window.1] at strikes
    rw [e] at answer
    refine ⟨t.patched k.window x l, failed.slot.of_slots rfl, failed.hport, failed.line.of_lineMap rfl,
      failed.only.trans ((only_patched t k.window x l).mono (by simp)), fun hn => ?_,
      fun _ _ => ⟨x, l, failed.window.trans window, strikes, ?_⟩, fun hq => ?_, ?_⟩
    · exact (hn.elim (absurd hr) fun h => absurd (hsrc.symm.trans h) (by decide))
    · rw [patched_notices, failed.notices]
    · exact answer o ▸ drainFollows_tests running (window.kept kept (failed.kept hq))
    · exact answer [] ▸ drainThenKept_tests (u := t.patched k.window x l) running failed.map k.window
  · have hx : ¬(s.win k.window).Running ∨ (s.win k.window).policy.sources.fillFailed = false := by
      rw [not_and_or, Bool.not_eq_true] at hx; exact hx
    rw [fillFailureEvent_of_not (s := t) (by rw [failed.window.1]; exact hx)] at answer
    refine ⟨t, failed.slot, failed.hport, failed.line, failed.only,
      fun _ => ⟨failed.window, failed.notices⟩, fun hr hsrc => ?_, fun hq => ?_, ?_⟩
    · exact (hx.elim (absurd hr) fun h => absurd (hsrc.symm.trans h) (by decide))
    · exact answer o ▸ drainFollows_tests running (failed.kept hq)
    · exact answer [] ▸ drainThenKept_tests running failed.map k.window

/-! ### The orphaned slot -/

theorem exec_retiringSlotFreed {status : BitVec 2} {o : Order} (hs : s.inReset = false)
    (hn : s.slot n = some k) (hp : k.phase = .retiring) :
    exec (.retiringSlotFreed n status o) s = .next ((s.setSlot n none).arbitrate o) :=
  congrArg Host.Outcome.next (onSlot_of_cond hs hn (by rw [hp]; rfl))

theorem exec_flattenRequestServed (hs : s.inReset = false) :
    exec (.flattenRequestServed w) s = .next (s.serveCopy w).pump := by
  show Host.Outcome.next (s.whenRunning _) = _
  rw [whenRunning_of_running hs]

/-- With one window's request kept the event ends with that request served (R57, R124). -/
theorem arbitrate_nil_of_one (h : ∀ v, v ≠ w → (s.win v).copyRequest = false) :
    s.arbitrate [] = (s.serveCopy w).pump := by
  show (s.forWindows allWindows fun v t => t.serveCopy v).pump = _
  rw [forWindows_serveCopy_all h]

/-- Settles O31. -/
theorem retiringSlotBecomesFree : Obligations.RetiringSlotBecomesFree := by
  intro s n k status hs hn hp
  refine ⟨s.setSlot n none, .setSlot s n none, only_setSlot s n none, fun hk o => ?_, fun w hw => ?_,
    _, keptThenHead_arbitrate _, exec_retiringSlotFreed hs hn hp⟩
  · rw [exec_retiringSlotFreed hs hn hp, arbitrate_of_none (s := s.setSlot n none) hk]
  · rw [exec_retiringSlotFreed hs hn hp, exec_flattenRequestServed (s := s.setSlot n none) hs,
      arbitrate_nil_of_one (s := s.setSlot n none) fun v hv => Bool.eq_false_iff.mpr fun h => hv ((hw v).mp h)]

end Sys2Proof.Machine

/-! ## Retirement copies

The copies of a flattening window: the write after the read, the walk on past a copied line, the failure
that returns the window to LIVE, and the beginning of the copies (R68, R69, R116 to R120). -/

namespace Sys2Proof.Machine

variable {s t u : State} {n : SlotId} {k : SlotWork} {w : WindowId}

/-! ### A copy's response -/

theorem exec_flattenCopyReadDone {data : Line} (hs : s.inReset = false) (hn : s.slot n = some k)
    (hk : k.CopiesFor w) (hp : k.phase = .reading) :
    exec (.flattenCopyReadDone n data) s =
      .next (s.startPhase n { k with phase := .writing, buffer := some data, attempt := 1 }).pump :=
  congrArg Host.Outcome.next
    (onSlot_of_cond hs hn (by rw [isCopy_of_copiesFor hk, hp]; rfl))

theorem exec_flattenCopyDone {o : Order} (hs : s.inReset = false) (hn : s.slot n = some k)
    (hk : k.CopiesFor w) (hp : k.phase = .writing) :
    exec (.flattenCopyDone n o) s = .next ((s.copyDone n k).arbitrate o) :=
  congrArg Host.Outcome.next
    (onSlot_of_cond hs hn (by rw [isCopy_of_copiesFor hk, hp]; rfl))

theorem exec_flattenCopyFailed {status : BitVec 2} {c : FillCode} {o : Order} (hs : s.inReset = false)
    (hn : s.slot n = some k) (hk : k.CopiesFor w) (hc : FailsWith k status c) :
    exec (.flattenCopyFailed n status o) s = .next ((s.copyFailed n k).arbitrate o) :=
  congrArg Host.Outcome.next
    (onSlot_of_cond hs hn (by rw [isCopy_of_copiesFor hk, failsOn_of_failsWith hc]; rfl))

/-- A slot released (R57). -/
theorem only_release (s : State) (n : SlotId) (w : WindowId) :
    Only [.windows, .slots] s (s.release n w) := by
  have freed : Only [.windows, .slots] s (s.setSlot n none) := (only_setSlot s n none).mono (by simp)
  exact freed.trans ((only_modWin _ w _).mono (by simp))

theorem windowBecomes_release (s : State) (n : SlotId) (w : WindowId) :
    WindowBecomes s (s.release n w) w { s.win w with fills := (s.win w).fills - 1 } :=
  WindowBecomes.modWin (s.setSlot n none) w fun x => { x with fills := x.fills - 1 }

theorem slotBecomes_release (s : State) (n : SlotId) (w : WindowId) :
    SlotBecomes s (s.release n w) n none := (SlotBecomes.setSlot s n none).of_slots rfl

/-- A copy's line published in bank A, its slot FREE (R68). -/
def State.copied (s : State) (n : SlotId) (k : SlotWork) : State :=
  (s.release n k.window).modLine k.window k.line fun e => { e with published := .a }

theorem copyDone_eq (hf : (s.win k.window).state = .flattening) :
    s.copyDone n k = (s.copied n k).walkFrom k.window (k.line + 1) := if_pos hf

theorem lineBecomes_copied (hm : s.MapSound)
    (hi : (s.win k.window).geometry.entryIndex k.line < 8192) :
    LineBecomes s (s.copied n k) k.window k.line
      { s.lineEntry k.window k.line with published := .a } := by
  have geometry : ((s.release n k.window).win k.window).geometry = (s.win k.window).geometry := by
    rw [(windowBecomes_release s n k.window).1]
  have line := lineBecomes_modLine (s := s.release n k.window) hm.1 (w := k.window) (i := k.line)
    (by rw [geometry]; exact hi) fun e => { e with published := .a }
  unfold LineBecomes State.lineEntry at line ⊢
  rw [geometry] at line
  exact line

/-- Settles O32. -/
theorem copiesMoveTheLine : Obligations.CopiesMoveTheLine := by
  refine ⟨fun s n k data w hs hn hk hp => ?_, fun s n k w hs hm hn hk hp hf hi => ?_⟩
  · exact ⟨_, exec_flattenCopyReadDone hs hn hk hp, only_startPhase s n _, slotBecomes_startPhase s n _,
      by
        obtain ⟨op, tag, address, access, queue⟩ := startPhase_write (s := s) (n := n)
          (k := { k with phase := .writing, buffer := some data, attempt := 1 }) rfl rfl hk.1
        exact ⟨op, tag, access, address, queue⟩⟩
  · obtain rfl := hk.1
    have answer : ∀ o, exec (.flattenCopyDone n o) s = _ := fun o => exec_flattenCopyDone hs hn hk hp
    simp only [copyDone_eq hf] at answer
    have window := windowBecomes_release s n k.window
    have map : (s.copied n k).lineMap.wf = true := LineMap.wf_write hm.1 _ _
    refine ⟨s.copied n k, ((only_release s n k.window).mono (by simp)).trans
      ((only_modLine _ _ _ _).mono (by simp)), (slotBecomes_release s n k.window).of_slots rfl,
      window.of_windows rfl, lineBecomes_copied hm hi, fun hq => ?_, ?_⟩
    · have kept : NoKeptRequest (s.release n k.window) := window.kept rfl hq
      obtain ⟨t, walks, empty, any⟩ := walksFrom_arbitrate (s := s.copied n k) (w := k.window)
        (k.line + 1) map fun v _ => kept v
      exact ⟨t, walks, by rw [answer, empty], fun hch o => by rw [answer o, any hch o]⟩
    · exact ⟨_, _, walkStops_walkFrom map k.window (k.line + 1), keptThenHead_arbitrate _, answer []⟩

/-! ### A copy's failure -/

/-- The window back in LIVE with FLATTEN_FAILED raised, before its hold is evaluated (R69, R120). -/
def State.abandoned (s : State) (n : SlotId) (k : SlotWork) : State :=
  ((s.release n k.window).modWin k.window fun x =>
    { x with state := .live, cursor := none, copyRequest := false }).raise (.flattenFailed k.window k.line)

theorem copyFailed_eq (hf : (s.win k.window).state = .flattening) :
    s.copyFailed n k = (s.abandoned n k).evaluateHold k.window := if_pos hf

theorem only_abandoned (s : State) (n : SlotId) (k : SlotWork) :
    Only [.windows, .slots, .notices] s (s.abandoned n k) := by
  have live : Only [.windows, .slots, .notices] s ((s.release n k.window).modWin k.window fun x =>
      { x with state := .live, cursor := none, copyRequest := false }) :=
    ((only_release s n _).mono (by simp)).trans ((only_modWin _ _ _).mono (by simp))
  exact live.trans ((only_raise _ _).mono (by simp))

theorem windowBecomes_abandoned (hq : (s.win k.window).copyRequest = false) :
    WindowBecomes s (s.abandoned n k) k.window
      { s.win k.window with state := .live, cursor := none, fills := (s.win k.window).fills - 1 } := by
  have live := (windowBecomes_release s n k.window).trans (WindowBecomes.modWin (s.release n k.window)
    k.window fun x => { x with state := .live, cursor := none, copyRequest := false })
  rw [(windowBecomes_release s n k.window).1] at live
  refine ⟨live.1.trans ?_, live.2⟩
  rw [← hq]

/-- The level sources read neither the state of a window nor its counts (R106). -/
theorem firstLevelSource_abandoned (hq : (s.win k.window).copyRequest = false) :
    (s.abandoned n k).firstLevelSource k.window = s.firstLevelSource k.window := by
  have window := (windowBecomes_abandoned (n := n) hq).1
  exact firstLevelSource_congr rfl rfl (by rw [window]) (by rw [window])

/-- Settles O33: the hold is evaluated in the window that is LIVE again. -/
theorem copyFailureReturnsTheWindowToLive : Obligations.CopyFailureReturnsTheWindowToLive := by
  intro s n k status o w c hs hn hk hc hf hq
  obtain rfl := hk.1
  have answer : ∀ o, exec (.flattenCopyFailed n status o) s = _ :=
    fun o => exec_flattenCopyFailed hs hn hk hc
  simp only [copyFailed_eq hf] at answer
  have window := windowBecomes_abandoned (n := n) hq
  have slot : SlotBecomes s (s.abandoned n k) n none := (slotBecomes_release s n k.window).of_slots rfl
  have source := firstLevelSource_abandoned (n := n) hq
  cases hsrc : s.firstLevelSource k.window with
  | none =>
    rw [evaluateHold_of_none (source.trans hsrc)] at answer
    refine ⟨s.abandoned n k, fun hk => ?_, ⟨_, keptThenHead_arbitrate _, answer []⟩,
      only_abandoned s n k, slot, fun _ => ⟨window, rfl⟩, nofun⟩
    rw [answer o, arbitrate_of_none (window.kept rfl hk)]
  | some src =>
    rw [evaluateHold_of_some (source.trans hsrc), becomeActive_of_not_committing src
      (by rw [window.1]; exact fun h => by cases h.1), window.1] at answer
    have active := window.trans (windowBecomes_patched (s.abandoned n k) k.window
      { s.win k.window with state := .live, cursor := none, fills := (s.win k.window).fills - 1
                            holdStatus := .active } [.holdActive k.window src])
    refine ⟨_, fun hk => ?_, ⟨_, keptThenHead_arbitrate _, answer []⟩,
      (only_abandoned s n k).trans ((only_patched _ _ _ _).mono (by simp)), slot.of_slots rfl, nofun,
      fun src' h => ?_⟩
    · rw [answer o]
      exact congrArg Host.Outcome.next (arbitrate_of_none (active.kept rfl hk) o)
    · obtain rfl := Option.some.inj h
      exact ⟨active, rfl⟩

/-! ### The beginning of the copies -/

theorem exec_flattenDrainComplete {o : Order} (hs : s.inReset = false)
    (hd : (s.win w).flattenDrained = true) :
    exec (.flattenDrainComplete w o) s = .next ((s.walkFrom w 0).arbitrate o) := by
  show Host.Outcome.next (s.whenRunning _) = _
  rw [whenRunning_of_running hs, if_pos hd]

/-- Settles O34. -/
theorem flattenDrainBeginsTheCopies : Obligations.FlattenDrainBeginsTheCopies := by
  refine ⟨fun s w hs hm hq hf hr hfills => ?_, fun s w j hs hq hc => ⟨fun m hfree => ?_, fun full => ?_⟩⟩
  · have drained : (s.win w).flattenDrained = true := by
      simp [Window.flattenDrained, hf, hr, hfills, hq]
    refine ⟨fun hk => ?_, _, _, walkStops_walkFrom hm.1 w 0, keptThenHead_arbitrate _,
      exec_flattenDrainComplete hs drained⟩
    obtain ⟨t, walks, empty, any⟩ := walksFrom_arbitrate 0 hm.1 (w := w) fun v _ => hk v
    exact ⟨t, walks, by rw [exec_flattenDrainComplete hs drained, empty],
      fun hch o => by rw [exec_flattenDrainComplete hs drained, any hch o]⟩
  · exact ⟨s.serveCopyWith w m, by rw [exec_flattenRequestServed hs, serveCopy_of_free hq hfree],
      copyStarts_serveCopyWith m hc⟩
  · rw [exec_flattenRequestServed hs, serveCopy_of_full w full]

end Sys2Proof.Machine

/-! ## Settles

The flip and the clear with the settle that may follow them, the drain timer's expiry, and the tick that
all windows take (R81 to R92, R138). -/

namespace Sys2Proof.Machine

variable {s t u : State} {w : WindowId}

/-! ### The flip and the clear -/

theorem currentReads_zero_iff_drained_afterFlip {x : Window} (h : x.Drained) :
    x.afterFlip.Drained ↔ x.currentReads = 0 := by
  obtain ⟨hf, hw, -⟩ := h
  cases hp : x.parity <;>
    simp [Window.Drained, Window.afterFlip, Window.previousReads, Window.currentReads,
      Window.readCount, hf, hw, hp]

theorem currentReads_zero_iff_drained_afterClear {x : Window} (h : x.Drained) :
    x.afterClear.Drained ↔ x.currentReads = 0 := currentReads_zero_iff_drained_afterFlip (x := x) h

/-- A settle has ended at a window, with `x` the record it leaves in LIVE, `f` what it does to the
segment's entries, `g` to the lines and `l` its notices; the prompt rule has followed (R81, R90). -/
structure EndsThenPrompts (s t : State) (w : WindowId) (f : LineEntry → LineEntry)
    (g : LineInterface → LineInterface) (x : Window) (l : List Notice) : Prop where
  only : Only [.windows, .lineMap, .notices, .lines] s t
  segment : SegmentBecomes s t w f
  stays : ¬x.Prompted → WindowBecomes s t w x
  waits : x.Prompted → ¬x.Drained → WindowBecomes s t w (x.afterEntry .commit)
  quiet : ¬x.Prompted ∨ ¬x.Drained → t.lines = g s.lines ∧ t.notices = s.notices.offerAll l
  drains : x.Prompted → x.Drained →
    WindowBecomes s t w ({ x with armed := false } : Window).afterFlip
      ∧ t.lines = flipLines x (g s.lines)
      ∧ t.notices = (s.notices.offerAll l).offerAll (flipNotices w x)

/-- A further flip of a segment whose entries are pending no more leaves them. -/
theorem endsThenPrompts_settled {f : LineEntry → LineEntry} {g : LineInterface → LineInterface}
    {x : Window} (l : List Notice) (hm : s.lineMap.wf = true) (h0 : f LineEntry.reset = LineEntry.reset)
    (hf : ∀ e, (f e).pending = false) (hl : x.state = .live)
    (hg : x.geometry = (s.win w).geometry) :
    EndsThenPrompts s ((s.settled w f g x l).promptTest w) w f g x l := by
  have only := only_settled s w f g x l
  have segment := segmentBecomes_settled hm w h0 g x l
  have window := windowBecomes_settled s w f g x l
  have map : (s.settled w f g x l).lineMap.wf = true := LineMap.wf_mapRange hm _ _ _
  have lines := settled_lines s w f g x l
  have notices := settled_notices s w f g x l
  generalize s.settled w f g x l = t at *
  have live : (t.win w).state = .live := by rw [window.1]; exact hl
  by_cases hp : x.Prompted
  · rw [promptTest_of_ready live (by rw [window.1]; exact hp)]
    by_cases hd : x.Drained
    · rw [enterCommit_of_drained (by rw [window.1]; exact hd), window.1]
      have twice := segment.trans (by rw [window.1]; exact hg) (segmentBecomes_settled map w flipped_reset
        (flipLines x) ({ x with armed := false } : Window).afterFlip (flipNotices w x))
      simp only [flipped_of_not_pending (hf _)] at twice
      exact ⟨only.trans (only_settled _ _ _ _ _ _), twice, absurd hp, fun _ h => absurd hd h,
        fun h => absurd (h.resolve_left (not_not_intro hp)) (not_not_intro hd),
        fun _ _ => ⟨window.trans (windowBecomes_settled _ _ _ _ _ _), by rw [settled_lines, lines],
          by rw [settled_notices, notices]⟩⟩
    · rw [enterCommit_of_not_drained (by rw [window.1]; exact hd), window.1]
      exact ⟨only.trans ((only_patched_nil _ _ _).mono (by simp)), segment.of_lineMap rfl, absurd hp,
        fun _ _ => window.trans (windowBecomes_patched _ _ _ _), fun _ => ⟨lines, notices⟩,
        fun _ h => absurd h hd⟩
  · rw [promptTest_of_not_ready (by rw [window.1]; exact fun h => hp h.2)]
    exact ⟨only, segment, fun _ => window, fun h => absurd h hp, fun _ => ⟨lines, notices⟩,
      fun h => absurd h hp⟩

theorem flipLines_flipLines {x y : Window} (h : y.policy = x.policy) (l : LineInterface) :
    flipLines y (flipLines x l) = flipLines x l := by
  unfold flipLines
  rw [h]
  split <;> rfl

theorem offerAll_flipNotices (q : NoticeQueue) (w : WindowId) (x : Window) :
    q.offerAll (flipNotices w x) =
      if x.policy.commitNotices then q.offer (.commitDone w (x.generation + 1) x.pendingCount) else q := by
  unfold flipNotices
  split <;> rfl

/-- Settles O35: the flip, then the prompt rule in the window it has left in LIVE. -/
theorem flipPublishesEveryPendingLine : Obligations.FlipPublishesEveryPendingLine := by
  intro s w hs hm hc hd
  have ends := endsThenPrompts_settled (g := flipLines (s.win w)) (x := (s.win w).afterFlip)
    (flipNotices w (s.win w)) hm.1 flipped_reset flipped_pending rfl rfl
  have drained := currentReads_zero_iff_drained_afterFlip hd
  have once := offerAll_flipNotices s.notices w (s.win w)
  rw [← takeFlip_eq] at ends
  refine ⟨s.flipAt w, exec_flip hs hc hd, ends.only, ends.segment, ?_, fun h => ?_, ends.stays,
    fun hp hr => ends.waits hp (hr ∘ drained.mp), fun hp hr => ?_⟩
  · by_cases h : (s.win w).Prompted ∧ (s.win w).afterFlip.Drained
    · exact (ends.drains h.1 h.2).2.1.trans (flipLines_flipLines rfl _)
    · exact (ends.quiet (not_and_or.mp h)).1
  · exact ((ends.quiet (h.imp_right fun hr => hr ∘ drained.mp)).2).trans once
  · obtain ⟨window, -, notices⟩ := ends.drains hp (drained.mpr hr)
    refine ⟨window, notices.trans ?_⟩
    have twice : (s.win w).generation + 1 + 1 = (s.win w).generation + 2 := by
      rw [BitVec.add_assoc]; rfl
    rw [once, offerAll_flipNotices]
    simp only [Window.afterFlip, twice]
    split <;> rfl

/-- Settles O36: the clear, then the prompt rule in the window it has left in LIVE. -/
theorem clearDiscardsEveryPendingLine : Obligations.ClearDiscardsEveryPendingLine := by
  intro s w hs hm hc hd
  have ends := endsThenPrompts_settled (g := id) (x := (s.win w).afterClear)
    [.discardDone w (s.win w).pendingCount] hm.1 unpended_reset (fun _ => rfl) rfl rfl
  have drained := currentReads_zero_iff_drained_afterClear hd
  rw [← takeClear_eq] at ends
  refine ⟨s.clearAt w, exec_clear hs hc hd, ends.only, ends.segment,
    fun h => ends.quiet (h.imp_right fun hr => hr ∘ drained.mp), ends.stays,
    fun hp hr => ends.waits hp (hr ∘ drained.mp), fun hp hr => ?_⟩
  obtain ⟨window, lines, notices⟩ := ends.drains hp (drained.mpr hr)
  exact ⟨window, lines, notices.trans (offerAll_flipNotices _ w (s.win w).afterClear)⟩

/-! ### The drain timer -/

/-- What the expiry of the drain timer does at a window (R92). -/
def expireChange (w : WindowId) (x : Window) : WindowChange :=
  if x.settlingCommit then
    { quiet (x.afterCancel false) with notices := [.commitCancelled w x.generation .timeout] }
  else if x.settlingDiscard then
    let c := if x.backToLive.promptReady then commitChange w x.backToLive else quiet x.backToLive
    { c with notices := .discardCancelled w :: c.notices }
  else quiet { x with drainTimer := none }

theorem expireSettle_eq (s : State) (w : WindowId) :
    s.expireSettle w = s.changed w (expireChange w (s.win w)) := by
  unfold State.expireSettle expireChange
  split
  · rfl
  · split
    · have back : (s.modWin w Window.backToLive).raise (.discardCancelled w) =
          s.patched w (s.win w).backToLive [.discardCancelled w] := rfl
      rw [back, promptTest_eq, patched_win_self]
      exact patched_changed s w [.discardCancelled w] _ rfl
    · rfl

theorem expireChange_of_committing {x : Window} (h : x.Committing) :
    expireChange w x =
      { quiet (x.afterCancel false) with notices := [.commitCancelled w x.generation .timeout] } :=
  if_pos ((settlingCommit_iff x).mpr h)

theorem promptReady_backToLive {x : Window} : x.backToLive.promptReady = true ↔ x.Prompted :=
  (promptReady_iff _).trans ⟨And.right, fun h => ⟨rfl, h⟩⟩

theorem expireChange_of_discarding {x : Window} (h : x.Discarding) (hp : ¬x.Prompted) :
    expireChange w x = { quiet (x.afterCancel x.armed) with notices := [.discardCancelled w] } := by
  have not_commit : ¬x.settlingCommit = true := fun e =>
    not_committing_of_discarding h ((settlingCommit_iff x).mp e)
  rw [expireChange, if_neg not_commit, if_pos ((settlingDiscard_iff x).mpr h)]
  simp only [if_neg (promptReady_backToLive.not.mpr hp)]
  rfl

theorem expireChange_of_prompted {x : Window} (h : x.Discarding) (hp : x.Prompted) (hd : ¬x.Drained) :
    expireChange w x =
      { quiet ((x.afterCancel x.armed).afterEntry .commit) with notices := [.discardCancelled w] } := by
  have not_commit : ¬x.settlingCommit = true := fun e =>
    not_committing_of_discarding h ((settlingCommit_iff x).mp e)
  have waits : x.backToLive.drained = false := by
    rw [Bool.eq_false_iff]; exact fun e => hd ((drained_iff x.backToLive).mp e)
  rw [expireChange, if_neg not_commit, if_pos ((settlingDiscard_iff x).mpr h)]
  simp only [if_pos (promptReady_backToLive.mpr hp), commitChange, Window.afterCommit, entryNotices,
    waits, Bool.false_and, Bool.false_eq_true, if_false]
  rfl

theorem exec_drainTimerExpiry (hs : s.inReset = false) (h : (s.win w).drainTimer = some 1) :
    exec (.drainTimerExpiry w) s = .next (s.changed w (expireChange w (s.win w))).pump := by
  show Host.Outcome.next (s.whenRunning _) = _
  rw [whenRunning_of_running hs, h, ← expireSettle_eq]
  rfl

/-- A change that neither flips nor pulses, said of each part. -/
theorem changed_quiet {x : Window} {l : List Notice} :
    Only [.windows, .notices] s (s.changed w { quiet x with notices := l })
      ∧ WindowBecomes s (s.changed w { quiet x with notices := l }) w x
      ∧ (s.changed w { quiet x with notices := l }).notices = s.notices.offerAll l :=
  ⟨only_patched s w x l, windowBecomes_patched s w x l, rfl⟩

/-- Settles O37. -/
theorem drainTimerExpiryCancelsTheSettle : Obligations.DrainTimerExpiryCancelsTheSettle := by
  intro s w hs ht
  have answer := exec_drainTimerExpiry hs ht
  refine ⟨fun hc => ?_, fun hd hp => ?_, fun hd hp hw => ?_⟩
  · rw [expireChange_of_committing hc] at answer
    exact ⟨_, answer, changed_quiet⟩
  · rw [expireChange_of_discarding hd hp] at answer
    exact ⟨_, answer, changed_quiet⟩
  · rw [expireChange_of_prompted hd hp hw] at answer
    exact ⟨_, answer, changed_quiet⟩

/-! ### The tick -/

/-- What a tick does at a window (R85, R138). -/
def tickChange (w : WindowId) (x : Window) : WindowChange :=
  match x.drainTimer with
  | none => quiet x
  | some n => if n.toNat ≤ 1 then expireChange w x else quiet { x with drainTimer := some (n - 1) }

theorem tickAt_eq (s : State) (w : WindowId) : s.tickAt w = s.changed w (tickChange w (s.win w)) := by
  unfold State.tickAt tickChange
  cases (s.win w).drainTimer with
  | none => exact (changed_quiet_self s w).symm
  | some n =>
    dsimp only
    split
    · exact expireSettle_eq s w
    · rfl

/-- The sweep's parts depend on the windows swept alone. -/
theorem Sweep.congr {ws : List WindowId} {c d : WindowId → WindowChange} (h : Sweep s t ws c)
    (hc : ∀ w ∈ ws, c w = d w) : Sweep s t ws d where
  only := h.only
  win w hw := (h.win w hw).trans (congrArg _ (hc w hw))
  others := h.others
  notices := by
    rw [h.notices, List.flatMap_congr fun w hw => congrArg WindowChange.notices (hc w hw)]
  lines := by
    have same : (ws.any fun w => (c w).pulse) = ws.any fun w => (d w).pulse := by
      refine Bool.eq_iff_iff.mpr ?_
      simp only [List.any_eq_true]
      exact ⟨fun ⟨w, hw, hp⟩ => ⟨w, hw, hc w hw ▸ hp⟩, fun ⟨w, hw, hp⟩ => ⟨w, hw, (hc w hw).symm ▸ hp⟩⟩
    rw [h.lines, same]
  still hf := h.still fun w hw => (hc w hw).symm ▸ hf w hw
  wf := h.wf
  flipped hm w hw hf := h.flipped hm w hw ((hc w hw).symm ▸ hf)
  same hm j hj := h.same hm j fun w hw hf => hj w hw (hc w hw ▸ hf)

/-- An event that does at each window what its record there decides, taken at several windows in turn. -/
theorem sweep_forWindows {f : WindowId → State → State} {c : WindowId → Window → WindowChange}
    (hf : ∀ w t, f w t = t.changed w (c w (t.win w))) {ws : List WindowId} (hn : ws.Nodup) (s : State) :
    Sweep s (s.forWindows ws f) ws fun w => c w (s.win w) := by
  obtain ⟨d, hd, sweep⟩ := forWindows_sweep (R := fun w x d => d = c w x) (f := f)
    (levels := s.lines.levels) (settings := s.settings) (fun w t _ _ => ⟨_, hf w t, rfl⟩) ws hn s rfl rfl
  exact sweep.congr hd

theorem hport_tickAt (s : State) (w : WindowId) : (s.tickAt w).hport = s.hport := by
  rw [tickAt_eq]; exact only_changed _ _ _ .hport (by decide)

/-- Without a request presented the agents of a tick other than the pulse are the windows' ticks. -/
theorem foldl_tickAgent : ∀ (l : List Agent) (s : State), Agent.pulse ∉ l → s.hport.channel = [] →
    l.foldl State.tickAgent s = s.forWindows (l.filterMap Agent.asWindow) fun w t => t.tickAt w
  | [], _, _, _ => rfl
  | a :: l, s, hp, hch => by
    obtain ⟨ha, hl⟩ := not_or.mp (List.mem_cons.not.mp hp)
    rw [List.foldl_cons]
    cases a with
    | window w =>
      have empty : (s.tickAt w).hport.channel = [] := by rw [hport_tickAt]; exact hch
      show l.foldl State.tickAgent (s.tickAt w).pump = _
      rw [pump_of_nil empty, foldl_tickAgent l _ hl empty]
      rfl
    | pulse => exact absurd rfl ha
    | slot n => exact foldl_tickAgent l s hl hch
    | steering => exact foldl_tickAgent l s hl hch
    | edge x w => exact foldl_tickAgent l s hl hch

/-- No settle that a tick cancels at the window goes on to drain (R84). -/
def Window.TicksQuietly (x : Window) : Prop :=
  ∀ n, x.Discarding → x.drainTimer = some n → n.toNat ≤ 1 → x.Prompted → ¬x.Drained

/-- The record that a tick leaves at a window whose settles end before it (R81, R85, R92). -/
theorem tickChange_of_quietly {x : Window} (h : x.TicksQuietly) :
    (tickChange w x).flips = false ∧ (tickChange w x).pulse = false
      ∧ (tickChange w x).notices = tickNotices w x := by
  unfold tickChange tickNotices
  cases ht : x.drainTimer with
  | none => exact ⟨rfl, rfl, rfl⟩
  | some n =>
    dsimp only
    by_cases hn : n.toNat ≤ 1
    · rw [if_pos hn, if_neg (by omega)]
      by_cases hc : x.Committing
      · rw [expireChange_of_committing hc, if_pos ((settlingCommit_iff x).mpr hc)]
        exact ⟨rfl, rfl, rfl⟩
      · rw [if_neg ((settlingCommit_iff x).not.mpr hc)]
        by_cases hd : x.Discarding
        · rw [if_pos ((settlingDiscard_iff x).mpr hd)]
          by_cases hp : x.Prompted
          · rw [expireChange_of_prompted hd hp (h n hd ht hn hp)]
            exact ⟨rfl, rfl, rfl⟩
          · rw [expireChange_of_discarding hd hp]
            exact ⟨rfl, rfl, rfl⟩
        · rw [if_neg ((settlingDiscard_iff x).not.mpr hd), expireChange,
            if_neg ((settlingCommit_iff x).not.mpr hc), if_neg ((settlingDiscard_iff x).not.mpr hd)]
          exact ⟨rfl, rfl, rfl⟩
    · rw [if_neg hn, if_pos (by omega)]
      exact ⟨rfl, rfl, rfl⟩

/-- A sweep that neither flips nor pulses. -/
theorem Sweep.quietly {ws : List WindowId} {c : WindowId → WindowChange} (h : Sweep s t ws c)
    (hf : ∀ w ∈ ws, (c w).flips = false) (hp : ∀ w ∈ ws, (c w).pulse = false) :
    Only [.windows, .notices] s t := by
  have lines : t.lines = s.lines := by
    have none_pulses : (ws.any fun w => (c w).pulse) = false := by
      rw [List.any_eq_false]; exact fun w hw => by rw [hp w hw]; decide
    rw [h.lines, none_pulses]; rfl
  intro p hp
  cases p with
  | lineMap => exact h.still hf
  | lines => exact lines
  | windows | notices => simp at hp
  | roles | slots | table | hport | issueQueue | mgmt | settings | inReset | pending =>
    exact h.only _ (by decide)

/-- A sweep that changes records alone. -/
theorem Sweep.records {ws : List WindowId} {c : WindowId → WindowChange} (h : Sweep s t ws c)
    (hc : ∀ w ∈ ws, ∃ x, c w = quiet x) : Only [.windows] s t := by
  have parts := h.quietly (fun w hw => by obtain ⟨x, e⟩ := hc w hw; rw [e]; rfl)
    fun w hw => by obtain ⟨x, e⟩ := hc w hw; rw [e]; rfl
  have silent : (ws.flatMap fun w => (c w).notices) = [] :=
    List.flatMap_eq_nil_iff.mpr fun w hw => by obtain ⟨x, e⟩ := hc w hw; rw [e]; rfl
  have notices : t.notices = s.notices := by rw [h.notices, silent]; rfl
  intro p hp
  cases p with
  | windows => exact absurd List.mem_cons_self hp
  | notices => exact notices
  | lineMap | lines | roles | slots | table | hport | issueQueue | mgmt | settings | inReset | pending =>
    exact parts _ (by decide)

theorem asWindow_eq_some {a : Agent} (h : Agent.asWindow a = some w) : a = .window w := by
  cases a with
  | window v => exact congrArg Agent.window (Option.some.inj h)
  | slot | steering | pulse | edge => cases h

theorem nodup_filterMap_asWindow {l : List Agent} (h : l.Nodup) :
    (l.filterMap Agent.asWindow).Nodup :=
  h.filterMap fun _ _ _ ha hb =>
    (asWindow_eq_some (Option.mem_def.mp ha)).trans (asWindow_eq_some (Option.mem_def.mp hb)).symm

theorem mem_filterMap_asWindow {l : List Agent} :
    w ∈ l.filterMap Agent.asWindow ↔ Agent.window w ∈ l := by
  rw [List.mem_filterMap]
  exact ⟨fun ⟨_, ha, hw⟩ => asWindow_eq_some hw ▸ ha, fun h => ⟨_, h, rfl⟩⟩

/-- The windows `ws`, whose settles end before the tick, have taken it. -/
structure TickedAt (s t : State) (ws : List WindowId) : Prop where
  only : Only [.windows, .notices] s t
  win : ∀ w ∈ ws, t.win w = (tickChange w (s.win w)).record
  others : ∀ w, w ∉ ws → t.win w = s.win w
  notices : t.notices = s.notices.offerAll (ws.flatMap fun w => tickNotices w (s.win w))

theorem tickedAt_foldl {l : List Agent} (hn : l.Nodup) (hp : Agent.pulse ∉ l)
    (hch : s.hport.channel = []) (hq : ∀ w, Agent.window w ∈ l → (s.win w).TicksQuietly) :
    TickedAt s (l.foldl State.tickAgent s) (l.filterMap Agent.asWindow) := by
  have sweep := sweep_forWindows (fun w t => tickAt_eq t w) (nodup_filterMap_asWindow hn) s
  have quiet := fun w hw => tickChange_of_quietly (w := w) (hq w (mem_filterMap_asWindow.mp hw))
  rw [foldl_tickAgent l s hp hch]
  refine ⟨sweep.quietly (fun w hw => (quiet w hw).1) fun w hw => (quiet w hw).2.1, sweep.win,
    sweep.others, sweep.notices.trans ?_⟩
  rw [List.flatMap_congr fun w hw => (quiet w hw).2.2]

/-- A tick taken with no request presented, at windows whose settles end before it: each window takes
its tick once, and the pulse takes its own in between (R138, R142). -/
theorem takeTick_quietly (o : Order) (hch : s.hport.channel = [])
    (hq : ∀ w, (s.win w).TicksQuietly) :
    Only [.windows, .notices, .lines] s (s.takeTick o)
      ∧ (s.takeTick o).lines = { s.lines with edgeCount := 0, pulse := s.lines.pulse - 1 }
      ∧ (s.takeTick o).notices =
          s.notices.offerAll ((tickOrder o).flatMap fun w => tickNotices w (s.win w))
      ∧ ∀ w, (s.takeTick o).win w = (tickChange w (s.win w)).record := by
  obtain ⟨before, after, split⟩ := List.append_of_mem (pulse_mem_tickAgentsIn o)
  have nodup := nodup_tickAgentsIn o
  have mem := window_mem_tickAgentsIn o
  have order : tickOrder o = before.filterMap Agent.asWindow ++ after.filterMap Agent.asWindow := by
    rw [tickOrder, split, List.filterMap_append]; rfl
  have fold : s.takeTick o = after.foldl State.tickAgent
      ((before.foldl State.tickAgent (s.modLines fun l => { l with edgeCount := 0 })).tickPulse) := by
    rw [State.takeTick, split, List.foldl_append, List.foldl_cons]; rfl
  rw [split] at nodup mem
  obtain ⟨nodup_before, nodup_rest, apart⟩ := List.nodup_append.mp nodup
  obtain ⟨pulse_after, nodup_after⟩ := List.nodup_cons.mp nodup_rest
  have window_apart : ∀ {w}, Agent.window w ∈ after → w ∉ before.filterMap Agent.asWindow := fun ha hb =>
    apart _ (mem_filterMap_asWindow.mp hb) _ (List.mem_cons_of_mem _ ha) rfl
  have first := tickedAt_foldl (s := s.modLines fun l => { l with edgeCount := 0 }) nodup_before
    (fun h => apart _ h _ List.mem_cons_self rfl) hch fun w _ => hq w
  rw [fold]
  generalize before.foldl State.tickAgent (s.modLines fun l => { l with edgeCount := 0 }) = t at first
  have hport : t.hport = s.hport := first.only .hport (by decide)
  have lines : t.lines = { s.lines with edgeCount := 0 } := first.only .lines (by decide)
  have second := tickedAt_foldl (s := t.tickPulse) nodup_after pulse_after (hport ▸ hch) fun w hw => by
    have same : t.win w = s.win w := first.others w (window_apart hw)
    show (t.win w).TicksQuietly
    rw [same]; exact hq w
  generalize after.foldl State.tickAgent t.tickPulse = u at second
  refine ⟨?_, ?_, ?_, fun w => ?_⟩
  · have start : Only [.windows, .notices, .lines] s (s.modLines fun l => { l with edgeCount := 0 }) :=
      (only_modLines s _).mono (by simp)
    have pulse : Only [.windows, .notices, .lines] t t.tickPulse := (only_modLines t _).mono (by simp)
    exact (start.trans (first.only.mono (by simp))).trans (pulse.trans (second.only.mono (by simp)))
  · have after_pulse : u.lines = { t.lines with pulse := t.lines.pulse - 1 } :=
      second.only .lines (by decide)
    rw [after_pulse, lines]
  · have unticked : (after.filterMap Agent.asWindow).flatMap (fun w => tickNotices w (t.tickPulse.win w))
        = (after.filterMap Agent.asWindow).flatMap fun w => tickNotices w (s.win w) :=
      List.flatMap_congr fun w hw => congrArg (tickNotices w)
        (first.others w (window_apart (mem_filterMap_asWindow.mp hw)))
    have notices : t.tickPulse.notices = _ := first.notices
    rw [second.notices, notices, unticked, order, List.flatMap_append, offerAll_append]
    rfl
  · rcases List.mem_append.mp (mem w) with hw | hw
    · have out : w ∉ after.filterMap Agent.asWindow := fun h =>
        apart _ hw _ (List.mem_cons_of_mem _ (mem_filterMap_asWindow.mp h)) rfl
      exact (second.others w out).trans (first.win w (mem_filterMap_asWindow.mpr hw))
    · have hw : Agent.window w ∈ after := (List.mem_cons.mp hw).resolve_left (by simp)
      have same : t.tickPulse.win w = s.win w := first.others w (window_apart hw)
      rw [second.win w (mem_filterMap_asWindow.mpr hw), same]

theorem tickChange_of_expiry {x : Window} (h : x.drainTimer = some 1) :
    tickChange w x = expireChange w x := by
  rw [tickChange, h]
  rfl

/-- Settles O38. -/
theorem tickLowersTimersAndPulse : Obligations.TickLowersTimersAndPulse := by
  refine ⟨fun s o hs hch hq => ?_, fun s hs hp => ?_⟩
  · obtain ⟨only, lines, notices, records⟩ := takeTick_quietly o hch hq
    refine ⟨s.takeTick o, ?_, only, lines, notices, fun w => ?_⟩
    · show Host.Outcome.next (s.whenRunning _) = _
      rw [whenRunning_of_running hs]
    rw [records w]
    refine ⟨fun ht => ?_, fun n ht hn => ?_, fun ht hc => ?_, fun ht hd hp => ?_, fun ht hd hp => ?_⟩
    · rw [tickChange, ht]; rfl
    · have : ¬n.toNat ≤ 1 := by omega
      rw [tickChange, ht]
      simp only [if_neg this]
      rfl
    · rw [tickChange_of_expiry ht, expireChange_of_committing hc]; rfl
    · rw [tickChange_of_expiry ht, expireChange_of_discarding hd hp]; rfl
    · rw [tickChange_of_expiry ht, expireChange_of_prompted hd hp (hq w 1 hd ht (by decide) hp)]; rfl
  · refine ⟨s.tickPulse, ?_, only_modLines s _, ?_, ?_⟩
    · show Host.Outcome.next (s.whenRunning _) = _
      rw [whenRunning_of_running hs, if_pos hp]
    · show { s.lines with pulse := s.lines.pulse - 1 } = _
      rw [hp]
    · show (!s.inReset && decide (0 < s.lines.pulse - 1)) = false
      rw [hp, hs]; rfl

end Sys2Proof.Machine

/-! ## Edges of the input lines

What one line's edge, sampled alone, does at every window: the boundary, the publication request, the
change of a hold line; and two lines sampled together (R75 to R80, R96, R139, R140). -/

namespace Sys2Proof.Machine

variable {s t u : State} {w : WindowId} {x : Window} {o : Order}

/-! ### One line sampled alone -/

theorem exec_sampleCommand (hs : s.inReset = false) (y : LineSample) (others : List LineSample) :
    exec (sampleCommand y others o) s = .next (s.takeSample (y :: others) o) := by
  obtain ⟨line, level⟩ := y
  cases line <;> exact congrArg Host.Outcome.next (whenRunning_of_running hs _)

/-- A line sampled alone at a new level: what its edge leaves in each part (R139). -/
structure EdgeTaken (s t : State) (o : Order) (y : LineSample) (c : WindowId → WindowChange) : Prop where
  sweep : Sweep (s.setLevels (putLevel s.lines.levels y)) t (edgeOrder o y.line) c
  only : Only [.windows, .lineMap, .notices, .lines] s t
  levels : t.lines.levels = putLevel s.lines.levels y
  edgeCount : t.lines.edgeCount = s.lines.edgeCount
  win : ∀ w, t.win w = (c w).record

theorem only_setLevels (s : State) (l : LineLevels) : Only [.lines] s (s.setLevels l) := only_modLines s _

theorem edgeTaken (hs : s.inReset = false) (hch : s.hport.channel = []) {y : LineSample}
    (h : levelAt s.lines.levels y.line = !y.level) :
    ∃ t, exec (sampleCommand y [] o) s = .next t
      ∧ EdgeTaken s t o y fun w =>
          edgeChange (putLevel s.lines.levels y) s.settings y.line w (s.win w) := by
  have sweep := sample_sweep o hch h
  refine ⟨_, exec_sampleCommand hs y [], sweep, ?_, ?_, ?_, fun w => sweep.win w (mem_edgeOrder o _ w)⟩
  · exact ((only_setLevels s _).mono (by simp)).trans sweep.only
  · rw [sweep.lines, pulsed_levels]; rfl
  · rw [sweep.lines, pulsed_edgeCount]; rfl

theorem exec_sample_of_same (hs : s.inReset = false) {y : LineSample}
    (h : levelAt s.lines.levels y.line = y.level) : exec (sampleCommand y [] o) s = .next s := by
  rw [exec_sampleCommand hs, takeSample_of_same o h]

/-- Where the edge does nothing at any window the sampled level alone changes. -/
theorem EdgeTaken.idle {y : LineSample} {c : WindowId → WindowChange} (h : EdgeTaken s t o y c)
    (hc : ∀ w, c w = quiet (s.win w)) :
    Only [.lines] s t ∧ t.lines = { s.lines with levels := putLevel s.lines.levels y } := by
  have records := h.sweep.records fun w _ => ⟨_, hc w⟩
  have windows : t.windows = s.windows := windows_eq_of_win fun w => by rw [h.win, hc]; rfl
  refine ⟨fun p hp => ?_, records .lines (by decide)⟩
  cases p with
  | windows => exact windows
  | lines => exact absurd List.mem_cons_self hp
  | lineMap => exact records .lineMap (by decide)
  | notices => exact records .notices (by decide)
  | roles | slots | table | hport | issueQueue | mgmt | settings | inReset | pending =>
    exact h.only _ (by decide)

/-- Where the edge flips no segment and pulses no line. -/
theorem EdgeTaken.still {y : LineSample} {c : WindowId → WindowChange} (h : EdgeTaken s t o y c)
    (hf : ∀ w, (c w).flips = false) : t.lineMap = s.lineMap := h.sweep.still fun w _ => hf w

theorem EdgeTaken.pulse {y : LineSample} {c : WindowId → WindowChange} (h : EdgeTaken s t o y c)
    (hp : ∀ w, (c w).pulse = false) : t.lines.pulse = s.lines.pulse := by
  have none_pulses : ((edgeOrder o y.line).any fun w => (c w).pulse) = false := by
    rw [List.any_eq_false]; exact fun w _ => by rw [hp w]; decide
  rw [h.sweep.lines, none_pulses]; rfl

/-! ### The boundary -/

/-- What a boundary does at a window in any state (R77, R78). -/
def boundaryEdge (w : WindowId) (x : Window) (asserted : Bool) : WindowChange :=
  if x.state.isLiveOrSettling then boundaryChange w x asserted else quiet x

theorem boundaryEdge_of_running {a : Bool} (h : x.Running) : boundaryEdge w x a = boundaryChange w x a :=
  if_pos ((isLiveOrSettling_iff x).mpr h)

theorem boundaryEdge_of_not_running {a : Bool} (h : ¬x.Running) : boundaryEdge w x a = quiet x :=
  if_neg ((isLiveOrSettling_iff x).not.mpr h)

theorem boundary_taken (o : Order) (hs : s.inReset = false) (hch : s.hport.channel = [])
    (h : s.lines.levels.sync = false) :
    ∃ t, exec (.boundary { order := o }) s = .next t
      ∧ EdgeTaken s t o { line := .sync, level := true } fun w =>
          boundaryEdge w (s.win w) (s.levelAsserted w) :=
  edgeTaken (y := { line := .sync, level := true }) hs hch h

theorem commitsNow_iff {a : Bool} : x.commitsNow a = true ↔
    x.state = .live ∧ x.armed = true ∧ (x.afterBoundary a).holdStatus = .clear
      ∧ (x.policy.commitMode = .boundary ∧ x.eligibleNow = true
        ∨ x.policy.commitMode = .prompt ∧ x.releasedNow a = true) := by
  simp only [Window.commitsNow, Bool.and_eq_true, Bool.or_eq_true, decide_eq_true_eq, and_assoc]

theorem boundaryEdge_flips {a : Bool} :
    (boundaryEdge w x a).flips = true ↔ x.commitsNow a = true ∧ x.Drained := by
  by_cases hr : x.Running
  · rw [boundaryEdge_of_running hr]
    simp [boundaryChange]
  · rw [boundaryEdge_of_not_running hr]
    exact ⟨nofun, fun h => absurd (.inl (commitsNow_iff.mp h.1).1) hr⟩

theorem boundaryEdge_pulse {a : Bool} :
    (boundaryEdge w x a).pulse = true ↔
      x.commitsNow a = true ∧ x.Drained ∧ x.policy.commitOutput = true := by
  by_cases hr : x.Running
  · rw [boundaryEdge_of_running hr]
    simp [boundaryChange]
  · rw [boundaryEdge_of_not_running hr]
    exact ⟨nofun, fun h => absurd (.inl (commitsNow_iff.mp h.1).1) hr⟩

/-- Without a commit a boundary changes neither the line map nor the pulse. -/
theorem EdgeTaken.uncommitted
    (h : EdgeTaken s t o { line := .sync, level := true } fun w =>
      boundaryEdge w (s.win w) (s.levelAsserted w))
    (hc : ∀ w, (s.win w).commitsNow (s.levelAsserted w) = false) :
    t.lineMap = s.lineMap ∧ t.lines.pulse = s.lines.pulse := by
  refine ⟨h.still fun w => ?_, h.pulse fun w => ?_⟩
  · rw [Bool.eq_false_iff]
    exact fun hf => by have := (boundaryEdge_flips.mp hf).1; rw [hc w] at this; cases this
  · rw [Bool.eq_false_iff]
    exact fun hf => by have := (boundaryEdge_pulse.mp hf).1; rw [hc w] at this; cases this

/-- The record that the statement on boundaries spells out. -/
theorem afterBoundary_eq {a released eligible : Bool} (hr : released = x.releasedNow a)
    (he : eligible = x.eligibleNow) :
    { x with
      holdStatus := if released then .clear else x.holdStatus
      holdAck := if released ∧ x.policy.holdPolicy = .latched then false else x.holdAck
      eventSince := if x.policy.holdPolicy = .perBoundary then false else x.eventSince
      dividerCount := if eligible then 0 else x.dividerCount + 1 } = x.afterBoundary a := by
  subst hr he
  simp only [Window.afterBoundary, Bool.and_eq_true, decide_eq_true_eq]

/-- The record that a boundary leaves at a window that runs (R78, R79, R82). -/
theorem boundaryEdge_record {a : Bool} (h : x.Running) :
    (x.commitsNow a = true → EntersCommit (x.afterBoundary a) (boundaryEdge w x a).record)
      ∧ (x.commitsNow a = false → (boundaryEdge w x a).record = x.afterBoundary a) := by
  rw [boundaryEdge_of_running h]
  exact ⟨fun hc => entersCommit_iff.mpr (if_pos hc), fun hc => if_neg (by rw [hc]; decide)⟩

/-- A falling edge of SYNC, and SYNC sampled at the level it has. -/
theorem sync_without_boundary (o : Order) (hs : s.inReset = false) :
    (s.lines.levels.sync = true → s.hport.channel = [] →
      ∃ t, exec (.boundary { level := false, order := o }) s = .next t ∧ Only [.lines] s t
        ∧ t.lines = { s.lines with levels := { s.lines.levels with sync := false } })
      ∧ exec (.boundary { level := s.lines.levels.sync, order := o }) s = .next s := by
  refine ⟨fun h hch => ?_, ?_⟩
  · obtain ⟨t, answer, edge⟩ :=
      edgeTaken (o := o) (y := { line := .sync, level := false }) hs hch h
    exact ⟨t, answer, edge.idle fun _ => rfl⟩
  · exact exec_sample_of_same (y := { line := .sync, level := s.lines.levels.sync }) hs rfl

/-- Settles O39. -/
theorem boundaryIsTakenAtEachWindow : Obligations.BoundaryIsTakenAtEachWindow := by
  refine ⟨fun s o hs hch h => ?_, fun s o hs => sync_without_boundary o hs⟩
  obtain ⟨t, answer, edge⟩ := boundary_taken o hs hch h
  refine ⟨t, answer, edge.only, edge.levels, edge.edgeCount, fun w hr => ?_,
    fun w released eligible y hr hrel hel hy => ?_, fun hm => ?_, edge.uncommitted⟩
  · rw [edge.win, boundaryEdge_of_not_running hr]; rfl
  · rw [afterBoundary_eq (a := s.levelAsserted w) hrel hel] at hy
    subst hy
    rw [edge.win]
    obtain ⟨enters, stays⟩ := boundaryEdge_record (w := w) (a := s.levelAsserted w) hr
    rw [hrel, hel]
    refine ⟨fun hl ha hc hm => enters (commitsNow_iff.mpr ⟨hl, ha, hc, hm⟩), fun hn => stays ?_⟩
    exact Bool.eq_false_iff.mpr fun hc => hn (commitsNow_iff.mp hc)
  · have drain := edge.sweep.commitsDrain (x := s.win)
      (enters := fun w => (s.win w).commitsNow (s.levelAsserted w) = true) hm.1 (fun _ => rfl)
      (fun w => (and_iff_right (mem_edgeOrder o .sync w)).trans boundaryEdge_flips)
      (fun w => (and_iff_right (mem_edgeOrder o .sync w)).trans boundaryEdge_pulse)
    exact drain

/-! ### The notices of a boundary -/

theorem boundaryEdge_notices {a : Bool} : (boundaryEdge w x a).notices =
    if x.state.isLiveOrSettling then boundaryNotices w x a else [] := by
  unfold boundaryEdge
  split <;> rfl

/-- Of a list with each window once, what is said of one window alone. -/
theorem flatMap_of_one {f : WindowId → List Notice} {ws : List WindowId} (hn : ws.Nodup) (hw : w ∈ ws)
    (hf : ∀ v, v ≠ w → f v = []) : ws.flatMap f = f w := by
  obtain ⟨before, after, rfl⟩ := List.append_of_mem hw
  have apart := (List.nodup_middle.mp hn)
  have silent : ∀ {l : List WindowId}, w ∉ l → l.flatMap f = [] := fun hl =>
    List.flatMap_eq_nil_iff.mpr fun v hv => hf v fun e => hl (e ▸ hv)
  obtain ⟨out, -⟩ := List.nodup_cons.mp apart
  rw [List.mem_append, not_or] at out
  rw [List.flatMap_append, List.flatMap_cons, silent out.1, silent out.2]
  simp

/-- The notices of a boundary where one window alone runs. -/
theorem boundary_notices_of_one
    (h : EdgeTaken s t o { line := .sync, level := true } fun w =>
      boundaryEdge w (s.win w) (s.levelAsserted w))
    (hone : ∀ v, (s.win v).Running ↔ v = w) :
    t.notices = s.notices.offerAll (boundaryNotices w (s.win w) (s.levelAsserted w)) := by
  have own := flatMap_of_one (f := fun v => (boundaryEdge v (s.win v) (s.levelAsserted v)).notices)
    (nodup_edgeOrder o .sync) (mem_edgeOrder o .sync w)
    fun v hv => by rw [boundaryEdge_of_not_running (hv ∘ (hone v).mp)]; rfl
  have all : t.notices = _ := h.sweep.notices
  rw [all, own, boundaryEdge_of_running ((hone w).mpr rfl)]
  rfl

/-- The lines of a boundary where one window alone runs and its settle drains at its entry. -/
theorem boundary_drained_of_one
    (h : EdgeTaken s t o { line := .sync, level := true } fun w =>
      boundaryEdge w (s.win w) (s.levelAsserted w))
    (hone : ∀ v, (s.win v).Running ↔ v = w)
    (hc : (s.win w).commitsNow (s.levelAsserted w) = true) (hd : (s.win w).Drained) :
    (s.MapSound → SegmentBecomes s t w LineEntry.flipped)
      ∧ t.lines.pulse = if (s.win w).policy.commitOutput then 2 else s.lines.pulse := by
  have alone : ∀ {v}, (boundaryEdge v (s.win v) (s.levelAsserted v)).flips = true → v = w := fun hf =>
    (hone _).mp (.inl (commitsNow_iff.mp (boundaryEdge_flips.mp hf).1).1)
  refine ⟨fun hm => ⟨h.sweep.flipped hm.1 w (mem_edgeOrder o .sync w) (boundaryEdge_flips.mpr ⟨hc, hd⟩),
    fun j hj => h.sweep.same hm.1 j fun v _ hf => ?_⟩, ?_⟩
  · obtain rfl := alone hf
    exact hj
  · have pulses : ((edgeOrder o .sync).any fun v =>
        (boundaryEdge v (s.win v) (s.levelAsserted v)).pulse) = (s.win w).policy.commitOutput := by
      rw [Bool.eq_iff_iff, List.any_eq_true]
      refine ⟨fun ⟨v, _, hp⟩ => ?_, fun ho => ⟨w, mem_edgeOrder o .sync w, boundaryEdge_pulse.mpr ⟨hc, hd, ho⟩⟩⟩
      obtain ⟨hcv, -, ho⟩ := boundaryEdge_pulse.mp hp
      obtain rfl := (hone v).mp (.inl (commitsNow_iff.mp hcv).1)
      exact ho
    have lines : t.lines = _ := h.sweep.lines
    rw [lines, pulses]
    unfold pulsed
    split <;> rfl

/-- Settles O40. -/
theorem boundaryRaisesItsNotices : Obligations.BoundaryRaisesItsNotices := by
  refine ⟨fun s o hs hch h => ?_, fun s o w released eligible hs hch h hone hrel hel => ?_⟩
  · obtain ⟨t, answer, edge⟩ := boundary_taken o hs hch h
    refine ⟨t, answer, ?_⟩
    have notices : t.notices = _ := edge.sweep.notices
    rw [notices]
    simp only [boundaryEdge_notices]
    rfl
  · obtain ⟨t, answer, edge⟩ := boundary_taken o hs hch h
    have hrel : released = (s.win w).releasedNow (s.levelAsserted w) := hrel
    have hel : eligible = (s.win w).eligibleNow := hel
    have notices := boundary_notices_of_one edge hone
    have clear : ((s.win w).afterBoundary (s.levelAsserted w)).holdStatus = .clear ↔
        (s.win w).holdStatus = .clear ∨ released = true := by
      rw [hrel]
      simp only [Window.afterBoundary]
      split <;> simp_all
    have commits := commitsNow_iff (x := s.win w) (a := s.levelAsserted w)
    rw [← hrel, ← hel, clear] at commits
    have quietly : (s.win w).commitsNow (s.levelAsserted w) = false →
        t.lineMap = s.lineMap ∧ t.lines.pulse = s.lines.pulse := fun hc => edge.uncommitted fun v => by
      by_cases hv : v = w
      · rw [hv]; exact hc
      · exact Bool.eq_false_iff.mpr fun hcv => hv ((hone v).mp (.inl (commitsNow_iff.mp hcv).1))
    simp only [boundaryNotices, ← hrel, ← hel] at notices
    refine ⟨t, answer, fun hst => ?_, fun hl hn => ?_, fun hl ha hcl hm => ⟨fun hd => ?_, fun hd => ?_⟩⟩
    · have hc : (s.win w).commitsNow (s.levelAsserted w) = false :=
        Bool.eq_false_iff.mpr fun h => by have := (commits.mp h).1; rw [hst] at this; cases this
      refine ⟨?_, quietly hc⟩
      rw [notices]; simp [hc, hst]
    · have hc : (s.win w).commitsNow (s.levelAsserted w) = false := Bool.eq_false_iff.mpr fun h => by
        obtain ⟨-, armed, cleared, mode⟩ := commits.mp h
        rcases hn with hn | ⟨hn, hn'⟩ | ⟨hn, hn'⟩ | ⟨hn, hn'⟩ <;> simp_all
      refine ⟨?_, quietly hc⟩
      rw [notices]; simp [hc, hl]
    · have hc := commits.mpr ⟨hl, ha, hcl, hm⟩
      have waits : (s.win w).drained = false := Bool.eq_false_iff.mpr (hd ∘ (drained_iff _).mp)
      refine ⟨?_, edge.still fun v => ?_, edge.pulse fun v => ?_⟩
      · rw [notices]; simp [hc, hl, entryNotices, waits]
      · refine Bool.eq_false_iff.mpr fun hf => ?_
        obtain ⟨hcv, hdv⟩ := boundaryEdge_flips.mp hf
        obtain rfl := (hone v).mp (.inl (commitsNow_iff.mp hcv).1)
        exact hd hdv
      · refine Bool.eq_false_iff.mpr fun hp => ?_
        obtain ⟨hcv, hdv, -⟩ := boundaryEdge_pulse.mp hp
        obtain rfl := (hone v).mp (.inl (commitsNow_iff.mp hcv).1)
        exact hd hdv
    · have hc := commits.mpr ⟨hl, ha, hcl, hm⟩
      obtain ⟨segment, pulse⟩ := boundary_drained_of_one edge hone hc hd
      refine ⟨?_, segment, pulse⟩
      rw [notices]; simp [hc, hl, entryNotices, (drained_iff _).mpr hd]

end Sys2Proof.Machine

/-! ## PUBREQ, the hold lines, and two lines together

The edges that arm windows and those that strike or release holds, and the lines sampled together, whose
edges reach a window one after the other (R75, R96, R99, R100, R139, R140). -/

namespace Sys2Proof.Machine

variable {s t u : State} {w : WindowId} {x : Window} {o : Order}

/-! ### PUBREQ -/

/-- The window takes part in a publication request and commits at once (R75, R81). -/
def Window.PromptlyRequested (x : Window) : Prop :=
  x.policy.pubreqEnable = true ∧ x.state = .live ∧ x.policy.commitMode = .prompt ∧ x.holdStatus = .clear

theorem pubreqChange_of_not (h : ¬(x.policy.pubreqEnable = true ∧ x.Running)) :
    pubreqChange w x = quiet x := by
  rw [pubreqChange, if_neg (by rwa [isLiveOrSettling_iff])]

theorem pubreqChange_of_prompt (h : x.PromptlyRequested) :
    pubreqChange w x = commitChange w { x with armed := true } := by
  obtain ⟨he, hl, hm, hc⟩ := h
  rw [pubreqChange, if_pos ⟨he, (isLiveOrSettling_iff x).mpr (.inl hl)⟩,
    if_pos ((promptReady_iff { x with armed := true }).mpr ⟨hl, hm, rfl, hc⟩)]

theorem pubreqChange_of_armed (he : x.policy.pubreqEnable = true) (hr : x.Running)
    (hn : ¬x.PromptlyRequested) : pubreqChange w x = quiet { x with armed := true } := by
  rw [pubreqChange, if_pos ⟨he, (isLiveOrSettling_iff x).mpr hr⟩, if_neg fun h => ?_]
  obtain ⟨hl, hm, -, hc⟩ := (promptReady_iff _).mp h
  exact hn ⟨he, hl, hm, hc⟩

/-- Where the request does not commit at once its change is to the record alone. -/
theorem pubreqChange_quiet (h : ¬x.PromptlyRequested) :
    ∃ y, pubreqChange w x = quiet y := by
  by_cases hx : x.policy.pubreqEnable = true ∧ x.Running
  · exact ⟨_, pubreqChange_of_armed hx.1 hx.2 h⟩
  · exact ⟨_, pubreqChange_of_not hx⟩

theorem pubreqChange_flips : (pubreqChange w x).flips = true ↔ x.PromptlyRequested ∧ x.Drained := by
  by_cases h : x.PromptlyRequested
  · rw [pubreqChange_of_prompt h, and_iff_right h]
    exact drained_iff x
  · obtain ⟨y, e⟩ := pubreqChange_quiet (w := w) h
    rw [e]
    exact ⟨nofun, fun hp => absurd hp.1 h⟩

theorem pubreqChange_pulse : (pubreqChange w x).pulse = true ↔
    x.PromptlyRequested ∧ x.Drained ∧ x.policy.commitOutput = true := by
  by_cases h : x.PromptlyRequested
  · rw [pubreqChange_of_prompt h, and_iff_right h, ← drained_iff x, ← Bool.and_eq_true]
    rfl
  · obtain ⟨y, e⟩ := pubreqChange_quiet (w := w) h
    rw [e]
    exact ⟨nofun, fun hp => absurd hp.1 h⟩

theorem pubreqChange_notices_of_prompt (h : x.PromptlyRequested) :
    (pubreqChange w x).notices = entryNotices w x := by
  rw [pubreqChange_of_prompt h]
  rfl

theorem pubreqChange_notices_of_not (h : ¬x.PromptlyRequested) : (pubreqChange w x).notices = [] := by
  obtain ⟨y, e⟩ := pubreqChange_quiet (w := w) h
  rw [e]
  rfl

theorem pubreq_taken (o : Order) (hs : s.inReset = false) (hch : s.hport.channel = [])
    (h : s.lines.levels.pubreq = false) :
    ∃ t, exec (.pubreqEdge { order := o }) s = .next t
      ∧ EdgeTaken s t o { line := .pubreq, level := true } fun w => pubreqChange w (s.win w) :=
  edgeTaken (y := { line := .pubreq, level := true }) hs hch h

/-- A falling edge of PUBREQ, and PUBREQ sampled at the level it has. -/
theorem pubreq_without_edge (o : Order) (hs : s.inReset = false) :
    (s.lines.levels.pubreq = true → s.hport.channel = [] →
      ∃ t, exec (.pubreqEdge { level := false, order := o }) s = .next t ∧ Only [.lines] s t
        ∧ t.lines = { s.lines with levels := { s.lines.levels with pubreq := false } })
      ∧ exec (.pubreqEdge { level := s.lines.levels.pubreq, order := o }) s = .next s := by
  refine ⟨fun h hch => ?_, ?_⟩
  · obtain ⟨t, answer, edge⟩ :=
      edgeTaken (o := o) (y := { line := .pubreq, level := false }) hs hch h
    exact ⟨t, answer, edge.idle fun _ => rfl⟩
  · exact exec_sample_of_same (y := { line := .pubreq, level := s.lines.levels.pubreq }) hs rfl

/-- A change of the windows' records and the lines alone. -/
theorem EdgeTaken.only_records {y : LineSample} {c : WindowId → WindowChange} (h : EdgeTaken s t o y c)
    (hc : ∀ w, ∃ z, c w = quiet z) : Only [.windows, .lines] s t ∧ t.lines.pulse = s.lines.pulse :=
  ⟨((only_setLevels s _).mono (by simp)).trans ((h.sweep.records fun w _ => hc w).mono (by simp)),
    h.pulse fun w => by obtain ⟨z, e⟩ := hc w; rw [e]; rfl⟩

/-- A rising edge of PUBREQ at every window (R75, R81, R82, R86). -/
theorem pubreqEdge_rises (o : Order) (hs : s.inReset = false) (hch : s.hport.channel = [])
    (h : s.lines.levels.pubreq = false) :
    ∃ t, exec (.pubreqEdge { order := o }) s = .next t ∧ Only [.windows, .lineMap, .notices, .lines] s t
      ∧ t.lines.levels = { s.lines.levels with pubreq := true }
      ∧ t.lines.edgeCount = s.lines.edgeCount
      ∧ ((∀ w, (s.win w).policy.pubreqEnable = true → (s.win w).state = .live →
            (s.win w).policy.commitMode = .boundary ∨ (s.win w).holdStatus ≠ .clear) →
          Only [.windows, .lines] s t ∧ t.lines.pulse = s.lines.pulse)
      ∧ (s.MapSound → CommitsDrain s t (fun w => (s.win w).PromptlyRequested) s.win)
      ∧ t.notices = s.notices.offerAll ((edgeOrder o .pubreq).flatMap fun w =>
          if (s.win w).policy.pubreqEnable = true ∧ (s.win w).state = .live
              ∧ (s.win w).policy.commitMode = .prompt ∧ (s.win w).holdStatus = .clear then
            entryNotices w (s.win w)
          else [])
      ∧ ∀ w, t.win w = (pubreqChange w (s.win w)).record := by
  obtain ⟨t, answer, edge⟩ := pubreq_taken o hs hch h
  refine ⟨t, answer, edge.only, edge.levels, edge.edgeCount, fun hn => ?_, fun hm => ?_, ?_, edge.win⟩
  · refine edge.only_records fun w => pubreqChange_quiet fun ⟨he, hl, hm, hc⟩ => ?_
    rcases hn w he hl with hb | hb
    · rw [hm] at hb; cases hb
    · exact hb hc
  · have drain := edge.sweep.commitsDrain (x := s.win)
      (enters := fun w => (s.win w).PromptlyRequested) hm.1 (fun _ => rfl)
      (fun w => (and_iff_right (mem_edgeOrder o .pubreq w)).trans pubreqChange_flips)
      (fun w => (and_iff_right (mem_edgeOrder o .pubreq w)).trans pubreqChange_pulse)
    exact drain
  · have notices : t.notices = _ := edge.sweep.notices
    rw [notices]
    refine congrArg (NoticeQueue.offerAll s.notices) (List.flatMap_congr fun w _ => ?_)
    split
    · next hp => exact pubreqChange_notices_of_prompt hp
    · next hp => exact pubreqChange_notices_of_not hp

/-! ### Two lines together -/

/-- The record of a window after the edges that reach it, in their order; `done` are those that came
before (R139). -/
def recordAfter (old new : LineLevels) (cf : Settings) (w : WindowId) (x : Window) :
    List InputLine → List InputLine → Window
  | _, [] => x
  | done, l :: ls =>
    recordAfter old new cf w (edgeChange (seenLevels old new (l :: done)) cf l w x).record (l :: done) ls

/-- The edges that reach window `w`, in their order. -/
def edgesAt (w : WindowId) (es : List (InputLine × WindowId)) : List InputLine :=
  (es.filter fun e => e.2 = w).map Prod.fst

theorem takeEdges_win (old new : LineLevels) (w : WindowId) :
    ∀ (es done : List (InputLine × WindowId)) (s : State), s.hport.channel = [] →
      (State.takeEdges old new done es s).win w =
        recordAfter old new s.settings w (s.win w) (edgesAt w done) (edgesAt w es)
  | [], _, _, _ => rfl
  | (l, v) :: es, done, s, hch => by
    have e := edgeAt_eq (s.setLevels (seenLevels old new (l :: edgesAt v done))) l v
    have only := only_changed (s.setLevels (seenLevels old new (l :: edgesAt v done))) v
      (edgeChange (seenLevels old new (l :: edgesAt v done)) s.settings l v (s.win v))
    have hport : ((s.setLevels (seenLevels old new (l :: edgesAt v done))).edgeAt l v).hport = s.hport := by
      rw [e]; exact only .hport (by decide)
    have settings : ((s.setLevels (seenLevels old new (l :: edgesAt v done))).edgeAt l v).settings
        = s.settings := by
      rw [e]; exact only .settings (by decide)
    have rest := takeEdges_win old new w es ((l, v) :: done)
      ((s.setLevels (seenLevels old new (l :: edgesAt v done))).edgeAt l v) (by rw [hport]; exact hch)
    show (State.takeEdges old new ((l, v) :: done) es
      ((s.setLevels (seenLevels old new (l :: edgesAt v done))).edgeAt l v).pump).win w = _
    rw [pump_of_nil (by rw [hport]; exact hch), rest, settings, e]
    by_cases hv : v = w
    · subst hv
      have hd : edgesAt v ((l, v) :: done) = l :: edgesAt v done := by simp [edgesAt]
      have he : edgesAt v ((l, v) :: es) = l :: edgesAt v es := by simp [edgesAt]
      rw [hd, he, changed_win_self]
      rfl
    · have hd : edgesAt w ((l, v) :: done) = edgesAt w done := by simp [edgesAt, hv]
      have he : edgesAt w ((l, v) :: es) = edgesAt w es := by simp [edgesAt, hv]
      rw [hd, he, changed_win_of_ne _ (Ne.symm hv)]
      rfl

theorem putLevel_comm (l : LineLevels) {y z : LineSample} (h : y.line ≠ z.line) :
    putLevel (putLevel l z) y = putLevel (putLevel l y) z := by
  obtain ⟨a, va⟩ := y
  obtain ⟨b, vb⟩ := z
  cases a <;> cases b <;> simp_all [putLevel]

theorem sampledLevels_pair (l : LineLevels) {y z : LineSample} (h : y.line ≠ z.line) :
    sampledLevels l [y, z] = putLevel (putLevel l y) z := putLevel_comm l h

/-- Two lines sampled at new levels are those that change. -/
theorem mem_changedLines_pair {old : LineLevels} {y z : LineSample}
    (hy : levelAt old y.line = !y.level) (hz : levelAt old z.line = !z.level) (l : InputLine) :
    l ∈ changedLines old (putLevel (putLevel old y) z) ↔ l = y.line ∨ l = z.line := by
  have every : l ∈ allLines := by cases l <;> decide
  simp only [changedLines, List.mem_filter, every, true_and, decide_not, Bool.not_eq_true',
    decide_eq_false_iff_not, levelAt_putLevel]
  by_cases hlz : l = z.line
  · subst hlz; simp [hz]
  · by_cases hly : l = y.line
    · subst hly; simp [hlz, hy]
    · simp [hlz, hly]

theorem mem_edgesIn {o : Order} {ls : List InputLine} {e : InputLine × WindowId} :
    e ∈ edgesIn o ls ↔ e.1 ∈ ls := by
  obtain ⟨l, w⟩ := e
  simp only [edgesIn, mem_arrange, List.mem_flatMap, List.mem_map, Prod.mk.injEq]
  exact ⟨fun ⟨m, hm, v, _, h, _⟩ => h ▸ hm, fun h => ⟨l, h, w, mem_allWindows w, rfl, rfl⟩⟩

/-- The edge that an order names first is taken first. -/
theorem edgesIn_cons {o : Order} {ls : List InputLine} {l : InputLine} (w : WindowId) (h : l ∈ ls) :
    ∃ rest, edgesIn (.edge l w :: o) ls = (l, w) :: rest := by
  have mem : (l, w) ∈ ls.flatMap fun m => allWindows.map fun v => (m, v) :=
    List.mem_flatMap.mpr ⟨l, h, List.mem_map.mpr ⟨w, mem_allWindows w, rfl⟩⟩
  have named : (Agent.edge l w :: o).filterMap Agent.asEdge = (l, w) :: o.filterMap Agent.asEdge := rfl
  rw [edgesIn, named, arrange, List.filter_cons_of_pos (by simpa using mem)]
  exact ⟨_, rfl⟩

theorem eq_singleton_of_nodup {a : InputLine} {l : List InputLine} (hn : l.Nodup)
    (h : ∀ b, b ∈ l ↔ b = a) : l = [a] := by
  cases l with
  | nil => exact absurd ((h a).mpr rfl) List.not_mem_nil
  | cons b l =>
    obtain rfl := (h b).mp List.mem_cons_self
    have empty : l = [] := List.eq_nil_iff_forall_not_mem.mpr fun c hc =>
      (List.nodup_cons.mp hn).1 ((h c).mp (List.mem_cons_of_mem b hc) ▸ hc)
    rw [empty]

/-- With two lines changed, and the edge of one named first at a window, the window takes it first and
the other's after it. -/
theorem edgesAt_pair {old new : LineLevels} {a b : InputLine} (h : a ≠ b)
    (hm : ∀ l, l ∈ changedLines old new ↔ l = a ∨ l = b) (w : WindowId) (o : Order) :
    edgesAt w (edgesIn (.edge a w :: o) (changedLines old new)) = [a, b] := by
  obtain ⟨rest, e⟩ := edgesIn_cons (o := o) w ((hm a).mpr (.inl rfl))
  have nodup : (edgesIn (.edge a w :: o) (changedLines old new)).Nodup := nodup_arrange _ _
  have mem : ∀ l, (l, w) ∈ edgesIn (.edge a w :: o) (changedLines old new) ↔ l = a ∨ l = b :=
    fun l => mem_edgesIn.trans (hm l)
  rw [e] at nodup mem ⊢
  obtain ⟨out, nodup_rest⟩ := List.nodup_cons.mp nodup
  have head : edgesAt w ((a, w) :: rest) = a :: edgesAt w rest := by simp [edgesAt]
  have others : edgesAt w rest = [b] := by
    refine eq_singleton_of_nodup ?_ fun l => ?_
    · refine (nodup_rest.filter _).map_on fun p hp q hq hpq => Prod.ext hpq ?_
      rw [List.mem_filter, decide_eq_true_eq] at hp hq
      exact hp.2.trans hq.2.symm
    · have inside : l ∈ edgesAt w rest ↔ (l, w) ∈ rest := by
        simp [edgesAt]
      rw [inside]
      refine ⟨fun hl => ?_, fun hl => ?_⟩
      · refine ((mem l).mp (List.mem_cons_of_mem _ hl)).resolve_left fun ha => ?_
        exact out (ha ▸ hl)
      · subst hl
        exact (List.mem_cons.mp ((mem l).mpr (.inr rfl))).resolve_left fun he => h (congrArg Prod.fst he).symm
  rw [head, others]

/-- A window that takes the edges of two lines sampled together takes them as it would take them sampled
one after the other. -/
theorem takeSample_pair {y z : LineSample} (o : Order) (w : WindowId) (hch : s.hport.channel = [])
    (h : y.line ≠ z.line) (hy : levelAt s.lines.levels y.line = !y.level)
    (hz : levelAt s.lines.levels z.line = !z.level) :
    (s.takeSample [y, z] (.edge y.line w :: o)).win w =
        (edgeChange (putLevel (putLevel s.lines.levels y) z) s.settings z.line w
          (edgeChange (putLevel s.lines.levels y) s.settings y.line w (s.win w)).record).record
      ∧ (s.takeSample [y, z] (.edge y.line w :: o)).lines.levels = putLevel (putLevel s.lines.levels y) z := by
  have levels := sampledLevels_pair s.lines.levels h
  refine ⟨?_, levels⟩
  have taken := takeEdges_win s.lines.levels (putLevel (putLevel s.lines.levels y) z) w
    (edgesIn (.edge y.line w :: o) (changedLines s.lines.levels (putLevel (putLevel s.lines.levels y) z)))
    [] s hch
  rw [edgesAt_pair h (mem_changedLines_pair hy hz)] at taken
  have first : seenLevels s.lines.levels (putLevel (putLevel s.lines.levels y) z) [y.line]
      = putLevel s.lines.levels y := by
    obtain ⟨a, va⟩ := y
    obtain ⟨b, vb⟩ := z
    cases a <;> cases b <;> simp_all [seenLevels, putLevel]
  have second : seenLevels s.lines.levels (putLevel (putLevel s.lines.levels y) z) [z.line, y.line]
      = putLevel (putLevel s.lines.levels y) z := by
    obtain ⟨a, va⟩ := y
    obtain ⟨b, vb⟩ := z
    cases a <;> cases b <;> simp_all [seenLevels, putLevel]
  have start : edgesAt w [] = [] := rfl
  simp only [start, recordAfter, first, second] at taken
  simp only [State.takeSample, levels]
  exact taken

/-- Edges of two lines sampled together reach a window one after the other (R139). -/
theorem sampled_together {y z : LineSample} {o₁ o₂ : Order} (hs : s.inReset = false)
    (hch : s.hport.channel = []) (h : y.line ≠ z.line) (hy : levelAt s.lines.levels y.line = !y.level)
    (hz : levelAt s.lines.levels z.line = !z.level) :
    ∃ t u v, exec (sampleCommand y [] o₁) s = .next u ∧ exec (sampleCommand z [] o₂) u = .next v
      ∧ exec (sampleCommand y [z] (.edge y.line w :: o)) s = .next t
      ∧ t.win w = v.win w ∧ t.lines.levels = v.lines.levels
      ∧ ∃ t', exec (sampleCommand z [y] (.edge y.line w :: o)) s = .next t' ∧ t'.win w = v.win w := by
  obtain ⟨u, first, edge₁⟩ := edgeTaken (o := o₁) hs hch hy
  have hport : u.hport = s.hport := edge₁.only .hport (by decide)
  have settings : u.settings = s.settings := edge₁.only .settings (by decide)
  have reset : u.inReset = s.inReset := edge₁.only .inReset (by decide)
  have level : levelAt u.lines.levels z.line = !z.level := by
    rw [edge₁.levels, levelAt_putLevel, if_neg (Ne.symm h), hz]
  obtain ⟨v, second, edge₂⟩ := edgeTaken (o := o₂) (reset.trans hs) (by rw [hport]; exact hch) level
  obtain ⟨win, levels⟩ := takeSample_pair o w hch h hy hz
  have same : (s.takeSample [y, z] (.edge y.line w :: o)).win w = v.win w := by
    rw [win, edge₂.win, edge₁.win, edge₁.levels, settings]
  have swapped : s.takeSample [z, y] (.edge y.line w :: o) = s.takeSample [y, z] (.edge y.line w :: o) := by
    have sampled : sampledLevels s.lines.levels [z, y] = sampledLevels s.lines.levels [y, z] :=
      (putLevel_comm s.lines.levels h.symm)
    simp only [State.takeSample, sampled]
  exact ⟨_, u, v, first, second, exec_sampleCommand hs y [z], same,
    levels.trans (by rw [edge₂.levels, edge₁.levels]), _, exec_sampleCommand hs z [y], by rw [swapped, same]⟩

/-- Settles O41. -/
theorem pubreqEdgeArmsTheWindows : Obligations.PubreqEdgeArmsTheWindows := by
  refine ⟨fun s o hs hch h => ?_, fun s o hs => pubreq_without_edge o hs,
    fun s y z o o₁ o₂ w hs hch h hy hz => sampled_together hs hch h hy hz⟩
  obtain ⟨t, answer, only, levels, edges, records, drain, notices, win⟩ := pubreqEdge_rises o hs hch h
  refine ⟨t, answer, only, levels, edges, records, drain, notices, fun w =>
    ⟨fun hn => ?_, fun he hr hn => ?_, fun he hl hm hc => ?_⟩⟩
  · rw [win, pubreqChange_of_not hn]; rfl
  · rw [win, pubreqChange_of_armed he hr fun ⟨_, hl, hm, hc⟩ => ?_]
    · rfl
    · rcases hn with hn | hn | hn
      · rw [hl] at hn; cases hn
      · rw [hm] at hn; cases hn
      · exact hn hc
  · rw [win, pubreqChange_of_prompt ⟨he, hl, hm, hc⟩]
    exact entersCommit_iff.mpr rfl

/-! ### The hold lines -/

/-- What an edge of a hold line does at a window that counts it and runs (R99, R100). -/
def holdEdgeChange (lv : LineLevels) (cf : Settings) (h : HoldLine) (w : WindowId) (x : Window) :
    WindowChange :=
  if x.policy.sources.counts h then
    if lineActive lv cf h then assertChange w x (holdLineSource h)
    else releaseChange x (assertedAt lv cf x)
  else quiet x

theorem edgeChange_hold (lv : LineLevels) (cf : Settings) (h : HoldLine) (w : WindowId) (x : Window) :
    edgeChange lv cf h.input w x = holdEdgeChange lv cf h w x := by cases h <;> rfl

theorem holdEdgeChange_quiet (lv : LineLevels) (cf : Settings) (h : HoldLine) (w : WindowId) (x : Window) :
    (holdEdgeChange lv cf h w x).flips = false ∧ (holdEdgeChange lv cf h w x).pulse = false := by
  unfold holdEdgeChange assertChange releaseChange
  split
  · split
    · split <;> exact ⟨rfl, rfl⟩
    · exact ⟨rfl, rfl⟩
  · exact ⟨rfl, rfl⟩

theorem lineActive_iff {lv : LineLevels} {cf : Settings} {h : HoldLine} {level : Bool}
    (hl : LevelsOf lv h = level) : lineActive lv cf h = true ↔ (level = true ↔ cf.polarity h = .activeHigh) := by
  unfold lineActive
  rw [hl]
  cases level <;> cases cf.polarity h <;> decide

theorem holdEdgeChange_of_active {lv : LineLevels} {cf : Settings} {h : HoldLine}
    (ha : lineActive lv cf h = true) : (holdEdgeChange lv cf h w x).notices =
      if x.policy.sources.counts h && x.state.isLiveOrSettling then strikeNotices x w (holdLineSource h)
      else [] := by
  unfold holdEdgeChange assertChange
  rw [if_pos ha]
  cases x.policy.sources.counts h <;> cases x.state.isLiveOrSettling <;> rfl

theorem holdEdgeChange_of_inactive {lv : LineLevels} {cf : Settings} {h : HoldLine}
    (ha : lineActive lv cf h ≠ true) : (holdEdgeChange lv cf h w x).notices = [] := by
  unfold holdEdgeChange
  rw [if_neg ha]
  split <;> rfl

/-- The record that an edge of a hold line leaves (R99, R100, R103). -/
theorem holdEdgeChange_record (lv : LineLevels) (cf : Settings) (h : HoldLine) (w : WindowId) (x : Window) :
    (¬(x.policy.sources.counts h = true ∧ x.Running) → (holdEdgeChange lv cf h w x).record = x)
      ∧ (x.policy.sources.counts h = true → x.Running → lineActive lv cf h = true →
          (holdEdgeChange lv cf h w x).record = x.struck)
      ∧ (x.policy.sources.counts h = true → x.Running → lineActive lv cf h ≠ true →
          (holdEdgeChange lv cf h w x).record = x.letGo (assertedAt lv cf x)) := by
  have running := isLiveOrSettling_iff x
  unfold holdEdgeChange assertChange releaseChange
  refine ⟨fun hn => ?_, fun hc hr ha => ?_, fun hc hr ha => ?_⟩
  · split
    · next hc =>
      have hr : ¬x.state.isLiveOrSettling = true := fun hr => hn ⟨hc, running.mp hr⟩
      rw [if_neg hr, if_neg hr]
      split <;> rfl
    · rfl
  · rw [if_pos hc, if_pos ha, if_pos (running.mpr hr)]
    rfl
  · rw [if_pos hc, if_neg ha, if_pos (running.mpr hr)]
    rfl

theorem letGo_policy (x : Window) (left : Bool) :
    (x.letGo left).policy = x.policy ∧ (x.letGo left).manualHold = x.manualHold := by
  unfold Window.letGo
  split <;> exact ⟨rfl, rfl⟩

/-- Whether a level source is asserted does not depend on what a release leaves in the record (R96). -/
theorem assertedAt_letGo (lv : LineLevels) (cf : Settings) (x : Window) (left : Bool) :
    assertedAt lv cf (x.letGo left) = assertedAt lv cf x := by
  obtain ⟨policy, manual⟩ := letGo_policy x left
  unfold assertedAt lineAsserted
  rw [policy, manual]

theorem putLevel_hold (l : LineLevels) (h : HoldLine) (level : Bool) :
    putLevel l { line := h.input, level } =
      { l with hold0 := if h = .hold0 then level else l.hold0
               hold1 := if h = .hold1 then level else l.hold1 } := by cases h <;> rfl

theorem levelsOf_putLevel (l : LineLevels) (h : HoldLine) (level : Bool) :
    LevelsOf (putLevel l { line := h.input, level }) h = level := by cases h <;> rfl

theorem levelAt_input (l : LineLevels) (h : HoldLine) : levelAt l h.input = LevelsOf l h := by
  cases h <;> rfl

theorem exec_holdLineEdge {h : HoldLine} {level : Bool} :
    exec (.holdLineEdge h level { order := o }) s =
      exec (sampleCommand { line := h.input, level } [] o) s := by cases h <;> rfl

/-- Settles O42. -/
theorem holdLineEdgeStrikesOrReleases : Obligations.HoldLineEdgeStrikesOrReleases := by
  refine ⟨fun s h level o src hs hch hl hsrc => ?_, fun s h o hs => ?_⟩
  · have source : src = holdLineSource h := hsrc
    obtain ⟨t, answer, edge⟩ := edgeTaken (o := o) (y := { line := h.input, level }) hs hch
      (by rw [levelAt_input]; exact hl)
    simp only [edgeChange_hold] at edge
    have active := lineActive_iff (cf := s.settings) (levelsOf_putLevel s.lines.levels h level)
    have levels := edge.levels
    have quiet := edge.sweep.quietly (fun w _ => (holdEdgeChange_quiet _ _ _ w _).1)
      fun w _ => (holdEdgeChange_quiet _ _ _ w _).2
    have lines : t.lines = { s.lines with levels := putLevel s.lines.levels { line := h.input, level } } :=
      quiet .lines (by decide)
    have notices : t.notices = _ := edge.sweep.notices
    have settings : t.settings = s.settings := edge.only .settings (by decide)
    rw [source]
    refine ⟨t, exec_holdLineEdge.trans answer,
      ((only_setLevels s _).mono (by simp)).trans (quiet.mono (by simp)),
      by rw [lines, putLevel_hold], fun ha => ?_, fun ha => ?_, fun w => ?_⟩
    · rw [notices]
      exact congrArg (NoticeQueue.offerAll s.notices)
        (List.flatMap_congr fun w _ => holdEdgeChange_of_active (active.mpr ha))
    · rw [notices, List.flatMap_congr (g := fun _ => []) fun w _ =>
        holdEdgeChange_of_inactive (fun h => ha (active.mp h))]
      have silent : (edgeOrder o h.input).flatMap (fun _ => ([] : List Notice)) = [] := by simp
      rw [silent]
      rfl
    · obtain ⟨idle, struck, released⟩ := holdEdgeChange_record
        (putLevel s.lines.levels { line := h.input, level }) s.settings h w (s.win w)
      rw [← edge.win w] at idle struck released
      refine ⟨idle, fun hc hr ha => levelStrikes_iff.mpr ⟨struck hc hr (active.mpr ha), rfl⟩,
        fun hc hr ha => levelReleases_iff.mpr ?_⟩
      have record := released hc hr (fun h => ha (active.mp h))
      have asserted : t.levelAsserted w =
          assertedAt (putLevel s.lines.levels { line := h.input, level }) s.settings (s.win w) := by
        show assertedAt t.lines.levels t.settings (t.win w) = _
        rw [levels, settings, record, assertedAt_letGo]
      rw [asserted, record]
  · rw [exec_holdLineEdge, exec_sample_of_same hs (levelAt_input _ _)]

end Sys2Proof.Machine

/-! ## The WRITE commands

WRITE GEOMETRY, WRITE ROLES, WRITE POLICY and WRITE DEVICE SETTINGS: the fields of their frames, their
checks, and what an accepted one leaves (R2, R4, R5, R21, R152). -/

namespace Sys2Proof.Machine

variable {s t u : State} {w : WindowId} {x : Window} {o : Order}

/-! ### Frames of the right length -/

/-- An accepted command reports DONE, and the H-port then examines its head (R124, R148). -/
theorem writeFrame_accepted {c : CommandName} {l : List Byte} {body : Frame → State → ResultCode × State}
    (hs : s.PortFree) (hc : isReadCommand c = false) (hl : l.length = argumentBytes c)
    (hb : body { args := l } s = accepted t) :
    (.next (s.whenRunning fun s => s.writeFrame c { args := l } body) : Answer) =
      .next { t.pump with mgmt := reported s l .done } := writeFrame_reports hs hc hl hb

/-- A refused command changes the port alone (R147). -/
theorem writeFrame_refused {c : CommandName} {l : List Byte} {r : ResultCode}
    {body : Frame → State → ResultCode × State} (hs : s.PortFree) (hc : isReadCommand c = false)
    (hl : l.length = argumentBytes c) (hb : body { args := l } s = refuse r s) :
    (.next (s.whenRunning fun s => s.writeFrame c { args := l } body) : Answer) =
      .next { s with mgmt := reported s l r } := writeFrame_reports hs hc hl hb

/-! ### WRITE GEOMETRY and WRITE ROLES -/

theorem requesterOfByte_of_lt {b : Byte} (h : 15 < b.toNat) : requesterOfByte b = none := by
  rw [requesterOfByte, dif_neg (by omega)]

theorem requesterOfByte_ofNat (r : Requester) : requesterOfByte (BitVec.ofNat 8 r.val) = some r := by
  revert r; decide

theorem roleOfByte_of_lt {b : Byte} (h : 3 < b.toNat) : roleOfByte b = none := by
  have code : ∀ c : Byte, c.toNat ≤ 3 → b ≠ c := fun c hc e => by subst e; omega
  simp only [roleOfByte, code 0 (by decide), code 1 (by decide), code 2 (by decide), code 3 (by decide),
    if_false]

/-- One cell out of its range refuses the frame (R21). -/
theorem rolesOfFrame_none {f : Frame} {i : Nat} (h1 : 1 ≤ i) (h8 : i ≤ 8)
    (h : roleOfByte (frameByte f i) = none) : rolesOfFrame f = none := by
  unfold rolesOfFrame
  interval_cases i <;> simp [h]

/-- The cells that a frame carries are those it is written from (R21). -/
theorem rolesOfFrame_cells (b : Byte) (cells : Vector Role 8) :
    rolesOfFrame { args := b :: cells.toList.map roleCode } = some cells := by
  obtain ⟨⟨l⟩, hl⟩ := cells
  match l, hl with
  | [c0, c1, c2, c3, c4, c5, c6, c7], _ =>
    simp [rolesOfFrame, frameByte, roleOfByte_roleCode]

theorem writeRolesBody_refused {l : List Byte} (hl : l.length = 9)
    (h : 15 < (l.getD 0 0).toNat ∨ ∃ b ∈ l.tail, 3 < b.toNat) :
    writeRolesBody { args := l } s = refuse .refusedRange s := by
  unfold writeRolesBody
  rcases h with h | ⟨b, hb, h3⟩
  · rw [show requesterOfByte (frameByte { args := l } 0) = none from requesterOfByte_of_lt h]
  · obtain ⟨i, hi, e⟩ := List.getElem_of_mem hb
    rw [List.length_tail] at hi
    have cell : frameByte { args := l } (i + 1) = b := by
      rw [← e, List.getElem_tail]
      exact List.getD_eq_getElem l 0 (by omega)
    rw [rolesOfFrame_none (f := { args := l }) (i := i + 1) (by omega) (by omega)
      (by rw [cell]; exact roleOfByte_of_lt h3)]
    cases requesterOfByte (frameByte { args := l } 0) <;> rfl

theorem only_setRoles (s : State) (m : Vector (Vector Role 8) 16) : Only [.roles] s (s.setRoles m) := by
  intro p hp
  cases p with
  | roles => exact absurd List.mem_cons_self hp
  | windows | lineMap | slots | table | hport | issueQueue | notices | mgmt | settings | lines
  | inReset | pending => rfl

/-- Settles O48. -/
theorem geometryAndRolesAreReplacedAsWritten : Obligations.GeometryAndRolesAreReplacedAsWritten := by
  refine ⟨fun s w g present fallback hs => ⟨fun hw => ?_, fun hw => ?_⟩, fun s hs =>
    ⟨fun r cells => ?_, fun l hl h => ?_⟩⟩
  · refine ⟨s.modWin w fun x => { x with geometry :=
      { g with fallback := (if present = 0 then none else some fallback) } }, ?_,
      only_modWin s w _, .modWin s w _⟩
    refine writeFrame_accepted hs rfl rfl ?_
    rw [show geometryArgs w g present fallback = windowByte w :: (geometryArgs w g present fallback).tail
      from rfl, onWindow_windowByte, writeGeometryAt, if_pos hw]
    exact congrArg (fun y => accepted (s.modWin w fun x => { x with geometry := y }))
      (geometryOfFrame_geometryArgs w g present fallback)
  · refine writeFrame_refused hs rfl rfl ?_
    exact (onWindow_windowByte w _ 0 _ s).trans (if_neg hw)
  · refine ⟨s.setRoles (s.roles.set r.val cells), ?_, only_setRoles s _, fun w => ?_, fun q hq w => ?_⟩
    · refine writeFrame_accepted hs rfl (by simp [argumentBytes]) ?_
      simp only [writeRolesBody, frameByte_zero, requesterOfByte_ofNat, rolesOfFrame_cells]
    · simp [State.role, State.setRoles]
    · have apart : r.val ≠ q.val := fun e => hq (Fin.ext e.symm)
      simp [State.role, State.setRoles, Vector.getElem_set_ne _ _ apart]
  · exact writeFrame_refused hs rfl hl (writeRolesBody_refused hl h)

/-! ### WRITE POLICY -/

theorem commitModeOfByte_commitModeCode (m : CommitMode) : commitModeOfByte (commitModeCode m) = some m := by
  cases m <;> rfl

theorem holdPolicyOfByte_holdPolicyCode (p : HoldPolicy) : holdPolicyOfByte (holdPolicyCode p) = some p := by
  cases p <;> rfl

theorem sourcesOfByte_sourcesCode (x : HoldSources) : sourcesOfByte (sourcesCode x) = some x := by
  obtain ⟨a, b, c, d⟩ := x
  obtain ⟨h0, h1, h2, h3, hlt⟩ := bits_of_four a b c d
  simp only [sourcesOfByte, sourcesCode, h0, h1, h2, h3, hlt, if_true]

theorem dividerOfByte_byteOfNat {n : Nat} (h1 : 1 ≤ n) (h16 : n ≤ 16) :
    dividerOfByte (byteOfNat n) = some n := by
  have value : (byteOfNat n).toNat = n := Nat.mod_eq_of_lt (by omega)
  rw [dividerOfByte, value, if_pos ⟨h1, h16⟩]

/-- The fields that a frame carries are those it is written from (R4). -/
theorem policyOfFrame_policyArgs (w : WindowId) {p : Policy} (h1 : 1 ≤ p.divider) (h16 : p.divider ≤ 16) :
    policyOfFrame { args := policyArgs w p } = some p := by
  simp [policyOfFrame, policyArgs, frameByte, frameHalf, bytesOfHalf, commitModeOfByte_commitModeCode,
    dividerOfByte_byteOfNat h1 h16, holdPolicyOfByte_holdPolicyCode, sourcesOfByte_sourcesCode,
    half_of_bytes]

theorem holdPolicyCode_inj {p q : HoldPolicy} : holdPolicyCode p = holdPolicyCode q ↔ p = q := by
  cases p <;> cases q <;> decide

theorem sourcesCode_inj {x y : HoldSources} : sourcesCode x = sourcesCode y ↔ x = y :=
  ⟨fun h => Option.some.inj (by rw [← sourcesOfByte_sourcesCode, h, sourcesOfByte_sourcesCode]),
    congrArg _⟩

theorem holdFieldsDiffer_policyArgs (w : WindowId) (p : Policy) (x : Window) :
    holdFieldsDiffer { args := policyArgs w p } x = true ↔
      p.holdPolicy ≠ x.policy.holdPolicy ∨ p.sources ≠ x.policy.sources := by
  have fields : holdFieldsDiffer { args := policyArgs w p } x =
      (decide (holdPolicyCode p.holdPolicy ≠ holdPolicyCode x.policy.holdPolicy)
        || decide (sourcesCode p.sources ≠ sourcesCode x.policy.sources)) := rfl
  rw [fields, Bool.or_eq_true, decide_eq_true_eq, decide_eq_true_eq]
  exact or_congr holdPolicyCode_inj.not sourcesCode_inj.not

/-- A window whose state or whose hold lets no policy in (R4). -/
def Window.policyFixed (f : Frame) (x : Window) : Prop :=
  x.state = .settling ∨ x.state = .flattening
    ∨ x.state = .live ∧ x.holdStatus ≠ .clear ∧ holdFieldsDiffer f x = true

theorem writePolicyAt_fixed {f : Frame} (h : (s.win w).policyFixed f) :
    writePolicyAt f w s = refuse .refusedState s := by
  unfold writePolicyAt
  rcases h with h | h | h
  · exact if_pos (.inl h)
  · exact if_pos (.inr h)
  · dsimp only
    rw [if_pos h]
    split <;> rfl

theorem writePolicyAt_refused {f : Frame} (h : ¬(s.win w).policyFixed f) (hp : policyOfFrame f = none) :
    writePolicyAt f w s = refuse .refusedRange s := by
  unfold Window.policyFixed at h
  unfold writePolicyAt
  dsimp only
  rw [if_neg fun h' => h (h'.imp_right .inl), if_neg fun h' => h (.inr (.inr h')), hp]

theorem writePolicyAt_accepted {f : Frame} {p : Policy} (h : ¬(s.win w).policyFixed f)
    (hp : policyOfFrame f = some p) : writePolicyAt f w s = accepted (s.storePolicy w p) := by
  unfold Window.policyFixed at h
  unfold writePolicyAt
  dsimp only
  rw [if_neg fun h' => h (h'.imp_right .inl), if_neg fun h' => h (.inr (.inr h')), hp]

/-- The policy stored, the hold evaluated where it was CLEAR in LIVE, and the prompt rule (R4, R5). -/
theorem storePolicy_eq (s : State) (w : WindowId) (p : Policy) {y : Window}
    (hy : y = { s.win w with policy := p, dividerCount := 0 }) :
    s.storePolicy w p =
      if (s.win w).state = .live then
        (if (s.win w).holdStatus = .clear then (s.patched w y []).evaluateHold w
          else s.patched w y []).promptTest w
      else s.patched w y [] := by
  subst hy; rfl

/-- Where a level source is asserted the evaluation makes the hold ACTIVE (R106). -/
theorem evaluateHold_patched {y : Window} {c : HoldSource} (hl : y.state = .live)
    (hsrc : some c = (s.modWin w fun _ => y).firstLevelSource w) :
    (s.patched w y []).evaluateHold w = s.patched w { y with holdStatus := .active } [.holdActive w c] := by
  have source : (s.patched w y []).firstLevelSource w = some c := hsrc.symm
  rw [evaluateHold_of_some source, becomeActive_of_not_committing c
    (by rw [patched_win_self]; exact fun h => nomatch hl.symm.trans h.1), patched_win_self, patched_patched]
  rfl

theorem CommitsDrain.congr {enters : WindowId → Prop} {x y : WindowId → Window}
    (h : CommitsDrain s t enters x) (hxy : ∀ w, enters w → y w = x w) : CommitsDrain s t enters y := by
  obtain ⟨flipped, same, pulse, still⟩ := h
  refine ⟨fun w i he hd hi => ?_, fun j hj => same j fun w i he => ?_, fun w he hd ho => ?_,
    fun hn => still fun w he => ?_⟩
  · rw [hxy w he] at hd hi ⊢
    exact flipped w i he hd hi
  · have := hj w i he
    rwa [hxy w he] at this
  · rw [hxy w he] at hd ho
    exact pulse w he hd ho
  · have := hn w he
    rwa [hxy w he] at this

/-- The commit that a window enters whose record has just been replaced. -/
theorem enterCommit_patched {y : Window} (hg : y.geometry = (s.win w).geometry) :
    ∃ x, Only [.windows, .lineMap, .notices, .lines] s ((s.patched w y []).enterCommit w)
      ∧ WindowBecomes s ((s.patched w y []).enterCommit w) w x ∧ EntersCommit y x
      ∧ ((s.patched w y []).enterCommit w).notices = s.notices.offerAll (entryNotices w y)
      ∧ (s.MapSound → CommitsDrain s ((s.patched w y []).enterCommit w) (fun v => v = w) fun _ => y) := by
  have e : (s.patched w y []).enterCommit w = s.changed w (commitChange w y) := by
    rw [enterCommit_eq, patched_win_self, patched_changed s w [] _ hg]
    rfl
  have sweep := changed_sweep s w (commitChange w y)
  rw [e]
  refine ⟨y.afterCommit, only_changed s w _, ⟨changed_win_self s w _, fun v hv => changed_win_of_ne s hv _⟩,
    entersCommit_iff.mpr rfl, changed_notices s w _, fun hm => ?_⟩
  have drain := sweep.commitsDrain (enters := fun v => v = w)
    (x := fun v => if v = w then y else s.win v) hm.1 (fun v => ?_) (fun v => ?_) (fun v => ?_)
  · exact drain.congr fun v hv => (if_pos hv).symm
  · split
    · next hv => rw [hv, hg]
    · rfl
  · rw [List.mem_singleton]
    refine and_congr_right fun hv => ?_
    rw [if_pos hv]
    exact drained_iff y
  · rw [List.mem_singleton]
    refine and_congr_right fun hv => ?_
    rw [if_pos hv, ← drained_iff y, ← Bool.and_eq_true]
    rfl

theorem not_promptReady {y : Window} (h : y.policy.commitMode = .boundary ∨ y.armed = false
    ∨ y.holdStatus ≠ .clear) : ¬(y.state = .live ∧ y.Prompted) := by
  rintro ⟨-, hm, ha, hc⟩
  rcases h with h | h | h
  · rw [hm] at h; cases h
  · rw [ha] at h; cases h
  · exact h hc

theorem promptTest_patched_quiet {y : Window} {l : List Notice} (h : y.policy.commitMode = .boundary
    ∨ y.armed = false ∨ y.holdStatus ≠ .clear) : (s.patched w y l).promptTest w = s.patched w y l :=
  promptTest_of_not_ready (by rw [patched_win_self]; exact not_promptReady h)

theorem exec_writePolicy {l : List Byte} (hs : s.PortFree) (hl : l.length = 10) {p : Policy}
    (ho : ¬(s.win w).policyFixed { args := windowByte w :: l })
    (hp : policyOfFrame { args := windowByte w :: l } = some p) :
    exec (.writePolicy { args := windowByte w :: l }) s =
      .next { (s.storePolicy w p).pump with mgmt := reported s (windowByte w :: l) .done } := by
  refine writeFrame_accepted hs rfl (by simp [argumentBytes, hl]) ?_
  rw [onWindow_windowByte, writePolicyAt_accepted ho hp]

theorem exec_writePolicy_fixed {l : List Byte} (hs : s.PortFree) (hl : l.length = 10)
    (h : (s.win w).policyFixed { args := windowByte w :: l }) :
    exec (.writePolicy { args := windowByte w :: l }) s =
      .next { s with mgmt := reported s (windowByte w :: l) .refusedState } := by
  refine writeFrame_refused hs rfl (by simp [argumentBytes, hl]) ?_
  rw [onWindow_windowByte, writePolicyAt_fixed h]

/-- A policy in a window that does not go by it yet, or where neither the hold nor the prompt rule acts. -/
theorem storePolicy_quiet {p : Policy} {y : Window} {src : Option HoldSource}
    (hy : y = { s.win w with policy := p, dividerCount := 0 })
    (hsrc : src = (s.modWin w fun _ => y).firstLevelSource w)
    (h : (s.win w).state ≠ .live ∨ (s.win w).holdStatus ≠ .clear
      ∨ (s.win w).holdStatus = .clear ∧ src = none ∧ (p.commitMode = .boundary ∨ (s.win w).armed = false)) :
    s.storePolicy w p = s.patched w y [] := by
  rw [storePolicy_eq s w p hy]
  rcases h with h | h | ⟨hc, hn, h⟩
  · exact if_neg h
  · rw [if_neg h, promptTest_patched_quiet (.inr (.inr (by rw [hy]; exact h))), ite_self]
  · refine ite_eq_right_iff.mpr fun _ => ?_
    rw [if_pos hc, evaluateHold_of_none (s := s.patched w y []) (hsrc.symm.trans hn)]
    exact promptTest_patched_quiet (h.imp (fun h => by rw [hy]; exact h) fun h => .inl (by rw [hy]; exact h))

/-- A policy whose level source is asserted makes the hold ACTIVE (R106). -/
theorem storePolicy_strikes {p : Policy} {y : Window} {c : HoldSource}
    (hy : y = { s.win w with policy := p, dividerCount := 0 })
    (hsrc : some c = (s.modWin w fun _ => y).firstLevelSource w) (hl : (s.win w).state = .live)
    (hc : (s.win w).holdStatus = .clear) :
    s.storePolicy w p = s.patched w { y with holdStatus := .active } [.holdActive w c] := by
  rw [storePolicy_eq s w p hy, if_pos hl, if_pos hc, evaluateHold_patched (by rw [hy]; exact hl) hsrc]
  exact promptTest_patched_quiet (.inr (.inr nofun))

/-- A policy of PROMPT mode at an armed window with its hold CLEAR begins the commit (R81). -/
theorem storePolicy_commits {p : Policy} {y : Window}
    (hy : y = { s.win w with policy := p, dividerCount := 0 })
    (hsrc : none = (s.modWin w fun _ => y).firstLevelSource w) (hl : (s.win w).state = .live)
    (hc : (s.win w).holdStatus = .clear) (hm : p.commitMode = .prompt) (ha : (s.win w).armed = true) :
    s.storePolicy w p = (s.patched w y []).enterCommit w := by
  rw [storePolicy_eq s w p hy, if_pos hl, if_pos hc, evaluateHold_of_none (s := s.patched w y []) hsrc.symm]
  have record := patched_win_self s w y []
  exact promptTest_of_ready (by rw [record, hy]; exact hl) (by rw [record, hy]; exact ⟨hm, ha, hc⟩)

theorem commitModeOfByte_of_lt {b : Byte} (h : 1 < b.toNat) : commitModeOfByte b = none := by
  rw [commitModeOfByte, if_neg (fun e => by subst e; simp at h), if_neg (fun e => by subst e; simp at h)]

theorem holdPolicyOfByte_of_lt {b : Byte} (h : 1 < b.toNat) : holdPolicyOfByte b = none := by
  rw [holdPolicyOfByte, if_neg (fun e => by subst e; simp at h), if_neg (fun e => by subst e; simp at h)]

/-- One byte out of its range refuses the frame (R4). -/
theorem policyOfFrame_none {f : Frame} (h : 1 < (frameByte f 1).toNat ∨ (frameByte f 2).toNat = 0
    ∨ 16 < (frameByte f 2).toNat ∨ 1 < (frameByte f 5).toNat ∨ 15 < (frameByte f 6).toNat
    ∨ ∃ i, 7 ≤ i ∧ i ≤ 10 ∧ 1 < (frameByte f i).toNat) : policyOfFrame f = none := by
  unfold policyOfFrame
  rcases h with h | h | h | h | h | ⟨i, h7, h10, h⟩
  · simp [commitModeOfByte_of_lt h]
  · have : dividerOfByte (frameByte f 2) = none := if_neg (by omega)
    simp [this]
  · have : dividerOfByte (frameByte f 2) = none := if_neg (by omega)
    simp [this]
  · simp [holdPolicyOfByte_of_lt h]
  · have : sourcesOfByte (frameByte f 6) = none := if_neg (by omega)
    simp [this]
  · have := flagOfByte_of_lt h
    interval_cases i <;> simp [this]

theorem policyFixed_iff {l : List Byte} {x : Window} :
    x.policyFixed { args := windowByte w :: l } ↔ x.state = .settling ∨ x.state = .flattening
      ∨ x.state = .live ∧ x.holdStatus ≠ .clear ∧ (l.getD 4 0 ≠ holdPolicyCode x.policy.holdPolicy
        ∨ l.getD 5 0 ≠ sourcesCode x.policy.sources) := by
  refine or_congr_right (or_congr_right (and_congr_right fun _ => and_congr_right fun _ => ?_))
  exact (Bool.or_eq_true _ _).to_iff.trans (or_congr decide_eq_true_iff decide_eq_true_iff)

theorem policyFixed_policyArgs {p : Policy} {x : Window} :
    x.policyFixed { args := policyArgs w p } ↔ x.state = .settling ∨ x.state = .flattening
      ∨ x.state = .live ∧ x.holdStatus ≠ .clear
        ∧ (p.holdPolicy ≠ x.policy.holdPolicy ∨ p.sources ≠ x.policy.sources) :=
  or_congr_right (or_congr_right (and_congr_right fun _ => and_congr_right fun _ =>
    holdFieldsDiffer_policyArgs w p x))

theorem exec_policyArgs {p : Policy} (hs : s.PortFree) (h1 : 1 ≤ p.divider) (h16 : p.divider ≤ 16)
    (ho : ¬(s.win w).policyFixed { args := policyArgs w p }) (e : s.storePolicy w p = t) :
    exec (.writePolicy { args := policyArgs w p }) s =
      .next { t.pump with mgmt := reported s (policyArgs w p) .done } := by
  subst e
  exact exec_writePolicy (l := (policyArgs w p).tail) hs rfl ho (policyOfFrame_policyArgs w h1 h16)

theorem not_policyFixed_clear {f : Frame} {x : Window} (hl : x.state = .live) (hc : x.holdStatus = .clear) :
    ¬x.policyFixed f := by
  rintro (h | h | h)
  · exact nomatch hl.symm.trans h
  · exact nomatch hl.symm.trans h
  · exact h.2.1 hc

/-- Settles O49. -/
theorem writePolicyReplacesThePolicy : Obligations.WritePolicyReplacesThePolicy := by
  refine ⟨fun s w p y src hs h1 h16 hy hsrc => ⟨fun h => ?_, fun hl hh hd => ?_, fun h => ?_,
    fun c hl hc hsome => ?_, fun hl hc hn hm ha => ?_⟩, fun s w l hs hlen => ⟨fun h => ?_,
    fun hns hnf hfields h => ?_⟩⟩
  · exact exec_writePolicy_fixed (l := (policyArgs w p).tail) hs rfl (h.imp_right .inl)
  · exact exec_writePolicy_fixed (l := (policyArgs w p).tail) hs rfl
      (policyFixed_policyArgs.mpr (.inr (.inr ⟨hl, hh, hd⟩)))
  · refine ⟨s.patched w y [], exec_policyArgs hs h1 h16 (fun hf => ?_) (storePolicy_quiet hy hsrc ?_),
      only_patched_nil s w y, windowBecomes_patched s w y []⟩
    · have fixed := policyFixed_policyArgs.mp hf
      rcases h with h | h | ⟨hl, h⟩
      · simp [h] at fixed
      · simp [h] at fixed
      · rcases h with ⟨-, hp, hsame⟩ | ⟨hc, -⟩
        · simp [hl, hp, hsame] at fixed
        · exact not_policyFixed_clear hl hc hf
    · rcases h with h | h | ⟨-, h⟩
      · exact .inl (by rw [h]; decide)
      · exact .inl (by rw [h]; decide)
      · exact .inr (h.imp_left And.left)
  · subst hsome
    exact ⟨_, exec_policyArgs hs h1 h16 (not_policyFixed_clear hl hc) (storePolicy_strikes hy hsrc hl hc),
      only_patched s w _ _, windowBecomes_patched s w _ _, rfl⟩
  · subst hn
    obtain ⟨x, only, win, enters, notices, drain⟩ := enterCommit_patched (s := s) (w := w) (y := y)
      (by rw [hy])
    exact ⟨_, x, exec_policyArgs hs h1 h16 (not_policyFixed_clear hl hc)
      (storePolicy_commits hy hsrc hl hc hm ha), only, win, enters, notices, drain⟩
  · exact exec_writePolicy_fixed hs hlen (policyFixed_iff.mpr h)
  · have ho : ¬(s.win w).policyFixed { args := windowByte w :: l } := by
      rw [policyFixed_iff]
      rintro (h | h | ⟨hl, hh, h⟩)
      · exact hns h
      · exact hnf h
      · exact h.elim (fun h => h (hfields hl hh).1) fun h => h (hfields hl hh).2
    have none : policyOfFrame { args := windowByte w :: l } = none := by
      refine policyOfFrame_none ?_
      refine h.imp_right (.imp_right (.imp_right (.imp_right (.imp_right ?_))))
      rintro ⟨b, hb, h⟩
      obtain ⟨i, hi, e⟩ := List.getElem_of_mem hb
      rw [List.length_drop] at hi
      have cell : frameByte { args := windowByte w :: l } (i + 7) = b := by
        rw [← e, List.getElem_drop]
        simp only [Nat.add_comm 6 i]
        exact List.getD_eq_getElem l 0 (by omega)
      exact ⟨i + 7, by omega, by omega, cell ▸ h⟩
    refine writeFrame_refused hs rfl (by simp [argumentBytes, hlen]) ?_
    rw [onWindow_windowByte, writePolicyAt_refused ho none]

end Sys2Proof.Machine

/-! ## WRITE DEVICE SETTINGS

The four settings of the part, and what a change of the polarities does at the windows whose holds count
a hold line (R138, R140, R152). -/

namespace Sys2Proof.Machine

variable {s t u : State} {w : WindowId} {x : Window} {o : Order}

/-! ### The frame -/

theorem polarityOfByte_polarityCode (p : Polarity) : polarityOfByte (polarityCode p) = some p := by
  cases p <;> rfl

theorem polarityOfByte_of_lt {b : Byte} (h : 1 < b.toNat) : polarityOfByte b = none := by
  rw [polarityOfByte, if_neg (fun e => by subst e; simp at h), if_neg (fun e => by subst e; simp at h)]

/-- The settings that a frame carries are those it is written from (R152). -/
theorem settingsOfFrame_settingsArgs {c : Settings} (h : c.tickDivisor ≠ 0) :
    settingsOfFrame { args := settingsArgs c } = some c := by
  simp only [settingsOfFrame, settingsArgs, frameByte, List.getD_cons_zero, List.getD_cons_succ,
    polarityOfByte_polarityCode, flagOfByte_flagCode, Option.bind_eq_bind, Option.bind_some, if_neg h]
  rfl

theorem settingsOfFrame_none {f : Frame} (h : 1 < (frameByte f 0).toNat ∨ 1 < (frameByte f 1).toNat
    ∨ 1 < (frameByte f 2).toNat ∨ frameByte f 3 = 0) : settingsOfFrame f = none := by
  unfold settingsOfFrame
  rcases h with h | h | h | h
  · simp [polarityOfByte_of_lt h]
  · simp [polarityOfByte_of_lt h]
  · simp [flagOfByte_of_lt h]
  · simp [h]

theorem storeSettings_lines (s : State) (c : Settings) : (s.storeSettings c).lines =
    if c.tickDivisor = s.settings.tickDivisor then s.lines else { s.lines with edgeCount := 0 } := by
  unfold State.storeSettings
  by_cases h : s.settings.tickDivisor = c.tickDivisor
  · rw [if_pos h, if_pos h.symm]; rfl
  · rw [if_neg h, if_neg (Ne.symm h)]; rfl

theorem storeSettings_settings (s : State) (c : Settings) : (s.storeSettings c).settings = c := by
  unfold State.storeSettings
  split <;> rfl

theorem only_storeSettings (s : State) (c : Settings) : Only [.settings, .lines] s (s.storeSettings c) := by
  intro p hp
  unfold State.storeSettings
  cases p with
  | settings | lines => exact absurd (by simp) hp
  | windows | lineMap | slots | table | hport | issueQueue | notices | mgmt | roles | inReset
  | pending => split <;> rfl

/-! ### A change of the polarities at a window -/

/-- A hold line that the window counts becomes asserted (R140). -/
def Rises (was is : HoldLine → Bool) (h : HoldLine) : Bool := !was h && is h

/-- What a change of the polarities does at a window, from what was asserted there to what is (R140). -/
def polarityChange (was is : HoldLine → Bool) (w : WindowId) (x : Window) : WindowChange :=
  if Rises was is .hold0 then assertChange w x .hold0
  else if Rises was is .hold1 then assertChange w x .hold1
  else if (was .hold0 && !is .hold0) || (was .hold1 && !is .hold1) then
    releaseChange x (is .hold0 || is .hold1 || x.manualHold)
  else quiet x

theorem rises_iff {was is : HoldLine → Bool} {h : HoldLine} :
    Rises was is h = true ↔ was h = false ∧ is h = true := by
  simp [Rises]

theorem assertChange_flips (w : WindowId) (x : Window) (c : HoldSource) :
    (assertChange w x c).flips = false ∧ (assertChange w x c).pulse = false := by
  unfold assertChange
  split <;> exact ⟨rfl, rfl⟩

theorem assertChange_running (w : WindowId) {x : Window} (c : HoldSource) (h : x.Running) :
    assertChange w x c = { quiet x.struck with notices := strikeNotices x w c } :=
  if_pos ((isLiveOrSettling_iff x).mpr h)

theorem polarityChange_quiet (was is : HoldLine → Bool) (w : WindowId) (x : Window) :
    (polarityChange was is w x).flips = false ∧ (polarityChange was is w x).pulse = false := by
  unfold polarityChange
  split
  · exact assertChange_flips w x _
  · split
    · exact assertChange_flips w x _
    · split <;> exact ⟨rfl, rfl⟩

theorem polarityChange_notices (was is : HoldLine → Bool) (w : WindowId) (x : Window) :
    (polarityChange was is w x).notices =
      if !x.state.isLiveOrSettling then []
      else if Rises was is .hold0 then strikeNotices x w .hold0
      else if Rises was is .hold1 then strikeNotices x w .hold1
      else [] := by
  unfold polarityChange assertChange releaseChange
  cases x.state.isLiveOrSettling <;> cases Rises was is .hold0 <;> cases Rises was is .hold1 <;>
    simp [quiet]
  all_goals split
  all_goals rfl

theorem polarityChange_idle {was is : HoldLine → Bool}
    (h : ¬x.Running ∨ ∀ h, is h = was h) : (polarityChange was is w x).record = x := by
  have still : x.state.isLiveOrSettling = false ∨ ∀ h, is h = was h :=
    h.imp_left fun hn => Bool.eq_false_iff.mpr fun e => hn ((isLiveOrSettling_iff x).mp e)
  unfold polarityChange assertChange releaseChange Rises
  rcases still with still | same
  · rw [still]
    split
    · rfl
    · split
      · rfl
      · split <;> rfl
  · simp [same, quiet]

theorem polarityChange_strikes0 {was is : HoldLine → Bool} (hr : x.Running)
    (h : was .hold0 = false ∧ is .hold0 = true) : (polarityChange was is w x).record = x.struck := by
  rw [polarityChange, if_pos (rises_iff.mpr h), assertChange_running w _ hr]
  rfl

theorem polarityChange_strikes1 {was is : HoldLine → Bool} (hr : x.Running)
    (h0 : ¬(was .hold0 = false ∧ is .hold0 = true)) (h : was .hold1 = false ∧ is .hold1 = true) :
    (polarityChange was is w x).record = x.struck := by
  rw [polarityChange, if_neg (rises_iff.not.mpr h0), if_pos (rises_iff.mpr h), assertChange_running w _ hr]
  rfl

theorem polarityChange_releases {was is : HoldLine → Bool} (hr : x.Running)
    (hn : ∀ h, ¬(was h = false ∧ is h = true)) (h : ∃ h, was h = true ∧ is h = false) :
    (polarityChange was is w x).record = x.letGo (is .hold0 || is .hold1 || x.manualHold) := by
  have falls : ((was .hold0 && !is .hold0) || (was .hold1 && !is .hold1)) = true := by
    obtain ⟨h, e⟩ := h
    cases h <;> simp [e]
  rw [polarityChange, if_neg (rises_iff.not.mpr (hn _)), if_neg (rises_iff.not.mpr (hn _)), if_pos falls,
    releaseChange, if_pos ((isLiveOrSettling_iff x).mpr hr)]
  rfl

/-! ### The command -/

/-- What the windows see asserted on the hold lines under given settings (R96). -/
def seenAt (s : State) (c : Settings) (w : WindowId) : HoldLine → Bool :=
  lineAsserted s.lines.levels c (s.win w)

/-- The windows take the changed polarities in turn (R140). -/
theorem storeSettings_sweep (s : State) (c : Settings) (o : Order) :
    Sweep (s.storeSettings c)
      ((s.storeSettings c).forWindows (windowsIn o) fun w t => t.polarityAt s.settings w) (windowsIn o)
      fun w => polarityChange (seenAt s s.settings w) (seenAt s c w) w (s.win w) := by
  have levels : (s.storeSettings c).lines.levels = s.lines.levels := by
    rw [storeSettings_lines]
    split <;> rfl
  obtain ⟨d, hd, sweep⟩ := forWindows_sweep (levels := s.lines.levels) (settings := c)
    (R := fun w x d => d = polarityChange (lineAsserted s.lines.levels s.settings x)
      (lineAsserted s.lines.levels c x) w x)
    (f := fun w t => t.polarityAt s.settings w)
    (fun w t hl hc => ⟨_, polarityAt_eq t s.settings w, by rw [hl, hc]; rfl⟩)
    (windowsIn o) (nodup_windowsIn o) (s.storeSettings c) levels (storeSettings_settings s c)
  refine sweep.congr fun w hw => ?_
  have records : (s.storeSettings c).win w = s.win w :=
    win_eq_of_windows (only_storeSettings s c .windows (by decide)) w
  rw [hd w hw, records]
  rfl

/-- Settles O50. -/
theorem deviceSettingsTakeEffectAtOnce : Obligations.DeviceSettingsTakeEffectAtOnce := by
  refine fun s o hs hch => ⟨fun c hc => ?_, fun l hl h => ?_⟩
  · have sweep := storeSettings_sweep s c o
    have stored := only_storeSettings s c
    have quiet := sweep.quietly (fun w _ => (polarityChange_quiet _ _ w _).1)
      fun w _ => (polarityChange_quiet _ _ w _).2
    generalize ht : (s.storeSettings c).forWindows (windowsIn o)
      (fun w t => t.polarityAt s.settings w) = t at sweep quiet
    have settings : t.settings = c := Eq.trans (quiet .settings (by decide)) (storeSettings_settings s c)
    have lines : t.lines = (s.storeSettings c).lines := quiet .lines (by decide)
    have notices : t.notices = _ := sweep.notices
    have hport : t.hport = s.hport := Eq.trans (quiet .hport (by decide)) (stored .hport (by decide))
    have reset : t.inReset = false :=
      Eq.trans (quiet .inReset (by decide)) (Eq.trans (stored .inReset (by decide)) hs.1)
    refine ⟨t, ?_, (stored.mono (by simp)).trans (quiet.mono (by simp)), settings,
      lines.trans (storeSettings_lines s c), ?_, ?_,
      fun w was is hwas his => ?_⟩
    · have answer := writeFrame_accepted (t := t) (c := .writeDeviceSettings) (l := settingsArgs c)
        (body := fun f => writeDeviceSettingsBody f o) hs rfl rfl
        (by rw [writeDeviceSettingsBody, settingsOfFrame_settingsArgs hc, ← ht])
      rw [pump_of_nil (by rw [hport]; exact hch)] at answer
      exact answer
    · simp [State.noticeAsserted, State.noticePending, reset, settings, and_comm]
    · rw [notices]
      refine congrArg₂ NoticeQueue.offerAll (stored .notices (by decide)) ?_
      exact List.flatMap_congr fun w _ => polarityChange_notices _ _ w _
    · obtain rfl : was = seenAt s s.settings w := funext hwas
      obtain rfl : is = seenAt s c w := funext his
      have record := sweep.win w (mem_windowsIn o w)
      rw [record]
      exact ⟨polarityChange_idle,  fun hr h0 h1 => levelStrikes_iff.mpr ⟨polarityChange_strikes0 hr ⟨h0, h1⟩, rfl⟩,
        fun hr hn h0 h1 => levelStrikes_iff.mpr ⟨polarityChange_strikes1 hr hn ⟨h0, h1⟩, rfl⟩,
        fun hr hn h => levelReleases_iff.mpr (polarityChange_releases hr hn h)⟩
  · refine writeFrame_refused hs rfl hl ?_
    rw [writeDeviceSettingsBody, settingsOfFrame_none (f := { args := l }) h]

end Sys2Proof.Machine

/-! ## The commands that move a window through its life

LOAD with its checks, ARM, PUBLISH, UNPUBLISH, DISCARD and RETIRE (R9 to R14, R73, R74, R83, R113). -/

namespace Sys2Proof.Machine

variable {s t u : State} {w : WindowId} {x : Window} {o : Order}

/-! ### Frames that name one window -/

/-- A command of one window byte, by what its body does there. -/
theorem windowFrame_reports {c : CommandName} {r : ResultCode} {f : WindowId → State → ResultCode × State}
    (hs : s.PortFree) (hc : isReadCommand c = false) (hb : argumentBytes c = 1) (h : f w s = (r, t)) :
    (.next (s.whenRunning fun s => s.writeFrame c { args := [windowByte w] } fun g => onWindow g f) : Answer)
      = .next { t with mgmt := reported s [windowByte w] r } :=
  writeFrame_reports hs hc hb.symm ((onWindow_windowByte w [] 0 f s).trans h)

/-! ### LOAD -/

/-- A check of LOAD that fails gives its result, and changes nothing (R9 to R11). -/
theorem loadAt_refused {r : ResultCode} (hr : r ≠ .done) (h : LoadGives s w r) :
    loadAt w s = refuse r s := by
  unfold loadAt
  cases r with
  | refusedState => exact if_pos h
  | refusedBusy =>
    obtain ⟨ho, hb⟩ := h
    rw [if_neg (not_not_intro ho), if_pos ((loadBusy_iff s w).mpr hb)]
  | refusedRange =>
    obtain ⟨ho, hb, hg⟩ := h
    rw [if_neg (not_not_intro ho), if_neg (hb ∘ (loadBusy_iff s w).mp), if_pos ((outOfRange_iff _).mpr hg)]
  | refusedOverlap =>
    obtain ⟨ho, hb, hg, hv⟩ := h
    rw [if_neg (not_not_intro ho), if_neg (hb ∘ (loadBusy_iff s w).mp),
      if_neg fun e => (outOfRange_iff _).mp e hg, if_pos ((loadOverlap_iff s w).mpr hv)]
  | refusedMap =>
    obtain ⟨ho, hb, hg, hv, hm⟩ := h
    rw [if_neg (not_not_intro ho), if_neg (hb ∘ (loadBusy_iff s w).mp),
      if_neg fun e => (outOfRange_iff _).mp e hg, if_neg (hv ∘ (loadOverlap_iff s w).mp),
      if_pos ((loadMapFault_iff s w hg).mpr hm)]
  | done => exact absurd rfl hr
  | badCommand | badLength => exact h.elim

/-- A LOAD that passes its checks (R13). -/
theorem loadAt_passes (h : LoadGives s w .done) : loadAt w s = accepted (s.takeLoad w) := by
  obtain ⟨ho, hb, hg, hv, hm⟩ := h
  rw [loadAt, if_neg (not_not_intro ho), if_neg (hb ∘ (loadBusy_iff s w).mp),
    if_neg fun e => (outOfRange_iff _).mp e hg, if_neg (hv ∘ (loadOverlap_iff s w).mp),
    if_neg (hm ∘ (loadMapFault_iff s w hg).mp)]

/-- A segment and its window's record replaced. -/
theorem only_segment_modWin (s : State) (w : WindowId) (f : LineEntry → LineEntry) (g : Window → Window) :
    Only [.windows, .lineMap] s ((s.mapSegment w f).modWin w g) :=
  ((only_mapSegment s w f).mono (by simp)).trans ((only_modWin _ w g).mono (by simp))

theorem segmentBecomes_modWin {f : LineEntry → LineEntry} {g : Window → Window} (hm : s.lineMap.wf = true)
    (hf : f LineEntry.reset = LineEntry.reset) :
    SegmentBecomes s ((s.mapSegment w f).modWin w g) w f := (segmentBecomes_mapSegment hm w hf).of_lineMap rfl

/-- Settles O51. -/
theorem loadChecksAndInitialises : Obligations.LoadChecksAndInitialises := by
  refine fun s w hs => ⟨fun r hr h => ?_, fun hm h => ?_⟩
  · exact windowFrame_reports hs rfl rfl (loadAt_refused hr h)
  · exact ⟨s.takeLoad w, windowFrame_reports hs rfl rfl (loadAt_passes h), only_segment_modWin s w _ _,
      segmentBecomes_modWin hm.1 rfl, windowBecomes_takeLoad s w⟩

/-! ### ARM -/

/-- Settles O52. -/
theorem armEntersLive : Obligations.ArmEntersLive := by
  refine fun s w hs => ⟨fun h => windowFrame_reports hs rfl rfl (if_neg h), fun h => ?_⟩
  obtain ⟨y, hy⟩ : ∃ y, y = { s.win w with state := .live, dividerCount := 0 } := ⟨_, rfl⟩
  have armed : s.takeArm w = (s.patched w y []).evaluateHold w := by rw [hy]; rfl
  have source : (s.modWin w fun _ => y).firstLevelSource w = s.firstLevelSource w := by
    unfold State.firstLevelSource lineAsserted
    rw [win_modWin_self, hy]
    rfl
  have answer := windowFrame_reports (f := armAt) (c := .arm) hs rfl rfl (if_pos h)
  rw [armed] at answer
  cases hc : s.firstLevelSource w with
  | none =>
    rw [evaluateHold_of_none (s := s.patched w y []) (source.trans hc)] at answer
    exact ⟨s.patched w y [], answer, (only_patched_nil s w y).mono (by simp),
      fun _ => ⟨rfl, hy ▸ windowBecomes_patched s w y []⟩, nofun⟩
  | some c =>
    rw [evaluateHold_patched (by rw [hy]) (source.trans hc).symm] at answer
    refine ⟨_, answer, only_patched s w _ _, nofun, fun d hd => ?_⟩
    obtain rfl := Option.some.inj hd
    exact ⟨rfl, hy ▸ windowBecomes_patched s w { y with holdStatus := .active } _⟩

/-! ### PUBLISH and UNPUBLISH -/

theorem maskPasses_iff {mask : Byte} : s.maskPasses mask = true ↔
    ∀ w : WindowId, mask.getLsbD w.val = true → (s.win w).Running := by
  refine ⟨fun h w hw => running_of_maskPasses h w hw, fun h => List.all_eq_true.mpr fun w _ => ?_⟩
  rw [Bool.or_eq_true, Bool.not_eq_true', isLiveOrSettling_iff]
  cases hw : maskNames mask w
  · exact .inl rfl
  · exact .inr (h w hw)

/-- A window named in the mask commits at once (R73, R81). -/
def Window.CommitsOnceArmed (x : Window) : Prop :=
  x.state = .live ∧ x.policy.commitMode = .prompt ∧ x.holdStatus = .clear

/-- What PUBLISH does at a window of its mask (R73, R81). -/
def publishChange (w : WindowId) (x : Window) : WindowChange :=
  if ({ x with armed := true } : Window).promptReady then commitChange w { x with armed := true }
  else quiet { x with armed := true }

/-- The prompt rule right after a window's record is replaced (R81). -/
theorem promptTest_patched (hg : x.geometry = (s.win w).geometry) :
    (s.patched w x []).promptTest w =
      s.changed w (if x.promptReady then commitChange w x else quiet x) := by
  rw [promptTest_eq, patched_win_self, patched_changed s w [] _ hg]
  rfl

theorem armed_promptTest_eq (w : WindowId) (t : State) :
    (t.armed w).promptTest w = t.changed w (publishChange w (t.win w)) :=
  promptTest_patched (x := { t.win w with armed := true }) rfl

theorem publishChange_commits (h : x.CommitsOnceArmed) :
    publishChange w x = commitChange w { x with armed := true } := by
  obtain ⟨hl, hm, hc⟩ := h
  exact if_pos ((promptReady_iff { x with armed := true }).mpr ⟨hl, hm, rfl, hc⟩)

theorem publishChange_arms (h : ¬x.CommitsOnceArmed) :
    publishChange w x = quiet { x with armed := true } := by
  refine if_neg fun e => h ?_
  obtain ⟨hl, hm, -, hc⟩ := (promptReady_iff _).mp e
  exact ⟨hl, hm, hc⟩

theorem publishChange_flips : (publishChange w x).flips = true ↔ x.CommitsOnceArmed ∧ x.Drained := by
  by_cases h : x.CommitsOnceArmed
  · rw [publishChange_commits h, and_iff_right h]
    exact drained_iff x
  · rw [publishChange_arms h]
    exact ⟨nofun, fun hp => absurd hp.1 h⟩

theorem publishChange_pulse : (publishChange w x).pulse = true ↔
    x.CommitsOnceArmed ∧ x.Drained ∧ x.policy.commitOutput = true := by
  by_cases h : x.CommitsOnceArmed
  · rw [publishChange_commits h, and_iff_right h, ← drained_iff x, ← Bool.and_eq_true]
    rfl
  · rw [publishChange_arms h]
    exact ⟨nofun, fun hp => absurd hp.1 h⟩

/-- The windows of the mask take the command in turn (R73). -/
theorem publish_sweep (s : State) (mask : Byte) (o : Order) :
    Sweep s ((s.setArmed mask true).forWindows (maskWindows mask o) fun w t => t.promptTest w)
      (maskWindows mask o) fun w => publishChange w (s.win w) := by
  have nodup : (maskWindows mask o).Nodup := (nodup_windowsIn o).filter _
  rw [setArmed_eq s mask o, forWindows_armed_promptTest nodup]
  exact sweep_forWindows armed_promptTest_eq nodup s

theorem mem_maskWindows {mask : Byte} : w ∈ maskWindows mask o ↔ mask.getLsbD w.val = true := by
  rw [maskWindows, List.mem_filter, and_iff_right (mem_windowsIn o w), maskNames]

theorem flatMap_filter_if {α β : Type} (p : α → Bool) (f : α → List β) :
    ∀ l : List α, (l.filter p).flatMap f = l.flatMap fun a => if p a = true then f a else []
  | [] => rfl
  | a :: l => by
    rw [List.flatMap_cons, ← flatMap_filter_if p f l]
    cases h : p a <;> simp [h]

theorem exec_publish {mask : Byte} (hs : s.PortFree) (h : s.maskPasses mask = true) :
    exec (.publish { args := [mask] } o) s =
      .next { ((s.setArmed mask true).forWindows (maskWindows mask o) fun w t => t.promptTest w).pump with
        mgmt := reported s [mask] .done } :=
  writeFrame_accepted (c := .publish) (body := fun f => publishBody f o) hs rfl rfl (if_pos h)

/-- UNPUBLISH clears the flags of its mask, and does nothing else (R74). -/
theorem setArmed_false (s : State) (mask : Byte) : Only [.windows] s (s.setArmed mask false)
    ∧ ∀ w : WindowId, (s.setArmed mask false).win w =
      { s.win w with armed := if mask.getLsbD w.val then false else (s.win w).armed } := by
  have sweep : Sweep s (s.setArmed mask false) (allWindows.filter fun w => maskNames mask w)
      fun w => quiet { s.win w with armed := false } :=
    sweep_forWindows (c := fun _ x => quiet { x with armed := false })
      (fun _ _ => rfl) (List.Nodup.filter _ (by decide)) s
  refine ⟨sweep.records fun w _ => ⟨_, rfl⟩, fun w => ?_⟩
  cases hw : mask.getLsbD w.val with
  | true => exact sweep.win w (List.mem_filter.mpr ⟨mem_allWindows w, hw⟩)
  | false =>
    refine sweep.others w fun h => ?_
    exact nomatch hw.symm.trans (List.mem_filter.mp h).2

/-- Settles O53. -/
theorem publishAndUnpublishSetTheFlags : Obligations.PublishAndUnpublishSetTheFlags := by
  refine fun s mask o hs => ⟨fun ⟨w, hw, hr⟩ => ?_, fun h => ⟨?_, ?_⟩⟩
  · have fails : ¬s.maskPasses mask = true := fun h => hr (maskPasses_iff.mp h w hw)
    exact ⟨writeFrame_refused (c := .publish) (body := fun f => publishBody f o) hs rfl rfl (if_neg fails),
      writeFrame_refused (c := .unpublish) (body := unpublishBody) hs rfl rfl (if_neg fails)⟩
  · obtain ⟨only, win⟩ := setArmed_false s mask
    exact ⟨_, writeFrame_accepted (c := .unpublish) (body := unpublishBody) hs rfl rfl
      (if_pos (maskPasses_iff.mpr h)), only, win⟩
  · have sweep := publish_sweep s mask o
    have answer := exec_publish (o := o) hs (maskPasses_iff.mpr h)
    generalize (s.setArmed mask true).forWindows (maskWindows mask o) (fun w t => t.promptTest w) = t
      at sweep answer
    refine ⟨t, answer, sweep.only, fun hn => ?_, fun hm => ?_, ?_, fun w => ⟨fun hw => ?_, fun hw hn => ?_,
      fun hw hl hm hc => ?_⟩⟩
    · refine sweep.records fun w hw => ⟨_, publishChange_arms fun ⟨hl, hm, hc⟩ => ?_⟩
      rcases hn w (mem_maskWindows.mp hw) hl with hb | hb
      · exact nomatch hm.symm.trans hb
      · exact hb hc
    · exact sweep.commitsDrain (x := s.win)
        (enters := fun w => mask.getLsbD w.val = true ∧ (s.win w).CommitsOnceArmed) hm.1 (fun _ => rfl)
        (fun w => (and_congr mem_maskWindows publishChange_flips).trans and_assoc.symm)
        (fun w => (and_congr mem_maskWindows publishChange_pulse).trans and_assoc.symm)
    · have notices : t.notices = _ := sweep.notices
      rw [notices, maskWindows, flatMap_filter_if]
      refine congrArg (NoticeQueue.offerAll s.notices) (List.flatMap_congr fun w _ => ?_)
      by_cases hw : mask.getLsbD w.val = true
      · by_cases hx : (s.win w).CommitsOnceArmed
        · rw [if_pos (c := maskNames mask w = true) hw, if_pos ⟨hw, hx⟩, publishChange_commits hx]
          rfl
        · rw [if_pos (c := maskNames mask w = true) hw, if_neg fun e => hx e.2, publishChange_arms hx]
          rfl
      · rw [if_neg (c := maskNames mask w = true) hw, if_neg fun e => hw e.1]
    · exact sweep.others w fun e => nomatch hw.symm.trans (mem_maskWindows.mp e)
    · have arms : ¬(s.win w).CommitsOnceArmed := fun ⟨hl, hm, hc⟩ => by
        rcases hn with hn | hn | hn
        · exact nomatch hl.symm.trans hn
        · exact nomatch hm.symm.trans hn
        · exact hn hc
      exact (sweep.win w (mem_maskWindows.mpr hw)).trans
        (congrArg WindowChange.record (publishChange_arms arms))
    · rw [sweep.win w (mem_maskWindows.mpr hw), publishChange_commits ⟨hl, hm, hc⟩]
      exact entersCommit_iff.mpr rfl

/-! ### DISCARD -/

theorem enterDiscard_waits (h : ¬(s.win w).Drained) :
    s.enterDiscard w = s.patched w ((s.win w).afterEntry .discard) [] :=
  settleTest_of_waiting (s := s.patched w ((s.win w).afterEntry .discard) [])
    fun _ => by rw [patched_win_self]; exact h

theorem enterDiscard_clears (h : (s.win w).Drained) (hp : ¬(s.win w).Prompted) :
    s.enterDiscard w = s.settled w LineEntry.unpended id (s.win w).afterClear
      [.discardDone w (s.win w).pendingCount] := by
  obtain ⟨y, hy⟩ : ∃ y, y = (s.win w).afterEntry .discard := ⟨_, rfl⟩
  have record := patched_win_self s w y []
  have cleared : s.enterDiscard w = (s.patched w y []).clearAt w := by
    have entered : s.enterDiscard w = (s.patched w y []).settleTest w := by rw [hy]; rfl
    rw [entered, settleTest_of_discarding (by rw [record, hy]; exact ⟨rfl, rfl⟩) (by rw [record, hy]; exact h)]
  rw [cleared, State.clearAt, takeClear_eq, record, settled_patched s w y _ _ _ _ (by rw [hy]; rfl), hy]
  refine promptTest_of_not_ready fun hr => hp ?_
  rw [settled_win_self] at hr
  exact hr.2

/-- Settles O54. -/
theorem discardSettlesTheWindow : Obligations.DiscardSettlesTheWindow := by
  refine fun s w hs => ⟨fun h => windowFrame_reports hs rfl rfl (if_neg h), fun hl hd => ?_,
    fun hl hd hm hp => ?_⟩
  · have answer := windowFrame_reports (f := discardAt) (c := .discard) hs rfl rfl (if_pos hl)
    rw [enterDiscard_waits hd] at answer
    exact ⟨_, answer, only_patched_nil s w _, windowBecomes_patched s w _ _⟩
  · have answer := windowFrame_reports (f := discardAt) (c := .discard) hs rfl rfl (if_pos hl)
    rw [enterDiscard_clears hd hp] at answer
    have only := only_settled s w LineEntry.unpended id (s.win w).afterClear
      [.discardDone w (s.win w).pendingCount]
    refine ⟨_, answer, ?_, windowBecomes_settled s w _ _ _ _, segmentBecomes_settled hm.1 w rfl _ _ _, rfl⟩
    intro p hp
    by_cases hl : p = .lines
    · subst hl; rfl
    · exact only p (by simp_all)

/-! ### RETIRE -/

theorem flattenTest_of_drained (hf : (s.win w).state = .flattening) (hr : (s.win w).requests = 0)
    (hn : (s.win w).fills = 0) (hk : (s.win w).copyRequest = false) : s.flattenTest w = s.walkFrom w 0 :=
  if_pos (by simp [Window.flattenDrained, hf, hr, hn, hk])

theorem exec_retire (hs : s.PortFree) (hl : (s.win w).state = .live) :
    exec (.retire { args := [windowByte w] } o) s =
      .next { ((s.beginRetire w).flattenTest w).arbitrate o with
        mgmt := reported s [windowByte w] .done } :=
  windowFrame_reports (f := retireAt o) (c := .retire) hs rfl rfl (if_pos hl)

/-- Settles O55. -/
theorem retireBeginsFlattening : Obligations.RetireBeginsFlattening := by
  refine fun s w o hs => ⟨fun h => windowFrame_reports hs rfl rfl (if_neg h), fun hl hm hk => ?_⟩
  have window : WindowBecomes s (s.beginRetire w) w { (s.win w).holdCleared with
      state := .flattening, pendingCount := 0, armed := false, cursor := some 0, drainTimer := none } :=
    .modWin (s.mapSegment w LineEntry.unpended) w _
  have map : (s.beginRetire w).lineMap.wf = true := LineMap.wf_mapRange hm.1 _ _ _
  have record := window.1
  have kept : NoKeptRequest s → NoKeptRequest (s.beginRetire w) := fun h v => by
    by_cases hv : v = w
    · rw [hv, record]; exact hk
    · rw [window.2 v hv]; exact h v
  have channel : (s.beginRetire w).hport = s.hport := rfl
  have answer := fun o => exec_retire (o := o) hs hl
  refine ⟨s.beginRetire w, only_segment_modWin s w _ _, window, segmentBecomes_modWin hm.1 rfl,
    fun h => ?_, fun hr hf => ?_⟩
  · have waits : (s.beginRetire w).flattenTest w = s.beginRetire w :=
      flattenTest_of_waiting fun _ => by rw [record]; exact h.imp_right .inl
    simp only [waits] at answer
    exact ⟨fun h => by rw [answer, arbitrate_of_none (kept h)], _, keptThenHead_arbitrate _, answer []⟩
  · have walks : (s.beginRetire w).flattenTest w = (s.beginRetire w).walkFrom w 0 :=
      flattenTest_of_drained (by rw [record]) (by rw [record]; exact hr) (by rw [record]; exact hf)
        (by rw [record]; exact hk)
    simp only [walks] at answer
    refine ⟨fun h => ?_, _, _, walkStops_walkFrom map w 0, keptThenHead_arbitrate _, answer []⟩
    obtain ⟨t, walk, empty, any⟩ := walksFrom_arbitrate 0 map (w := w) fun v _ => kept h v
    exact ⟨t, walk, by rw [answer, empty], fun hch => by rw [answer, any (by rw [channel]; exact hch)]⟩

end Sys2Proof.Machine

/-! ## The hold commands

SET HOLD, CLEAR HOLD and FORCE FALLBACK: their checks, and what they do to the hold (R98, R100, R110). -/

namespace Sys2Proof.Machine

variable {s t : State} {w : WindowId} {x : Window}

/-! ### Frames of a window and one more byte -/

/-- A command of a window byte and another, by what its body does there. -/
theorem flagFrame_reports {c : CommandName} {r : ResultCode} {b : Byte}
    {f : Frame → WindowId → State → ResultCode × State}
    (hs : s.PortFree) (hc : isReadCommand c = false) (hb : argumentBytes c = 2)
    (h : f { args := [windowByte w, b] } w s = (r, t)) :
    (.next (s.whenRunning fun s => s.writeFrame c { args := [windowByte w, b] } fun g => onWindow g (f g)) :
      Answer) = .next { t with mgmt := reported s [windowByte w, b] r } :=
  writeFrame_reports hs hc hb.symm ((onWindow_windowByte w [b] 0 (f _) s).trans h)

/-- A byte of at most 1 is a flag. -/
theorem flagOfByte_of_le {b : Byte} (h : b.toNat ≤ 1) : ∃ on, flagOfByte b = some on := by
  by_cases h0 : b = 0
  · exact ⟨false, if_pos h0⟩
  · have h1 : b = 1 := by bv_omega
    exact ⟨true, by rw [h1]; rfl⟩

theorem setHoldAt_of_flag {v b : Byte} {on : Bool} (hf : flagOfByte b = some on) :
    setHoldAt { args := [v, b] } w s = if (s.win w).state = .off ∨ (s.win w).state = .flattening then refuse .refusedState s
      else accepted (s.setManualHold w on) := by
  unfold setHoldAt
  rw [show frameByte { args := [v, b] } 1 = b from rfl, hf]

theorem setHoldAt_of_lt {v b : Byte} (h : 1 < b.toNat) :
    setHoldAt { args := [v, b] } w s = refuse .refusedRange s := by
  unfold setHoldAt
  rw [show frameByte { args := [v, b] } 1 = b from rfl, flagOfByte_of_lt h]

theorem forceFallbackAt_of_flag {v b : Byte} {on : Bool} (hf : flagOfByte b = some on) :
    forceFallbackAt { args := [v, b] } w s =
      if (s.win w).state.isLiveOrSettling then
        if (s.win w).geometry.fallback.isSome then
          accepted (s.modWin w fun x => { x with forcedFallback := on })
        else refuse .refusedRange s
      else refuse .refusedState s := by
  unfold forceFallbackAt
  rw [show frameByte { args := [v, b] } 1 = b from rfl, hf]

theorem forceFallbackAt_of_lt {v b : Byte} (h : 1 < b.toNat) :
    forceFallbackAt { args := [v, b] } w s = refuse .refusedRange s := by
  unfold forceFallbackAt
  rw [show frameByte { args := [v, b] } 1 = b from rfl, flagOfByte_of_lt h]

/-! ### Manual hold -/

/-- Where holds are not evaluated manual hold is only stored (R98). -/
theorem setManualHold_stored {on : Bool} (h : ¬(s.win w).Running) :
    s.setManualHold w on = s.patched w { s.win w with manualHold := on } [] := by
  unfold State.setManualHold
  split
  · next same =>
    subst same
    exact (patched_self s w).symm
  · have stored : ¬((s.modWin w fun x => { x with manualHold := on }).win w).Running := by
      rw [win_modWin_self]
      exact h
    split
    · exact levelAsserts_of_not_running _ w .manual stored
    · exact levelReleases_of_not_running _ w stored

/-- Manual hold set in LIVE or SETTLING is an assertion of its source (R98, R99). -/
theorem setManualHold_asserts (hr : (s.win w).Running) (h : (s.win w).manualHold = false) :
    ∃ x l, LevelStrikes { s.win w with manualHold := true } x w .manual l
      ∧ s.setManualHold w true = s.patched w x l := by
  obtain ⟨y, hy⟩ : ∃ y, y = { s.win w with manualHold := true } := ⟨_, rfl⟩
  have changed : s.setManualHold w true = (s.patched w y []).levelAsserts w .manual := by
    rw [hy]
    exact if_neg (by rw [h]; decide)
  obtain ⟨x, l, strikes, e⟩ := levelAsserts_eq (s.patched w y []) w .manual
    (by rw [patched_win_self, hy]; exact hr)
  rw [patched_win_self, hy] at strikes
  exact ⟨x, l, strikes, by rw [changed, e, patched_patched]; rfl⟩

/-- Manual hold removed in LIVE or SETTLING is a release of its source (R98, R100). -/
theorem setManualHold_releases (hr : (s.win w).Running) (h : (s.win w).manualHold = true) :
    ∃ x, LevelReleases { s.win w with manualHold := false } x ((s.patched w x []).levelAsserted w)
      ∧ s.setManualHold w false = s.patched w x [] := by
  obtain ⟨y, hy⟩ : ∃ y, y = { s.win w with manualHold := false } := ⟨_, rfl⟩
  have changed : s.setManualHold w false = (s.patched w y []).levelReleases w := by
    rw [hy]
    exact if_neg (by rw [h]; decide)
  obtain ⟨x, releases, e⟩ := levelReleases_eq (s.patched w y []) w (by rw [patched_win_self, hy]; exact hr)
  rw [patched_win_self] at releases
  have left : (s.patched w x []).levelAsserted w = (s.patched w y []).levelAsserted w := by
    show assertedAt s.lines.levels s.settings ((s.patched w x []).win w) =
      assertedAt s.lines.levels s.settings ((s.patched w y []).win w)
    rw [patched_win_self, patched_win_self, levelReleases_iff.mp releases, assertedAt_letGo]
  rw [← left, hy] at releases
  exact ⟨x, releases, by rw [changed, e, patched_patched]; rfl⟩

/-- The acknowledgement of a hold (R100). -/
theorem acknowledgeHold_eq (s : State) (w : WindowId) : s.acknowledgeHold w =
    s.patched w (if (s.win w).holdStatus = .active ∧ (s.win w).holdAck = false then
      { s.win w with holdAck := true, holdStatus := if s.levelAsserted w then .active else .releasing }
      else s.win w) [] := by
  unfold State.acknowledgeHold
  by_cases h : (s.win w).holdStatus = .active ∧ (s.win w).holdAck = false
  · rw [if_pos h, if_pos ⟨h.1, by rw [h.2]; rfl⟩]
    rfl
  · rw [if_neg h, if_neg fun e => h ⟨e.1, by simpa using e.2⟩, patched_self]

/-- Settles O58. -/
theorem setHoldAndClearHoldActOnTheHold : Obligations.SetHoldAndClearHoldActOnTheHold := by
  intro s w hs
  have setHold {on : Bool} {b : Byte} (hb : flagOfByte b = some on) {t : State}
      (hn : ¬((s.win w).state = .off ∨ (s.win w).state = .flattening)) (e : s.setManualHold w on = t) :
      exec (.setHold { args := [windowByte w, b] }) s =
        .next { t.pump with mgmt := reported s [windowByte w, b] .done } := by
    refine flagFrame_reports hs rfl rfl ((setHoldAt_of_flag hb).trans ((if_neg hn).trans ?_))
    rw [e]
    rfl
  have inside (hr : (s.win w).Running) : ¬((s.win w).state = .off ∨ (s.win w).state = .flattening) := by
    rcases hr with h | h <;> simp [h]
  refine ⟨fun hl on => ?_, fun hr on h => ?_, fun hr h => ?_, fun hr h => ?_, fun hr hp => ?_⟩
  · have idle : ¬(s.win w).Running := by simp [Window.Running, hl]
    exact ⟨_, setHold (flagOfByte_flagCode on) (by simp [hl]) (setManualHold_stored idle),
      only_patched_nil s w _, windowBecomes_patched s w _ _⟩
  · exact setHold (flagOfByte_flagCode on) (inside hr) (if_pos h)
  · obtain ⟨x, l, strikes, e⟩ := setManualHold_asserts hr h
    exact ⟨_, x, l, setHold rfl (inside hr) e, only_patched s w x l, windowBecomes_patched s w x l, strikes,
      rfl⟩
  · obtain ⟨x, releases, e⟩ := setManualHold_releases hr h
    exact ⟨_, x, setHold rfl (inside hr) e, only_patched_nil s w x, windowBecomes_patched s w x [], releases⟩
  · have answer := windowFrame_reports (w := w) (f := clearHoldAt) (c := .clearHold) hs rfl rfl
      (if_pos ⟨(isLiveOrSettling_iff _).mpr hr, hp⟩)
    rw [acknowledgeHold_eq] at answer
    exact ⟨_, answer, only_patched_nil s w _, windowBecomes_patched s w _ []⟩

/-- Settles O59. -/
theorem holdCommandsAreChecked : Obligations.HoldCommandsAreChecked := by
  intro s w b hs
  have running (hr : (s.win w).Running) := (isLiveOrSettling_iff (s.win w)).mpr hr
  have idle (hr : ¬(s.win w).Running) := (isLiveOrSettling_iff (s.win w)).not.mpr hr
  refine ⟨fun on hr hf => ?_, fun hb hr hf => ?_, fun hb hr => ?_, fun hb hw => ?_, fun hb => ⟨?_, ?_⟩,
    fun h => ?_⟩
  · refine ⟨s.modWin w fun x => { x with forcedFallback := on }, ?_, only_modWin s w _, .modWin s w _⟩
    exact flagFrame_reports (c := .forceFallback) hs rfl rfl
      ((forceFallbackAt_of_flag (flagOfByte_flagCode on)).trans
        ((if_pos (running hr)).trans (if_pos (Option.isSome_iff_ne_none.mpr hf))))
  · obtain ⟨on, flag⟩ := flagOfByte_of_le hb
    exact flagFrame_reports (c := .forceFallback) hs rfl rfl ((forceFallbackAt_of_flag flag).trans
      ((if_pos (running hr)).trans (if_neg (by rw [hf]; decide))))
  · obtain ⟨on, flag⟩ := flagOfByte_of_le hb
    exact flagFrame_reports (c := .forceFallback) hs rfl rfl
      ((forceFallbackAt_of_flag flag).trans (if_neg (idle hr)))
  · obtain ⟨on, flag⟩ := flagOfByte_of_le hb
    exact flagFrame_reports (c := .setHold) hs rfl rfl ((setHoldAt_of_flag flag).trans (if_pos hw))
  · exact flagFrame_reports (c := .forceFallback) hs rfl rfl (forceFallbackAt_of_lt hb)
  · exact flagFrame_reports (c := .setHold) hs rfl rfl (setHoldAt_of_lt hb)
  · refine windowFrame_reports (f := clearHoldAt) (c := .clearHold) hs rfl rfl (if_neg fun ⟨hr, hp⟩ => ?_)
    rcases h with h | h
    · exact idle h hr
    · exact nomatch hp.symm.trans h

end Sys2Proof.Machine

/-! ## DROP and RESTART

The windows switched off, their segments reset and their slots orphaned; RESTART besides resets the
roles, the notices and the settings (R15, R17, R70, R153). -/

namespace Sys2Proof.Machine

variable {s t : State} {w : WindowId} {o : Order}

/-! ### The windows dropped -/

theorem mem_activeWindows : w ∈ s.activeWindows ↔ (s.win w).state ≠ .off := by
  rw [State.activeWindows, List.mem_filter, and_iff_right (mem_allWindows w), isActive_iff]

theorem nodup_activeWindows (s : State) : s.activeWindows.Nodup := List.Nodup.filter _ (by decide)

/-- What becomes of the slots, with the dropped windows said by a property (R70). -/
theorem orphanedWork_some {p : WindowId → Bool} {P : Prop} [Decidable P] {k : SlotWork}
    (h : p k.window = true ↔ P) : orphanedWork p (some k) =
      if P ∧ k.orphaned = false then
        if k.phase = .waiting then none
        else some { k with phase := .retiring, held := none, orphaned := true }
      else some k := if_congr (and_congr_left' h) rfl rfl

theorem orphanAnswer_some {p : WindowId → Bool} {P : Prop} [Decidable P] {k : SlotWork}
    (h : p k.window = true ↔ P) : orphanAnswer p (some k) =
      if P ∧ k.orphaned = false then
        k.held.map fun h => { requester := h.requester, tag := h.tag, status := .error, data := []
                              duplicate := false }
      else none := if_congr (and_congr_left' h) rfl rfl

theorem lineMap_orphanSlots (s : State) (ws : List WindowId) : (s.orphanSlots ws).lineMap = s.lineMap :=
  (orphanSlots_spec ws allSlots (by decide) s).1 .lineMap (by decide)

/-- The store after windows are dropped together (R15, R36). -/
theorem lineMap_dropWindows {ws : List WindowId} (hn : ws.Nodup) (hm : s.lineMap.wf = true) :
    (∀ i, (∃ w ∈ ws, (s.win w).geometry.Claims i) → (s.dropWindows ws).lineMap.entry i = LineEntry.reset)
      ∧ ∀ i, (∀ w ∈ ws, ¬(s.win w).geometry.Claims i) →
        (s.dropWindows ws).lineMap.entry i = s.lineMap.entry i := by
  obtain ⟨-, -, claimed, free⟩ := dropRecords_spec ws hn s hm
  rw [State.dropWindows, lineMap_orphanSlots]
  exact ⟨claimed, free⟩

/-! ### DROP -/

theorem exec_drop (hs : s.PortFree) (hw : (s.win w).state ≠ .off) :
    exec (.drop { args := [windowByte w] } o) s =
      .next { (s.dropWindows [w]).arbitrate o with mgmt := reported s [windowByte w] .done } :=
  windowFrame_reports (f := dropAt o) (c := .drop) hs rfl rfl (if_pos ((isActive_iff _).mpr hw))

theorem windowBecomes_dropWindows (s : State) (w : WindowId) :
    WindowBecomes s (s.dropWindows [w]) w (s.win w).dropped :=
  ⟨(win_dropWindows s [w] w).trans (if_pos List.mem_cons_self), fun v hv =>
    (win_dropWindows s [w] v).trans (if_neg (List.mem_singleton.not.mpr hv))⟩

theorem segmentBecomes_dropWindows (hm : s.lineMap.wf = true) (w : WindowId) :
    SegmentBecomes s (s.dropWindows [w]) w fun _ => LineEntry.reset :=
  (dropRecord_spec hm w).2.2.1.of_lineMap (lineMap_orphanSlots (s.dropRecord w) [w])

/-- Settles O56. -/
theorem dropSwitchesTheWindowOff : Obligations.DropSwitchesTheWindowOff := by
  refine fun s w o hs => ⟨fun h => ?_, fun hw hm => ?_⟩
  · exact windowFrame_reports (f := dropAt o) (c := .drop) hs rfl rfl
      (if_neg fun e => (isActive_iff _).mp e h)
  · have window := windowBecomes_dropWindows s w
    have named (k : SlotWork) : decide (k.window ∈ [w]) = true ↔ k.window = w := by simp
    refine ⟨s.dropWindows [w], fun hk => ?_, ⟨_, keptThenHead_arbitrate _, exec_drop hs hw⟩,
      only_dropWindows s [w], window, segmentBecomes_dropWindows hm.1 w, fun n => ?_, ?_⟩
    · rw [exec_drop hs hw, arbitrate_of_none fun v => ?_]
      by_cases hv : v = w
      · rw [hv, window.1]; rfl
      · rw [window.2 v hv]; exact hk v hv
    · rw [slot_dropWindows]
      cases s.slot n with
      | none => rfl
      | some k => exact orphanedWork_some (named k)
    · rw [hport_dropWindows]
      refine congrArg (fun l => { s.hport with responses := s.hport.responses ++ l })
        (List.filterMap_congr fun n _ => ?_)
      cases s.slot n with
      | none => rfl
      | some k => exact orphanAnswer_some (named k)

/-! ### RESTART -/

theorem only_modNotices (s : State) (f : NoticeQueue → NoticeQueue) : Only [.notices] s (s.modNotices f) := by
  intro p hp
  cases p with
  | notices => exact absurd List.mem_cons_self hp
  | windows | roles | lineMap | slots | table | hport | issueQueue | mgmt | settings | lines
  | inReset | pending => rfl

/-- The state that the windows' drop leaves, with the roles, the notices and the settings reset (R153). -/
theorem only_takeRestart (s : State) :
    Only [.roles, .notices, .settings, .lines] (s.dropWindows s.activeWindows) s.takeRestart := by
  have roles := only_setRoles (s.dropWindows s.activeWindows) rolesReset
  have notices := only_modNotices ((s.dropWindows s.activeWindows).setRoles rolesReset)
    fun _ => { records := [], overflow := false }
  have settings := only_storeSettings
    (((s.dropWindows s.activeWindows).setRoles rolesReset).modNotices fun _ => { records := [], overflow := false })
    Settings.reset
  exact ((roles.mono (by simp)).trans (notices.mono (by simp))).trans (settings.mono (by simp))

theorem takeRestart_reset (s : State) : s.takeRestart.roles = rolesReset
    ∧ s.takeRestart.notices = { records := [], overflow := false }
    ∧ s.takeRestart.settings = Settings.reset
    ∧ s.takeRestart.lines = if (50 : Byte) = s.settings.tickDivisor then s.lines
        else { s.lines with edgeCount := 0 } := by
  have stored := only_storeSettings
    (((s.dropWindows s.activeWindows).setRoles rolesReset).modNotices fun _ => { records := [], overflow := false })
    Settings.reset
  have lines : (s.dropWindows s.activeWindows).lines = s.lines := only_dropWindows s _ .lines (by decide)
  have settings : (s.dropWindows s.activeWindows).settings = s.settings :=
    only_dropWindows s _ .settings (by decide)
  refine ⟨stored .roles (by decide), stored .notices (by decide), storeSettings_settings _ _,
    (storeSettings_lines _ _).trans ?_⟩
  simp only [modNotices_lines, modNotices_settings, setRoles_lines, setRoles_settings, lines, settings]
  rfl

theorem exec_restart (hs : s.PortFree) :
    exec (.restart { args := [] } o) s =
      .next { s.takeRestart.arbitrate o with mgmt := reported s [] .done } :=
  writeFrame_reports (c := .restart) (l := []) hs rfl rfl rfl

/-- Settles O57. -/
theorem restartResetsThePart : Obligations.RestartResetsThePart := by
  intro s o hs hm hk
  have only := only_takeRestart s
  obtain ⟨roles, notices, settings, lines⟩ := takeRestart_reset s
  obtain ⟨claimed, free⟩ := lineMap_dropWindows (nodup_activeWindows s) hm.1
  have map : s.takeRestart.lineMap = (s.dropWindows s.activeWindows).lineMap := only .lineMap (by decide)
  have slots : s.takeRestart.slots = (s.dropWindows s.activeWindows).slots := only .slots (by decide)
  have hport : s.takeRestart.hport = (s.dropWindows s.activeWindows).hport := only .hport (by decide)
  have windows : s.takeRestart.windows = (s.dropWindows s.activeWindows).windows :=
    only .windows (by decide)
  have named (k : SlotWork) : decide (k.window ∈ s.activeWindows) = true ↔ (s.win k.window).state ≠ .off :=
    decide_eq_true_iff.trans mem_activeWindows
  have win (w : WindowId) : s.takeRestart.win w =
      if (s.win w).state = .off then s.win w else (s.win w).dropped := by
    rw [win_eq_of_windows windows, win_dropWindows]
    by_cases h : (s.win w).state = .off
    · rw [if_pos h, if_neg fun e => mem_activeWindows.mp e h]
    · rw [if_neg h, if_pos (mem_activeWindows.mpr h)]
  refine ⟨s.takeRestart, ?_, ((only_dropWindows s _).mono (by simp)).trans (only.mono (by simp)), win,
    fun i ⟨w, hw, h⟩ => ?_, fun i h => ?_, fun n => ?_, fun r w => ?_, notices, ?_, settings, ?_, ?_⟩
  · rw [exec_restart hs, arbitrate_of_none fun w => ?_]
    rw [win w]
    split
    · next h => exact hk w h
    · rfl
  · rw [map]
    exact claimed i ⟨w, mem_activeWindows.mpr hw, h⟩
  · rw [map]
    exact free i fun w hw => h w (mem_activeWindows.mp hw)
  · rw [State.slot, slots]
    refine (slot_dropWindows s _ n).trans ?_
    cases s.slot n with
    | none => rfl
    | some k => exact orphanedWork_some (named k)
  · rw [State.role, roles]
    revert r w
    decide
  · simp [State.noticeAsserted, State.noticePending, notices]
  · exact lines.trans (if_congr eq_comm rfl rfl)
  · rw [hport, hport_dropWindows]
    refine congrArg (fun l => { s.hport with responses := s.hport.responses ++ l })
      (List.filterMap_congr fun n _ => ?_)
    cases s.slot n with
    | none => rfl
    | some k => exact orphanAnswer_some (named k)

end Sys2Proof.Machine

/-! ## READ STATUS, READ WINDOW, READ ROLES and READ LINE

What the read commands other than READ NOTICE shift out (R22, R40, R145, R149, R150). -/

namespace Sys2Proof.Machine

variable {s t : State} {w : WindowId} {x : Window}

/-! ### Read frames -/

/-- A whole read frame with its arguments, which end at a byte. -/
theorem readFrame_reports {c : CommandName} {l : List Byte} {k : Taken} (hs : s.PortFree)
    (hc : c ≠ .readNotice) (hl : argumentBytes c ≤ l.length)
    (hk : s.takenAfter (some c) l (s.takenAtCommand (some c)) = k) :
    (.next (s.whenRunning fun s => s.readFrame c { args := l }) : Answer) =
      .next { s with
        mgmt := portIdle (l.take (argumentBytes c)) k.result
          { bytes := s.statusByte :: (List.range l.length).map fun i => outByte (some c) i k
            tail := [] } } := by
  obtain ⟨tail, empty, frame⟩ := readFrame_spec hs hc l 0
  rw [whenRunning_of_running hs.1, frame, empty rfl, if_pos (by omega), hk]

/-- The response goes out after the arguments (R146). -/
theorem map_outByte_response {c : CommandName} (hc : c ≠ .readNotice) (r : List Byte) {n : Nat}
    (hn : n = argumentBytes c + r.length) :
    ((List.range n).map fun i => outByte (some c) i (.response r)) =
      List.replicate (argumentBytes c) 0 ++ r := by
  subst hn
  have other : ¬(some c = some CommandName.readNotice) := fun e => hc (Option.some.inj e)
  refine List.ext_getElem (by simp) fun i _ hi => ?_
  have count : argumentCount (some c) = argumentBytes c := rfl
  rw [List.getElem_map, List.getElem_range, outByte, if_neg other, count]
  by_cases h : i < argumentBytes c
  · rw [if_pos h, List.getElem_append_left (by simpa using h), List.getElem_replicate]
  · rw [List.length_append, List.length_replicate] at hi
    rw [if_neg h, List.getElem_append_right (by simpa using Nat.le_of_not_lt h)]
    simp only [List.length_replicate]
    exact List.getD_eq_getElem r 0 (by show i - argumentBytes c < r.length; omega)

theorem only_mgmt (s : State) (m : MgmtPort) : Only [.mgmt] s { s with mgmt := m } := by
  intro p hp
  cases p with
  | mgmt => exact absurd List.mem_cons_self hp
  | windows | roles | lineMap | slots | table | hport | issueQueue | notices | settings | lines
  | inReset | pending => rfl

/-! ### READ STATUS -/

theorem anySettling_iff : s.anySettling = true ↔ ∃ w, (s.win w).state = .settling := by
  rw [State.anySettling, List.any_eq_true]
  exact ⟨fun ⟨w, _, h⟩ => ⟨w, of_decide_eq_true h⟩, fun ⟨w, h⟩ => ⟨w, mem_allWindows w, decide_eq_true h⟩⟩

theorem noticePending_iff : s.noticePending = true ↔ s.notices.records ≠ [] := by
  simp [State.noticePending]

/-- The bits of a status byte (section 11.2). -/
theorem bits_of_status (r : ResultCode) (a b c : Bool) :
    let x := resultCodeOf r ||| bitAt 3 a ||| bitAt 4 b ||| bitAt 5 c
    x.extractLsb' 0 3 = (resultCodeOf r).extractLsb' 0 3 ∧ x.getLsbD 3 = a ∧ x.getLsbD 4 = b
      ∧ x.getLsbD 5 = c ∧ x.getLsbD 6 = false ∧ x.getLsbD 7 = false := by
  cases r <;> revert a b c <;> decide

theorem bits_of_flags : ∀ a b : Bool,
    let x := bitAt 0 a ||| bitAt 1 b
    x.getLsbD 0 = a ∧ x.getLsbD 1 = b ∧ x.toNat < 4 := by decide

/-- Byte `i` of the READ STATUS response, where the frame lasts so long (R149). -/
theorem statusFrame_byte {f : Frame} {i : Nat} (hi : i < f.args.length) :
    (s.statusByte :: (List.range f.args.length).map fun i =>
      outByte (some .readStatus) i (.response s.statusResponse))[i + 1]? =
        some (s.statusResponse.getD i 0) := by
  rw [List.getElem?_cons_succ, List.getElem?_map, List.getElem?_range hi]
  rfl

theorem statusResponse_state (s : State) (w : WindowId) :
    s.statusResponse.getD (4 + w.val) 0 = windowStateCode (s.win w).state := by
  fin_cases w <;> rfl

theorem statusResponse_rest (s : State) {i : Nat} (h : 12 ≤ i) : s.statusResponse.getD i 0 = 0 :=
  List.getD_eq_default _ _ h

theorem takenAfter_readStatus (s : State) (l : List Byte) :
    s.takenAfter (some .readStatus) l (s.takenAtCommand (some .readStatus)) =
      .response s.statusResponse := if_neg fun h => absurd h.1 (by decide)

/-- A whole READ STATUS frame (R145, R149). -/
theorem exec_readStatus {f : Frame} (hs : s.PortFree) (hf : f.till = .csRises) :
    ∃ tail, exec (.readStatus f) s = .next { s with
      mgmt := portIdle (f.args.take 0) .done
        { bytes := s.statusByte :: (List.range f.args.length).map fun i =>
            outByte (some .readStatus) i (.response s.statusResponse)
          tail } } := by
  obtain ⟨l, e, till⟩ := f
  obtain rfl : till = .csRises := hf
  obtain ⟨tail, -, frame⟩ := readFrame_spec hs (c := .readStatus) (by decide) l e
  have whole : 8 * argumentBytes .readStatus ≤ 8 * l.length + e % 8 := Nat.zero_le _
  rw [takenAfter_readStatus, if_pos whole] at frame
  exact ⟨tail, congrArg Host.Outcome.next ((whenRunning_of_running hs.1 _).trans frame)⟩

/-! ### Frames in parts -/

/-- A part of a frame that ends it, on a port that takes it. -/
theorem frame_ends {c : Option CommandName} {f : Frame}
    {atEnd : MgmtPort × NoticeQueue → State → ResultCode × State} (ht : s.mgmt.takesPart c = true)
    (hf : f.till = .csRises) :
    s.frame c f atEnd = { (atEnd (s.clocked c f) { s with notices := (s.clocked c f).2 }).2 with
      mgmt := (s.clocked c f).1.ended (tailBits c f (s.clocked c f))
        (atEnd (s.clocked c f) { s with notices := (s.clocked c f).2 }).1 } := by
  rw [State.frame, if_pos ht]
  simp only [hf]
  rfl

/-- A part of a frame that leaves CS low, on a port that takes it. -/
theorem frame_goesOn {c : Option CommandName} {f : Frame}
    {atEnd : MgmtPort × NoticeQueue → State → ResultCode × State} (ht : s.mgmt.takesPart c = true)
    (hf : f.till = .csFell ∨ f.till = .csLow) :
    s.frame c f atEnd = { s with notices := (s.clocked c f).2, mgmt := (s.clocked c f).1 } := by
  rw [State.frame, if_pos ht]
  rcases hf with hf | hf <;> simp only [hf] <;> rfl

/-- The fall of CS on a free port: the status byte of that moment is taken, and nothing else (R145). -/
def State.fallen (s : State) : MgmtPort :=
  { s.mgmt with frameState := .inFrame 0, command := none, status := s.statusByte, taken := .nothing
                argBuffer := [], sdo := { bytes := [], tail := [] } }

theorem clocked_fall {c : Option CommandName} (hs : s.PortFree) :
    s.clocked c { args := [], till := .csFell } = (s.fallen, s.notices) :=
  congrArg (·, s.notices) (csFalls_of_free hs)

/-- The bytes of a frame whose CS fell earlier, in the state `s` (R145). -/
theorem clocked_fallen {u : State} (c : Option CommandName) {f : Frame} (hf : f.till = .csRises)
    (hm : u.mgmt = s.fallen) : u.clocked c f =
      f.args.foldl (u.clockByte c) ({ s.fallen with
        frameState := .inFrame 8, command := c, taken := u.takenAtCommand c
        sdo := { bytes := [s.statusByte], tail := [] } }, u.notices) := by
  unfold State.clocked
  rw [hm]
  simp only [hf]
  rfl

/-- READ STATUS in a frame whose CS fell earlier: the status byte of then, and the response of now. -/
theorem readStatus_fallen {u : State} {f : Frame} (hu : u.inReset = false) (hm : u.mgmt = s.fallen)
    (hf : f.till = .csRises) : ∃ v, exec (.readStatus f) u = .next v ∧ Only [.mgmt] u v
      ∧ v.mgmt.sdo.bytes = s.statusByte :: (List.range f.args.length).map fun i =>
          outByte (some .readStatus) i (.response u.statusResponse) := by
  have takes : u.mgmt.takesPart (some .readStatus) = true := by rw [hm]; rfl
  have bytes := foldl_clockByte u (c := some .readStatus) (by decide) { s.fallen with
    frameState := .inFrame 8, command := some .readStatus
    taken := u.takenAtCommand (some .readStatus), sdo := { bytes := [s.statusByte], tail := [] } } u.notices
    rfl rfl rfl f.args
  rw [← clocked_fallen (some .readStatus) hf hm] at bytes
  refine ⟨_, congrArg Host.Outcome.next ((whenRunning_of_running hu _).trans (frame_ends takes hf)), ?_, ?_⟩
  · rw [bytes]
    exact only_mgmt u _
  · rw [bytes]
    rfl

/-- Settles O43. -/
theorem readStatusReportsThePart : Obligations.ReadStatusReportsThePart := by
  refine ⟨fun s f hs hf => ?_, fun s hs => ?_⟩
  · obtain ⟨tail, answer⟩ := exec_readStatus hs hf
    obtain ⟨code, pending, overflow, settling, six, seven⟩ := bits_of_status s.mgmt.lastResult
      s.noticePending s.notices.overflow s.anySettling
    obtain ⟨flag0, flag1, flags⟩ := bits_of_flags s.notices.overflow s.anySettling
    refine ⟨_, answer, only_mgmt s _,
      rfl, rfl, by simp [portIdle], rfl, code, ?_, overflow, ?_, six, seven,
      statusFrame_byte, statusFrame_byte, statusFrame_byte, fun h => ⟨_, statusFrame_byte h, flag0, ?_, flags⟩,
      fun w hw => ?_, fun i h12 hi => ?_⟩
    · rw [State.statusByte, pending, noticePending_iff]
    · rw [State.statusByte, settling, anySettling_iff]
    · exact (Bool.eq_iff_iff.mp flag1).trans anySettling_iff
    · rw [show 5 + w.val = 4 + w.val + 1 by omega]
      exact (statusFrame_byte hw).trans (congrArg some (statusResponse_state s w))
    · exact (statusFrame_byte hi).trans (congrArg some (statusResponse_rest s h12))
  · have takes := takesPart_of_free hs (some .readStatus)
    refine ⟨{ s with mgmt := s.fallen }, ?_, only_mgmt s _, fun u f hu hm hf => ?_⟩
    · refine congrArg Host.Outcome.next ((whenRunning_of_running hs.1 _).trans
        ((frame_goesOn takes (.inl rfl)).trans ?_))
      rw [clocked_fall hs]
    · obtain ⟨v, answer, only, bytes⟩ := readStatus_fallen hu hm hf
      obtain ⟨tail, whole⟩ := exec_readStatus (s := { u with mgmt := s.mgmt }) ⟨hu, hs.2⟩ hf
      have response : State.statusResponse { u with mgmt := s.mgmt } = u.statusResponse := by
        unfold State.statusResponse
        rw [hm]
        rfl
      exact ⟨v, _, answer, only, whole, by rw [bytes, response]; rfl⟩

/-! ### READ WINDOW -/

/-- Two neighbouring fields of a value make one. -/
theorem extract_append {n : Nat} (x : BitVec n) (i k m : Nat) :
    x.extractLsb' (i + m) k ++ x.extractLsb' i m = x.extractLsb' i (k + m) := by
  refine BitVec.eq_of_getLsbD_eq fun j hj => ?_
  rw [BitVec.getLsbD_append, BitVec.getLsbD_extractLsb', BitVec.getLsbD_extractLsb', BitVec.getLsbD_extractLsb']
  by_cases h : j < m
  · simp [h, hj]
  · have inside : j - m < k := by omega
    have place : i + m + (j - m) = i + j := by omega
    simp [h, hj, inside, place]

theorem addrAt_bytesOfAddr (a : Addr) :
    a.extractLsb' 24 8 ++ a.extractLsb' 16 8 ++ a.extractLsb' 8 8 ++ a.extractLsb' 0 8 = a := by
  have top : a.extractLsb' 24 8 ++ a.extractLsb' 16 8 = a.extractLsb' 16 16 := extract_append a 16 8 8
  have three : a.extractLsb' 16 16 ++ a.extractLsb' 8 8 = a.extractLsb' 8 24 := extract_append a 8 16 8
  have four : a.extractLsb' 8 24 ++ a.extractLsb' 0 8 = a.extractLsb' 0 32 := extract_append a 0 24 8
  have whole : a.extractLsb' 0 32 = a := BitVec.eq_of_getLsbD_eq fun j hj => by simp [hj]
  exact (congrArg (fun b : BitVec 16 => b ++ a.extractLsb' 8 8 ++ a.extractLsb' 0 8) top).trans
    ((congrArg (fun b : BitVec 24 => b ++ a.extractLsb' 0 8) three).trans (four.trans whole))

theorem windowResponse_length (w : WindowId) (x : Window) : (windowResponse w x).length = 47 := by
  simp [windowResponse, bytesOfAddr, bytesOfHalf]

theorem byteOfNat_toNat (b : Bool) : byteOfNat b.toNat = if b then 1 else 0 := by cases b <;> rfl

theorem takenAfter_readWindow (s : State) (w : WindowId) (l : List Byte) :
    s.takenAfter (some .readWindow) (windowByte w :: l) (s.takenAtCommand (some .readWindow)) =
      .response (windowResponse w (s.win w)) := by
  refine (if_pos ⟨by decide, by simp [argumentCount, argumentBytes]⟩).trans ?_
  show windowTaken (windowByte w) (.records s.windows) = _
  rw [windowTaken, windowOfByte_windowByte]
  rfl

/-- Settles O44. -/
theorem readWindowReportsTheRecord : Obligations.ReadWindowReportsTheRecord := by
  intro s w dummy hs hl
  have answer := readFrame_reports (l := windowByte w :: dummy) hs (c := .readWindow) (by decide)
    (by simp [argumentBytes]) (takenAfter_readWindow s w dummy)
  rw [map_outByte_response (by decide) (windowResponse w (s.win w))
    (by rw [List.length_cons, hl, windowResponse_length]; rfl)] at answer
  have flags := bits_of_eight (s.win w).armed (s.win w).holdAck (s.win w).eventSince (s.win w).manualHold
    (s.win w).forcedFallback (s.win w).geometry.fallback.isSome (s.win w).drainTimer.isSome
    (s.win w).cursor.isSome
  obtain ⟨s0, s1, s2, s3, s4⟩ := bits_of_four (s.win w).policy.sources.hold0 (s.win w).policy.sources.hold1
    (s.win w).policy.sources.violation (s.win w).policy.sources.fillFailed
  obtain ⟨p0, p1, p2, p3, p4⟩ := bits_of_four (s.win w).policy.redirect (s.win w).policy.pubreqEnable
    (s.win w).policy.commitNotices (s.win w).policy.commitOutput
  obtain ⟨f0, f1, f2, f3, f4, f5, f6, f7⟩ := flags
  refine ⟨_, windowResponse w (s.win w), answer, only_mgmt s _, rfl, windowResponse_length w _, ?_⟩
  simp only [windowResponse, bytesOfAddr, bytesOfHalf, addrAt, halfAt, List.cons_append, List.nil_append,
    List.getD_cons_zero, List.getD_cons_succ, addrAt_bytesOfAddr, half_of_bytes, true_and]
  exact ⟨rfl, f0, f1, f2, f3, f4, f5, f6, f7, rfl, s0, s1, s2, s3, s4, p0, p1, p2, p3, p4, rfl,
    byteOfNat_toNat _, rfl, rfl, rfl, rfl, rfl, trivial⟩

/-! ### READ ROLES and READ LINE -/

theorem takenAfter_readRoles (s : State) (b : Byte) (l : List Byte) :
    s.takenAfter (some .readRoles) (b :: l) (s.takenAtCommand (some .readRoles)) = s.rolesTaken b :=
  if_pos ⟨by decide, by simp [argumentCount, argumentBytes]⟩

theorem takenAfter_readLine (s : State) (b : Byte) (i : Half) (y : Byte) :
    s.takenAfter (some .readLine) ([b] ++ bytesOfHalf i ++ [y]) (s.takenAtCommand (some .readLine)) =
      s.lineTaken { args := [b] ++ bytesOfHalf i } := rfl

theorem lineTaken_of_window (s : State) (w : WindowId) (i : Half) :
    s.lineTaken { args := [windowByte w] ++ bytesOfHalf i } =
      if i.toNat < (s.win w).geometry.lineCount.toNat
          ∧ (s.win w).geometry.entryIndex i.toNat < Config.lineEntries then
        .response [lineEntryByte (s.lineEntry w i.toNat)]
      else .refused := by
  have index : frameHalf { args := [windowByte w] ++ bytesOfHalf i } 1 = i := half_of_bytes i
  have window : windowOfByte (frameByte { args := [windowByte w] ++ bytesOfHalf i } 0) = some w :=
    windowOfByte_windowByte w
  rw [State.lineTaken, window]
  dsimp only
  rw [index, State.reportedEntry]
  by_cases h : i.toNat < (s.win w).geometry.lineCount.toNat
      ∧ (s.win w).geometry.entryIndex i.toNat < Config.lineEntries
  · rw [if_pos h, if_pos h]
  · rw [if_neg h, if_neg h]

theorem bits_of_three : ∀ a b c : Bool,
    let x := bitAt 0 a ||| bitAt 1 b ||| bitAt 2 c
    x.toNat < 8 ∧ x.getLsbD 0 = a ∧ x.getLsbD 1 = b ∧ x.getLsbD 2 = c := by decide

/-- READ LINE, by the content it takes at its last argument byte. -/
theorem readLine_reports {b y : Byte} {i : Half} {k : Taken} (hs : s.PortFree)
    (hk : s.lineTaken { args := [b] ++ bytesOfHalf i } = k) :
    exec (.readLine { args := [b] ++ bytesOfHalf i ++ [y] }) s =
      .next { s with
        mgmt := portIdle ([b] ++ bytesOfHalf i) k.result
          { bytes := [s.statusByte, 0, 0, 0, k.bytes.getD 0 0], tail := [] } } := by
  have taken := (takenAfter_readLine s b i y).trans hk
  exact readFrame_reports (l := [b] ++ bytesOfHalf i ++ [y]) hs (c := .readLine) (by decide)
    (by simp [argumentBytes, bytesOfHalf]) taken

/-- Settles O45. -/
theorem readRolesAndReadLineReportCells : Obligations.ReadRolesAndReadLineReportCells := by
  refine fun s hs => ⟨fun r dummy hl => ?_, fun b dummy hb => ?_, fun w i y hi hj => ?_, fun b i y h => ?_⟩
  · have taken : s.rolesTaken (BitVec.ofNat 8 r.val) = .response (s.rolesResponse r) := by
      rw [State.rolesTaken, requesterOfByte_ofNat]
    have answer := readFrame_reports (l := BitVec.ofNat 8 r.val :: dummy) hs (c := .readRoles) (by decide)
      (by simp [argumentBytes]) ((takenAfter_readRoles s _ dummy).trans taken)
    rw [map_outByte_response (by decide) (s.rolesResponse r) (by rw [List.length_cons, hl]; rfl)] at answer
    exact ⟨_, answer, only_mgmt s _, rfl, rfl⟩
  · have taken : s.rolesTaken b = .refused := by
      rw [State.rolesTaken, requesterOfByte_of_lt hb]
    have answer := readFrame_reports (l := b :: dummy) hs (c := .readRoles) (by decide)
      (by simp [argumentBytes]) ((takenAfter_readRoles s b dummy).trans taken)
    rw [map_outByte_nothing rfl] at answer
    exact ⟨_, answer, only_mgmt s _, rfl, rfl⟩
  · have taken := (lineTaken_of_window s w i).trans
      (if_pos ⟨hi, by show (s.win w).geometry.mapOffset.toNat + i.toNat < 8192; omega⟩)
    obtain ⟨small, published, pending, filling⟩ := bits_of_three
      (decide ((s.lineEntry w i.toNat).published = .b)) (s.lineEntry w i.toNat).pending
      (s.lineEntry w i.toNat).filling
    exact ⟨_, _, readLine_reports hs taken, only_mgmt s _, rfl, rfl, small,
      (Bool.eq_iff_iff.mp published).trans decide_eq_true_iff, pending, filling⟩
  · have taken : s.lineTaken { args := [b] ++ bytesOfHalf i } = .refused := by
      rcases h with h | ⟨w, rfl, h⟩
      · have none : windowOfByte (frameByte { args := [b] ++ bytesOfHalf i } 0) = none := windowOfByte_of_lt h
        rw [State.lineTaken, none]
      · refine (lineTaken_of_window s w i).trans (if_neg fun ⟨hi, hj⟩ => ?_)
        have hj : (s.win w).geometry.mapOffset.toNat + i.toNat < 8192 := hj
        omega
    exact ⟨_, readLine_reports hs taken, only_mgmt s _, rfl, rfl⟩

end Sys2Proof.Machine

/-! ## READ NOTICE

The records shifted out slot by slot, in a whole frame and in a frame that goes on (R137, R141, R151). -/

namespace Sys2Proof.Machine

variable {s t u : State} {f : Frame}

/-! ### Slots and their bytes -/

theorem slotBytes_getD (r : Option Notice) (j : Nat) :
    (slotBytes r).getD j 0 = r.elim 0 fun n => (noticeBytes n).getD j 0 := by
  cases r with
  | some n => rfl
  | none =>
    rw [slotBytes, List.getD_eq_getElem?_getD, List.getElem?_replicate]
    split <;> rfl

/-- The removal at the end of a slot: of the record that the slot holds, if any (R137). -/
def NoticeQueue.afterSlot (q : NoticeQueue) (r : Option Notice) : NoticeQueue :=
  r.elim q fun _ => q.removeHead

theorem removeHead_records (q : NoticeQueue) : q.removeHead.records = q.records.drop 1 :=
  (without_spec 1 q).1

/-- What one byte inside a slot does, whatever has joined the queue: a byte of the slot's own record goes
out, and the last of them removes it (R137, R151). -/
theorem clockByte_insideSlot (s : State) (m : MgmtPort) (q : NoticeQueue) (b : Byte) {r : Option Notice}
    {k j : Nat} (hb : m.frameState = .inFrame (8 + 8 * (16 * k + j))) (ht : m.taken = .slot r)
    (h0 : 0 < j) (h16 : j < 16) :
    s.clockByte (some .readNotice) (m, q) b =
      ({ m with
          frameState := .inFrame (8 + 8 * (16 * k + (j + 1)))
          taken := if j = 15 then .nothing else .slot r
          sdo := { bytes := m.sdo.bytes ++ [(slotBytes r).getD j 0], tail := [] } },
        if j = 15 then q.afterSlot r else q) := by
  obtain ⟨fs, cmd, st, tk, ab, lr, sdo⟩ := m
  simp only at hb ht
  subst hb ht
  have index : MgmtPort.byteIndex
      { frameState := .inFrame (8 + 8 * (16 * k + j)), command := cmd, status := st
        taken := .slot r, argBuffer := ab, lastResult := lr, sdo } = 16 * k + j := by
    show (8 + 8 * (16 * k + j) - 8) / 8 = _
    omega
  have place : (16 * k + j) % 16 = j := by omega
  have kept : offered (some .readNotice) (16 * k + j) (.slot r) q = .slot r :=
    if_neg fun h => by omega
  have out : outByte (some .readNotice) (16 * k + j) (.slot r) = (slotBytes r).getD j 0 := by
    have count : argumentCount (some .readNotice) = 0 := rfl
    rw [outByte, count, if_neg (Nat.not_lt_zero _), if_pos rfl, place]
    rfl
  simp only [State.clockByte, index, kept, place, out, true_and]
  simp only [show argumentCount (some .readNotice) = 0 from rfl, Nat.not_lt_zero, if_false,
    Nat.add_one_ne_zero]
  refine Prod.ext rfl ?_
  cases r with
  | some n => rfl
  | none => exact (ite_self _).symm

/-- The bytes of a frame that goes on inside a slot, to the end of the slot at most (R151). -/
theorem foldl_insideSlot (s : State) (m : MgmtPort) (q : NoticeQueue) {r : Option Notice} {k p : Nat}
    (hb : m.frameState = .inFrame (8 + 8 * (16 * k + p))) (ht : m.taken = .slot r) (hs : m.sdo.tail = [])
    (h0 : 0 < p) (hp : p < 16) (l : List Byte) (hl : p + l.length ≤ 16) :
    l.foldl (s.clockByte (some .readNotice)) (m, q) =
      ({ m with
          frameState := .inFrame (8 + 8 * (16 * k + (p + l.length)))
          taken := if p + l.length = 16 then .nothing else .slot r
          sdo := { bytes := m.sdo.bytes ++ (List.range l.length).map fun i => (slotBytes r).getD (p + i) 0
                   tail := [] } },
        if p + l.length = 16 then q.afterSlot r else q) := by
  induction l using List.reverseRecOn with
  | nil =>
    obtain ⟨fs, cmd, st, tk, ab, lr, sdo⟩ := m
    obtain ⟨b, tl⟩ := sdo
    simp only at hb ht hs
    subst hb ht hs
    have within : ¬p = 16 := by omega
    simp [within]
  | append_singleton l b ih =>
    rw [List.length_append, List.length_singleton] at hl
    have within : ¬p + l.length = 16 := by omega
    have ends : p + (l.length + 1) = 16 ↔ p + l.length = 15 := by omega
    rw [List.foldl_append, ih (by omega), List.foldl_cons, List.foldl_nil, if_neg within, if_neg within,
      clockByte_insideSlot s _ q b (r := r) (k := k) (j := p + l.length) rfl rfl (by omega) (by omega)]
    simp only [List.length_append, List.length_singleton, List.range_succ, List.map_append,
      List.map_singleton, List.append_assoc, ends, Nat.add_assoc]

/-! ### The frame -/

theorem only_port (s : State) (q : NoticeQueue) (m : MgmtPort) :
    Only [.mgmt, .notices] s { s with notices := q, mgmt := m } := by
  intro p hp
  cases p with
  | mgmt | notices => exact absurd (by simp) hp
  | windows | roles | lineMap | slots | table | hport | issueQueue | settings | lines | inReset
  | pending => rfl

/-- The end of a READ NOTICE frame, from what its bytes leave. -/
theorem readNotice_ends {p : MgmtPort × NoticeQueue} (hu : u.inReset = false)
    (ht : u.mgmt.takesPart (some .readNotice) = true) (hf : f.till = .csRises)
    (hc : u.clocked (some .readNotice) f = p) (hr : p.1.taken.result = .done) :
    ∃ v, exec (.readNotice f) u = .next v ∧ Only [.mgmt, .notices] u v ∧ v.mgmt.lastResult = .done
      ∧ v.notices = p.2 ∧ v.mgmt.sdo.bytes = p.1.sdo.bytes := by
  have frame := (whenRunning_of_running hu fun s => s.readFrame .readNotice f).trans (frame_ends ht hf)
  have whole : 8 * argumentBytes .readNotice ≤ totalBits f p.1 := Nat.zero_le _
  simp only [hc, if_pos whole, hr] at frame
  exact ⟨_, congrArg Host.Outcome.next frame, only_port u _ _, rfl, rfl, rfl⟩

theorem slotTaken_result (q : NoticeQueue) (n : Nat) : (slotTaken q n).result = .done := by
  unfold slotTaken
  split <;> rfl

/-- The bytes of a frame that CS has been low for (R144). -/
theorem clocked_inFrame {c : Option CommandName} {n : Nat} (hm : u.mgmt.frameState = .inFrame (n + 1))
    (hf : f.till = .csRises) : u.clocked c f = f.args.foldl (u.clockByte c) (u.mgmt, u.notices) := by
  have low : u.mgmt.csFalls u.statusByte = u.mgmt := by rw [MgmtPort.csFalls, hm]
  have bits : ¬u.mgmt.bits = 0 := by rw [MgmtPort.bits, hm]; exact Nat.succ_ne_zero n
  unfold State.clocked
  rw [low]
  simp only [hf, State.clockCommand, if_neg bits]

/-- The bytes of a READ NOTICE frame that begins (R151). -/
theorem clocked_readNotice (hs : s.PortFree) (hf : f.till = .csRises ∨ f.till = .csLow) :
    s.clocked (some .readNotice) f =
      ({ s.opened (some .readNotice) with
          frameState := .inFrame (8 + 8 * (16 * 0 + f.args.length))
          taken := slotTaken s.notices f.args.length
          sdo := { bytes := s.statusByte :: (List.range f.args.length).map fun i =>
                    (slotBytes s.notices.records[i / 16]?).getD (i % 16) 0
                   tail := [] } }, s.notices.without (f.args.length / 16)) :=
  (clocked_of_free hs _ f hf).trans
    (foldl_readNotice s (s.opened (some .readNotice)) s.notices 0 rfl rfl rfl f.args)

/-- A byte of a slot among those of a frame, which go out after the `before` that went out earlier. -/
theorem slotByte_getElem {q : NoticeQueue} {before : List Byte} {n i j c : Nat} (hc : before.length = c)
    (hj : j < 16) (hi : 16 * i + j < n) :
    (before ++ (List.range n).map fun i => (slotBytes q.records[i / 16]?).getD (i % 16) 0)[c + 16 * i + j]? =
      some ((slotBytes q.records[i]?).getD j 0) := by
  have index : c + 16 * i + j - before.length = 16 * i + j := by omega
  have slot : (16 * i + j) / 16 = i := by omega
  have place : (16 * i + j) % 16 = j := by omega
  rw [List.getElem?_append_right (by omega), index, List.getElem?_map, List.getElem?_range hi, Option.map_some,
    slot, place]

/-- A whole READ NOTICE frame (R137, R141, R151). -/
theorem readNotice_whole {k m : Nat} (hs : s.PortFree) (hf : f.till = .csRises)
    (hl : f.args.length = 16 * k + m) (hm : m < 16) :
    ∃ t, exec (.readNotice f) s = .next t ∧ Only [.mgmt, .notices] s t ∧ t.mgmt.lastResult = .done
      ∧ t.notices = s.notices.without k
      ∧ t.mgmt.sdo.bytes = [s.statusByte] ++ (List.range f.args.length).map fun i =>
          (slotBytes s.notices.records[i / 16]?).getD (i % 16) 0 := by
  obtain ⟨t, answer, only, result, notices, bytes⟩ := readNotice_ends hs.1
    (takesPart_of_free hs _) hf (clocked_readNotice hs (.inl hf)) (slotTaken_result _ _)
  have slots : f.args.length / 16 = k := by omega
  exact ⟨t, answer, only, result, notices.trans (congrArg s.notices.without slots), bytes⟩

/-- The port after a part of a READ NOTICE frame that leaves CS low. -/
structure NoticePart (s t : State) (k m : Nat) (bytes : List Byte) : Prop where
  inFrame : t.mgmt.frameState = .inFrame (8 + 8 * (16 * k + m))
  command : t.mgmt.command = some .readNotice
  outside : m = 0 → t.mgmt.taken = .nothing
  inside : 0 < m → t.mgmt.taken = .slot s.notices.records[k]?
  out : t.mgmt.sdo = { bytes, tail := [] }
  length : bytes.length = 16 * k + m + 1

theorem readNotice_part {k m : Nat} (hs : s.PortFree) (hf : f.till = .csLow)
    (hl : f.args.length = 16 * k + m) (hm : m < 16) :
    ∃ t, exec (.readNotice f) s = .next t ∧ Only [.mgmt, .notices] s t
      ∧ t.notices.records = s.notices.records.drop k ∧ ∃ bytes, NoticePart s t k m bytes := by
  have slots : f.args.length / 16 = k := by omega
  have within : f.args.length % 16 = m := by omega
  have frame := frame_goesOn (c := some .readNotice) (f := f) (takesPart_of_free hs _) (.inr hf)
    (atEnd := fun p t => (if 8 * argumentBytes .readNotice ≤ totalBits f p.1 then p.1.taken.result
      else .badLength, t))
  rw [clocked_readNotice hs (.inr hf), slots] at frame
  refine ⟨_, congrArg Host.Outcome.next ((whenRunning_of_running hs.1 _).trans frame), only_port s _ _,
    (without_spec k s.notices).1, s.statusByte :: (List.range f.args.length).map fun i =>
      (slotBytes s.notices.records[i / 16]?).getD (i % 16) 0, ?_⟩
  · refine { inFrame := by rw [hl, Nat.mul_zero, Nat.zero_add], command := rfl, outside := fun h => ?_,
             inside := fun h => ?_, out := rfl, length := by simp [hl] }
    · exact if_pos (by rw [within, h])
    · refine (if_neg (by rw [within]; omega)).trans (congrArg Taken.slot ?_)
      rw [slots, (without_spec k s.notices).1, List.head?_drop]

theorem NoticePart.takes {k m : Nat} {bytes : List Byte} (h : NoticePart s t k m bytes)
    (hu : u.mgmt = t.mgmt) : u.mgmt.takesPart (some .readNotice) = true := by
  rw [hu, MgmtPort.takesPart, h.inFrame, h.command]
  simp

theorem NoticePart.clocked {k m : Nat} {bytes : List Byte} (h : NoticePart s t k m bytes)
    (hu : u.mgmt = t.mgmt) (hf : f.till = .csRises) : u.clocked (some .readNotice) f =
      f.args.foldl (u.clockByte (some .readNotice)) (u.mgmt, u.notices) :=
  clocked_inFrame (n := 7 + 8 * (16 * k + m)) (by rw [hu, h.inFrame]; congr 1; omega) hf

/-- A frame that goes on from a slot boundary: the records follow as they then stand (R151). -/
theorem readNotice_fromBoundary {k : Nat} {bytes : List Byte} (h : NoticePart s t k 0 bytes)
    (hr : u.inReset = false) (hu : u.mgmt = t.mgmt) (hf : f.till = .csRises) :
    ∃ v, exec (.readNotice f) u = .next v ∧ Only [.mgmt, .notices] u v ∧ v.mgmt.lastResult = .done
      ∧ v.notices = u.notices.without (f.args.length / 16)
      ∧ v.mgmt.sdo.bytes = bytes ++ (List.range f.args.length).map fun i =>
          (slotBytes u.notices.records[i / 16]?).getD (i % 16) 0 := by
  have taken := h.outside rfl
  rw [← hu] at taken
  have state := h.inFrame
  have out := h.out
  rw [← hu] at state out
  obtain ⟨v, answer, only, result, notices, shifted⟩ := readNotice_ends hr (h.takes hu) hf
    ((h.clocked hu hf).trans (foldl_readNotice u u.mgmt u.notices k state taken (by rw [out]) f.args))
    (slotTaken_result _ _)
  rw [out] at shifted
  exact ⟨v, answer, only, result, notices, shifted⟩

/-- A frame that goes on inside a slot to its end: the slot's own record goes out, and leaves (R137,
R151). -/
theorem readNotice_fromInside {k m : Nat} {bytes : List Byte} (h : NoticePart s t k m bytes)
    (hr : u.inReset = false) (hu : u.mgmt = t.mgmt) (hf : f.till = .csRises) (hm : 0 < m)
    (hl : m + f.args.length = 16) (hm16 : m < 16) :
    ∃ v, exec (.readNotice f) u = .next v ∧ Only [.mgmt, .notices] u v ∧ v.mgmt.lastResult = .done
      ∧ v.notices = u.notices.afterSlot s.notices.records[k]?
      ∧ v.mgmt.sdo.bytes = bytes ++ (List.range f.args.length).map fun i =>
          (slotBytes s.notices.records[k]?).getD (m + i) 0 := by
  have taken := h.inside hm
  have state := h.inFrame
  have out := h.out
  rw [← hu] at taken state out
  have inside := foldl_insideSlot u u.mgmt u.notices state taken (by rw [out]) hm hm16 f.args hl.le
  rw [if_pos hl, if_pos hl] at inside
  obtain ⟨v, answer, only, result, notices, shifted⟩ := readNotice_ends hr (h.takes hu) hf
    ((h.clocked hu hf).trans inside) rfl
  rw [out] at shifted
  exact ⟨v, answer, only, result, notices, shifted⟩

/-- Settles O46. -/
theorem readNoticeDrainsTheQueue : Obligations.ReadNoticeDrainsTheQueue := by
  refine ⟨fun s f k m hs hf hl hm => ?_, fun s f k m hs hf hl hm => ?_⟩
  · obtain ⟨t, answer, only, result, notices, bytes⟩ := readNotice_whole hs hf hl hm
    obtain ⟨records, empties, stays⟩ := without_spec k s.notices
    have reset : t.inReset = false := Eq.trans (only .inReset (by decide)) hs.1
    have settings : t.settings = s.settings := only .settings (by decide)
    refine ⟨t, answer, only, result, by rw [notices, records], fun h1 h2 => by rw [notices, empties h1 h2],
      fun h => by rw [notices, stays h], ?_, by simp [bytes], by simp [bytes], fun i j hj hi => ?_⟩
    · rw [State.noticeAsserted, State.noticePending, reset, settings, notices, records, Bool.not_false,
        Bool.true_and, Bool.and_comm]
      congr 1
      rw [Bool.eq_iff_iff, Bool.not_eq_true', List.isEmpty_eq_false_iff, decide_eq_true_iff, ne_eq,
        List.drop_eq_nil_iff, not_le]
    · rw [bytes, slotByte_getElem (c := 1) rfl hj hi, slotBytes_getD]
      cases s.notices.records[i]? <;> rfl
  · obtain ⟨t, answer, only, records, bytes, part⟩ := readNotice_part hs hf hl hm
    have shifted : t.mgmt.sdo.bytes = bytes := by rw [part.out]
    have length : bytes.length = f.args.length + 1 := part.length.trans (by rw [hl])
    refine ⟨t, answer, only, records, by rw [shifted, length], fun u g hr hu hg => ⟨fun h0 l hg16 => ?_,
      fun h0 hl => ?_⟩⟩
    · subst h0
      subst hg16
      obtain ⟨v, goes, only, result, notices, out⟩ := readNotice_fromBoundary part hr hu hg
      refine ⟨v, goes, only, result, by rw [notices, (without_spec _ _).1], ?_, fun i j hj hi => ?_⟩
      · rw [out, shifted, ← length, List.take_left]
      · rw [out, slotByte_getElem length hj hi, slotBytes_getD]
        cases u.notices.records[i]? <;> rfl
    · obtain ⟨v, goes, only, result, notices, out⟩ := readNotice_fromInside part hr hu hg h0 hl hm
      refine ⟨v, goes, only, result, ?_, ?_, fun j hj => ?_⟩
      · rw [notices]
        cases s.notices.records[k]? with
        | none => rfl
        | some n => exact removeHead_records u.notices
      · rw [out, shifted, ← length, List.take_left]
      · rw [out, List.getElem?_append_right (by omega), length, Nat.add_sub_cancel_left, List.getElem?_map,
          List.getElem?_range hj, Option.map_some, slotBytes_getD]
        cases s.notices.records[k]? <;> rfl

end Sys2Proof.Machine

/-! ## Frames that are refused, short, or cut in parts

What every command's frame does at the port, whatever its body (R144 to R148). -/

namespace Sys2Proof.Machine

variable {s t u : State} {c : Option CommandName} {f : Frame} {o : Order}
  {atEnd : MgmtPort × NoticeQueue → State → ResultCode × State}

/-! ### One form for every command -/

/-- What a write-type command does at the end of its frame, from its argument bytes (R148). -/
def commandBody (o : Order) : CommandName → Frame → State → ResultCode × State
  | .writeGeometry => fun f => onWindow f (writeGeometryAt f)
  | .writePolicy => fun f => onWindow f (writePolicyAt f)
  | .writeRoles => writeRolesBody
  | .writeDeviceSettings => fun f => writeDeviceSettingsBody f o
  | .restart => fun _ t => (.done, t.takeRestart.arbitrate o)
  | .load => fun f => onWindow f loadAt
  | .arm => fun f => onWindow f armAt
  | .publish => fun f => publishBody f o
  | .unpublish => unpublishBody
  | .discard => fun f => onWindow f discardAt
  | .retire => fun f => onWindow f (retireAt o)
  | .drop => fun f => onWindow f (dropAt o)
  | .setHold => fun f => onWindow f (setHoldAt f)
  | .clearHold => fun f => onWindow f clearHoldAt
  | .forceFallback => fun f => onWindow f (forceFallbackAt f)
  | .readStatus | .readWindow | .readRoles | .readLine | .readNotice => fun _ t => (.done, t)

/-- The end of a command's frame (R147). -/
def commandEnd (o : Order) (c : CommandName) (f : Frame) (p : MgmtPort × NoticeQueue) (t : State) :
    ResultCode × State :=
  if isReadCommand c then
    (if 8 * argumentBytes c ≤ totalBits f p.1 then p.1.taken.result else .badLength, t)
  else if totalBits f p.1 = 8 * argumentBytes c then commandBody o c { args := p.1.argBuffer } t
  else (.badLength, t)

theorem exec_frameCommand (s : State) (f : Frame) (o : Order) (n : CommandName) :
    exec (frameCommand f o n) s =
      .next (s.whenRunning fun s => s.frame (some n) f (commandEnd o n f)) := by
  cases n <;> rfl

theorem exec_readCommand {n : CommandName} (hn : isReadCommand n = true) (hs : s.inReset = false) :
    exec (frameCommand f o n) s = .next (s.readFrame n f) := by
  rw [← whenRunning_of_running hs fun s => s.readFrame n f]
  cases n with
  | readStatus | readWindow | readRoles | readLine | readNotice => rfl
  | _ => exact nomatch hn

theorem exec_writeCommand {n : CommandName} (hn : isReadCommand n = false) (hs : s.inReset = false) :
    exec (frameCommand f o n) s = .next (s.writeFrame n f (commandBody o n)) := by
  rw [← whenRunning_of_running hs fun s => s.writeFrame n f (commandBody o n)]
  cases n with
  | readStatus | readWindow | readRoles | readLine | readNotice => exact nomatch hn
  | _ => rfl

theorem exec_badCommand {b : Byte} (hs : s.inReset = false) (hb : commandOfByte b = none) :
    exec (.badCommand b f) s = .next (s.frame none f fun _ t => (.badCommand, t)) := by
  show Host.Outcome.next (s.whenRunning _) = _
  rw [whenRunning_of_running hs, if_pos (by rw [hb]; rfl)]

theorem unread_commandBody (o : Order) (n : CommandName) (f : Frame) : Unread (commandBody o n f) := by
  cases n with
  | readStatus | readWindow | readRoles | readLine | readNotice => exact fun _ _ => rfl
  | writeGeometry => exact unread_onWindow (unread_writeGeometryAt f)
  | writePolicy => exact unread_onWindow (unread_writePolicyAt f)
  | writeRoles => exact unread_writeRolesBody f
  | writeDeviceSettings => exact unread_writeDeviceSettingsBody f o
  | restart => exact unread_restart o
  | load => exact unread_onWindow unread_loadAt
  | arm => exact unread_onWindow unread_armAt
  | publish => exact unread_publishBody f o
  | unpublish => exact unread_unpublishBody f
  | discard => exact unread_onWindow unread_discardAt
  | retire => exact unread_onWindow (unread_retireAt o)
  | drop => exact unread_onWindow (unread_dropAt o)
  | setHold => exact unread_onWindow (unread_setHoldAt f)
  | clearHold => exact unread_onWindow unread_clearHoldAt
  | forceFallback => exact unread_onWindow (unread_forceFallbackAt f)

theorem unread_commandEnd (o : Order) (n : CommandName) (f : Frame) (p : MgmtPort × NoticeQueue) :
    Unread (commandEnd o n f p) := by
  intro s m
  unfold commandEnd
  split
  · rfl
  · split
    · exact unread_commandBody o n _ s m
    · rfl

/-! ### Refused frames -/

theorem readFrame_badLength {n : CommandName} {l : List Byte} {e : Nat} (hs : s.PortFree)
    (h : 8 * l.length + e % 8 < 8 * argumentBytes n) :
    ∃ args tail, s.readFrame n { args := l, extra := e } =
      { s with
        mgmt := portIdle args .badLength
          { bytes := s.statusByte :: List.replicate l.length 0, tail } } := by
  have other : n ≠ .readNotice := fun e => by subst e; exact absurd h (Nat.not_lt_zero _)
  obtain ⟨tail, -, frame⟩ := readFrame_spec hs other l e
  have count : argumentCount (some n) = argumentBytes n := rfl
  have zeros : (List.range l.length).map (fun i =>
      outByte (some n) i (s.takenAfter (some n) l (s.takenAtCommand (some n)))) =
        List.replicate l.length 0 := by
    refine List.ext_getElem (by simp) fun i hi _ => ?_
    rw [List.length_map, List.length_range] at hi
    rw [List.getElem_map, List.getElem_range, outByte, count, if_pos (by omega), List.getElem_replicate]
  rw [if_neg (by omega), zeros] at frame
  exact ⟨_, tail, frame⟩

/-- A write-type frame of its argument bytes whose body refuses: the port alone changes. -/
theorem writeFrame_refuses {n : CommandName} {l : List Byte} {e : Nat} {r : ResultCode}
    {body : Frame → State → ResultCode × State} (hs : s.PortFree) (hn : isReadCommand n = false)
    (h : 8 * l.length + e % 8 = 8 * argumentBytes n) (hb : body { args := l } s = refuse r s) :
    ∃ args tail, s.writeFrame n { args := l, extra := e } body =
      { s with
        mgmt := portIdle args r
          { bytes := s.statusByte :: List.replicate l.length 0, tail } } := by
  obtain ⟨m, tail, bits, args, -, -, frame⟩ := frame_spec hs (not_readNotice hn) l e
    fun p t => if totalBits { args := l, extra := e } p.1 = 8 * argumentBytes n then
      body { args := p.1.argBuffer } t else (.badLength, t)
  have total : totalBits { args := l, extra := e } m = 8 * argumentBytes n := by
    rw [← h, ← bits]
    rfl
  have whole : l.take (argumentCount (some n)) = l := by
    rw [List.take_of_length_le]
    show l.length ≤ argumentBytes n
    omega
  rw [whole] at args frame
  simp only [total, if_true, args, hb, takenAfter_of_write s hn, map_outByte_nothing
    (show Taken.nothing.bytes = [] from rfl)] at frame
  exact ⟨_, tail, frame⟩

/-- The frame of a command that names a window, with a first byte that names none (R147). -/
theorem commandBody_of_lt {n : CommandName} (h : 7 < (frameByte f 0).toNat)
    (hn : n ∈ [CommandName.writeGeometry, .writePolicy, .load, .arm, .discard, .retire, .drop, .setHold,
      .clearHold, .forceFallback]) :
    isReadCommand n = false ∧ commandBody o n f s = refuse .refusedRange s := by
  cases n with
  | writeGeometry | writePolicy | load | arm | discard | retire | drop | setHold | clearHold
  | forceFallback => exact ⟨rfl, onWindow_of_lt h _ s⟩
  | _ => exact absurd hn (by decide)

theorem takenAfter_readWindow_refused {b : Byte} (hb : 7 < b.toNat) (l : List Byte) :
    s.takenAfter (some .readWindow) (b :: l) (s.takenAtCommand (some .readWindow)) = .refused := by
  refine (if_pos ⟨by decide, by simp [argumentCount, argumentBytes]⟩).trans ?_
  show windowTaken b (.records s.windows) = _
  rw [windowTaken, windowOfByte_of_lt hb]

/-! ### Parts of a frame -/

/-- What the port keeps while the bytes of a frame are clocked (R144). -/
structure Keeps (c : Option CommandName) (r : ResultCode) (m : MgmtPort) : Prop where
  inFrame : ∃ n, m.frameState = .inFrame (n + 8)
  command : m.command = c
  result : m.lastResult = r

theorem Keeps.clocked {r : ResultCode} {m : MgmtPort} (h : Keeps c r m) (q : NoticeQueue) (l : List Byte) :
    Keeps c r (l.foldl (s.clockByte c) (m, q)).1 :=
  List.foldlRecOn (motive := fun p : MgmtPort × NoticeQueue => Keeps c r p.1) l (s.clockByte c) h
    fun _ hp _ _ => ⟨⟨_, rfl⟩, hp.command, hp.result⟩

theorem keeps_opened (s : State) (c : Option CommandName) : Keeps c s.mgmt.lastResult (s.opened c) :=
  ⟨⟨0, rfl⟩, rfl, rfl⟩

theorem csFalls_lastResult (m : MgmtPort) (b : Byte) : (m.csFalls b).lastResult = m.lastResult := by
  unfold MgmtPort.csFalls
  split <;> rfl

theorem clocked_lastResult (s : State) (c : Option CommandName) (f : Frame) :
    (s.clocked c f).1.lastResult = s.mgmt.lastResult := by
  have falls := csFalls_lastResult s.mgmt s.statusByte
  have command : (s.clockCommand c (s.mgmt.csFalls s.statusByte)).lastResult = s.mgmt.lastResult := by
    unfold State.clockCommand
    split <;> exact falls
  unfold State.clocked
  dsimp only
  split
  · exact falls
  · exact falls
  · exact List.foldlRecOn
      (motive := fun p : MgmtPort × NoticeQueue => p.1.lastResult = s.mgmt.lastResult) f.args _ command
      fun _ hp _ _ => hp

theorem clocked_notices (s : State) (f : Frame) (hc : c ≠ some .readNotice) :
    (s.clocked c f).2 = s.notices := by
  unfold State.clocked
  dsimp only
  split
  · rfl
  · rfl
  · refine List.foldlRecOn (motive := fun p : MgmtPort × NoticeQueue => p.2 = s.notices) f.args _ rfl
      fun p hp b _ => ?_
    rw [show p = (p.1, p.2) from rfl, clockByte_other s hc]
    exact hp

/-- A part of a frame that does not end it, on a port that takes it. -/
theorem frame_part (ht : s.mgmt.takesPart c = true) (hf : f.till ≠ .csRises) :
    ∃ m : MgmtPort, m.lastResult = s.mgmt.lastResult
      ∧ s.frame c f atEnd = { s with notices := (s.clocked c f).2, mgmt := m } := by
  have result := clocked_lastResult s c f
  rw [State.frame, if_pos ht]
  cases ht : f.till with
  | csRises => exact absurd ht hf
  | csLow => exact ⟨_, result, rfl⟩
  | csFell => exact ⟨_, result, rfl⟩
  | csRisesEarly =>
    refine ⟨(s.clocked c f).1.endedEarly f.extra, ?_, rfl⟩
    unfold MgmtPort.endedEarly
    split <;> exact result

theorem frame_untaken (ht : s.mgmt.takesPart c = false) : s.frame c f atEnd = s := by
  rw [State.frame, if_neg (Bool.eq_false_iff.mp ht)]

/-- A part of another frame than the one the port is in is not taken (R144). -/
theorem takesPart_of_other {n : Nat} (hn : s.mgmt.frameState = .inFrame (n + 1))
    (hc : s.mgmt.command ≠ c) : s.mgmt.takesPart c = false := by
  simp [MgmtPort.takesPart, hn, hc]

theorem part_of_frame {n : CommandName} (hs : s.inReset = false) (hf : f.till ≠ .csRises) :
    ∃ t, exec (frameCommand f o n) s = .next t
      ∧ Only (if n = .readNotice then [.mgmt, .notices] else [.mgmt]) s t
      ∧ t.mgmt.lastResult = s.mgmt.lastResult
      ∧ ∀ k, s.mgmt.frameState = .inFrame (k + 1) → s.mgmt.command ≠ some n → t = s := by
  rw [exec_frameCommand, whenRunning_of_running hs]
  cases ht : s.mgmt.takesPart (some n) with
  | false =>
    rw [frame_untaken ht]
    exact ⟨s, rfl, Only.refl _ s, rfl, fun _ _ _ => rfl⟩
  | true =>
    obtain ⟨m, result, frame⟩ := frame_part (atEnd := commandEnd o n f) ht hf
    rw [frame]
    refine ⟨_, rfl, ?_, result, fun k hk hn => ?_⟩
    · by_cases hn : n = .readNotice
      · rw [if_pos hn]
        exact only_port s _ m
      · rw [if_neg hn, clocked_notices s f fun e => hn (Option.some.inj e)]
        exact only_mgmt s m
    · exact nomatch (takesPart_of_other hk hn).symm.trans ht

/-- A frame clocked in two parts leaves what the whole leaves (R144). -/
theorem frame_in_parts {atEnd₁ : MgmtPort × NoticeQueue → State → ResultCode × State} (hs : s.PortFree)
    (c : Option CommandName) (l m : List Byte) (e : Nat) (hu : ∀ p, Unread (atEnd p)) :
    ∃ t, s.frame c { args := l, till := .csLow } atEnd₁ = t ∧ t.inReset = s.inReset
      ∧ t.frame c { args := m, extra := e } atEnd = s.frame c { args := l ++ m, extra := e } atEnd := by
  obtain ⟨p, hp⟩ : ∃ p, p = l.foldl (s.clockByte c) (s.opened c, s.notices) := ⟨_, rfl⟩
  have clocked : s.clocked c { args := l, till := .csLow } = p :=
    (clocked_of_free hs c _ (.inr rfl)).trans hp.symm
  have kept : Keeps c s.mgmt.lastResult p.1 := hp ▸ (keeps_opened s c).clocked s.notices l
  obtain ⟨k, inFrame⟩ := kept.inFrame
  have part : s.frame c { args := l, till := .csLow } atEnd₁ = { s with notices := p.2, mgmt := p.1 } := by
    rw [frame_goesOn (takesPart_of_free hs c) (.inr rfl), clocked]
  refine ⟨_, part, rfl, ?_⟩
  obtain ⟨t, ht⟩ : ∃ t, t = ({ s with notices := p.2, mgmt := p.1 } : State) := ⟨_, rfl⟩
  have takes : t.mgmt.takesPart c = true := by
    rw [ht, MgmtPort.takesPart, inFrame, kept.command]
    simp
  have goes : t.clocked c { args := m, extra := e } = s.clocked c { args := l ++ m, extra := e } := by
    have bytes : t.clockByte c = s.clockByte c := by rw [ht]; rfl
    rw [clocked_inFrame (n := k + 7) (by rw [ht]; exact inFrame) rfl, bytes,
      clocked_of_free hs c _ (.inl rfl), List.foldl_append, ← hp, ht]
  rw [← ht, frame_ends takes rfl, frame_ends (takesPart_of_free hs c) rfl, goes]
  generalize s.clocked c { args := l ++ m, extra := e } = q
  have port : ({ t with notices := q.2 } : State) = ({ s with notices := q.2 } : State).atPort p.1 := by
    rw [ht]; rfl
  rw [port, hu q]
  rfl

/-- CS goes high before the command byte is complete (R144, R145). -/
theorem frame_endsEarly (hf : f.till = .csRisesEarly) : s.frame c f atEnd =
    if (s.mgmt.csFalls s.statusByte).bits = 0 then
      s.modMgmt fun _ => (s.mgmt.csFalls s.statusByte).ended
        ((bitsOfByte (s.mgmt.csFalls s.statusByte).status).take (f.extra % 8)) s.mgmt.lastResult
    else s := by
  obtain ⟨l, e, till⟩ := f
  obtain rfl : till = .csRisesEarly := hf
  exact frame_early s c e atEnd

/-- A frame that ends early, at a port inside a frame and at one that is not (R144). -/
theorem endsEarly_spec (hf : f.till = .csRisesEarly) :
    (∀ n, s.mgmt.frameState = .inFrame (n + 1) → s.frame c f atEnd = s)
      ∧ ((∀ n, s.mgmt.frameState ≠ .inFrame (n + 1)) →
        ∃ t, s.frame c f atEnd = t ∧ Only [.mgmt] s t ∧ t.mgmt.frameState = .idle
          ∧ t.mgmt.lastResult = s.mgmt.lastResult
          ∧ t.mgmt.sdo.tail = (bitsOfByte (match s.mgmt.frameState with
              | .inFrame _ => s.mgmt.status
              | _ => s.statusByte)).take (f.extra % 8)) := by
  rw [frame_endsEarly hf]
  refine ⟨fun n hn => if_neg ?_, fun h => ⟨_, if_pos ?_, only_mgmt s _, rfl, rfl, ?_⟩⟩
  · simp [MgmtPort.csFalls, MgmtPort.bits, hn]
  · cases hm : s.mgmt.frameState with
    | idle => simp [MgmtPort.csFalls, MgmtPort.bits, hm]
    | waitCsHigh => simp [MgmtPort.csFalls, MgmtPort.bits, hm]
    | inFrame b =>
      cases b with
      | zero => simp [MgmtPort.csFalls, MgmtPort.bits, hm]
      | succ n => exact absurd hm (h n)
  · cases hm : s.mgmt.frameState <;> simp [MgmtPort.ended, MgmtPort.csFalls, hm]

/-- Settles O60. -/
theorem badFramesChangeThePortAlone : Obligations.BadFramesChangeThePortAlone := by
  refine ⟨fun s f o hs hf => ?_, fun s f o n hs hf => part_of_frame hs hf, fun s l m e o hs => ⟨fun n => ?_,
    fun b => ?_⟩, fun s i f o hs hf hi => ?_⟩
  · obtain ⟨l, e, till⟩ := f
    obtain rfl : till = .csRises := hf
    refine ⟨fun n h => ?_, fun b hb => ?_, fun b dummy hb => ?_, fun n hn hl hb => ?_⟩
    · rcases h with ⟨hn, h⟩ | ⟨hn, h⟩
      · obtain ⟨args, tail, frame⟩ := writeFrame_badLength hs hn h (commandBody o n)
        exact ⟨_, (exec_writeCommand hn hs.1).trans (congrArg _ frame), only_mgmt s _, rfl, rfl⟩
      · obtain ⟨args, tail, frame⟩ := readFrame_badLength hs h
        exact ⟨_, (exec_readCommand hn hs.1).trans (congrArg _ frame), only_mgmt s _, rfl, rfl⟩
    · obtain ⟨tail, frame⟩ := badFrame_spec hs l e
      exact ⟨_, (exec_badCommand hs.1 hb).trans (congrArg _ frame), only_mgmt s _, rfl, rfl⟩
    · have answer := readFrame_reports (l := b :: dummy) hs (c := .readWindow) (by decide)
        (by simp [argumentBytes]) (takenAfter_readWindow_refused hb dummy)
      rw [map_outByte_nothing rfl] at answer
      exact ⟨_, answer, only_mgmt s _, rfl, rfl⟩
    · obtain ⟨write, refused⟩ := commandBody_of_lt (f := { args := l }) (o := o) (s := s) hb hn
      obtain ⟨args, tail, frame⟩ := writeFrame_refuses hs write hl refused
      exact ⟨_, (exec_writeCommand write hs.1).trans (congrArg _ frame), only_mgmt s _, rfl, rfl⟩
  · obtain ⟨t, first, running, parts⟩ := frame_in_parts (atEnd₁ := commandEnd o n { args := l, till := .csLow })
      hs (some n) l m e (unread_commandEnd o n { args := m, extra := e })
    refine ⟨t, ?_, ?_⟩
    · rw [exec_frameCommand, whenRunning_of_running hs.1, first]
    · rw [exec_frameCommand, exec_frameCommand, whenRunning_of_running hs.1,
        whenRunning_of_running (running.trans hs.1), parts]
      rfl
  · cases hb : commandOfByte b with
    | none =>
      obtain ⟨t, first, running, parts⟩ := frame_in_parts (atEnd₁ := fun _ t => (.badCommand, t))
        (atEnd := fun _ t => (.badCommand, t)) hs none l m e fun _ _ _ => rfl
      refine ⟨t, by rw [exec_badCommand hs.1 hb, first], ?_⟩
      rw [exec_badCommand hs.1 hb, exec_badCommand (running.trans hs.1) hb, parts]
    | some n =>
      have named (g : Frame) : exec (.badCommand b g) s = .next s := by
        show Host.Outcome.next (s.whenRunning _) = _
        rw [whenRunning_of_running hs.1, if_neg (by rw [hb]; exact Bool.false_ne_true)]
      exact ⟨s, named _, by rw [named, named]⟩
  · have command : ∃ c, ∃ atEnd, exec i s = .next (s.frame c f atEnd) := by
      rcases hi with ⟨n, rfl⟩ | ⟨b, hb, rfl⟩
      · exact ⟨_, _, by rw [exec_frameCommand, whenRunning_of_running hs]⟩
      · exact ⟨_, _, exec_badCommand hs hb⟩
    obtain ⟨c, atEnd, answer⟩ := command
    obtain ⟨inside, outside⟩ := endsEarly_spec (s := s) (c := c) (atEnd := atEnd) hf
    rw [answer]
    refine ⟨fun n hn => by rw [inside n hn], fun h => ?_⟩
    obtain ⟨t, frame, only, idle, result, tail⟩ := outside h
    exact ⟨t, by rw [frame], only, idle, result, tail⟩

end Sys2Proof.Machine

/-! ## The machine, its reset, and the notice records

The step and the edge of REFCLK, RESET_N with every block's reset content and the invariants there, and
the bytes of the notice records (R138, R143, section 9.1, section 11.2). -/

namespace Sys2Proof.Machine

variable {s t : State} {w : WindowId}

/-! ### One step -/

/-- Settles O1. -/
theorem stepRunsTheFrontCommand : Obligations.StepRunsTheFrontCommand := fun _ _ _ => rfl

/-- Settles O2. -/
theorem idleStepIsOneClockEdge : Obligations.IdleStepIsOneClockEdge := by
  intro s hp
  have idle : step s = .next s.refclkEdge := by rw [step, hp]
  rw [idle]
  refine ⟨fun hr => ?_, fun hr h => ⟨s.modLines fun l => { l with edgeCount := l.edgeCount + 1 }, ?_,
    only_modLines s _, rfl⟩, fun hr h => ?_⟩
  · exact congrArg Host.Outcome.next (whenRunning_of_reset hr _)
  · exact congrArg Host.Outcome.next ((whenRunning_of_running hr _).trans (if_neg (by omega)))
  · refine congrArg Host.Outcome.next ?_
    rw [State.refclkEdge, whenRunning_of_running hr, whenRunning_of_running hr, if_pos h]

/-! ### RESET_N -/

theorem win_assertReset (s : State) (w : WindowId) : s.assertReset.win w = Window.reset := by
  fin_cases w <;> rfl

theorem slot_assertReset (s : State) (n : SlotId) : s.assertReset.slot n = none := by
  fin_cases n <;> rfl

/-- Settles O4. -/
theorem resetSetsEveryBlock : Obligations.ResetSetsEveryBlock := by
  refine ⟨fun s => ⟨s.assertReset, rfl, fun w => ?_, fun i => rfl, slot_assertReset s, fun i => ?_,
    fun r w => ?_, rfl, rfl, fun r g => ?_, rfl, rfl, rfl, rfl, rfl, rfl, rfl, rfl, rfl, rfl, rfl⟩,
    fun s levels csLow hr => ?_⟩
  · rw [win_assertReset]
    exact ⟨rfl, rfl, rfl, rfl, rfl, rfl, rfl, rfl, rfl, rfl, rfl, rfl, rfl, rfl, rfl, rfl, rfl, rfl, rfl, rfl,
      rfl⟩
  · simp [State.entry, State.assertReset, State.reset]
  · simp [State.role, State.assertReset, State.reset, rolesReset]
  · simp [HPort.isOutstanding, State.assertReset, HPort.reset]
  · refine ⟨_, congrArg Host.Outcome.next (if_pos hr), fun p hp => ?_, rfl, rfl, rfl⟩
    cases p with
    | mgmt | lines | inReset => exact absurd (by simp) hp
    | windows | roles | lineMap | slots | table | hport | issueQueue | notices | settings | pending => rfl

/-! ### The invariants after reset -/

theorem win_reset (w : WindowId) : State.reset.win w = Window.reset := by
  fin_cases w <;> rfl

theorem slot_reset (n : SlotId) : State.reset.slot n = none := by
  fin_cases n <;> rfl

theorem reset_answersSound : State.reset.AnswersSound where
  places := by decide
  notices := by decide
  pulse := by decide
  account := rfl
  copiesHoldNothing n k h := nomatch (slot_reset n).symm.trans h
  retiringHoldsNothing n k h := nomatch (slot_reset n).symm.trans h
  shown _ h := nomatch h

theorem reset_rangesSound : State.reset.RangesSound := by
  have off (w : WindowId) : (State.reset.win w).state = .off := by rw [win_reset]; rfl
  exact ⟨fun w h => absurd (off w) h, fun v _ _ h => absurd (off v) h, fun v _ _ h => absurd (off v) h,
    fun w h => absurd (off w) h⟩

/-- Settles O5. -/
theorem invariantsHoldAtReset : Obligations.InvariantsHoldAtReset :=
  ⟨⟨rfl, fun _ => nofun⟩, reset_answersSound,
    fun w => by rw [win_reset]; exact State.WindowsSound.reset_sound, reset_rangesSound, reset_countsSound,
    reset_linesSound, rfl⟩

/-! ### The notice records -/

/-- Settles O47: with the presence bits decided by the kind, every record is computed from its table. -/
theorem noticeRecordsAreLaidOut : Obligations.NoticeRecordsAreLaidOut := by
  refine ⟨fun n => length_slotBytes (some n), ?_⟩
  simp only [noticeBytes, noticeFields, Option.isSome_some, Option.isSome_none]
  exact ⟨fun _ _ _ => rfl, fun _ _ => rfl, fun _ _ => rfl, fun _ _ => rfl, fun _ _ => rfl, fun _ => rfl,
    fun _ => rfl, fun _ => rfl, fun _ => rfl, fun _ => rfl, fun _ => rfl, fun _ => rfl, fun _ _ _ => rfl,
    fun _ _ _ => rfl, fun _ _ _ => rfl, fun _ _ => rfl, fun _ _ => rfl, fun _ _ => rfl, fun _ _ => rfl,
    fun _ _ _ => rfl, fun _ _ _ => rfl, fun _ _ _ => rfl, fun _ => rfl, fun _ _ => rfl⟩

/-! ### What every command leaves -/

namespace Move

theorem pending_walkFrom (s : State) (w : WindowId) (i : Nat) : (s.walkFrom w i).pending = s.pending := by
  unfold State.walkFrom
  dsimp only
  split <;> rfl

theorem pending_promptTest (s : State) (w : WindowId) : (s.promptTest w).pending = s.pending := by
  rw [promptTest_eq]
  exact only_changed s w _ .pending (by decide)

theorem pending_evaluateHold (s : State) (w : WindowId) : (s.evaluateHold w).pending = s.pending := by
  unfold State.evaluateHold
  split
  · next c _ =>
    obtain ⟨x, -, e⟩ := becomeActive_eq s w c
    rw [e]
    rfl
  · rfl

/-- No change of the machine touches the queue of the commands that wait. -/
theorem pending (m : Move s t) : t.pending = s.pending := by
  cases m with
  | forwarded r cls w a p hp hi hw => cases w <;> rfl
  | @ended i e he st data => unfold State.endEntry; cases e.window <;> rfl
  | @completed n k hn hk =>
    unfold State.fillComplete State.completeLine
    cases k.held <;> split <;> rfl
  | @failed n k hn hk => cases k.held <;> rfl
  | @copyDone n k hn hk =>
    unfold State.copyDone
    dsimp only
    split
    · exact pending_walkFrom _ _ _
    · rfl
  | copyFailed hn hk =>
    unfold State.copyFailed
    dsimp only
    split
    · exact pending_evaluateHold _ _
    · rfl
  | served hw hn => rw [serveCopyWith_eq]; rfl
  | walked hw => exact pending_walkFrom _ _ _
  | changed hc => exact only_changed _ _ _ .pending (by decide)
  | flipped hc => rw [State.flipAt, takeFlip_eq]; exact pending_promptTest _ _
  | cleared hd => rw [State.clearAt, takeClear_eq]; exact pending_promptTest _ _
  | dropped hn hw => exact only_dropWindows s _ .pending (by decide)
  | channel | answered | filled | accepted | queued | reworked | freed | raised | lines | port | emptied
  | roles | settings | running | geometry | loaded | retired | reset => rfl

end Move

theorem Moves.pending (h : Moves s t) : t.pending = s.pending := by
  induction h with
  | refl => rfl
  | tail _ m ih => exact m.pending.trans ih

/-- While RESET_N is asserted a command that is none of the three named does nothing (R133, R143). -/
theorem exec_inReset {c : Instr} (hs : s.inReset = true) (hr : ∀ r, c ≠ .requestAccepted r)
    (ha : c ≠ .resetAsserted) (hl : ∀ l b, c ≠ .resetReleased l b) : exec c s = .next s := by
  cases c with
  | requestAccepted r => exact absurd rfl (hr r)
  | resetAsserted => exact absurd rfl ha
  | resetReleased l b => exact absurd rfl (hl l b)
  | strayResponseDiscarded => rfl
  | _ => exact congrArg Host.Outcome.next (whenRunning_of_reset hs _)

/-- A command on a slot whose work it does not fit does nothing. -/
theorem onSlot_skips {n : SlotId} {p : SlotWork → Bool} {f : SlotWork → State → State}
    (h : ∀ k, s.slot n = some k → p k = false) : s.onSlot n p f = s := by
  cases hr : s.inReset with
  | true => exact whenRunning_of_reset hr _
  | false =>
    rw [State.onSlot, whenRunning_of_running hr]
    cases hn : s.slot n with
    | none => rfl
    | some k => exact if_neg (Bool.eq_false_iff.mp (h k hn))

/-- Settles O3. -/
theorem execKeepsTheQueue : Obligations.ExecKeepsTheQueue := by
  refine ⟨fun c s => ?_, fun c s hs hr ha hl => exec_inReset hs hr ha hl, fun s n data status o =>
    ⟨fun h => ⟨?_, ?_⟩, fun h => ⟨?_, ?_⟩, fun h => ⟨?_, ?_, ?_⟩, fun h => ?_⟩⟩
  · obtain ⟨t, answer, moves⟩ := exec_moves c s
    exact ⟨t, answer, moves.pending⟩
  all_goals
    refine congrArg Host.Outcome.next (onSlot_skips fun k hk => ?_)
    simp [SlotWork.failsOn, h k hk]

end Sys2Proof.Machine
